-- ==== Sys2Proof/Word.lean ====
section
/-! DEFINITION. The plain data the Huffman codec block handles: bytes, symbols, node ids, bit-strings
and the records of its tables (spec/00_scope.md R7 to R10, spec/30_encoding.md R95, R96). -/

namespace Sys2Proof

/-- One byte of a store (R40): 8 bits, bit 0 the least significant (R9). -/
abbrev Byte := BitVec 8

/-- A symbol: "one byte value (0–255)" (R7, `SYM_W` = 8). -/
abbrev Sym := BitVec 8

/-- A node id: 9 bits (R7, `ID_W`); the arena has the ids 0 to 510 (R42). -/
abbrev NodeId := BitVec 9

/-- The 255 bit positions of a code, of `CAND` or of `PATH` (R10, R39, R46): position `k`, written
`bits⟨k⟩` in the spec, is bit `k` of the vector, `k = 0` being the first bit of the bit-string. -/
abbrev Bits255 := BitVec 255

/-- A record of `CODE` or `DCB` (R95): `valid` (1 bit), `len` (8 bits), `bits` (255 bits). -/
structure CodeEntry where
  valid : Bool
  len   : BitVec 8
  bits  : Bits255
  deriving DecidableEq, Repr, Inhabited

/-- The cleared record: `valid` 0, `len` 0, `bits` 0 (R170, R197). -/
def CodeEntry.cleared : CodeEntry := ⟨false, 0, 0⟩

/-- A `NODE[i]` record as the host reads it (R96): `freq` (32 bits), `left` (9), `right` (9). -/
structure NodeRec where
  freq  : BitVec 32
  left  : NodeId
  right : NodeId
  deriving DecidableEq, Repr, Inhabited

/-- A `WSTK[i]` record (R46, R96): `node` (9 bits), `depth` (8), `edge` (1). -/
structure WalkEntry where
  node  : NodeId
  depth : BitVec 8
  edge  : Bool
  deriving DecidableEq, Repr, Inhabited

/-- The four byte stores (R40). -/
inductive StoreId where
  | inp
  | cb
  | pk
  | out
  deriving DecidableEq, Repr, Inhabited

end Sys2Proof
end

