-- ==== Sys2Proof/Config.lean ====
section
/-! DEFINITION. What is fixed for one block: the fixed parameters of spec/00_scope.md R7, the three OPEN
capacities (held in State as plain data, so that every statement over all states covers every platform),
and the FREE VALUES: opaque constants, one for each thing the spec calls "any value", "unspecified" or
"a draw" (spec/93_implementation_defined.md U1, U4, U5). Nothing in Lean can evaluate a free value. -/

namespace Sys2Proof

/-- The OPEN capacities of R7 and U8: `IN_CAP` 0 to 2^32 − 1, `PK_CAP` and `OUT_CAP` 0 to 2^64 − 1. -/
structure Caps where
  inCap  : BitVec 32
  pkCap  : BitVec 64
  outCap : BitVec 64
  deriving DecidableEq, Repr

/-- The values of R7's last sentence, for "a model that does not care for capacities".
DESIGN CHOICE for the reset state (log 2). -/
def Caps.greatest : Caps :=
  { inCap := 0xFFFFFFFF#32, pkCap := 0xFFFFFFFFFFFFFFFF#64, outCap := 0xFFFFFFFFFFFFFFFF#64 }

namespace Config

/-- `NSYM` (R7): the size of the largest alphabet. -/
def nsym : Nat := 256

/-- `NNODE` (R7): the arena holds the node ids 0 to 510. -/
def nnode : Nat := 511

/-- The entries of `HEAP` (R43) and of `WSTK` (R46). -/
def heapCap : Nat := 256

/-- `CODE_MAX` (R7): the greatest code length in bits. -/
def codeMax : Nat := 255

/-- `CB_CAP` (R7): the capacity of the codebook store in bytes. -/
def cbCap : Nat := 8714

/-- What a store byte that nothing has written since the `epoch`-th reset reads as (R49, U1). FREE VALUE. -/
opaque drawByte : (epoch : Nat) → StoreId → (addr : Nat) → Byte

/-- `FREQ[s]` before anything wrote it (R49, U1). FREE VALUE. -/
opaque drawFreq : (epoch : Nat) → (index : Nat) → BitVec 32

/-- `NODE[i].freq` before anything wrote it (R49, U1). FREE VALUE. -/
opaque drawNodeFreq : (epoch : Nat) → (index : Nat) → BitVec 32

/-- `NODE[i].left` before anything wrote it (R49, U1). FREE VALUE. -/
opaque drawNodeLeft : (epoch : Nat) → (index : Nat) → NodeId

/-- `NODE[i].right` before anything wrote it (R49, U1). FREE VALUE. -/
opaque drawNodeRight : (epoch : Nat) → (index : Nat) → NodeId

/-- `HEAP[i]` before anything wrote it (R49, U1). FREE VALUE. -/
opaque drawHeap : (epoch : Nat) → (index : Nat) → NodeId

/-- `CODE[s]` before anything wrote it (R49, U1). FREE VALUE. -/
opaque drawCode : (epoch : Nat) → (index : Nat) → CodeEntry

/-- `DCB[s]` before anything wrote it (R49, U1). FREE VALUE. -/
opaque drawDcb : (epoch : Nat) → (index : Nat) → CodeEntry

/-- `WSTK[i]` before anything wrote it (R49, U1). FREE VALUE. -/
opaque drawWstk : (epoch : Nat) → (index : Nat) → WalkEntry

/-- A result the spec does not state: what a register or table entry of `w` bits holds after an increment or a sum
that falls outside it (R8, R11; log 10), for the `count`-th free value taken. FREE VALUE. -/
opaque freeResult : (w : Nat) → (count : Nat) → BitVec w

/-- What `HEAP[index]` is read as at an index above 255, where R43 has no entry (log 10), by the operation that runs
when `count` free values have been taken, before it is cut to a node id. FREE VALUE. -/
opaque freeHeapEntry : (count : Nat) → (index : Nat) → Nat

/-- The pops that a walk over an arena without a cycle never exceeds: its paths have at most 255 edges, so at most
2^256 − 1 nodes are popped, each once for every path to it (R172, log 14). -/
def walkFuel : Nat := 2 ^ 256

/-- What the `count`-th unspecified register read while `BUSY = 1` returns, before it is cut to the
register's width (R276 (c), U4). FREE VALUE. -/
opaque freeRegValue : (count : Nat) → BitVec 64

/-- Which pair of the running program's pairs the `count`-th `STATUS` read while `BUSY = 1` shows in
`STEP` and `UOP` (R26, U5). FREE VALUE. -/
opaque freeStatusPick : (count : Nat) → Nat

end Config

end Sys2Proof
end

