-- ==== Sys2Proof/Syntax.lean ====
section
/-! DEFINITION. The instructions: one constructor per row of spec/opcode_table.json, that is, the two
commands a host writes to `CMD` (spec/30_encoding.md R80, R82) and the thirty micro-operations the
sequencer runs (R84). A called micro-operation carries the operand its caller passes. -/

namespace Sys2Proof

/-- One row of the opcode table each. -/
inductive Instr where
  /-- `ENCODE` (R110) -/
  | encode
  /-- `DECODE` (R111) -/
  | decode
  /-- `SEQ.CHKIN` (R117) -/
  | seqChkin
  /-- `SEQ.SKIPEMPTY` (R118) -/
  | seqSkipempty
  /-- `SEQ.CHKPK` (R119) -/
  | seqChkpk
  /-- `SEQ.CHKEMPTYCB` (R120) -/
  | seqChkemptycb
  /-- `SEQ.END` (R116) -/
  | seqEnd
  /-- `FC.CLEAR` (R130) -/
  | fcClear
  /-- `FC.COUNT` (R131) -/
  | fcCount
  /-- `PQ.CLEAR` (R142) -/
  | pqClear
  /-- `PQ.INSERT(n)` (R143): a node id, 9 bits -/
  | pqInsert (n : NodeId)
  /-- `PQ.EXTRACT` (R144): returns a node id -/
  | pqExtract
  /-- `PQ.SIFTUP(i)` (R145): a heap index, 0..255 -/
  | pqSiftup (i : BitVec 8)
  /-- `PQ.SIFTDOWN(i)` (R146): a heap index, 0..255 -/
  | pqSiftdown (i : BitVec 8)
  /-- `TB.LEAVES` (R155) -/
  | tbLeaves
  /-- `TB.MERGE` (R156) -/
  | tbMerge
  /-- `TB.BUILD` (R157) -/
  | tbBuild
  /-- `CW.CLEAR` (R170) -/
  | cwClear
  /-- `CW.WALK` (R171, R172) -/
  | cwWalk
  /-- `BP.INIT` (R181) -/
  | bpInit
  /-- `BP.PUTBIT(b)` (R182): one bit -/
  | bpPutbit (b : Bool)
  /-- `BP.PUTCODE(s)` (R183): a symbol -/
  | bpPutcode (sym : Sym)
  /-- `BP.PACK` (R184) -/
  | bpPack
  /-- `BP.FLUSH` (R185) -/
  | bpFlush
  /-- `CC.SERIALIZE` (R196) -/
  | ccSerialize
  /-- `CC.DESERIALIZE` (R197) -/
  | ccDeserialize
  /-- `CC.CHECK` (R205) -/
  | ccCheck
  /-- `BU.INIT` (R220) -/
  | buInit
  /-- `BU.GETBIT` (R221): returns one bit -/
  | buGetbit
  /-- `DL.LOOKUP` (R223): returns none or a symbol -/
  | dlLookup
  /-- `SQ.EMIT(s)` (R224): a symbol -/
  | sqEmit (sym : Sym)
  /-- `SQ.RUN` (R225) -/
  | sqRun
  deriving DecidableEq, Repr

end Sys2Proof
end

