-- ==== Sys2Proof/WellFormed.lean ====
section
/-! DEFINITION. Which instruction terms the spec admits. The operand types already bound the heap index
(0..255), the symbol and the bit; the node id of `PQ.INSERT` is 9 bits wide but the arena ends at 510
(spec/42_priority_queue.md R143: "0 ≤ n ≤ 510"). -/

namespace Sys2Proof

/-- The operand check of each instruction. -/
def Instr.wellFormed : Instr → Bool
  | .pqInsert n => decide (n.toNat < Config.nnode)
  | .encode | .decode | .seqChkin | .seqSkipempty | .seqChkpk | .seqChkemptycb | .seqEnd
  | .fcClear | .fcCount | .pqClear | .pqExtract | .pqSiftup _ | .pqSiftdown _
  | .tbLeaves | .tbMerge | .tbBuild | .cwClear | .cwWalk
  | .bpInit | .bpPutbit _ | .bpPutcode _ | .bpPack | .bpFlush
  | .ccSerialize | .ccDeserialize | .ccCheck
  | .buInit | .buGetbit | .dlLookup | .sqEmit _ | .sqRun => true

end Sys2Proof
end

