-- ==== Sys2Proof/Decode.lean ====
section
/-! DEFINITION. The encodings of spec/30_encoding.md: the 32-bit command word (R80, R82, R83) and the
8-bit micro-operation id (R84), their decoder and, after it, their encoder.

A command word is written to `CMD`; a micro-operation id is never fetched from a store but selected by
(`CUR_CMD`, `STEP`) or by a call, and its operand is "passed by the caller" and has no bits in the
table. The model carries that operand in a 9-bit argument beside the id, zero where the operation takes
none (DESIGN CHOICE, log 5). -/

namespace Sys2Proof

/-- What a decoder is given: a word for `CMD`, or a micro-operation id with its caller's argument. -/
inductive Code where
  | cmd (w : BitVec 32)
  | uop (id : BitVec 8) (arg : BitVec 9)
  deriving DecidableEq, Repr

/-- Why a word is no instruction. -/
inductive Reject where
  /-- A command word with `rsv ≠ 0`: `BadCommand(2)`, tested first (R83). -/
  | reservedBits
  /-- A command word with `rsv = 0` and an `op` that is neither 0x01 nor 0x02: `BadCommand(1)` (R83). -/
  | unknownOp
  /-- An id outside the table of R84: "never produced". -/
  | unknownUop
  /-- An argument given to an operation that takes none. -/
  | operandForNone
  /-- An argument wider than the operand: a bit, an 8-bit index or an 8-bit symbol. -/
  | operandTooWide
  /-- The argument 511 of `PQ.INSERT`, which is no node id (R143). -/
  | notANodeId
  deriving DecidableEq, Repr

/-- The command decoder (R83): the reserved-bits test comes first. -/
def decodeCmd (w : BitVec 32) : Except Reject Instr :=
  if w.extractLsb' 8 24 ≠ 0#24 then .error .reservedBits
  else if w.extractLsb' 0 8 = 0x01#8 then .ok .encode
  else if w.extractLsb' 0 8 = 0x02#8 then .ok .decode
  else .error .unknownOp

/-- An operation without an operand. -/
def decodePlain (i : Instr) (arg : BitVec 9) : Except Reject Instr :=
  if arg = 0#9 then .ok i else .error .operandForNone

/-- An operation whose operand is 8 bits wide: a heap index or a symbol. -/
def decodeByteArg (f : BitVec 8 → Instr) (arg : BitVec 9) : Except Reject Instr :=
  if arg.toNat < 256 then .ok (f (arg.setWidth 8)) else .error .operandTooWide

/-- The micro-operation decoder (R84), one line per row. -/
def decodeUop (id : BitVec 8) (arg : BitVec 9) : Except Reject Instr :=
  match id.toNat with
  | 0x04 => decodePlain .seqChkin arg
  | 0x05 => decodePlain .seqSkipempty arg
  | 0x06 => decodePlain .seqChkpk arg
  | 0x07 => decodePlain .seqChkemptycb arg
  | 0x08 => decodePlain .seqEnd arg
  | 0x10 => decodePlain .fcClear arg
  | 0x11 => decodePlain .fcCount arg
  | 0x20 => decodePlain .pqClear arg
  | 0x21 => if arg.toNat < Config.nnode then .ok (.pqInsert arg) else .error .notANodeId
  | 0x22 => decodePlain .pqExtract arg
  | 0x23 => decodeByteArg .pqSiftup arg
  | 0x24 => decodeByteArg .pqSiftdown arg
  | 0x30 => decodePlain .tbLeaves arg
  | 0x31 => decodePlain .tbMerge arg
  | 0x32 => decodePlain .tbBuild arg
  | 0x40 => decodePlain .cwClear arg
  | 0x41 => decodePlain .cwWalk arg
  | 0x50 => decodePlain .bpInit arg
  | 0x51 => if arg.toNat < 2 then .ok (.bpPutbit (arg = 1#9)) else .error .operandTooWide
  | 0x52 => decodeByteArg .bpPutcode arg
  | 0x53 => decodePlain .bpPack arg
  | 0x54 => decodePlain .bpFlush arg
  | 0x60 => decodePlain .ccSerialize arg
  | 0x61 => decodePlain .ccDeserialize arg
  | 0x62 => decodePlain .ccCheck arg
  | 0x70 => decodePlain .buInit arg
  | 0x71 => decodePlain .buGetbit arg
  | 0x72 => decodePlain .dlLookup arg
  | 0x73 => decodeByteArg .sqEmit arg
  | 0x74 => decodePlain .sqRun arg
  | _ => .error .unknownUop

/-- The whole decoder: total, rejecting by name. -/
def decode : Code → Except Reject Instr
  | .cmd w => decodeCmd w
  | .uop id arg => decodeUop id arg

/-! The encoder, written from the same tables (R82, R84). -/

/-- The words of an instruction. -/
def encode : Instr → Code
  | .encode => .cmd 0x00000001#32
  | .decode => .cmd 0x00000002#32
  | .seqChkin => .uop 0x04#8 0
  | .seqSkipempty => .uop 0x05#8 0
  | .seqChkpk => .uop 0x06#8 0
  | .seqChkemptycb => .uop 0x07#8 0
  | .seqEnd => .uop 0x08#8 0
  | .fcClear => .uop 0x10#8 0
  | .fcCount => .uop 0x11#8 0
  | .pqClear => .uop 0x20#8 0
  | .pqInsert n => .uop 0x21#8 n
  | .pqExtract => .uop 0x22#8 0
  | .pqSiftup i => .uop 0x23#8 (i.setWidth 9)
  | .pqSiftdown i => .uop 0x24#8 (i.setWidth 9)
  | .tbLeaves => .uop 0x30#8 0
  | .tbMerge => .uop 0x31#8 0
  | .tbBuild => .uop 0x32#8 0
  | .cwClear => .uop 0x40#8 0
  | .cwWalk => .uop 0x41#8 0
  | .bpInit => .uop 0x50#8 0
  | .bpPutbit b => .uop 0x51#8 (if b then 1#9 else 0#9)
  | .bpPutcode sym => .uop 0x52#8 (sym.setWidth 9)
  | .bpPack => .uop 0x53#8 0
  | .bpFlush => .uop 0x54#8 0
  | .ccSerialize => .uop 0x60#8 0
  | .ccDeserialize => .uop 0x61#8 0
  | .ccCheck => .uop 0x62#8 0
  | .buInit => .uop 0x70#8 0
  | .buGetbit => .uop 0x71#8 0
  | .dlLookup => .uop 0x72#8 0
  | .sqEmit sym => .uop 0x73#8 (sym.setWidth 9)
  | .sqRun => .uop 0x74#8 0

/-- The kinds of R84. -/
inductive Kind where
  /-- A word the host writes to `CMD`. -/
  | command
  /-- Started by the sequencer from a program position. -/
  | stepOp
  /-- Runs "only when another micro-operation calls" it. -/
  | calledOp
  deriving DecidableEq, Repr

/-- The column "kind" of R84's table. -/
def Instr.kind : Instr → Kind
  | .encode | .decode => .command
  | .pqInsert _ | .pqExtract | .pqSiftup _ | .pqSiftdown _ | .tbMerge
  | .bpPutbit _ | .bpPutcode _ | .buGetbit | .dlLookup | .sqEmit _ => .calledOp
  | .seqChkin | .seqSkipempty | .seqChkpk | .seqChkemptycb | .seqEnd
  | .fcClear | .fcCount | .pqClear | .tbLeaves | .tbBuild | .cwClear | .cwWalk
  | .bpInit | .bpPack | .bpFlush | .ccSerialize | .ccDeserialize | .ccCheck
  | .buInit | .sqRun => .stepOp

/-- The instruction the decoder reads from a word numbered as spec/opcode_table.json numbers it: the
table gives a command 32 bits and a micro-operation 8, and its operand none, so the operand is 0. -/
def decodeTableWord (nbits w : Nat) : Option Instr :=
  let code := if nbits = 32 then Code.cmd (BitVec.ofNat 32 w) else Code.uop (BitVec.ofNat 8 w) 0
  if (nbits = 32 || nbits = 8) && decide (w < 2 ^ nbits) then
    match decode code with
    | .ok i => some i
    | .error _ => none
  else none

end Sys2Proof
end

