-- ==== Sys2Proof/Machine/State.lean ====
section
/-! DEFINITION. The state of one block as plain data (spec/10_state.md R20 to R51): registers, flags, error
registers, working registers, tables, byte stores, the platform's capacities, and the model's own fields
(the pending turns of host and block, the replies, the free-value counters, the result of a called
micro-operation). The reset state is R49 and R270. -/

namespace Sys2Proof.Machine

/-- Why the machine stops with a fault: an access to an entry or a byte that the spec says does not exist.
No command reaches one from an idle block (R67, R148, R174). Safe: the spec gives no effect there. -/
inductive Fault where
  /-- Raised by the block's byte accesses at an address at or above the store's capacity (R67, R47). Safe. -/
  | noSuchByte (store : StoreId)
  /-- Raised by `PQ.LESS`, `PQ.INSERT`, `TB.MERGE` and `CW.WALK` for the node id 511: the arena has the
  entries 0 to 510 (R42). Safe. -/
  | noSuchNode
  /-- Raised by `CW.WALK` when it pushes a 257th entry: `WSTK` has 256 (R46). A path of at most 255 edges never
  needs one (R174), so no state reaches it. Safe. -/
  | noSuchStackEntry
  deriving DecidableEq, Repr

/-- Why the model refuses: no meaning is given, by the spec's own words, for what is asked. -/
inductive Refusal where
  /-- Raised by an arm of `exec` for an instruction that has no meaning yet (none is left). Safe. -/
  | notModelled (mnemonic : String)
  /-- Raised by `PQ.EXTRACT` with `HEAP_SIZE = 0` (U7). Safe. -/
  | heapEmpty
  /-- Raised by `PQ.INSERT` with `HEAP_SIZE ≥ 256` (U7). Safe. -/
  | heapFull
  /-- Raised by `PQ.SIFTUP(i)` and `PQ.SIFTDOWN(i)` with `i ≥ HEAP_SIZE` (U7). Safe. -/
  | indexNotLive
  /-- Raised by `TB.MERGE` with `HEAP_SIZE < 2` (U7). Safe. -/
  | tooFewNodes
  /-- Raised by `BP.PUTBIT` with `ACC_N ≥ 8` (U7). Safe. -/
  | accumulatorFull
  /-- Raised by `BP.PUTCODE(s)` with `CODE[s].valid = 0` (U7). Safe. -/
  | noCode
  /-- Raised by `BU.GETBIT` with `BITPOS ≥ 8 × PK_LEN` (U7). Safe. -/
  | pastPackedData
  /-- Raised by `CW.WALK` when it would push a node at depth 256: the arena has 255 internal nodes, so a path that
  long repeats one, and the loop of R172, which R281 bounds for a tree only, never ends. Safe. -/
  | notATree
  /-- Raised by the sequencer where the program of `CUR_CMD` has no position `STEP` (R113, R114). Safe. -/
  | noProgramPosition
  /-- Raised by a call of an id that decodes to no called micro-operation (R84). Safe. -/
  | notACalledUop
  /-- Raised by a host access to a store or debug space while `BUSY = 1`, that is, inside the window of R276 (U3,
  log 11). Safe. -/
  | hostAccessWhileBusy
  /-- Raised by a host access with an index outside the space's range, or a space above 9 (U6). Safe. -/
  | hostIndexOutOfRange
  deriving DecidableEq, Repr

/-- The two primitives of R47, and the one reset action of R270. -/
inductive HostAction where
  /-- `HostRead(space, index)` -/
  | read (space index : Nat)
  /-- `HostWrite(space, index, value)` -/
  | write (space index : Nat) (value : BitVec 64)
  /-- the action `reset` -/
  | reset
  deriving DecidableEq, Repr

/-- Who moves next (R6: the block and the host). -/
inductive Turn where
  /-- The host acts. -/
  | host (a : HostAction)
  /-- The block takes one step of its program, if a command is in execution. -/
  | block
  /-- `WAIT` of R100: the block runs until `BUSY = 0`, then the host reads `STATUS`. -/
  | wait
  /-- A called micro-operation as a transition of its own (U7), with its caller's argument. -/
  | call (id : BitVec 8) (arg : BitVec 9)
  deriving DecidableEq, Repr

/-- What a host read returns, in the unit of its space (R47). -/
inductive HostData where
  | reg (v : BitVec 64)
  | byte (v : Byte)
  | count (v : BitVec 32)
  | node (v : NodeRec)
  | code (v : CodeEntry)
  | heapId (v : NodeId)
  deriving DecidableEq, Repr

/-- One answered host read. -/
structure Reply where
  space : Nat
  index : Nat
  data  : HostData
  deriving DecidableEq, Repr

/-- What a called micro-operation handed back (R144, R221, R223). -/
inductive UopResult where
  | none
  | node (id : NodeId)
  | bit (b : Bool)
  | symbol (sym : Option Sym)
  deriving DecidableEq, Repr

/-- The whole state. A table or store is a list of (index, entry) pairs with strictly rising indexes; an
index not listed has not been written since reset and reads as its free value (log 3, log 4). -/
structure State where
  /-- `CUR_CMD` (R24) -/
  curCmd    : BitVec 2
  /-- `STEP` (R24) -/
  step      : BitVec 4
  /-- `UOP` (R25) -/
  uop       : BitVec 8
  /-- `BUSY` (R26) -/
  busy      : Bool
  /-- `DONE` (R26) -/
  done      : Bool
  /-- `ERR` (R26) -/
  err       : Bool
  /-- the block owns all state: the window of R276, from the `CMD` write that starts a command until the first
  `STATUS` read that returns `BUSY = 0` (log 11) -/
  owned     : Bool
  /-- `ERRCODE` (R27) -/
  errCode   : BitVec 4
  /-- `ERRSUB` (R27) -/
  errSub    : BitVec 8
  /-- `IN_LEN` (R28) -/
  inLen     : BitVec 32
  /-- `CB_LEN` (R29) -/
  cbLen     : BitVec 32
  /-- `PK_LEN` (R30) -/
  pkLen     : BitVec 64
  /-- `OUT_LEN` (R31) -/
  outLen    : BitVec 64
  /-- `TOTAL_BITS` (R32) -/
  totalBits : BitVec 64
  /-- `ROOT` (R33) -/
  root      : NodeId
  /-- `NEXT_ID` (R34) -/
  nextId    : BitVec 9
  /-- `HEAP_SIZE` (R35) -/
  heapSize  : BitVec 9
  /-- `DCB_CNT` (R36) -/
  dcbCnt    : BitVec 9
  /-- `BITPOS` (R37) -/
  bitPos    : BitVec 64
  /-- `ACC` (R38) -/
  acc       : BitVec 8
  /-- `ACC_N` (R38) -/
  accN      : BitVec 4
  /-- `CAND` (R39) -/
  cand      : Bits255
  /-- `CAND_LEN` (R39) -/
  candLen   : BitVec 8
  /-- `WSP` (R46) -/
  wsp       : BitVec 9
  /-- `PATH` (R46) -/
  path      : Bits255
  /-- `WSTK[0 .. 255]` (R46) -/
  wstk      : List (Nat × WalkEntry)
  /-- `FREQ[0 .. 255]` (R41) -/
  freq      : List (Nat × BitVec 32)
  /-- `NODE[0 .. 510].freq` (R42) -/
  nodeFreq  : List (Nat × BitVec 32)
  /-- `NODE[0 .. 510].left` (R42) -/
  nodeLeft  : List (Nat × NodeId)
  /-- `NODE[0 .. 510].right` (R42) -/
  nodeRight : List (Nat × NodeId)
  /-- `HEAP[0 .. 255]` (R43) -/
  heap      : List (Nat × NodeId)
  /-- `CODE[0 .. 255]` (R44) -/
  code      : List (Nat × CodeEntry)
  /-- `DCB[0 .. 255]` (R45) -/
  dcb       : List (Nat × CodeEntry)
  /-- the store `IN` (R40) -/
  inStore   : List Host.Cell
  /-- the store `CB` (R40) -/
  cbStore   : List Host.Cell
  /-- the store `PK` (R40) -/
  pkStore   : List Host.Cell
  /-- the store `OUT` (R40) -/
  outStore  : List Host.Cell
  /-- the platform's capacities (R7, U8); no step changes them -/
  caps      : Caps
  /-- MODEL'S OWN: how many resets came before, the argument of the reset draws (U1) -/
  epoch     : Nat
  /-- MODEL'S OWN: how many free values have been taken, by host reads (U4, U5) and by results that the spec does
  not state (log 10) -/
  freeCount : Nat
  /-- MODEL'S OWN: what is to happen next, in order -/
  turns     : List Turn
  /-- MODEL'S OWN: the answers to host reads so far, oldest first -/
  replies   : List Reply
  /-- MODEL'S OWN: what the last called micro-operation with a result returned -/
  result    : UopResult
  deriving DecidableEq, Repr

/-- The state after the `epoch`-th reset of a block on a platform (R49, R270): every numbered register and
every listed working register 0; stores and tables hold nothing written, so that each byte and entry is
its free value. `result` is the model's own (DESIGN CHOICE, log 6). -/
def State.afterReset (caps : Caps) (epoch : Nat) : State :=
  { curCmd := 0, step := 0, uop := 0, busy := false, done := false, err := false, owned := false,
    errCode := 0, errSub := 0,
    inLen := 0, cbLen := 0, pkLen := 0, outLen := 0, totalBits := 0, root := 0, nextId := 0, heapSize := 0,
    dcbCnt := 0, bitPos := 0, acc := 0, accN := 0, cand := 0, candLen := 0, wsp := 0, path := 0,
    wstk := [], freq := [], nodeFreq := [], nodeLeft := [], nodeRight := [], heap := [], code := [], dcb := [],
    inStore := [], cbStore := [], pkStore := [], outStore := [],
    caps := caps, epoch := epoch, freeCount := 0, turns := [], replies := [], result := .none }

/-- The machine right after reset, with the capacities at their greatest values (log 2). -/
def State.reset : State := State.afterReset Caps.greatest 0

end Sys2Proof.Machine
end

