-- ==== Sys2Proof/Machine/Ops.lean ====
section
/-! DEFINITION. The named operations every meaning is built from: how an operation ends, sparse tables, the
byte stores with `MemRead` and `MemWrite` (spec/20_memory.md R60 to R67), writes of a value to a register
(R11), command issue's `start` (R115), and taking an error (spec/60_exceptions.md R250). There is no return
from an error (R251): the next command issue clears it. -/

namespace Sys2Proof.Machine

/-! ### How an operation ends early -/

/-- What ends an operation before its pseudocode does. -/
inductive Stop where
  /-- `raise`: the command ended in this state (R250). -/
  | raised (t : State)
  | fault (r : Fault)
  | refused (r : Refusal)
  deriving Repr

/-- The result of an operation inside a micro-operation. -/
abbrev Res (α : Type) := Except Stop α

/-- The outcome of a micro-operation: a raised error is a next state like any other. -/
def finish (r : Res State) : Host.Outcome State Fault Refusal :=
  match r with
  | .ok t => .next t
  | .error (.raised t) => .next t
  | .error (.fault f) => .fault f
  | .error (.refused f) => .refused f

/-- The outcome of a micro-operation that returns a value to its caller (R144, R221): run on its own, the
value goes to the model's `result` (log 6). -/
def finishWith {α : Type} (f : α → UopResult) (r : Res (α × State)) : Host.Outcome State Fault Refusal :=
  finish (match r with
    | .ok (a, t) => .ok { t with result := f a }
    | .error e => .error e)

/-! ### Sparse tables -/

/-- The entry listed at index `k`, if any. -/
def cellGet {α : Type} (k : Nat) : List (Nat × α) → Option α
  | [] => none
  | c :: r => if c.1 = k then some c.2 else cellGet k r

/-- Write entry `k`, keeping the indexes strictly rising. -/
def cellSet {α : Type} (k : Nat) (v : α) : List (Nat × α) → List (Nat × α)
  | [] => [(k, v)]
  | c :: r => if k < c.1 then (k, v) :: c :: r else if k = c.1 then (k, v) :: r else c :: cellSet k v r

/-- A table whose entries 0 to `n − 1` all hold `v`: what "for s in 0..n-1: x[s] <- v" leaves. -/
def cellFill {α : Type} (n : Nat) (v : α) : List (Nat × α) :=
  (List.range n).map fun k => (k, v)

/-- The canonical form of a table or store: strictly rising indexes, all below `bound`. An unlisted index
has no value of its own, so no listed entry can equal it (log 4). -/
def cellsWf {α : Type} (bound : Nat) : List (Nat × α) → Bool
  | [] => true
  | [c] => decide (c.1 < bound)
  | c :: d :: r => decide (c.1 < d.1) && cellsWf bound (d :: r)

/-- The canonical form of a byte store of capacity `cap`. -/
abbrev Memory.wf (cap : Nat) (m : List Host.Cell) : Bool := cellsWf cap m

/-! ### The byte stores -/

/-- The capacity of a store (R40, R7). -/
def State.capacity (s : State) : StoreId → Nat
  | .inp => s.caps.inCap.toNat
  | .cb => Config.cbCap
  | .pk => s.caps.pkCap.toNat
  | .out => s.caps.outCap.toNat

/-- The written bytes of a store. -/
def State.store (s : State) : StoreId → List Host.Cell
  | .inp => s.inStore
  | .cb => s.cbStore
  | .pk => s.pkStore
  | .out => s.outStore

/-- Replace the written bytes of a store. -/
def State.setStore (s : State) (S : StoreId) (m : List Host.Cell) : State :=
  match S with
  | .inp => { s with inStore := m }
  | .cb => { s with cbStore := m }
  | .pk => { s with pkStore := m }
  | .out => { s with outStore := m }

/-- What a store byte that nothing has written since reset reads as: the ONE definition of it (U1, log 3). -/
def unwrittenByte (epoch : Nat) (S : StoreId) (a : Nat) : Byte := Config.drawByte epoch S a

/-- The byte at an address (R66): the last value written there, or the reset draw. -/
def State.byteAt (s : State) (S : StoreId) (a : Nat) : Byte :=
  (cellGet a (s.store S)).getD (unwrittenByte s.epoch S a)

/-- One byte access for reading; the address must exist. -/
def readByte (S : StoreId) (a : Nat) (s : State) : Res Byte :=
  if a < s.capacity S then .ok (s.byteAt S a) else .error (.fault (.noSuchByte S))

/-- One byte access for writing; the address must exist. -/
def writeByte (S : StoreId) (a : Nat) (v : Byte) (s : State) : Res State :=
  if a < s.capacity S then .ok (s.setStore S (cellSet a v (s.store S))) else .error (.fault (.noSuchByte S))

/-- The bytes at addresses `a` to `a + n − 1`, in that order. -/
def readBytes (S : StoreId) (a : Nat) : Nat → State → Res (List Byte)
  | 0, _ => .ok []
  | n + 1, s => do
    let b ← readByte S a s
    let r ← readBytes S (a + 1) n s
    .ok (b :: r)

/-- Write bytes at `a`, `a + 1`, and so on, in that order. -/
def writeBytes (S : StoreId) (a : Nat) : List Byte → State → Res State
  | [], s => .ok s
  | b :: r, s => do
    let t ← writeByte S a b s
    writeBytes S (a + 1) r t

/-- The number whose big-endian image a byte list is: the first byte is the most significant (R60, R62). -/
def beValue : List Byte → Nat
  | [] => 0
  | b :: r => b.toNat * 256 ^ r.length + beValue r

/-- The `n`-byte big-endian image of `v`: byte `j` is `v[8(n − j) − 1 : 8(n − j − 1)]` (R60). -/
def beBytes : Nat → Nat → List Byte
  | 0, _ => []
  | n + 1, v => BitVec.ofNat 8 (v / 256 ^ n) :: beBytes n v

/-- `MemRead(S, a, n)` (R60). -/
def memRead (S : StoreId) (a n : Nat) (s : State) : Res Nat := do
  let bs ← readBytes S a n s
  .ok (beValue bs)

/-- `MemWrite(S, a, n, v)` (R60). -/
def memWrite (S : StoreId) (a n v : Nat) (s : State) : Res State :=
  writeBytes S a (beBytes n v) s

/-! ### Writing a register -/

/-- Take one free value. -/
def takeFree (s : State) : State := { s with freeCount := s.freeCount + 1 }

/-- What a register or entry of `w` bits holds after `v` is written to it. R11 says that `v` must fit and R8 that
nothing wraps, and the rules prove that it fits in a command; where it does not fit the spec states no result, and
the operation goes on with a FREE VALUE in that one place (DESIGN CHOICE, log 10). -/
def fitOrFree (w v : Nat) (s : State) : BitVec w :=
  if v < 2 ^ w then BitVec.ofNat w v else Config.freeResult w s.freeCount

/-- The free value that `fitOrFree` may have taken is taken. -/
def countFree (w v : Nat) (s : State) : State := if v < 2 ^ w then s else takeFree s

/-! ### Errors -/

/-- The error kinds of R241. -/
inductive ErrKind where
  | invalidInput
  | corruptCodebook
  | truncatedStream
  | badCommand
  | storeOverflow
  deriving DecidableEq, Repr

/-- `code(E)` (R241). -/
def errKindCode : ErrKind → BitVec 4
  | .invalidInput => 1
  | .corruptCodebook => 2
  | .truncatedStream => 3
  | .badCommand => 4
  | .storeOverflow => 5

/-- Taking an error inside a program (R250): the code and sub-cause are recorded, `ERR` and `DONE` set,
`BUSY` cleared; an `ENCODE` hands over no codebook and no packed bytes, a `DECODE` no output. `STEP`, `UOP`,
`CUR_CMD` and everything else stay. Nothing is vectored: there is no handler. -/
def errorEntry (e : ErrKind) (sub : BitVec 8) (s : State) : State :=
  { s with
    errCode := errKindCode e
    errSub := sub
    err := true
    done := true
    busy := false
    cbLen := if s.curCmd = 1#2 then 0 else s.cbLen
    pkLen := if s.curCmd = 1#2 then 0 else s.pkLen
    outLen := if s.curCmd = 2#2 then 0 else s.outLen }

/-- `raise E(sub)` (R11, R250): nothing after it in the pseudocode executes. -/
def raise {α : Type} (e : ErrKind) (sub : BitVec 8) (s : State) : Res α :=
  .error (.raised (errorEntry e sub s))

/-- The illegal-word arm of command issue (R115, R244): `BadCommand` changes these five items and nothing
else, so it does not go through `errorEntry`. -/
def badCommand (sub : BitVec 8) (s : State) : State :=
  { s with done := true, err := true, errCode := errKindCode .badCommand, errSub := sub, uop := 0 }

/-- `start(c)` of R115; it opens the window of R276. -/
def startCommand (c : BitVec 2) (s : State) : State :=
  { s with owned := true, busy := true, done := false, err := false, errCode := 0, errSub := 0, curCmd := c, step := 0 }

/-- `call OP` of R11 for an operation that may raise: `UOP` holds the callee's id until the callee finishes
and then the caller's id again; a `raise` leaves it (R25). An operation that cannot raise leaves `UOP` as it
was on every path, and no step of the model ends inside it. -/
def callUop (id : BitVec 8) (f : State → Res State) (s : State) : Res State := do
  let t ← f { s with uop := id }
  .ok { t with uop := s.uop }

end Sys2Proof.Machine
end

