-- ==== Sys2Proof/Machine/Operands.lean ====
section
/-! DEFINITION. Operand forms: bit-strings held in 255-bit fields (spec/00_scope.md R10), bits inside bytes
(spec/20_memory.md R61), codes as bytes (spec/30_encoding.md R91), and the entries of the tables
(spec/10_state.md R41 to R46). -/

namespace Sys2Proof.Machine

/-! ### Bit-strings -/

/-- `v⟨k⟩`: position `k` of a 255-bit field (R10). -/
def bitAt (v : Bits255) (k : Nat) : Bool := v.getLsbD k

/-- `v⟨k⟩ <- b`. -/
def putBit (v : Bits255) (k : Nat) (b : Bool) : Bits255 :=
  if b then v ||| (1#255 <<< k) else v &&& ~~~(1#255 <<< k)

/-- The field with `f k` at each position `k < n` and 0 above. -/
def bitsOf (n : Nat) (f : Nat → Bool) : Bits255 :=
  (List.range n).foldl (fun v k => putBit v k (f k)) 0

/-- The bit-string of a record: `bits⟨0⟩ ... bits⟨len − 1⟩` (R95). -/
def codeString (e : CodeEntry) : List Bool :=
  (List.range e.len.toNat).map (bitAt e.bits)

/-- A record as R95 has it: `bits⟨k⟩ = 0` for `k ≥ len`, and an invalid record has length 0. -/
def codeCanonical (e : CodeEntry) : Bool :=
  decide (e.bits = bitsOf e.len.toNat (bitAt e.bits)) && (e.valid || decide (e.len = 0#8))

/-- `isPrefix(a, b)` on the strings of two records (R10). -/
def entryIsPrefix (a b : CodeEntry) : Bool :=
  decide (a.len.toNat ≤ b.len.toNat) && (List.range a.len.toNat).all fun k => bitAt a.bits k == bitAt b.bits k

/-- One of two keys is a prefix of the other (R205). -/
def entriesClash (a b : CodeEntry) : Bool := entryIsPrefix a b || entryIsPrefix b a

/-! ### Bits and bytes, most significant bit first (R61) -/

/-- Bit `p` of a byte sequence: bit `7 − (p mod 8)` of the byte at `p / 8`. -/
def bytesBit (bs : List Byte) (p : Nat) : Bool := (bs.getD (p / 8) 0).getLsbD (7 - p % 8)

/-- `ceil(n / 8)`. -/
def bytesFor (n : Nat) : Nat := (n + 7) / 8

/-- The byte whose bit `7 − t` is `f t`. -/
def byteOfBits (f : Nat → Bool) : Byte :=
  BitVec.ofNat 8 ((List.range 8).foldl (fun acc t => 2 * acc + (f t).toNat) 0)

/-- The code bytes of a record, the last one padded with zeros (R91). -/
def codeBytes (e : CodeEntry) : List Byte :=
  (List.range (bytesFor e.len.toNat)).map fun j =>
    byteOfBits fun t => decide (8 * j + t < e.len.toNat) && bitAt e.bits (8 * j + t)

/-- One serialized entry: length byte, code bytes, symbol (R91). -/
def entryBytes (e : CodeEntry) (sym : Sym) : List Byte := e.len :: codeBytes e ++ [sym]

/-- The bit-string of length `n` at the head of a byte sequence, as a field (R91, R197). -/
def bitsOfBytes (n : Nat) (bs : List Byte) : Bits255 := bitsOf n (bytesBit bs)

/-- A pad bit of the last code byte is 1: some position from `n` to the end of the bytes (R91, R202). -/
def padBitSet (n : Nat) (bs : List Byte) : Bool :=
  (List.range (8 * bs.length - n)).any fun k => bytesBit bs (n + k)

/-! ### Table entries; an entry nothing has written reads as its draw (U1) -/

/-- `FREQ[k]` (R41). -/
def State.freqAt (s : State) (k : Nat) : BitVec 32 := (cellGet k s.freq).getD (Config.drawFreq s.epoch k)

/-- `CODE[k]` (R44). -/
def State.codeAt (s : State) (k : Nat) : CodeEntry := (cellGet k s.code).getD (Config.drawCode s.epoch k)

/-- `DCB[k]` (R45). -/
def State.dcbAt (s : State) (k : Nat) : CodeEntry := (cellGet k s.dcb).getD (Config.drawDcb s.epoch k)

/-- `HEAP[k]` (R43). -/
def State.heapAt (s : State) (k : Nat) : NodeId := (cellGet k s.heap).getD (Config.drawHeap s.epoch k)

/-- `WSTK[k]` (R46). -/
def State.wstkAt (s : State) (k : Nat) : WalkEntry := (cellGet k s.wstk).getD (Config.drawWstk s.epoch k)

/-- `NODE[k].freq` (R42). -/
def State.nodeFreqAt (s : State) (k : Nat) : BitVec 32 :=
  (cellGet k s.nodeFreq).getD (Config.drawNodeFreq s.epoch k)

/-- `NODE[k].left` (R42). -/
def State.nodeLeftAt (s : State) (k : Nat) : NodeId :=
  (cellGet k s.nodeLeft).getD (Config.drawNodeLeft s.epoch k)

/-- `NODE[k].right` (R42). -/
def State.nodeRightAt (s : State) (k : Nat) : NodeId :=
  (cellGet k s.nodeRight).getD (Config.drawNodeRight s.epoch k)

/-- `NODE[k]` as one record (R96). -/
def State.nodeAt (s : State) (k : Nat) : NodeRec := ⟨s.nodeFreqAt k, s.nodeLeftAt k, s.nodeRightAt k⟩

/-- `HEAP[k] <- n`. -/
def State.setHeap (s : State) (k : Nat) (n : NodeId) : State := { s with heap := cellSet k n s.heap }

/-- `NODE[k].freq <- v`. -/
def State.setNodeFreq (s : State) (k : Nat) (v : BitVec 32) : State :=
  { s with nodeFreq := cellSet k v s.nodeFreq }

/-- `CODE[k] <- e`. -/
def State.setCode (s : State) (k : Nat) (e : CodeEntry) : State := { s with code := cellSet k e s.code }

/-- `DCB[k] <- e`. -/
def State.setDcb (s : State) (k : Nat) (e : CodeEntry) : State := { s with dcb := cellSet k e s.dcb }

/-- `NODE[k] <- (f, l, r)`. -/
def State.setNode (s : State) (k : Nat) (f : BitVec 32) (l r : NodeId) : State :=
  { s with
    nodeFreq := cellSet k f s.nodeFreq
    nodeLeft := cellSet k l s.nodeLeft
    nodeRight := cellSet k r s.nodeRight }

/-- A node id as an index of the arena, which has the entries 0 to 510 (R42). -/
def nodeIndex (n : NodeId) : Res Nat :=
  if n.toNat < Config.nnode then .ok n.toNat else .error (.fault .noSuchNode)

/-- Swap `HEAP[i]` and `HEAP[j]` (R145, R146). -/
def State.swapHeap (s : State) (i j : Nat) : State :=
  (s.setHeap i (s.heapAt j)).setHeap j (s.heapAt i)

/-- `HEAP[k]` for an index below a `HEAP_SIZE` that may be above 256, which R35 rules out: an index above 255 has no
entry, and the read gives a FREE VALUE among the node ids, which is what `HEAP` holds (R43). DESIGN CHOICE (log 10). -/
def State.heapEntry (s : State) (k : Nat) : NodeId :=
  if k < Config.heapCap then s.heapAt k
  else BitVec.ofNat 9 (Config.freeHeapEntry s.freeCount k % Config.nnode)

/-- The free values that reads of `HEAP` up to index `k` may have taken are taken. -/
def countEntry (k : Nat) (s : State) : State := if k < Config.heapCap then s else takeFree s

/-- The symbols with a valid `CODE` entry, ascending (R196). -/
def validSymbols (s : State) : List Nat := (List.range Config.nsym).filter fun k => (s.codeAt k).valid

end Sys2Proof.Machine
end

