-- ==== Sys2Proof/Machine/Flags.lean ====
section
/-! DEFINITION. The status word and its flags (spec/10_state.md R23, R26, R27; spec/30_encoding.md R81). The
block has no arithmetic condition codes (R26). `STATUS` has no storage of its own: it is a view. -/

namespace Sys2Proof.Machine

/-- The layout of R81, from bit 31 down to bit 0. -/
def packStatus (curCmd : BitVec 2) (errSub : BitVec 8) (errCode : BitVec 4) (uop : BitVec 8) (step : BitVec 4)
    (err done busy : Bool) : BitVec 32 :=
  0#2 ++ curCmd ++ errSub ++ errCode ++ uop ++ step ++ 0#1 ++
    BitVec.ofBool err ++ BitVec.ofBool done ++ BitVec.ofBool busy

/-- `STATUS` while idle (R81). -/
def statusWord (s : State) : BitVec 32 :=
  packStatus s.curCmd s.errSub s.errCode s.uop s.step s.err s.done s.busy

/-- The flag combinations "that can be observed" are exactly four (R26). -/
def flagsLegal (s : State) : Bool :=
  match s.busy, s.done, s.err with
  | false, false, false => true
  | true, false, false => true
  | false, true, false => true
  | false, true, true => true
  | _, _, _ => false

end Sys2Proof.Machine
end

