-- ==== Sys2Proof/Machine/BitPacker.lean ====
section
/-! DEFINITION. The bit packer (spec/45_bit_packer.md R180 to R188). -/

namespace Sys2Proof.Machine

/-- `BP.INIT` (R181). -/
def execBpInit (s : State) : Host.Outcome State Fault Refusal :=
  .next { s with acc := 0, accN := 0, pkLen := 0, totalBits := 0 }

/-- The flush of a byte to `PK[PK_LEN]` (R182, R185): the byte that does not fit is not written. `PK_LEN` was below
`PK_CAP`, so its increment does not wrap. -/
def flushByte (b : Byte) (s : State) : Res State :=
  if s.caps.pkCap.toNat ≤ s.pkLen.toNat then raise .storeOverflow 1 s else do
    let t ← writeByte .pk s.pkLen.toNat b s
    .ok { t with pkLen := s.pkLen + 1, acc := 0, accN := 0 }

/-- `BP.PUTBIT(b)` with its precondition (R182, U7). No `ENCODE` brings `TOTAL_BITS` to 2^40; past 2^64 − 1 it is a
FREE VALUE (log 10). -/
def bpPutbit (b : Bool) (s : State) : Res State :=
  if 8 ≤ s.accN.toNat then .error (.refused .accumulatorFull) else
    let n := s.totalBits.toNat + 1
    let t := { countFree 64 n s with
      acc := (s.acc <<< 1) ||| (BitVec.ofBool b).setWidth 8
      accN := BitVec.ofNat 4 (s.accN.toNat + 1)
      totalBits := fitOrFree 64 n s }
    if t.accN = 8#4 then flushByte t.acc t else .ok t

/-- `BP.PUTCODE(s)` with its precondition (R183, U7): first bit first. -/
def bpPutcode (sym : Sym) (s : State) : Res State :=
  let e := s.codeAt sym.toNat
  if e.valid then
    (List.range e.len.toNat).foldlM (fun t k => callUop 0x51#8 (bpPutbit (bitAt e.bits k)) t) s
  else .error (.refused .noCode)

/-- One iteration of `BP.PACK` (R184). -/
def packByte (s : State) (i : Nat) : Res State := do
  let b ← readByte .inp i s
  callUop 0x52#8 (bpPutcode b) s

/-- `BP.PACK` (R184): the second pass over `IN`. -/
def bpPack (s : State) : Res State := (List.range s.inLen.toNat).foldlM packByte s

/-- `(ACC << (8 − ACC_N)) [7:0]` (R185). `ACC_N` is 0 to 8 (R38); above 8 the shift count is no natural number, no rule
states the byte, and it is a FREE VALUE (DESIGN CHOICE, log 10). -/
def paddedByte (s : State) : Byte :=
  if s.accN.toNat ≤ 8 then s.acc <<< (8 - s.accN.toNat) else Config.freeResult 8 s.freeCount

/-- `BP.FLUSH` (R185): `TOTAL_BITS` is not changed. -/
def bpFlush (s : State) : Res State :=
  if s.accN = 0#4 then .ok s else do
    let t ← flushByte (paddedByte s) s
    .ok (if s.accN.toNat ≤ 8 then t else takeFree t)

/-- `BP.PUTBIT(b)` as an instruction. -/
def execBpPutbit (b : Bool) (s : State) : Host.Outcome State Fault Refusal := finish (bpPutbit b s)

/-- `BP.PUTCODE(s)` as an instruction. -/
def execBpPutcode (sym : Sym) (s : State) : Host.Outcome State Fault Refusal := finish (bpPutcode sym s)

/-- `BP.PACK` as an instruction. -/
def execBpPack (s : State) : Host.Outcome State Fault Refusal := finish (bpPack s)

/-- `BP.FLUSH` as an instruction. -/
def execBpFlush (s : State) : Host.Outcome State Fault Refusal := finish (bpFlush s)

end Sys2Proof.Machine
end

