-- ==== Sys2Proof/Machine/CodeWalker.lean ====
section
/-! DEFINITION. The code-table walker (spec/44_code_walker.md R170 to R174), with the scratch state of R172. -/

namespace Sys2Proof.Machine

/-- `CW.CLEAR` (R170): all 256 entries become (0, 0, 0). -/
def execCwClear (s : State) : Host.Outcome State Fault Refusal :=
  .next { s with code := cellFill Config.nsym CodeEntry.cleared }

/-- `push x` (R172): a depth of 256 is a cycle in the arena (log 14), and `WSTK` has 256 entries. -/
def walkPush (n : NodeId) (depth : Nat) (edge : Bool) (s : State) : Res State :=
  if Config.codeMax < depth then .error (.refused .notATree)
  else if s.wsp.toNat < Config.heapCap then
    .ok { s with
          wstk := cellSet s.wsp.toNat ⟨n, BitVec.ofNat 8 depth, edge⟩ s.wstk, wsp := BitVec.ofNat 9 (s.wsp.toNat + 1) }
  else .error (.fault .noSuchStackEntry)

/-- The edge into a popped node goes to its place in `PATH` (R172). -/
def walkPath (e : WalkEntry) (s : State) : State :=
  if e.depth.toNat = 0 then s else { s with path := putBit s.path (e.depth.toNat - 1) e.edge }

/-- The record a leaf at depth `d` gets: the first `d` positions of `PATH`, 0 above (R172). -/
def pathEntry (d : BitVec 8) (path : Bits255) : CodeEntry := ⟨true, d, bitsOf d.toNat (bitAt path)⟩

/-- One iteration of the loop (R172): a leaf is bound to its path, an internal node pushes its right and then
its left child. -/
def walkPop (s : State) : Res State :=
  let p := s.wsp.toNat - 1
  let e := s.wstkAt p
  let t := walkPath e { s with wsp := BitVec.ofNat 9 p }
  if e.node.toNat < Config.nsym then .ok (t.setCode e.node.toNat (pathEntry e.depth t.path))
  else do
    let i ← nodeIndex e.node
    let u ← walkPush (t.nodeRightAt i) (e.depth.toNat + 1) true t
    walkPush (t.nodeLeftAt i) (e.depth.toNat + 1) false u

/-- `while WSP > 0` (R172). Over a tree each node is popped once, 2n − 1 ≤ 511 pops (R281); over any arena the walk
ends or meets a depth of 256 within `Config.walkFuel` pops, so the fuel is never used up early (log 14). -/
def walkLoop : (fuel : Nat) → State → Res State
  | 0, s => if s.wsp = 0#9 then .ok s else .error (.refused .notATree)
  | fuel + 1, s =>
    if s.wsp = 0#9 then .ok s else do
      let t ← walkPop s
      walkLoop fuel t

/-- `CW.WALK` (R171, R172): a bare leaf as root gets the code "0" and touches no scratch state. -/
def cwWalk (s : State) : Res State :=
  if s.root.toNat < Config.nsym then .ok (s.setCode s.root.toNat ⟨true, 1, 0⟩)
  else do
    let t ← walkPush s.root 0 false { s with wsp := 0 }
    walkLoop Config.walkFuel t

/-- `CW.WALK` as an instruction. -/
def execCwWalk (s : State) : Host.Outcome State Fault Refusal := finish (cwWalk s)

end Sys2Proof.Machine
end

