-- ==== Sys2Proof/Machine/CodebookCodec.lean ====
section
/-! DEFINITION. The codebook codec (spec/46_codebook_codec.md R195 to R208; the byte format is
spec/30_encoding.md R90 to R93). -/

namespace Sys2Proof.Machine

/-- The serialized codebook of `CODE` and `TOTAL_BITS` (R90, R196): the header, then the valid entries in
ascending symbol order. -/
def serialized (s : State) : List Byte :=
  beBytes 8 s.totalBits.toNat ++ beBytes 2 (validSymbols s).length ++
    (validSymbols s).flatMap fun k => entryBytes (s.codeAt k) (BitVec.ofNat 8 k)

/-- `CC.SERIALIZE` (R196): the bytes go out in ascending address order from 0; at most 8714 of them. -/
def ccSerialize (s : State) : Res State := do
  let t ← writeBytes .cb 0 (serialized s) s
  .ok { t with cbLen := BitVec.ofNat 32 (serialized s).length }

/-- The entries of a codebook (R197, checks R201 to R203): `n` entries from address `p`, the symbol before
them if any; answers the address after the last. `DCB_CNT` counts from 0 to at most 256 (R197, R200). -/
def readEntries : (n p : Nat) → Option Sym → State → Res (Nat × State)
  | 0, p, _, s => .ok (p, s)
  | n + 1, p, prev, s =>
    if s.cbLen.toNat ≤ p then raise .corruptCodebook 3 s else do
      let len ← readByte .cb p s
      let nb := bytesFor len.toNat
      if len = 0#8 then raise .corruptCodebook 4 s
      else if s.cbLen.toNat < p + 2 + nb then raise .corruptCodebook 3 s else do
        let bs ← readBytes .cb (p + 1) nb s
        if padBitSet len.toNat bs then raise .corruptCodebook 5 s else do
          let sym ← readByte .cb (p + 1 + nb) s
          if prev.any (fun q => decide (sym.toNat ≤ q.toNat)) then raise .corruptCodebook 6 s else do
            readEntries n (p + 2 + nb) (some sym)
              { s.setDcb sym.toNat ⟨true, len, bitsOfBytes len.toNat bs⟩ with dcbCnt := s.dcbCnt + 1 }

/-- The part of `CC.DESERIALIZE` after the two checks of `CB_LEN` (R197, R200, R204). -/
def readCodebook (s : State) : Res State := do
  let tb ← memRead .cb 0 8 s
  let s := { s with totalBits := BitVec.ofNat 64 tb }
  let e ← memRead .cb 8 2 s
  if 256 < e then raise .corruptCodebook 2 s else do
    let (p, t) ← readEntries e 10 none s
    if p ≠ t.cbLen.toNat then raise .corruptCodebook 7 t else .ok t

/-- `CC.DESERIALIZE` (R197 to R204): the table is cleared, then the first check that fails ends the command. -/
def ccDeserialize (s : State) : Res State :=
  let s := { s with dcb := cellFill Config.nsym CodeEntry.cleared, dcbCnt := 0 }
  if Config.cbCap < s.cbLen.toNat then raise .corruptCodebook 9 s
  else if s.cbLen.toNat < 10 then raise .corruptCodebook 1 s
  else readCodebook s

/-- Some entry of the list clashes with a later one (R205). -/
def anyClash : List CodeEntry → Bool
  | [] => false
  | e :: r => r.any (entriesClash e) || anyClash r

/-- The valid entries of `DCB`, by ascending symbol (R205). -/
def validKeys (s : State) : List CodeEntry :=
  ((List.range Config.nsym).map s.dcbAt).filter CodeEntry.valid

/-- `CC.CHECK` (R205). -/
def ccCheck (s : State) : Res State :=
  if anyClash (validKeys s) then raise .corruptCodebook 8 s else .ok s

/-- `CC.SERIALIZE` as an instruction. -/
def execCcSerialize (s : State) : Host.Outcome State Fault Refusal := finish (ccSerialize s)

/-- `CC.DESERIALIZE` as an instruction. -/
def execCcDeserialize (s : State) : Host.Outcome State Fault Refusal := finish (ccDeserialize s)

/-- `CC.CHECK` as an instruction. -/
def execCcCheck (s : State) : Host.Outcome State Fault Refusal := finish (ccCheck s)

end Sys2Proof.Machine
end

