-- ==== Sys2Proof/Machine/Commands.lean ====
section
/-! DEFINITION. The two commands and the five sequencer micro-operations (spec/40_commands.md R110, R111,
R115 to R120). A command's own effect is the legal arm of command issue; the program it starts then runs one
micro-operation a step (R112, R280; Machine/Sequencer.lean). -/

namespace Sys2Proof.Machine

/-- `ENCODE` (R110, R115): `start(1)`; a write while `BUSY = 1` is dropped. -/
def execEncode (s : State) : Host.Outcome State Fault Refusal :=
  .next (if s.busy then s else startCommand 1#2 s)

/-- `DECODE` (R111, R115): `start(2)`; a write while `BUSY = 1` is dropped. -/
def execDecode (s : State) : Host.Outcome State Fault Refusal :=
  .next (if s.busy then s else startCommand 2#2 s)

/-- `SEQ.CHKIN` (R117). -/
def execSeqChkin (s : State) : Host.Outcome State Fault Refusal :=
  finish (if s.inLen.toNat > s.caps.inCap.toNat then raise .invalidInput 2 s else .ok s)

/-- `SEQ.SKIPEMPTY` (R118): it writes `STEP` itself, on both paths. No program has it at `STEP` 15 (log 10). -/
def execSeqSkipempty (s : State) : Host.Outcome State Fault Refusal :=
  finish (if s.inLen = 0#32 then .ok { s with step := 12#4 } else
    let v := s.step.toNat + 1
    .ok { countFree 4 v s with step := fitOrFree 4 v s })

/-- `SEQ.CHKPK` (R119). -/
def execSeqChkpk (s : State) : Host.Outcome State Fault Refusal :=
  finish (if s.pkLen.toNat > s.caps.pkCap.toNat then raise .invalidInput 3 s else .ok s)

/-- `SEQ.CHKEMPTYCB` (R120): the test is on `PK_LEN`, not on `TOTAL_BITS`. -/
def execSeqChkemptycb (s : State) : Host.Outcome State Fault Refusal :=
  finish (if s.dcbCnt = 0#9 ∧ s.pkLen ≠ 0#64 then raise .invalidInput 1 s else .ok s)

/-- `SEQ.END` (R116): `STEP` stays. -/
def execSeqEnd (s : State) : Host.Outcome State Fault Refusal :=
  .next { s with busy := false, done := true, uop := 0 }

end Sys2Proof.Machine
end

