-- ==== Sys2Proof/Machine/Decoder.lean ====
section
/-! DEFINITION. The decoder: bit unpacker, code lookup, symbol sequencer (spec/47_decoder.md R220 to R229). -/

namespace Sys2Proof.Machine

/-- `BU.INIT` (R220). -/
def execBuInit (s : State) : Host.Outcome State Fault Refusal :=
  .next { s with bitPos := 0, cand := 0, candLen := 0, outLen := 0 }

/-- `BU.GETBIT` with its precondition (R221, U7); the product 8 × `PK_LEN` is on unbounded naturals. In
`SQ.RUN` `BITPOS` stays at most `TOTAL_BITS`; past 2^64 − 1 it is a FREE VALUE (log 10). -/
def buGetbit (s : State) : Res (Bool × State) :=
  if 8 * s.pkLen.toNat ≤ s.bitPos.toNat then .error (.refused .pastPackedData) else do
    let b ← readByte .pk (s.bitPos.toNat / 8) s
    let n := s.bitPos.toNat + 1
    .ok (b.getLsbD (7 - s.bitPos.toNat % 8), { countFree 64 n s with bitPos := fitOrFree 64 n s })

/-- A record is valid and holds exactly the candidate (R223, R10). -/
def entryMatches (s : State) (e : CodeEntry) : Bool :=
  e.valid && decide (e.len = s.candLen) &&
    (List.range s.candLen.toNat).all fun k => bitAt e.bits k == bitAt s.cand k

/-- `DL.LOOKUP` (R223): the first symbol whose key matches. With `CAND_LEN` 0 the pseudocode is run as it stands
(DESIGN CHOICE, log 19). -/
def dlLookup (s : State) : Option Sym :=
  ((List.range Config.nsym).find? fun k => entryMatches s (s.dcbAt k)).map (BitVec.ofNat 8)

/-- `SQ.EMIT(s)` (R224): `OUT_LEN` was below `OUT_CAP`, so its increment does not wrap. -/
def sqEmit (sym : Sym) (s : State) : Res State :=
  if s.caps.outCap.toNat ≤ s.outLen.toNat then raise .storeOverflow 2 s else do
    let t ← writeByte .out s.outLen.toNat sym s
    .ok { t with outLen := s.outLen + 1 }

/-- The candidate has grown by one bit (R225): emit on a match, stop a candidate of 255 bits. -/
def matchCandidate (s : State) : Res State :=
  match dlLookup s with
  | some sym => do
    let t ← callUop 0x73#8 (sqEmit sym) s
    .ok { t with cand := 0, candLen := 0 }
  | none => if s.candLen = 255#8 then raise .truncatedStream 3 s else .ok s

/-- `CAND⟨CAND_LEN⟩ <- b ; CAND_LEN <- CAND_LEN + 1` (R225). R227 has `CAND_LEN` at most 254 here; at 255 `CAND` has no
such position and the sum does not fit, so no rule states either register: both are FREE VALUES, with the zeros of
`CAND` at and above `CAND_LEN` that R39 has (DESIGN CHOICE, log 10). -/
def appendBit (b : Bool) (s : State) : State :=
  let n := s.candLen.toNat + 1
  let len := fitOrFree 8 n s
  { countFree 8 n s with
    cand :=
      if n ≤ Config.codeMax then putBit s.cand s.candLen.toNat b
      else bitsOf len.toNat (bitAt (Config.freeResult 255 s.freeCount))
    candLen := len }

/-- One iteration of the scan (R225). -/
def scanBit (s : State) : Res State := do
  let (b, t) ← buGetbit s
  matchCandidate (appendBit b t)

/-- `while BITPOS < TOTAL_BITS` (R225): `BITPOS` rises by 1 each time, so `fuel = TOTAL_BITS − BITPOS` is never
used up early. -/
def scanLoop : (fuel : Nat) → State → Res State
  | 0, s => .ok s
  | fuel + 1, s =>
    if s.bitPos.toNat < s.totalBits.toNat then do
      let t ← scanBit s
      scanLoop fuel t
    else .ok s

/-- `SQ.RUN` (R225). -/
def sqRun (s : State) : Res State :=
  if 8 * s.pkLen.toNat < s.totalBits.toNat then raise .truncatedStream 1 s else do
    let t ← scanLoop (s.totalBits.toNat - s.bitPos.toNat) s
    if t.candLen ≠ 0#8 then raise .truncatedStream 2 t else .ok t

/-- `BU.GETBIT` as an instruction. -/
def execBuGetbit (s : State) : Host.Outcome State Fault Refusal := finishWith UopResult.bit (buGetbit s)

/-- `DL.LOOKUP` as an instruction: it writes nothing but its result (log 6). -/
def execDlLookup (s : State) : Host.Outcome State Fault Refusal :=
  .next { s with result := .symbol (dlLookup s) }

/-- `SQ.EMIT(s)` as an instruction. -/
def execSqEmit (sym : Sym) (s : State) : Host.Outcome State Fault Refusal := finish (sqEmit sym s)

/-- `SQ.RUN` as an instruction. -/
def execSqRun (s : State) : Host.Outcome State Fault Refusal := finish (sqRun s)

end Sys2Proof.Machine
end

