-- ==== Sys2Proof/Machine/FrequencyCounter.lean ====
section
/-! DEFINITION. The frequency counter (spec/41_frequency_counter.md R130 to R133). -/

namespace Sys2Proof.Machine

/-- `FC.CLEAR` (R130): all 256 entries become 0. -/
def execFcClear (s : State) : Host.Outcome State Fault Refusal :=
  .next { s with freq := cellFill Config.nsym 0#32 }

/-- One iteration of `FC.COUNT` (R131): the byte at address `i` of `IN` is counted. No count of a command passes
2^32 − 1 (R133); past it the entry is a FREE VALUE (log 10). -/
def countByte (s : State) (i : Nat) : Res State := do
  let b ← readByte .inp i s
  let v := (s.freqAt b.toNat).toNat + 1
  .ok { countFree 32 v s with freq := cellSet b.toNat (fitOrFree 32 v s) s.freq }

/-- `FC.COUNT` (R131). -/
def fcCount (s : State) : Res State := (List.range s.inLen.toNat).foldlM countByte s

/-- `FC.COUNT` as an instruction. -/
def execFcCount (s : State) : Host.Outcome State Fault Refusal := finish (fcCount s)

end Sys2Proof.Machine
end

