-- ==== Sys2Proof/Machine/PriorityQueue.lean ====
section
/-! DEFINITION. The priority-queue heap (spec/42_priority_queue.md R140 to R148). -/

namespace Sys2Proof.Machine

/-- The lexicographic order of the keys (frequency, node id) (R140). -/
def keyLess (fa : BitVec 32) (a : NodeId) (fb : BitVec 32) (b : NodeId) : Bool :=
  decide (fa.toNat < fb.toNat) || (decide (fa = fb) && decide (a.toNat < b.toNat))

/-- `PQ.LESS(a, b)` (R140). -/
def pqLess (s : State) (a b : NodeId) : Res Bool := do
  let i ← nodeIndex a
  let j ← nodeIndex b
  .ok (keyLess (s.nodeFreqAt i) a (s.nodeFreqAt j) b)

/-- The loop of `PQ.SIFTUP` (R145). The index falls at every swap, so `fuel = i` is never used up early. -/
def siftUp : (fuel i : Nat) → State → Res State
  | 0, _, s => .ok s
  | fuel + 1, i, s =>
    if i = 0 then .ok s else do
      let p := (i - 1) / 2
      let lt ← pqLess s (s.heapAt i) (s.heapAt p)
      if lt then siftUp fuel p (s.swapHeap i p) else .ok s

/-- `m` or the child `c`, whichever has the lesser key; a child at or above `HEAP_SIZE` does not count. -/
def lesserChild (s : State) (c m : Nat) : Res Nat :=
  if c < s.heapSize.toNat then do
    let lt ← pqLess s (s.heapEntry c) (s.heapEntry m)
    .ok (if lt then c else m)
  else .ok m

/-- The loop of `PQ.SIFTDOWN` (R146). The index rises at every swap and stays below `HEAP_SIZE`, so
`fuel = HEAP_SIZE − i` is never used up early. The swap with an index above 255 writes `HEAP[i]` alone, as the other
side has no entry, and the loop ends there: its children would be at 513 or above, and `HEAP_SIZE` is at most 511
(log 10). -/
def siftDown : (fuel i : Nat) → State → Res State
  | 0, _, s => .ok s
  | fuel + 1, i, s => do
    let m ← lesserChild s (2 * i + 1) i
    let m ← lesserChild s (2 * i + 2) m
    if m = i then .ok s
    else if m < Config.heapCap then siftDown fuel m (s.swapHeap i m)
    else .ok (s.setHeap i (s.heapEntry m))

/-- `PQ.SIFTUP(i)` with its precondition (R145, U7). -/
def pqSiftup (i : Nat) (s : State) : Res State :=
  if s.heapSize.toNat ≤ i then .error (.refused .indexNotLive) else siftUp i i s

/-- `PQ.SIFTDOWN(i)` with its precondition (R146, U7). `HEAP_SIZE` is 0 to 256 (R35); above it the entries that `HEAP`
has not are FREE VALUES (log 10). -/
def pqSiftdown (i : Nat) (s : State) : Res State :=
  if s.heapSize.toNat ≤ i then .error (.refused .indexNotLive) else do
    let t ← siftDown (s.heapSize.toNat - i) i s
    .ok (countEntry (s.heapSize.toNat - 1) t)

/-- `PQ.INSERT(n)` with its precondition (R143, U7). R143's operand is a node that is not in the queue and whose
frequency is written; U7 guards neither, and run on its own with another `n` the pseudocode is run as it stands: an
`n` already in the queue is then live twice (DESIGN CHOICE, log 19). -/
def pqInsert (n : NodeId) (s : State) : Res State :=
  if Config.heapCap ≤ s.heapSize.toNat then .error (.refused .heapFull) else do
    let _ ← nodeIndex n
    let k := s.heapSize.toNat
    pqSiftup k { s.setHeap k n with heapSize := BitVec.ofNat 9 (k + 1) }

/-- `PQ.EXTRACT` with its precondition (R144, U7): the id taken out, and the state after. With `HEAP_SIZE` above 256
the last id is a FREE VALUE (log 10). -/
def pqExtract (s : State) : Res (NodeId × State) :=
  if s.heapSize.toNat = 0 then .error (.refused .heapEmpty)
  else do
    let r := s.heapAt 0
    let k := s.heapSize.toNat - 1
    let t := { s with heapSize := BitVec.ofNat 9 k }
    if k = 0 then .ok (r, t) else do
      let u ← pqSiftdown 0 (t.setHeap 0 (t.heapEntry k))
      .ok (r, countEntry k u)

/-- `PQ.CLEAR` (R142): the array entries are left as they are. -/
def execPqClear (s : State) : Host.Outcome State Fault Refusal := .next { s with heapSize := 0 }

/-- `PQ.INSERT(n)` (R143). -/
def execPqInsert (n : NodeId) (s : State) : Host.Outcome State Fault Refusal := finish (pqInsert n s)

/-- `PQ.EXTRACT` (R144). -/
def execPqExtract (s : State) : Host.Outcome State Fault Refusal := finishWith UopResult.node (pqExtract s)

/-- `PQ.SIFTUP(i)` (R145). -/
def execPqSiftup (i : BitVec 8) (s : State) : Host.Outcome State Fault Refusal := finish (pqSiftup i.toNat s)

/-- `PQ.SIFTDOWN(i)` (R146). -/
def execPqSiftdown (i : BitVec 8) (s : State) : Host.Outcome State Fault Refusal :=
  finish (pqSiftdown i.toNat s)

end Sys2Proof.Machine
end

