-- ==== Sys2Proof/Machine/TreeBuilder.lean ====
section
/-! DEFINITION. The tree builder (spec/43_tree_builder.md R155 to R160). -/

namespace Sys2Proof.Machine

/-- One iteration of `TB.LEAVES` (R155): a present symbol gets its leaf and enters the queue. -/
def makeLeaf (s : State) (k : Nat) : Res State :=
  if s.freqAt k = 0#32 then .ok s else pqInsert (BitVec.ofNat 9 k) (s.setNodeFreq k (s.freqAt k))

/-- `TB.LEAVES` (R155). -/
def tbLeaves (s : State) : Res State :=
  (List.range Config.nsym).foldlM makeLeaf { s with nextId := 256#9 }

/-- `TB.MERGE` with its precondition (R156, U7): the first node extracted becomes the left child. No sum
of a command passes 2^32 − 1 (R158); past it the new node's frequency is a FREE VALUE, and the node enters the queue
by it (log 10). Run on its own, it takes `NEXT_ID` as it stands (log 19). -/
def tbMerge (s : State) : Res State :=
  if s.heapSize.toNat < 2 then .error (.refused .tooFewNodes) else do
    let (l, t) ← pqExtract s
    let (r, u) ← pqExtract t
    let k ← nodeIndex u.nextId
    let i ← nodeIndex l
    let j ← nodeIndex r
    let v := (u.nodeFreqAt i).toNat + (u.nodeFreqAt j).toNat
    let w := (countFree 32 v u).setNode k (fitOrFree 32 v u) l r
    pqInsert u.nextId { w with nextId := BitVec.ofNat 9 (k + 1) }

/-- The loop of `TB.BUILD` (R157): each merge takes one node off the queue, so `fuel = HEAP_SIZE` is never
used up early. -/
def mergeAll : (fuel : Nat) → State → Res State
  | 0, s => .ok s
  | fuel + 1, s =>
    if 1 < s.heapSize.toNat then do
      let t ← tbMerge s
      mergeAll fuel t
    else .ok s

/-- `TB.BUILD` (R157). -/
def tbBuild (s : State) : Res State := do
  let t ← mergeAll s.heapSize.toNat s
  .ok { t with root := t.heapAt 0 }

/-- `TB.LEAVES` as an instruction. -/
def execTbLeaves (s : State) : Host.Outcome State Fault Refusal := finish (tbLeaves s)

/-- `TB.MERGE` as an instruction. -/
def execTbMerge (s : State) : Host.Outcome State Fault Refusal := finish (tbMerge s)

/-- `TB.BUILD` as an instruction. -/
def execTbBuild (s : State) : Host.Outcome State Fault Refusal := finish (tbBuild s)

end Sys2Proof.Machine
end

