-- ==== Sys2Proof/Machine/Dispatch.lean ====
section
/-! DEFINITION. One arm per row of spec/opcode_table.json. -/

namespace Sys2Proof.Machine

def exec (i : Instr) (s : State) : Host.Outcome State Fault Refusal :=
  match i with
  | .encode => Sys2Proof.Machine.execEncode s
  | .decode => Sys2Proof.Machine.execDecode s
  | .seqChkin => Sys2Proof.Machine.execSeqChkin s
  | .seqSkipempty => Sys2Proof.Machine.execSeqSkipempty s
  | .seqChkpk => Sys2Proof.Machine.execSeqChkpk s
  | .seqChkemptycb => Sys2Proof.Machine.execSeqChkemptycb s
  | .seqEnd => Sys2Proof.Machine.execSeqEnd s
  | .fcClear => Sys2Proof.Machine.execFcClear s
  | .fcCount => Sys2Proof.Machine.execFcCount s
  | .pqClear => Sys2Proof.Machine.execPqClear s
  | .pqInsert n => Sys2Proof.Machine.execPqInsert n s
  | .pqExtract => Sys2Proof.Machine.execPqExtract s
  | .pqSiftup k => Sys2Proof.Machine.execPqSiftup k s
  | .pqSiftdown k => Sys2Proof.Machine.execPqSiftdown k s
  | .tbLeaves => Sys2Proof.Machine.execTbLeaves s
  | .tbMerge => Sys2Proof.Machine.execTbMerge s
  | .tbBuild => Sys2Proof.Machine.execTbBuild s
  | .cwClear => Sys2Proof.Machine.execCwClear s
  | .cwWalk => Sys2Proof.Machine.execCwWalk s
  | .bpInit => Sys2Proof.Machine.execBpInit s
  | .bpPutbit b => Sys2Proof.Machine.execBpPutbit b s
  | .bpPutcode sym => Sys2Proof.Machine.execBpPutcode sym s
  | .bpPack => Sys2Proof.Machine.execBpPack s
  | .bpFlush => Sys2Proof.Machine.execBpFlush s
  | .ccSerialize => Sys2Proof.Machine.execCcSerialize s
  | .ccDeserialize => Sys2Proof.Machine.execCcDeserialize s
  | .ccCheck => Sys2Proof.Machine.execCcCheck s
  | .buInit => Sys2Proof.Machine.execBuInit s
  | .buGetbit => Sys2Proof.Machine.execBuGetbit s
  | .dlLookup => Sys2Proof.Machine.execDlLookup s
  | .sqEmit sym => Sys2Proof.Machine.execSqEmit sym s
  | .sqRun => Sys2Proof.Machine.execSqRun s

end Sys2Proof.Machine
end

