-- ==== Sys2Proof/Machine/Sequencer.lean ====
section
/-! DEFINITION. The sequencer (spec/40_commands.md R112 to R114), command issue (R115) and a called
micro-operation as a transition of its own (spec/93_implementation_defined.md U7). -/

namespace Sys2Proof.Machine

/-- The `ENCODE` program (R113): the micro-operation ids of steps 0 to 13. -/
def encodeProgram : List (BitVec 8) :=
  [0x04#8, 0x10#8, 0x11#8, 0x40#8, 0x50#8, 0x05#8, 0x20#8, 0x30#8, 0x32#8, 0x41#8, 0x53#8, 0x54#8, 0x60#8,
    0x08#8]

/-- The `DECODE` program (R114): the micro-operation ids of steps 0 to 6. -/
def decodeProgram : List (BitVec 8) := [0x06#8, 0x61#8, 0x62#8, 0x07#8, 0x70#8, 0x74#8, 0x08#8]

/-- The hard-wired program of `CUR_CMD` (R20, R24). -/
def programOf (c : BitVec 2) : List (BitVec 8) :=
  if c = 1#2 then encodeProgram else if c = 2#2 then decodeProgram else []

/-- The micro-operation at position `STEP` of the program of `CUR_CMD` (R112). -/
def programUop (c : BitVec 2) (k : BitVec 4) : Option (BitVec 8) := (programOf c)[k.toNat]?

/-- The operation wrote `STEP` itself (R112: only `SEQ.SKIPEMPTY`; its untaken path writes it too, R118). -/
def writesStep : Instr → Bool
  | .seqSkipempty => true
  | _ => false

/-- `STEP <- STEP + 1` unless the operation wrote `STEP`, ended the command or raised (R112): in the last two
cases `BUSY` is 0. -/
def advance (i : Instr) (t : State) : State :=
  if t.busy && !writesStep i then { t with step := t.step + 1 } else t

/-- Run a step's micro-operation: `UOP` takes its id, it is executed to its end, `STEP` moves on (R112). -/
def runStepOp (id : BitVec 8) (i : Instr) (s : State) : Host.Outcome State Fault Refusal :=
  match exec i { s with uop := id } with
  | .next t => .next (advance i t)
  | .fault f => .fault f
  | .refused r => .refused r

/-- One step of the sequencer while `BUSY = 1` (R112). -/
def sequencerStep (s : State) : Host.Outcome State Fault Refusal :=
  match programUop s.curCmd s.step with
  | none => .refused .noProgramPosition
  | some id =>
    match decodeUop id 0 with
    | .ok i => runStepOp id i s
    | .error _ => .refused .noProgramPosition

/-- The block's move: idle, it executes nothing on its own (R272). -/
def blockStep (s : State) : Host.Outcome State Fault Refusal :=
  if s.busy then sequencerStep s else .next s

/-- Command issue: the host writes the word `w` to `CMD` (R22, R115). -/
def issueCommand (w : BitVec 32) (s : State) : Host.Outcome State Fault Refusal :=
  if s.busy then .next s
  else match decodeCmd w with
    | .ok i => exec i s
    | .error .reservedBits => .next (badCommand 2 s)
    | .error _ => .next (badCommand 1 s)

/-- A called micro-operation run on its own, for a caller outside the model (U7, log 5): `UOP` takes its id
(R25). A step operation is selected by (`CUR_CMD`, `STEP`) and by nothing else (R84), so it is no such call.
R250 defines `raise` inside a program only; here it takes the same error entry, by `CUR_CMD` as it stands, on an
idle block too, and in mid-command it ends the command (DESIGN CHOICE, log 20). -/
def runCalledOp (id : BitVec 8) (arg : BitVec 9) (s : State) : Host.Outcome State Fault Refusal :=
  match decodeUop id arg with
  | .ok i => if i.kind = .calledOp then exec i { s with uop := id } else .refused .notACalledUop
  | .error _ => .refused .notACalledUop

/-- The micro-operations that may be the innermost one while a step's operation runs: itself and what it calls
(R84, R25). -/
def uopsDuring (id : BitVec 8) : List (BitVec 8) :=
  id :: (if id = 0x30#8 then [0x21#8, 0x23#8]
    else if id = 0x32#8 then [0x31#8, 0x22#8, 0x24#8, 0x21#8, 0x23#8]
    else if id = 0x53#8 then [0x52#8, 0x51#8]
    else if id = 0x74#8 then [0x71#8, 0x72#8, 0x73#8]
    else [])

/-- The pairs of `STEP` and `UOP` that a program of these ids can take, from step `k` on (R26). -/
def pairsFrom (k : Nat) : List (BitVec 8) → List (BitVec 4 × BitVec 8)
  | [] => []
  | id :: r => (uopsDuring id).map (fun u => (BitVec.ofNat 4 k, u)) ++ pairsFrom (k + 1) r

/-- The pairs that a `STATUS` read while `BUSY = 1` may show: those of the running program, and the one the
registers hold between two operations (R26, U5, log 7). -/
def statusPairs (s : State) : List (BitVec 4 × BitVec 8) :=
  (s.step, s.uop) :: pairsFrom 0 (programOf s.curCmd)

end Sys2Proof.Machine
end

