-- ==== Sys2Proof/Machine/HostAccess.lean ====
section
/-! DEFINITION. The host's accesses (spec/10_state.md R21, R22, R47; spec/70_reset_and_hazards.md R270, R271,
R276; spec/93_implementation_defined.md U3 to U6). The bus is the abstract one: `BUS_MAP` is OPEN and its
default is `HostRead` and `HostWrite` as they stand (log 8). -/

namespace Sys2Proof.Machine

/-- The numbered registers of R21. -/
inductive RegName where
  | CMD
  | STATUS
  | IN_LEN
  | CB_LEN
  | PK_LEN
  | OUT_LEN
  | TOTAL_BITS
  | ROOT
  | NEXT_ID
  | HEAP_SIZE
  | DCB_CNT
  | BITPOS
  deriving DecidableEq, Repr

/-- `no(<reg>)` (R21, R100). -/
def regNumber : RegName → Nat
  | .CMD => 0
  | .STATUS => 1
  | .IN_LEN => 2
  | .CB_LEN => 3
  | .PK_LEN => 4
  | .OUT_LEN => 5
  | .TOTAL_BITS => 6
  | .ROOT => 7
  | .NEXT_ID => 8
  | .HEAP_SIZE => 9
  | .DCB_CNT => 10
  | .BITPOS => 11

/-- The register with a number; 12 and above are reserved (R21). -/
def regOfNumber : Nat → Option RegName
  | 0 => some .CMD
  | 1 => some .STATUS
  | 2 => some .IN_LEN
  | 3 => some .CB_LEN
  | 4 => some .PK_LEN
  | 5 => some .OUT_LEN
  | 6 => some .TOTAL_BITS
  | 7 => some .ROOT
  | 8 => some .NEXT_ID
  | 9 => some .HEAP_SIZE
  | 10 => some .DCB_CNT
  | 11 => some .BITPOS
  | _ => none

/-- The width of a register (R21). -/
def regWidth : RegName → Nat
  | .CMD | .STATUS | .IN_LEN | .CB_LEN => 32
  | .PK_LEN | .OUT_LEN | .TOTAL_BITS | .BITPOS => 64
  | .ROOT | .NEXT_ID | .HEAP_SIZE | .DCB_CNT => 9

/-- What an idle read of a register returns (R21, R22, R23); bits above the width read as 0. -/
def regValue (s : State) : RegName → BitVec 64
  | .CMD => 0
  | .STATUS => (statusWord s).setWidth 64
  | .IN_LEN => s.inLen.setWidth 64
  | .CB_LEN => s.cbLen.setWidth 64
  | .PK_LEN => s.pkLen
  | .OUT_LEN => s.outLen
  | .TOTAL_BITS => s.totalBits
  | .ROOT => s.root.setWidth 64
  | .NEXT_ID => s.nextId.setWidth 64
  | .HEAP_SIZE => s.heapSize.setWidth 64
  | .DCB_CNT => s.dcbCnt.setWidth 64
  | .BITPOS => s.bitPos

/-- Record the answer to a host read. -/
def reply (space index : Nat) (d : HostData) (s : State) : State :=
  { s with replies := s.replies ++ [⟨space, index, d⟩] }

/-- The block owns all state: `BUSY = 1` as the host has it, from the `CMD` write that starts a command until the
first `STATUS` read that returns `BUSY = 0` (R276). An `owned` of 0 with `BUSY = 1` never arises (log 11). -/
def inWindow (s : State) : Bool := s.busy || s.owned

/-- `STATUS` while `BUSY = 1` (R26): `STEP` and `UOP` are a free draw among the pairs the running program can
take; the other fields are fixed. FREE VALUE (log 7). -/
def busyStatus (s : State) : BitVec 32 :=
  let ps := statusPairs s
  let p := ps.getD (Config.freeStatusPick s.freeCount % ps.length) (s.step, s.uop)
  packStatus s.curCmd 0 0 p.2 p.1 false false true

/-- Any value of the register's width, for a read inside the window (R276 (c), U4). FREE VALUE (log 7). -/
def busyRegValue (s : State) (r : RegName) : BitVec 64 :=
  BitVec.ofNat 64 ((Config.freeRegValue s.freeCount).toNat % 2 ^ regWidth r)

/-- A read of `STATUS`: while `BUSY = 1` as R26 says; one that returns `BUSY = 0` ends the window (R276). -/
def readStatus (s : State) : State :=
  if s.busy then takeFree (reply 0 1 (.reg ((busyStatus s).setWidth 64)) s)
  else { reply 0 1 (.reg (regValue s .STATUS)) s with owned := false }

/-- `HostRead(0, index)`; a reserved number reads 0 (R21), inside the window too (log 15). -/
def readReg (index : Nat) (s : State) : State :=
  match regOfNumber index with
  | none => reply 0 index (.reg 0) s
  | some .STATUS => readStatus s
  | some r =>
    if inWindow s then takeFree (reply 0 index (.reg (busyRegValue s r)) s)
    else reply 0 index (.reg (regValue s r)) s

/-- `HostWrite(0, index, value)`: dropped inside the window, `CMD` included (R276 (b), log 11); a write to a
read-only or reserved number is ignored; bits above the width are ignored (R21). -/
def writeReg (index : Nat) (value : BitVec 64) (s : State) : Host.Outcome State Fault Refusal :=
  if inWindow s then .next s
  else match regOfNumber index with
    | some .CMD => issueCommand (value.setWidth 32) s
    | some .IN_LEN => .next { s with inLen := value.setWidth 32 }
    | some .CB_LEN => .next { s with cbLen := value.setWidth 32 }
    | some .PK_LEN => .next { s with pkLen := value }
    | _ => .next s

/-- The spaces of R47 beside the registers. -/
inductive Space where
  | bytes (S : StoreId)
  | freq
  | node
  | code
  | dcb
  | heap
  deriving DecidableEq, Repr

/-- The space with a number (R47). -/
def spaceOfNumber : Nat → Option Space
  | 1 => some (.bytes .inp)
  | 2 => some (.bytes .cb)
  | 3 => some (.bytes .pk)
  | 4 => some (.bytes .out)
  | 5 => some .freq
  | 6 => some .node
  | 7 => some .code
  | 8 => some .dcb
  | 9 => some .heap
  | _ => none

/-- How many indexes a space has (R47). -/
def spaceSize (s : State) : Space → Nat
  | .bytes S => s.capacity S
  | .freq | .code | .dcb => Config.nsym
  | .node => Config.nnode
  | .heap => Config.heapCap

/-- The unit at an index of a space (R47). -/
def spaceData (s : State) (index : Nat) : Space → HostData
  | .bytes S => .byte (s.byteAt S index)
  | .freq => .count (s.freqAt index)
  | .node => .node (s.nodeAt index)
  | .code => .code (s.codeAt index)
  | .dcb => .code (s.dcbAt index)
  | .heap => .heapId (s.heapAt index)

/-- The host may write a space (R47): the stores `IN`, `CB`, `PK`. A write to another is ignored. -/
def spaceWritable : Space → Bool
  | .bytes .out => false
  | .bytes _ => true
  | _ => false

/-- `HostRead(space, index)`; a store or debug space is not to be read inside the window (R276 (d), U3). -/
def hostRead (space index : Nat) (s : State) : Host.Outcome State Fault Refusal :=
  if space = 0 then .next (readReg index s)
  else match spaceOfNumber space with
    | none => .refused .hostIndexOutOfRange
    | some x =>
      if inWindow s then .refused .hostAccessWhileBusy
      else if spaceSize s x ≤ index then .refused .hostIndexOutOfRange
      else .next (reply space index (spaceData s index x) s)

/-- The effect of a legal host write to a space: only a writable store has one. -/
def writeSpace (index : Nat) (v : Byte) (s : State) : Space → State
  | .bytes S => if spaceWritable (.bytes S) then s.setStore S (cellSet index v (s.store S)) else s
  | _ => s

/-- `HostWrite(space, index, value)`; a store or debug space is not to be written inside the window (R276 (d), U3); a
store's unit is a byte, so the low 8 bits are stored (log 8). -/
def hostWrite (space index : Nat) (value : BitVec 64) (s : State) : Host.Outcome State Fault Refusal :=
  if space = 0 then writeReg index value s
  else match spaceOfNumber space with
    | none => .refused .hostIndexOutOfRange
    | some x =>
      if inWindow s then .refused .hostAccessWhileBusy
      else if spaceSize s x ≤ index then .refused .hostIndexOutOfRange
      else .next (writeSpace index (value.setWidth 8) s x)

/-- The action `reset` (R270, R271), possible at any time: the reset state with new draws; the platform, the
pending turns, the answers already given and the count of free values taken are not the block's. -/
def resetAction (s : State) : State :=
  { State.afterReset s.caps (s.epoch + 1) with
    freeCount := s.freeCount, turns := s.turns, replies := s.replies }

/-- One host action. -/
def hostAct (a : HostAction) (s : State) : Host.Outcome State Fault Refusal :=
  match a with
  | .read space index => hostRead space index s
  | .write space index value => hostWrite space index value s
  | .reset => .next (resetAction s)

/-- `WAIT` (R100): while `BUSY = 1` the block runs and the turn stays; then `STATUS` is read once. The number of
reads that return `BUSY = 1` is any number, zero included (R280). -/
def waitTurn (rest : List Turn) (s : State) : Host.Outcome State Fault Refusal :=
  if s.busy then blockStep s else hostRead 0 1 { s with turns := rest }

/-- One turn (R6, R70): the host's action, the block's step, or a call of a micro-operation; with no turn
pending the block moves. -/
def takeTurn (s : State) : Host.Outcome State Fault Refusal :=
  match s.turns with
  | [] => blockStep s
  | .block :: r => blockStep { s with turns := r }
  | .wait :: r => waitTurn r s
  | .host a :: r => hostAct a { s with turns := r }
  | .call id arg :: r => runCalledOp id arg { s with turns := r }

/-- The first program position that runs the micro-operation, if one does (R113, R114). -/
def positionOf (id : BitVec 8) : Option (BitVec 2 × BitVec 4) :=
  match encodeProgram.idxOf? id with
  | some k => some (1#2, BitVec.ofNat 4 k)
  | none => (decodeProgram.idxOf? id).map fun k => (2#2, BitVec.ofNat 4 k)

/-- `s` with the command word `w` as the host's next action, on an idle block. -/
def withCommand (s : State) (w : BitVec 32) : State :=
  { s with busy := false, owned := false, turns := .host (.write 0 0 (w.setWidth 64)) :: s.turns }

/-- `s` with the micro-operation `id` as the next to run: the sequencer at a position that selects it, or, for an
operation no position selects, a call of it with the argument 0. -/
def withUop (s : State) (id : BitVec 8) : State :=
  match positionOf id with
  | some (c, k) => { s with busy := true, owned := true, curCmd := c, step := k, turns := .block :: s.turns }
  | none => { s with turns := .call id 0 :: s.turns }

end Sys2Proof.Machine
end

