-- ==== Sys2Proof/Machine/Step.lean ====
section
/-! DEFINITION. One step of the machine, and how the host of this project places an instruction to run next. -/

namespace Sys2Proof.Machine

/-- One step: the next turn (R6, R70). -/
def step (s : State) : Host.Outcome State Fault Refusal := takeTurn s

/-- `s` with the instruction whose table word is `w` next to run: a 32-bit word is a command word the host
writes to `CMD` on an idle block, an 8-bit word a micro-operation the sequencer's position selects or, for a
called one, a call with the operand 0 (log 5, log 9). -/
def State.withFetchWord (s : State) (nbits w : Nat) : State :=
  if nbits = 32 then withCommand s (BitVec.ofNat 32 w) else withUop s (BitVec.ofNat 8 w)

end Sys2Proof.Machine
end

