-- ==== Sys2Proof/Machine/HostScript.lean ====
section
/-! DEFINITION. Host scripts (spec/30_encoding.md R100, R101): a script line as the turns it stands for. An
assertion (`= <v>`, `EXPECT`) is the host's own comparison of a reply and is not part of the block; its reads
are. -/

namespace Sys2Proof.Machine

/-- `space(<store>)` (R47, R100). -/
def storeSpace : StoreId → Nat
  | .inp => 1
  | .cb => 2
  | .pk => 3
  | .out => 4

/-- The length register of a store (R101). -/
def storeLenReg : StoreId → RegName
  | .inp => .IN_LEN
  | .cb => .CB_LEN
  | .pk => .PK_LEN
  | .out => .OUT_LEN

/-- The lines of R100 and the pseudo-instructions of R101. -/
inductive ScriptLine where
  | WR (r : RegName) (v : BitVec 64)
  | RD (r : RegName)
  | ST (S : StoreId) (a : Nat) (b : Byte)
  | LD (S : StoreId) (a : Nat)
  | DBG (space i : Nat)
  | CMD_ENCODE
  | CMD_DECODE
  | CMD (w : BitVec 32)
  | WAIT
  | FILL (S : StoreId) (bs : List Byte)
  | EXPECT (S : StoreId) (n : Nat)
  | EXPECT_STATUS
  | ENCODE_RUN
  | DECODE_RUN
  deriving DecidableEq, Repr

/-- `ST <store>[a], b` for the bytes of a list, from address `a` on. -/
def fillTurns (S : StoreId) (a : Nat) : List Byte → List Turn
  | [] => []
  | b :: r => .host (.write (storeSpace S) a (b.setWidth 64)) :: fillTurns S (a + 1) r

/-- The transactions of a line (R100, R101). -/
def scriptTurns : ScriptLine → List Turn
  | .WR r v => [.host (.write 0 (regNumber r) v)]
  | .RD r => [.host (.read 0 (regNumber r))]
  | .ST S a b => [.host (.write (storeSpace S) a (b.setWidth 64))]
  | .LD S a => [.host (.read (storeSpace S) a)]
  | .DBG space i => [.host (.read space i)]
  | .CMD_ENCODE => [.host (.write 0 0 0x00000001#64)]
  | .CMD_DECODE => [.host (.write 0 0 0x00000002#64)]
  | .CMD w => [.host (.write 0 0 (w.setWidth 64))]
  | .WAIT => [.wait]
  | .FILL S bs => fillTurns S 0 bs ++ [.host (.write 0 (regNumber (storeLenReg S)) (BitVec.ofNat 64 bs.length))]
  | .EXPECT S n =>
    .host (.read 0 (regNumber (storeLenReg S))) :: (List.range n).map fun j => .host (.read (storeSpace S) j)
  | .EXPECT_STATUS => [.host (.read 0 1)]
  | .ENCODE_RUN => [.host (.write 0 0 0x00000001#64), .wait]
  | .DECODE_RUN => [.host (.write 0 0 0x00000002#64), .wait]

/-- The state with a whole script pending. -/
def withScript (s : State) (ls : List ScriptLine) : State := { s with turns := s.turns ++ ls.flatMap scriptTurns }

end Sys2Proof.Machine
end

