-- ==== Sys2Proof/Safety.lean ====
section
/-! DEFINITION. What the claims are stated in: the invariant every step keeps, and readings of a state in the
spec's own terms (the ids in the queue, the bits packed so far, the paths of a tree, a codebook as bytes, a
prefix-free table), none of which the machine itself uses. -/

namespace Sys2Proof.Safety

open Sys2Proof.Machine

/-! ### Runs -/

/-- The answer is a next state: neither a fault nor a refusal. -/
def isNext : Host.Outcome State Fault Refusal → Bool
  | .next _ => true
  | _ => false

/-- The outcome after at most `n` steps of the machine. -/
def runFor (n : Nat) (s : State) : Host.Outcome State Fault Refusal := Host.Core.run Sys2Proof.core n s

/-! ### The invariant -/

/-- Every table is in canonical form inside its index range (R41 to R46). -/
def tablesWf (s : State) : Bool :=
  cellsWf 256 s.freq && cellsWf 511 s.nodeFreq && cellsWf 511 s.nodeLeft && cellsWf 511 s.nodeRight &&
    cellsWf 256 s.heap && cellsWf 256 s.code && cellsWf 256 s.dcb && cellsWf 256 s.wstk

/-- Every byte store is in canonical form inside its capacity (R40). -/
def storesWf (s : State) : Bool :=
  Memory.wf (s.capacity .inp) s.inStore && Memory.wf (s.capacity .cb) s.cbStore &&
    Memory.wf (s.capacity .pk) s.pkStore && Memory.wf (s.capacity .out) s.outStore

/-- Every record written to `CODE` or `DCB` has the form of R95. -/
def codesCanonical (s : State) : Bool :=
  s.code.all (fun c => codeCanonical c.2) && s.dcb.all (fun c => codeCanonical c.2)

/-- The control state: the flags are one of the four combinations of R26; `ERR = 1` exactly when `ERRCODE ≠ 0`
(R27); `ERRCODE` is at most 5 and `CUR_CMD` not 3 (U9); `ERRSUB` is 0 when `ERRCODE` is (R81); `UOP` is 0 or an
id of R84; a running command stands at a position of its program (R24) and inside the window of R276; and inside the
window a command that no longer runs is done. -/
def controlLegal (s : State) : Bool :=
  flagsLegal s && (s.err == decide (s.errCode ≠ 0#4)) && decide (s.errCode.toNat ≤ 5) &&
    decide (s.curCmd ≠ 3#2) && (decide (s.errCode ≠ 0#4) || decide (s.errSub = 0#8)) &&
    (decide (s.uop = 0#8) || (decodeUop s.uop 0).isOk) && (!s.busy || (programUop s.curCmd s.step).isSome) &&
    (!s.busy || s.owned) && (!s.owned || s.busy || s.done)

/-- The ranges of the working registers: `HEAP_SIZE` (R35), `DCB_CNT` (R36), `ACC_N` (R38) and `WSP` (R46), and
the zeros of `CAND` at and above `CAND_LEN` (R39). -/
def rangesLegal (s : State) : Bool :=
  decide (s.heapSize.toNat ≤ 256) && decide (s.dcbCnt.toNat ≤ 256) && decide (s.accN.toNat ≤ 8) &&
    decide (s.wsp.toNat ≤ 256) && decide (s.cand = bitsOf s.candLen.toNat (bitAt s.cand))

/-- The invariant of the machine. -/
def Inv (s : State) : Prop :=
  tablesWf s = true ∧ storesWf s = true ∧ codesCanonical s = true ∧ controlLegal s = true ∧ rangesLegal s = true

/-! ### Bit-strings as lists -/

/-- The record that holds a bit-string (R95). -/
def entryOf (p : List Bool) : CodeEntry :=
  ⟨true, BitVec.ofNat 8 p.length, bitsOf p.length fun k => p.getD k false⟩

/-- The candidate as a bit-string (R39). -/
def candString (s : State) : List Bool := (List.range s.candLen.toNat).map (bitAt s.cand)

/-- Bits cut into bytes, first bit first, most significant bit first, the last byte zero-padded (R61, R91). -/
def packBits (bs : List Bool) : List Byte :=
  (List.range (bytesFor bs.length)).map fun j => byteOfBits fun t => bs.getD (8 * j + t) false

/-- The bytes of serialized entries (R91): length byte, code bytes, symbol. -/
def entriesBytes (es : List (Sym × List Bool)) : List Byte :=
  es.flatMap fun e => BitVec.ofNat 8 e.2.length :: packBits e.2 ++ [e.1]

/-- The serialized codebook with length marker `T` and the given entries (R90, R91). -/
def codebookOf (T : Nat) (es : List (Sym × List Bool)) : List Byte :=
  beBytes 8 T ++ beBytes 2 es.length ++ entriesBytes es

/-- Entries that a codebook may have: symbols strictly ascending, keys of 1 to 255 bits (R92 (e), (g)). -/
def entriesValid (es : List (Sym × List Bool)) : Prop :=
  es.Pairwise (fun a b => a.1.toNat < b.1.toNat) ∧ ∀ e ∈ es, 1 ≤ e.2.length ∧ e.2.length ≤ 255

/-- The bytes of a store from address 0. -/
def storeBytes (s : State) (S : StoreId) (n : Nat) : List Byte := (List.range n).map (s.byteAt S)

/-- The entry a table of entries has for a symbol, the cleared record if none. -/
def entryFor (es : List (Sym × List Bool)) (k : Nat) : CodeEntry :=
  match es.find? (fun e => decide (e.1.toNat = k)) with
  | some e => entryOf e.2
  | none => CodeEntry.cleared

/-- The valid entries of `CODE` as (symbol, bit-string), ascending (R196). -/
def codeEntries (s : State) : List (Sym × List Bool) :=
  ((List.range 256).filter fun k => (s.codeAt k).valid).map fun k => (BitVec.ofNat 8 k, codeString (s.codeAt k))

/-- No key of `DCB` is a prefix of another, equal keys included (R92 (i)). -/
def keysPrefixFree (s : State) : Prop :=
  ∀ a, a < 256 → ∀ b, b < 256 → a ≠ b → (s.dcbAt a).valid = true → (s.dcbAt b).valid = true →
    ¬ codeString (s.dcbAt a) <+: codeString (s.dcbAt b)

/-- No code of `CODE` is a prefix of another (R126). -/
def codesPrefixFree (s : State) : Prop :=
  ∀ a, a < 256 → ∀ b, b < 256 → a ≠ b → (s.codeAt a).valid = true → (s.codeAt b).valid = true →
    ¬ codeString (s.codeAt a) <+: codeString (s.codeAt b)

/-! ### The queue -/

/-- The ids in the queue, in array order (R43). -/
def liveIds (s : State) : List NodeId := (List.range s.heapSize.toNat).map s.heapAt

/-- The order of R140 read off the arena. -/
def keyBefore (s : State) (a b : NodeId) : Bool :=
  keyLess (s.nodeFreqAt a.toNat) a (s.nodeFreqAt b.toNat) b

/-- The heap invariant of R141. -/
def heapOrdered (s : State) : Prop :=
  ∀ i, i < s.heapSize.toNat → 0 < i → keyBefore s (s.heapAt i) (s.heapAt ((i - 1) / 2)) = false

/-- The heap invariant but for the entry at `i` against its parent: what `PQ.SIFTUP(i)` starts from. -/
def orderedButUp (s : State) (i : Nat) : Prop :=
  (∀ j, j < s.heapSize.toNat → 0 < j → j ≠ i → keyBefore s (s.heapAt j) (s.heapAt ((j - 1) / 2)) = false) ∧
  (∀ j, j < s.heapSize.toNat → 0 < j → (j - 1) / 2 = i → 0 < i →
    keyBefore s (s.heapAt j) (s.heapAt ((i - 1) / 2)) = false)

/-- The heap invariant but for the entry at `i` against its children: what `PQ.SIFTDOWN(i)` starts from. -/
def orderedButDown (s : State) (i : Nat) : Prop :=
  (∀ j, j < s.heapSize.toNat → 0 < j → (j - 1) / 2 ≠ i →
    keyBefore s (s.heapAt j) (s.heapAt ((j - 1) / 2)) = false) ∧
  (∀ j, j < s.heapSize.toNat → 0 < j → (j - 1) / 2 = i → 0 < i →
    keyBefore s (s.heapAt j) (s.heapAt ((i - 1) / 2)) = false)

/-- Every id in the queue is a node of the arena (R42, R43). -/
def idsInArena (s : State) : Prop := ∀ i, i < s.heapSize.toNat → (s.heapAt i).toNat < 511

/-- The sum of the frequencies of the ids in the queue (R158 (a)). -/
def liveFreqSum (s : State) : Nat := ((liveIds s).map fun n => (s.nodeFreqAt n.toNat).toNat).sum

/-- The present symbols as node ids, ascending (R155). -/
def presentIds (s : State) : List NodeId :=
  ((List.range 256).filter fun k => decide (s.freqAt k ≠ 0#32)).map (BitVec.ofNat 9)

/-! ### Counting, walking, packing -/

/-- How often a byte value occurs in `IN[0 .. IN_LEN − 1]` (R131). -/
def countOf (s : State) (b : Nat) : Nat :=
  (List.range s.inLen.toNat).countP fun i => decide ((s.byteAt .inp i).toNat = b)

/-- The leaves of the tree under `n` with their paths, left to right (R171); `none` if a path is longer than
the fuel or leads out of the arena. -/
def treePaths (s : State) : Nat → NodeId → List Bool → Option (List (Sym × List Bool))
  | 0, _, _ => none
  | fuel + 1, n, p =>
    if n.toNat < 256 then some [(n.setWidth 8, p)]
    else if n.toNat < 511 then
      match treePaths s fuel (s.nodeLeftAt n.toNat) (p ++ [false]),
        treePaths s fuel (s.nodeRightAt n.toNat) (p ++ [true]) with
      | some l, some r => some (l ++ r)
      | _, _ => none
    else none

/-- Stream bit `p` of `PK` (R94). -/
def streamBit (s : State) (p : Nat) : Bool := (s.byteAt .pk (p / 8)).getLsbD (7 - p % 8)

/-- The bits appended so far: those in `PK` and those pending in `ACC`, oldest first (R38, R186). -/
def packedBits (s : State) : List Bool :=
  (List.range (8 * s.pkLen.toNat)).map (streamBit s) ++
    (List.range s.accN.toNat).map fun k => s.acc.getLsbD (s.accN.toNat - 1 - k)

/-- The code bits of the input, in order (R186). -/
def inputCodeBits (s : State) : List Bool :=
  (List.range s.inLen.toNat).flatMap fun i => codeString (s.codeAt (s.byteAt .inp i).toNat)

end Sys2Proof.Safety
end

