-- ==== Sys2Proof/Certificates/Slice0/Obligations.lean ====
section
/-! DEFINITION. The statements for the provers. Each docstring names the rule of spec/ it formalises; a clause
that rests on a choice of the model says so and names the log entry. A free value is never fixed: a statement
about a state holds for every value its unwritten entries read as. -/

open Sys2Proof Sys2Proof.Machine Sys2Proof.Safety

/-! ### Encoding -/

/-- Sanity: words written out from R82 and R84 decode to their rows; the operand beside an id is the model's
carrier (log 5). -/
def Obligations.SpecWordsDecode : Prop :=
  decode (.cmd 0x00000001#32) = .ok .encode ∧ decode (.cmd 0x00000002#32) = .ok .decode ∧
  decode (.uop 0x08#8 0) = .ok .seqEnd ∧ decode (.uop 0x11#8 0) = .ok .fcCount ∧
  decode (.uop 0x21#8 0x1fe#9) = .ok (.pqInsert 510#9) ∧ decode (.uop 0x32#8 0) = .ok .tbBuild ∧
  decode (.uop 0x41#8 0) = .ok .cwWalk ∧ decode (.uop 0x51#8 1) = .ok (.bpPutbit true) ∧
  decode (.uop 0x62#8 0) = .ok .ccCheck ∧ decode (.uop 0x73#8 0x61#9) = .ok (.sqEmit 0x61#8)

/-- Decoding an encoded well-formed instruction gives it back, for every row and every operand. The ids and command
words are R82's and R84's; the 9-bit argument that carries a micro-operation's operand beside its id is the model's
choice (log 5). -/
def Obligations.DecodeOfEncode : Prop :=
  ∀ i : Instr, i.wellFormed = true → decode (encode i) = .ok i

/-- Whatever the decoder accepts is well-formed and is encoded by exactly the word it was read from, so no two
words have one meaning and no bit of a command word or an id is ignored (R82 to R84). For a micro-operation the word
includes the 9-bit argument beside the id: R84 gives an operand no bits, and that a non-zero argument where none is
taken, or one too wide, is rejected is the model's choice (log 5). -/
def Obligations.EncodeOfDecode : Prop :=
  ∀ (c : Code) (i : Instr), decode c = .ok i → i.wellFormed = true ∧ encode i = c

/-- R83: every command word but the two of R82 is illegal; the reserved-bits test comes first. -/
def Obligations.CommandWordsClassified : Prop :=
  ∀ w : BitVec 32,
    (256 ≤ w.toNat → decodeCmd w = .error .reservedBits) ∧
    (w.toNat < 256 → w.toNat ≠ 1 → w.toNat ≠ 2 → decodeCmd w = .error .unknownOp) ∧
    (w.toNat = 1 → decodeCmd w = .ok .encode) ∧ (w.toNat = 2 → decodeCmd w = .ok .decode)

/-! ### The step -/

/-- A step runs the decoded instruction: a command word the host writes to `CMD` on an idle block outside the window of
R276 (R115, log 11), the micro-operation at the sequencer's position, with `UOP` set before it and `STEP` moved on
after it unless it wrote `STEP` or `BUSY` has fallen (R112), and a called micro-operation run on its own (U7, log 5). -/
def Obligations.StepRunsTheDecodedInstruction : Prop :=
  (∀ (s : State) (v : BitVec 64) (rest : List Turn) (i : Instr),
    s.turns = .host (.write 0 0 v) :: rest → s.busy = false → s.owned = false →
      decode (.cmd (v.setWidth 32)) = .ok i → step s = exec i { s with turns := rest }) ∧
  (∀ (s : State) (id : BitVec 8) (i : Instr),
    (s.turns = [] ∨ ∃ rest, s.turns = .block :: rest) → s.busy = true →
      programUop s.curCmd s.step = some id → decode (.uop id 0) = .ok i →
      step s = (match exec i { s with uop := id, turns := s.turns.tail } with
        | .next t => .next (if t.busy = true ∧ i ≠ .seqSkipempty then { t with step := t.step + 1 } else t)
        | .fault f => .fault f
        | .refused r => .refused r)) ∧
  (∀ (s : State) (id : BitVec 8) (arg : BitVec 9) (rest : List Turn) (i : Instr),
    s.turns = .call id arg :: rest → decode (.uop id arg) = .ok i → i.kind = .calledOp →
      step s = exec i { s with uop := id, turns := rest })

/-- R113 and R114: the micro-operation at each position of the two programs, and none beyond. -/
def Obligations.ProgramsAsTabled : Prop :=
  (encodeProgram.map fun id => decode (.uop id 0)) =
    ([.seqChkin, .fcClear, .fcCount, .cwClear, .bpInit, .seqSkipempty, .pqClear, .tbLeaves, .tbBuild, .cwWalk,
      .bpPack, .bpFlush, .ccSerialize, .seqEnd] : List Instr).map Except.ok ∧
  (decodeProgram.map fun id => decode (.uop id 0)) =
    ([.seqChkpk, .ccDeserialize, .ccCheck, .seqChkemptycb, .buInit, .sqRun, .seqEnd] : List Instr).map Except.ok ∧
  (∀ k : BitVec 4, programUop 1#2 k = encodeProgram[k.toNat]? ∧ programUop 2#2 k = decodeProgram[k.toNat]?) ∧
  (∀ k : BitVec 4, programUop 0#2 k = none ∧ programUop 3#2 k = none)

/-- R115, all five arms: what the issue of the word `w` does, `BUSY` deciding the first; the two legal words also open
the window of R276 (log 11). And a host write to `CMD` outside that window is the issue of its low 32 bits (R21);
inside it is dropped (`BusyHostAccess`). -/
def Obligations.CommandIssue : Prop :=
  (∀ (s : State) (w : BitVec 32),
    (s.busy = true → issueCommand w s = .next s) ∧
    (s.busy = false → w.extractLsb' 8 24 ≠ 0#24 → issueCommand w s = .next { s with
      done := true, err := true, errCode := 4#4, errSub := 2#8, uop := 0#8 }) ∧
    (s.busy = false → w.extractLsb' 8 24 = 0#24 → w.extractLsb' 0 8 = 1#8 → issueCommand w s = .next { s with
      owned := true, busy := true, done := false, err := false, errCode := 0#4, errSub := 0#8,
      curCmd := 1#2, step := 0#4 }) ∧
    (s.busy = false → w.extractLsb' 8 24 = 0#24 → w.extractLsb' 0 8 = 2#8 → issueCommand w s = .next { s with
      owned := true, busy := true, done := false, err := false, errCode := 0#4, errSub := 0#8,
      curCmd := 2#2, step := 0#4 }) ∧
    (s.busy = false → w.extractLsb' 8 24 = 0#24 → w.extractLsb' 0 8 ≠ 1#8 → w.extractLsb' 0 8 ≠ 2#8 →
      issueCommand w s = .next { s with
        done := true, err := true, errCode := 4#4, errSub := 1#8, uop := 0#8 })) ∧
  (∀ (s : State) (v : BitVec 64) (rest : List Turn), s.turns = .host (.write 0 0 v) :: rest → s.owned = false →
    step s = issueCommand (v.setWidth 32) { s with turns := rest })

/-- R110, R111 with R115: issuing a command on an idle block starts its program and opens the window of R276 (log 11);
on a busy block nothing happens. -/
def Obligations.CommandsStart : Prop :=
  ∀ s : State,
    (s.busy = false →
      exec .encode s = .next { s with
          owned := true, busy := true, done := false, err := false, errCode := 0#4, errSub := 0#8,
          curCmd := 1#2, step := 0#4 } ∧
      exec .decode s = .next { s with
          owned := true, busy := true, done := false, err := false, errCode := 0#4, errSub := 0#8,
          curCmd := 2#2, step := 0#4 }) ∧
    (s.busy = true → exec .encode s = .next s ∧ exec .decode s = .next s)

/-- R250: what taking an error writes, and that it leaves everything else. -/
def Obligations.ErrorEntry : Prop :=
  ∀ (e : ErrKind) (sub : BitVec 8) (s : State),
    errorEntry e sub s = { s with
      errCode := (match e with
        | .invalidInput => 1#4 | .corruptCodebook => 2#4 | .truncatedStream => 3#4
        | .badCommand => 4#4 | .storeOverflow => 5#4)
      errSub := sub
      err := true
      done := true
      busy := false
      cbLen := if s.curCmd = 1#2 then 0#32 else s.cbLen
      pkLen := if s.curCmd = 1#2 then 0#64 else s.pkLen
      outLen := if s.curCmd = 2#2 then 0#64 else s.outLen }

/-! ### Sequencer micro-operations, clears and initialisations -/

/-- R116, R142, R181, R220: the operations that only write registers, each with its whole effect; `PQ.CLEAR` leaves
the array entries, `SEQ.END` leaves `STEP`. -/
def Obligations.RegisterOnlyOperations : Prop :=
  ∀ s : State,
    exec .seqEnd s = .next { s with busy := false, done := true, uop := 0#8 } ∧
    exec .pqClear s = .next { s with heapSize := 0#9 } ∧
    exec .bpInit s = .next { s with acc := 0#8, accN := 0#4, pkLen := 0#64, totalBits := 0#64 } ∧
    exec .buInit s = .next { s with bitPos := 0#64, cand := 0#255, candLen := 0#8, outLen := 0#64 }

/-- R130, R170: all of `FREQ` becomes 0, all of `CODE` becomes (0, 0, 0); nothing else changes. -/
def Obligations.TablesCleared : Prop :=
  ∀ s : State,
    (∃ t, exec .fcClear s = .next t ∧ (∀ k, k < 256 → t.freqAt k = 0#32) ∧ t = { s with freq := t.freq }) ∧
    (∃ t, exec .cwClear s = .next t ∧ (∀ k, k < 256 → t.codeAt k = ⟨false, 0, 0⟩) ∧ t = { s with code := t.code })

/-- R117, R119, R120: the three checks of the host's lengths pass and write nothing, or raise. -/
def Obligations.LengthChecks : Prop :=
  ∀ s : State,
    (s.inLen.toNat ≤ s.caps.inCap.toNat → exec .seqChkin s = .next s) ∧
    (s.caps.inCap.toNat < s.inLen.toNat → exec .seqChkin s = .next (errorEntry .invalidInput 2 s)) ∧
    (s.pkLen.toNat ≤ s.caps.pkCap.toNat → exec .seqChkpk s = .next s) ∧
    (s.caps.pkCap.toNat < s.pkLen.toNat → exec .seqChkpk s = .next (errorEntry .invalidInput 3 s)) ∧
    (s.dcbCnt = 0#9 → s.pkLen ≠ 0#64 → exec .seqChkemptycb s = .next (errorEntry .invalidInput 1 s)) ∧
    (s.dcbCnt ≠ 0#9 ∨ s.pkLen = 0#64 → exec .seqChkemptycb s = .next s)

/-- R118: the branch over the builder, and the way on. At `STEP` 15, which no program reaches, the successor has no
4-bit value: the operation still completes, with a free value there (the model's choice, log 10). -/
def Obligations.SeqSkipemptyResult : Prop :=
  ∀ s : State,
    (s.inLen = 0#32 → exec .seqSkipempty s = .next { s with step := 12#4 }) ∧
    (s.inLen ≠ 0#32 → s.step.toNat < 15 → exec .seqSkipempty s = .next { s with step := s.step + 1#4 }) ∧
    (s.inLen ≠ 0#32 → s.step.toNat = 15 →
      ∃ t, exec .seqSkipempty s = .next t ∧ t = { s with step := t.step, freeCount := s.freeCount + 1 })

/-! ### Frequency counter -/

/-- R131: `FC.COUNT` completes, every count rises by the number of occurrences in `IN[0 .. IN_LEN − 1]`, and nothing
else changes. Where a count would pass 2^32 − 1, which R133 shows it never does after `FC.CLEAR`, that one entry is a
free value (the model's choice, log 10). After `FC.CLEAR` the counts add up to `IN_LEN` (R132). -/
def Obligations.FcCountResult : Prop :=
  (∀ s : State, s.inLen.toNat ≤ s.caps.inCap.toNat →
    ∃ t, exec .fcCount s = .next t ∧
      (∀ k, k < 256 → (s.freqAt k).toNat + countOf s k < 2 ^ 32 →
        (t.freqAt k).toNat = (s.freqAt k).toNat + countOf s k) ∧
      ((∀ k, k < 256 → (s.freqAt k).toNat + countOf s k < 2 ^ 32) → t.freeCount = s.freeCount) ∧
      t = { s with freq := t.freq, freeCount := t.freeCount }) ∧
  (∀ s t : State, s.inLen.toNat ≤ s.caps.inCap.toNat → exec .fcClear s = .next t →
    ∃ u, exec .fcCount t = .next u ∧ u.freeCount = s.freeCount ∧
      ((List.range 256).map fun k => (u.freqAt k).toNat).sum = s.inLen.toNat)

/-! ### Priority queue -/

/-- R143: inserting into a queue that is not full completes, restores the heap invariant of R141, adds exactly
the id, and changes nothing but `HEAP` and `HEAP_SIZE`; entries above the queue stay. That it does so also for an id
that is in the queue already, which R143's operand excludes, is the model's choice (log 19). -/
def Obligations.PqInsertResult : Prop :=
  ∀ (s : State) (n : NodeId), s.heapSize.toNat < 256 → n.toNat < 511 → idsInArena s → heapOrdered s →
    ∃ t, exec (.pqInsert n) s = .next t ∧ heapOrdered t ∧ t.heapSize.toNat = s.heapSize.toNat + 1 ∧
      (liveIds t).Perm (n :: liveIds s) ∧ (∀ k, s.heapSize.toNat < k → t.heapAt k = s.heapAt k) ∧
      t = { s with heap := t.heap, heapSize := t.heapSize }

/-- R144: extracting from a queue that is not empty completes, returns `HEAP[0]`, which has the least key of all
ids in the queue, removes exactly it, restores the heap invariant, and changes nothing but `HEAP` and
`HEAP_SIZE`. Where the returned id shows (`result`) is the model's own (log 6). A `HEAP_SIZE` above 256, which R35 rules
out, stops nothing: ids read where `HEAP` has no entry are free values (the model's choice, log 10). -/
def Obligations.PqExtractResult : Prop :=
  (∀ s : State, 1 ≤ s.heapSize.toNat → s.heapSize.toNat ≤ 256 → idsInArena s → heapOrdered s →
    ∃ t, exec .pqExtract s = .next t ∧ t.result = .node (s.heapAt 0) ∧ heapOrdered t ∧
      t.heapSize.toNat + 1 = s.heapSize.toNat ∧ (liveIds s).Perm (s.heapAt 0 :: liveIds t) ∧
      (∀ x, x ∈ liveIds s → keyBefore s x (s.heapAt 0) = false) ∧
      t = { s with heap := t.heap, heapSize := t.heapSize, result := t.result }) ∧
  (∀ s : State, 256 < s.heapSize.toNat → (∀ k, k < 256 → (s.heapAt k).toNat < 511) →
    ∃ t, exec .pqExtract s = .next t ∧ t.result = .node (s.heapAt 0) ∧ t.heapSize.toNat + 1 = s.heapSize.toNat ∧
      (∀ k, k < 256 → (t.heapAt k).toNat < 511) ∧
      t = { s with heap := t.heap, heapSize := t.heapSize, freeCount := t.freeCount, result := t.result })

/-- R145: sifting up a live entry completes, only moves ids about, and restores the heap invariant where that
entry alone may break it. -/
def Obligations.PqSiftupResult : Prop :=
  ∀ (s : State) (i : BitVec 8), i.toNat < s.heapSize.toNat → idsInArena s →
    ∃ t, exec (.pqSiftup i) s = .next t ∧ (liveIds t).Perm (liveIds s) ∧ t = { s with heap := t.heap } ∧
      (orderedButUp s i.toNat → heapOrdered t)

/-- R146: sifting down a live entry completes, only moves ids about, and restores the heap invariant where that entry
alone may break it. A `HEAP_SIZE` above 256, which R35 rules out, stops nothing: ids read where `HEAP` has no entry
are free values (the model's choice, log 10). -/
def Obligations.PqSiftdownResult : Prop :=
  (∀ (s : State) (i : BitVec 8), i.toNat < s.heapSize.toNat → s.heapSize.toNat ≤ 256 → idsInArena s →
    ∃ t, exec (.pqSiftdown i) s = .next t ∧ (liveIds t).Perm (liveIds s) ∧ t = { s with heap := t.heap } ∧
      (orderedButDown s i.toNat → heapOrdered t)) ∧
  (∀ (s : State) (i : BitVec 8), 256 < s.heapSize.toNat → (∀ k, k < 256 → (s.heapAt k).toNat < 511) →
    ∃ t, exec (.pqSiftdown i) s = .next t ∧ (∀ k, k < 256 → (t.heapAt k).toNat < 511) ∧
      t = { s with heap := t.heap, freeCount := t.freeCount })

/-- R140: the order of the keys is a strict total order on distinct ids: irreflexive, transitive, and of two
distinct ids one comes before the other. -/
def Obligations.KeyOrderStrictTotal : Prop :=
  ∀ (s : State) (a b c : NodeId),
    keyBefore s a a = false ∧
    (keyBefore s a b = true → keyBefore s b c = true → keyBefore s a c = true) ∧
    (a ≠ b → (keyBefore s a b = true ∧ keyBefore s b a = false) ∨
      (keyBefore s a b = false ∧ keyBefore s b a = true))

/-- U7: a called micro-operation whose precondition is false is refused by name, a `PQ.INSERT` that `TB.MERGE` calls
included. The other stops are the model's choice, which no rule states: the fault on the id 511, which has no entry in
`NODE` (log 14), the refusal of a walk round a cycle, shown for a root that is its own left child (log 14), and the
fault on a byte outside its store (log 18). -/
def Obligations.StopsByName : Prop :=
  ∀ s : State,
    (s.heapSize = 0#9 → exec .pqExtract s = .refused .heapEmpty) ∧
    (256 ≤ s.heapSize.toNat → ∀ n, exec (.pqInsert n) s = .refused .heapFull) ∧
    (s.heapSize.toNat < 256 → exec (.pqInsert 511#9) s = .fault .noSuchNode) ∧
    (∀ i : BitVec 8, s.heapSize.toNat ≤ i.toNat →
      exec (.pqSiftup i) s = .refused .indexNotLive ∧ exec (.pqSiftdown i) s = .refused .indexNotLive) ∧
    (s.heapSize.toNat < 2 → exec .tbMerge s = .refused .tooFewNodes) ∧
    (2 ≤ s.heapSize.toNat → s.heapSize.toNat ≤ 256 → idsInArena s → s.nextId = 511#9 →
      exec .tbMerge s = .fault .noSuchNode) ∧
    (258 ≤ s.heapSize.toNat → (∀ k, k < 256 → (s.heapAt k).toNat < 511) → s.nextId.toNat < 511 →
      exec .tbMerge s = .refused .heapFull) ∧
    (s.root = 511#9 → exec .cwWalk s = .fault .noSuchNode) ∧
    (256 ≤ s.root.toNat → s.root.toNat < 511 → s.nodeLeftAt s.root.toNat = s.root →
      exec .cwWalk s = .refused .notATree) ∧
    (8 ≤ s.accN.toNat → ∀ b, exec (.bpPutbit b) s = .refused .accumulatorFull) ∧
    (∀ y : Sym, (s.codeAt y.toNat).valid = false → exec (.bpPutcode y) s = .refused .noCode) ∧
    (8 * s.pkLen.toNat ≤ s.bitPos.toNat → exec .buGetbit s = .refused .pastPackedData) ∧
    (s.bitPos.toNat < 8 * s.pkLen.toNat → s.caps.pkCap.toNat ≤ s.bitPos.toNat / 8 →
      exec .buGetbit s = .fault (.noSuchByte .pk)) ∧
    (s.caps.inCap.toNat < s.inLen.toNat → exec .fcCount s = .fault (.noSuchByte .inp))

/-! ### Tree builder -/

/-- R155: from an empty queue, exactly the present symbols enter it, each with its count as its leaf's
frequency; other leaves and all `left` and `right` fields stay. -/
def Obligations.TbLeavesResult : Prop :=
  ∀ s : State, s.heapSize = 0#9 →
    ∃ t, exec .tbLeaves s = .next t ∧ t.nextId = 256#9 ∧ (liveIds t).Perm (presentIds s) ∧ heapOrdered t ∧
      (∀ k, t.nodeFreqAt k = if k < 256 ∧ s.freqAt k ≠ 0#32 then s.freqAt k else s.nodeFreqAt k) ∧
      t = { s with nextId := t.nextId, nodeFreq := t.nodeFreq, heap := t.heap, heapSize := t.heapSize }

/-- R156: the two least nodes leave the queue, `l` first; `NODE[NEXT_ID]` becomes their parent, with the sum of
their frequencies, and enters the queue; every other arena entry stays. Where the sum would pass 2^32 − 1, which R158
shows it never does in a build, the new frequency alone is a free value (the model's choice, log 10). A `HEAP_SIZE` of
257, which R35 rules out, stops nothing either (log 10); from 258 on the insert finds no room (`StopsByName`). -/
def Obligations.TbMergeResult : Prop :=
  (∀ s : State, 2 ≤ s.heapSize.toNat → s.heapSize.toNat ≤ 256 → idsInArena s → heapOrdered s →
    s.nextId.toNat < 511 → s.nextId ∉ liveIds s →
    ∃ t l r rest, exec .tbMerge s = .next t ∧
      (liveIds s).Perm (l :: r :: rest) ∧ (∀ x, x ∈ r :: rest → keyBefore s x l = false) ∧
      (∀ x, x ∈ rest → keyBefore s x r = false) ∧
      t.nodeLeftAt s.nextId.toNat = l ∧ t.nodeRightAt s.nextId.toNat = r ∧
      ((s.nodeFreqAt l.toNat).toNat + (s.nodeFreqAt r.toNat).toNat < 2 ^ 32 →
        (t.nodeFreqAt s.nextId.toNat).toNat = (s.nodeFreqAt l.toNat).toNat + (s.nodeFreqAt r.toNat).toNat ∧
        t.freeCount = s.freeCount) ∧
      (∀ k, k ≠ s.nextId.toNat → t.nodeAt k = s.nodeAt k) ∧
      (liveIds t).Perm (s.nextId :: rest) ∧ heapOrdered t ∧ t.nextId.toNat = s.nextId.toNat + 1 ∧
      t = { s with
        nodeFreq := t.nodeFreq, nodeLeft := t.nodeLeft, nodeRight := t.nodeRight, heap := t.heap,
        heapSize := t.heapSize, nextId := t.nextId, freeCount := t.freeCount }) ∧
  (∀ s : State, s.heapSize.toNat = 257 → (∀ k, k < 256 → (s.heapAt k).toNat < 511) → s.nextId.toNat < 511 →
    ∃ t, exec .tbMerge s = .next t ∧ t.nodeLeftAt s.nextId.toNat = s.heapAt 0 ∧ t.heapSize.toNat = 256 ∧
      t.nextId.toNat = s.nextId.toNat + 1 ∧ (∀ k, k ≠ s.nextId.toNat → t.nodeAt k = s.nodeAt k) ∧
      t = { s with
        nodeFreq := t.nodeFreq, nodeLeft := t.nodeLeft, nodeRight := t.nodeRight, heap := t.heap,
        heapSize := t.heapSize, nextId := t.nextId, freeCount := t.freeCount })

/-- R157, R158 (a), (f): the build ends with one node in the queue, the root, whose frequency is the sum of the
frequencies it started from; a queue of at most one node is not merged. A sum past 2^32 − 1, which no build of a
command has, leaves free values in the nodes concerned (the model's choice, log 10); the build still completes. -/
def Obligations.TbBuildResult : Prop :=
  (∀ s : State, 1 ≤ s.heapSize.toNat → s.heapSize.toNat ≤ 256 →
    s.nextId.toNat + s.heapSize.toNat ≤ 512 → (∀ x, x ∈ liveIds s → x.toNat < s.nextId.toNat) →
    ∃ t, exec .tbBuild s = .next t ∧ t.heapSize = 1#9 ∧ t.root = t.heapAt 0 ∧
      (liveFreqSum s < 2 ^ 32 → (t.nodeFreqAt t.root.toNat).toNat = liveFreqSum s ∧ t.freeCount = s.freeCount) ∧
      t.nextId.toNat + 1 = s.nextId.toNat + s.heapSize.toNat ∧
      (∀ k, k < s.nextId.toNat → t.nodeAt k = s.nodeAt k) ∧
      t = { s with
        root := t.root, nodeFreq := t.nodeFreq, nodeLeft := t.nodeLeft, nodeRight := t.nodeRight,
        heap := t.heap, heapSize := t.heapSize, nextId := t.nextId, freeCount := t.freeCount }) ∧
  (∀ s : State, s.heapSize.toNat ≤ 1 → exec .tbBuild s = .next { s with root := s.heapAt 0 })

/-! ### Code walker -/

/-- R171 against R172: the hardware's walk binds every leaf of the tree under `ROOT` to its path, left edges 0
and right edges 1, and a bare leaf to "0" with no scratch state touched (R172). R171 and R172 speak of a tree; that the
walk also runs to its end where a node is the child of two, so that a symbol is the leaf of two paths and the later one,
left to right, stands, is the model's deduction (log 14). -/
def Obligations.CwWalkResult : Prop :=
  (∀ (s : State) (ps : List (Sym × List Bool)), 256 ≤ s.root.toNat → treePaths s 256 s.root [] = some ps →
    ∃ t, exec .cwWalk s = .next t ∧
      (∀ k, k < 256 → t.codeAt k =
        (match ps.reverse.find? (fun e => decide (e.1.toNat = k)) with
          | some e => entryOf e.2
          | none => s.codeAt k)) ∧
      t.wsp = 0#9 ∧ t = { s with code := t.code, wstk := t.wstk, wsp := t.wsp, path := t.path }) ∧
  (∀ s : State, s.root.toNat < 256 →
    ∃ t, exec .cwWalk s = .next t ∧ t.codeAt s.root.toNat = entryOf [false] ∧
      (∀ k, k ≠ s.root.toNat → t.codeAt k = s.codeAt k) ∧ t = { s with code := t.code })

/-- R173 (c), R126: after `CW.CLEAR` and a walk over a tree whose leaves are distinct symbols, no code is a
prefix of another, and exactly the leaves have a code. -/
def Obligations.WalkGivesPrefixFreeCodes : Prop :=
  ∀ (s t u : State) (ps : List (Sym × List Bool)), exec .cwClear s = .next t → 256 ≤ s.root.toNat →
    treePaths s 256 s.root [] = some ps → (ps.map Prod.fst).Nodup → exec .cwWalk t = .next u →
    codesPrefixFree u ∧ (∀ k, k < 256 → ((u.codeAt k).valid = true ↔ ∃ e, e ∈ ps ∧ e.1.toNat = k))

/-! ### Bit packer -/

/-- R182: fewer than seven bits pending: the bit joins the accumulator. The eighth bit flushes the byte to
`PK[PK_LEN]`, if it has room there. `TOTAL_BITS` counts the bit; past 2^64 − 1, which no `ENCODE` reaches, it alone is
a free value (the model's choice, log 10), and that the raise takes R250's entry also outside a program is the model's
choice (log 20). -/
def Obligations.BpPutbitResult : Prop :=
  ∀ (s : State) (b : Bool),
    (s.accN.toNat < 7 →
      ∃ t, exec (.bpPutbit b) s = .next t ∧
        (s.totalBits.toNat + 1 < 2 ^ 64 → t.totalBits = s.totalBits + 1#64 ∧ t.freeCount = s.freeCount) ∧
        t = { s with
          acc := (s.acc <<< 1) ||| (if b then 1#8 else 0#8), accN := s.accN + 1#4, totalBits := t.totalBits,
          freeCount := t.freeCount }) ∧
    (s.accN = 7#4 → s.pkLen.toNat < s.caps.pkCap.toNat →
      ∃ t, exec (.bpPutbit b) s = .next t ∧
        t.byteAt .pk s.pkLen.toNat = (s.acc <<< 1) ||| (if b then 1#8 else 0#8) ∧
        (∀ a, a ≠ s.pkLen.toNat → t.byteAt .pk a = s.byteAt .pk a) ∧
        (s.totalBits.toNat + 1 < 2 ^ 64 → t.totalBits = s.totalBits + 1#64 ∧ t.freeCount = s.freeCount) ∧
        t = { s with
          acc := 0#8, accN := 0#4, totalBits := t.totalBits, pkLen := s.pkLen + 1#64,
          pkStore := t.pkStore, freeCount := t.freeCount }) ∧
    (s.accN = 7#4 → s.caps.pkCap.toNat ≤ s.pkLen.toNat →
      ∃ u, exec (.bpPutbit b) s = .next (errorEntry .storeOverflow 1 u) ∧
        (s.totalBits.toNat + 1 < 2 ^ 64 → u.totalBits = s.totalBits + 1#64 ∧ u.freeCount = s.freeCount) ∧
        u = { s with
          acc := (s.acc <<< 1) ||| (if b then 1#8 else 0#8), accN := 8#4, totalBits := u.totalBits,
          freeCount := u.freeCount })

/-- R183: the code of the symbol is appended, first bit first, if the packed store has room for the bytes it
fills; only the packer's state changes, and no byte of `PK` outside those appended. (`TOTAL_BITS` past 2^64 − 1 is a
free value, log 10.) -/
def Obligations.BpPutcodeResult : Prop :=
  ∀ (s : State) (y : Sym), (s.codeAt y.toNat).valid = true → s.accN.toNat < 8 →
    (8 * s.pkLen.toNat + s.accN.toNat + (s.codeAt y.toNat).len.toNat) / 8 ≤ s.caps.pkCap.toNat →
    ∃ t, exec (.bpPutcode y) s = .next t ∧ packedBits t = packedBits s ++ codeString (s.codeAt y.toNat) ∧
      (s.totalBits.toNat + (s.codeAt y.toNat).len.toNat < 2 ^ 64 →
        t.totalBits.toNat = s.totalBits.toNat + (s.codeAt y.toNat).len.toNat ∧ t.freeCount = s.freeCount) ∧
      t.accN.toNat < 8 ∧
      (∀ a, a < s.pkLen.toNat ∨ t.pkLen.toNat ≤ a → t.byteAt .pk a = s.byteAt .pk a) ∧
      t = { s with
        acc := t.acc, accN := t.accN, totalBits := t.totalBits, pkLen := t.pkLen,
        pkStore := t.pkStore, freeCount := t.freeCount }

/-- R184, R186: the codes of the input bytes are appended in order. (`TOTAL_BITS` past 2^64 − 1 is a free value,
log 10.) -/
def Obligations.BpPackResult : Prop :=
  ∀ s : State, s.inLen.toNat ≤ s.caps.inCap.toNat →
    (∀ i, i < s.inLen.toNat → (s.codeAt (s.byteAt .inp i).toNat).valid = true) → s.accN.toNat < 8 →
    (8 * s.pkLen.toNat + s.accN.toNat + (inputCodeBits s).length) / 8 ≤ s.caps.pkCap.toNat →
    ∃ t, exec .bpPack s = .next t ∧ packedBits t = packedBits s ++ inputCodeBits s ∧
      (s.totalBits.toNat + (inputCodeBits s).length < 2 ^ 64 →
        t.totalBits.toNat = s.totalBits.toNat + (inputCodeBits s).length ∧ t.freeCount = s.freeCount) ∧
      t.accN.toNat < 8 ∧
      (∀ a, a < s.pkLen.toNat ∨ t.pkLen.toNat ≤ a → t.byteAt .pk a = s.byteAt .pk a) ∧
      t = { s with
        acc := t.acc, accN := t.accN, totalBits := t.totalBits, pkLen := t.pkLen,
        pkStore := t.pkStore, freeCount := t.freeCount }

/-- R186, last sentence: packing into a store that is too small for the full bytes ends in `StoreOverflow(1)`
raised by `BP.PUTBIT`, with both output lengths zeroed. -/
def Obligations.BpPackOverflow : Prop :=
  ∀ s : State, s.curCmd = 1#2 → s.inLen.toNat ≤ s.caps.inCap.toNat →
    (∀ i, i < s.inLen.toNat → (s.codeAt (s.byteAt .inp i).toNat).valid = true) → s.accN.toNat < 8 →
    s.pkLen.toNat ≤ s.caps.pkCap.toNat →
    s.caps.pkCap.toNat < (8 * s.pkLen.toNat + s.accN.toNat + (inputCodeBits s).length) / 8 →
    ∃ t, exec .bpPack s = .next t ∧ t.errCode = 5#4 ∧ t.errSub = 1#8 ∧ t.err = true ∧ t.done = true ∧
      t.busy = false ∧ t.uop = 0x51#8 ∧ t.step = s.step ∧ t.cbLen = 0#32 ∧ t.pkLen = 0#64 ∧ t.accN = 8#4

/-- R185: the pending bits move to the top of the last byte; no bits pending, nothing is written; no room, an
error. `TOTAL_BITS` is not changed. With an `ACC_N` above 8, which R38 rules out, the byte alone is a free value (the
model's choice, log 10). -/
def Obligations.BpFlushResult : Prop :=
  ∀ s : State,
    (s.accN = 0#4 → exec .bpFlush s = .next s) ∧
    (1 ≤ s.accN.toNat → s.pkLen.toNat < s.caps.pkCap.toNat →
      ∃ t, exec .bpFlush s = .next t ∧
        (s.accN.toNat ≤ 8 →
          t.byteAt .pk s.pkLen.toNat = s.acc <<< (8 - s.accN.toNat) ∧ t.freeCount = s.freeCount) ∧
        (∀ a, a ≠ s.pkLen.toNat → t.byteAt .pk a = s.byteAt .pk a) ∧
        t = { s with
          acc := 0#8, accN := 0#4, pkLen := s.pkLen + 1#64, pkStore := t.pkStore, freeCount := t.freeCount }) ∧
    (1 ≤ s.accN.toNat → s.caps.pkCap.toNat ≤ s.pkLen.toNat →
      exec .bpFlush s = .next (errorEntry .storeOverflow 1 s))

/-! ### Codebook codec -/

/-- R196: `CB` holds the serialized codebook of the valid entries of `CODE`, by ascending symbol, under the
length marker; `CB_LEN` is its length; bytes above it, and everything else, stay. -/
def Obligations.CcSerializeResult : Prop :=
  ∀ s : State,
    ∃ t, exec .ccSerialize s = .next t ∧
      storeBytes t .cb t.cbLen.toNat = codebookOf s.totalBits.toNat (codeEntries s) ∧
      t.cbLen.toNat ≤ 8714 ∧ (∀ a, t.cbLen.toNat ≤ a → t.byteAt .cb a = s.byteAt .cb a) ∧
      t = { s with cbStore := t.cbStore, cbLen := t.cbLen }

/-- R197, R92: a valid serialized codebook is accepted: `TOTAL_BITS` takes the header's marker, `DCB` exactly the
entries, `DCB_CNT` their number; nothing else changes. -/
def Obligations.CcDeserializeAccepts : Prop :=
  ∀ (s : State) (T : Nat) (es : List (Sym × List Bool)), T < 2 ^ 64 → entriesValid es →
    storeBytes s .cb s.cbLen.toNat = codebookOf T es →
    ∃ t, exec .ccDeserialize s = .next t ∧ t.totalBits.toNat = T ∧ t.dcbCnt.toNat = es.length ∧
      (∀ k, k < 256 → t.dcbAt k = entryFor es k) ∧
      t = { s with dcb := t.dcb, dcbCnt := t.dcbCnt, totalBits := t.totalBits }

/-- R206, R92 (a) to (h): what passes `CC.DESERIALIZE` is a valid serialized codebook. -/
def Obligations.CcDeserializeSound : Prop :=
  ∀ s t : State, s.busy = true → exec .ccDeserialize s = .next t → t.busy = true →
    ∃ es, entriesValid es ∧ storeBytes s .cb s.cbLen.toNat = codebookOf t.totalBits.toNat es ∧
      t.dcbCnt.toNat = es.length ∧ (∀ k, k < 256 → t.dcbAt k = entryFor es k)

/-- R198, R199, R200: the three header checks, in their order, each with the table cleared before it; and
`CC.DESERIALIZE` never stops in a fault or a refusal. -/
def Obligations.CcDeserializeHeaderChecks : Prop :=
  ∀ s : State,
    isNext (exec .ccDeserialize s) = true ∧
    (8714 < s.cbLen.toNat → exec .ccDeserialize s = .next (errorEntry .corruptCodebook 9
      { s with dcb := cellFill 256 CodeEntry.cleared, dcbCnt := 0#9 })) ∧
    (s.cbLen.toNat < 10 → exec .ccDeserialize s = .next (errorEntry .corruptCodebook 1
      { s with dcb := cellFill 256 CodeEntry.cleared, dcbCnt := 0#9 })) ∧
    (10 ≤ s.cbLen.toNat → s.cbLen.toNat ≤ 8714 → 256 < 256 * (s.byteAt .cb 8).toNat + (s.byteAt .cb 9).toNat →
      ∃ t, exec .ccDeserialize s = .next (errorEntry .corruptCodebook 2 t) ∧
        t = { s with dcb := cellFill 256 CodeEntry.cleared, dcbCnt := 0#9, totalBits := t.totalBits })

/-- R201 to R204, R208: after a well-formed header and the valid entries `es`, the check that the next bytes fail, in
the order of R248: nothing left, a length byte of 0, too few bytes left, a pad bit set, a symbol not above the one
before; and bytes left after the last entry. `DCB_CNT` is the number of entries accepted. -/
def Obligations.CcDeserializeEntryChecks : Prop :=
  ∀ (s : State) (T E : Nat) (es : List (Sym × List Bool)) (rest : List Byte),
    T < 2 ^ 64 → E ≤ 256 → entriesValid es → es.length ≤ E → s.cbLen.toNat ≤ 8714 →
    storeBytes s .cb s.cbLen.toNat = beBytes 8 T ++ beBytes 2 E ++ entriesBytes es ++ rest →
    ∀ k : BitVec 8,
      ((es.length = E ∧ rest ≠ [] ∧ k = 7#8) ∨
        (es.length < E ∧ rest = [] ∧ k = 3#8) ∨
        (es.length < E ∧ (∃ r, rest = 0#8 :: r) ∧ k = 4#8) ∨
        (es.length < E ∧ (∃ l r, rest = l :: r ∧ l ≠ 0#8 ∧ r.length < bytesFor l.toNat + 1) ∧ k = 3#8) ∨
        (es.length < E ∧ (∃ l c y r, rest = l :: c ++ y :: r ∧ l ≠ 0#8 ∧ c.length = bytesFor l.toNat ∧
          ∃ q, l.toNat ≤ q ∧ q < 8 * c.length ∧ bytesBit c q = true) ∧ k = 5#8) ∨
        (es.length < E ∧ (∃ l c y r, rest = l :: c ++ y :: r ∧ l ≠ 0#8 ∧ c.length = bytesFor l.toNat ∧
          (∀ q, l.toNat ≤ q → q < 8 * c.length → bytesBit c q = false) ∧
          ∃ e, es.getLast? = some e ∧ y.toNat ≤ e.1.toNat) ∧ k = 6#8)) →
      ∃ t, exec .ccDeserialize s = .next (errorEntry .corruptCodebook k t) ∧ t.dcbCnt.toNat = es.length ∧
        t = { s with dcb := t.dcb, dcbCnt := t.dcbCnt, totalBits := BitVec.ofNat 64 T }

/-- R205: the check passes and writes nothing exactly when no key is a prefix of another, and raises
`CorruptCodebook(8)` otherwise. -/
def Obligations.CcCheckResult : Prop :=
  ∀ s : State,
    (keysPrefixFree s → exec .ccCheck s = .next s) ∧
    (¬ keysPrefixFree s → exec .ccCheck s = .next (errorEntry .corruptCodebook 8 s))

/-- R129: (a) serializing a prefix-free table of records with lengths of at least 1, then deserializing and checking
the result, raises nothing and gives the table and the length marker back; (b) deserializing a valid serialized
codebook and serializing the table it gives, as `CODE`, under its marker gives the same bytes. -/
def Obligations.CodebookRoundTrip : Prop :=
  (∀ s : State, (∀ k, k < 256 → codeCanonical (s.codeAt k) = true) →
    (∀ k, k < 256 → (s.codeAt k).valid = true → 1 ≤ (s.codeAt k).len.toNat) → codesPrefixFree s →
    ∃ t u, exec .ccSerialize s = .next t ∧ exec .ccDeserialize t = .next u ∧ exec .ccCheck u = .next u ∧
      u = { t with dcb := u.dcb, dcbCnt := u.dcbCnt, totalBits := s.totalBits } ∧
      (∀ k, k < 256 → u.dcbAt k = s.codeAt k)) ∧
  (∀ (s t u : State) (T : Nat) (es : List (Sym × List Bool)), T < 2 ^ 64 → entriesValid es →
    storeBytes s .cb s.cbLen.toNat = codebookOf T es → exec .ccDeserialize s = .next t →
    (∀ k, k < 256 → u.codeAt k = t.dcbAt k) → u.totalBits = t.totalBits →
    ∃ v, exec .ccSerialize u = .next v ∧ v.cbLen = s.cbLen ∧
      storeBytes v .cb v.cbLen.toNat = storeBytes s .cb s.cbLen.toNat)

/-! ### Decoder -/

/-- R221: the next stream bit is delivered and `BITPOS` moves on; past 2^64 − 1, which the decoder's scan never reaches,
`BITPOS` alone is a free value (the model's choice, log 10). Where the bit shows (`result`) is the model's own
(log 6). -/
def Obligations.BuGetbitResult : Prop :=
  ∀ s : State, s.bitPos.toNat < 8 * s.pkLen.toNat → s.bitPos.toNat / 8 < s.caps.pkCap.toNat →
    ∃ t, exec .buGetbit s = .next t ∧
      (s.bitPos.toNat + 1 < 2 ^ 64 → t.bitPos = s.bitPos + 1#64 ∧ t.freeCount = s.freeCount) ∧
      t = { s with
        bitPos := t.bitPos
        freeCount := t.freeCount
        result := .bit ((s.byteAt .pk (s.bitPos.toNat / 8)).getLsbD (7 - s.bitPos.toNat % 8)) }

/-- R223: the lookup writes nothing of the block and returns the first symbol whose valid key is the candidate, and none
only if there is none. Where the answer shows (`result`) is the model's own (log 6). With `CAND_LEN` 0 R223 has nothing
match, since every valid record has a length of at least 1; that a valid record of length 0, where `DCB` held one, would
match is the model's choice (log 19). -/
def Obligations.DlLookupResult : Prop :=
  ∀ s : State, ∃ r, exec .dlLookup s = .next { s with result := .symbol r } ∧
    (∀ y : Sym, r = some y → (s.dcbAt y.toNat).valid = true ∧ codeString (s.dcbAt y.toNat) = candString s ∧
      ∀ k, k < y.toNat → ¬ ((s.dcbAt k).valid = true ∧ codeString (s.dcbAt k) = candString s)) ∧
    (r = none → ∀ k, k < 256 → ¬ ((s.dcbAt k).valid = true ∧ codeString (s.dcbAt k) = candString s))

/-- R224: the symbol is appended to `OUT`, or `StoreOverflow(2)` is raised and it is not written. That the raise takes
R250's entry also outside a program is the model's choice (log 20). -/
def Obligations.SqEmitResult : Prop :=
  ∀ (s : State) (y : Sym),
    (s.outLen.toNat < s.caps.outCap.toNat →
      ∃ t, exec (.sqEmit y) s = .next t ∧ t.byteAt .out s.outLen.toNat = y ∧
        (∀ a, a ≠ s.outLen.toNat → t.byteAt .out a = s.byteAt .out a) ∧
        t = { s with outLen := s.outLen + 1#64, outStore := t.outStore }) ∧
    (s.caps.outCap.toNat ≤ s.outLen.toNat → exec (.sqEmit y) s = .next (errorEntry .storeOverflow 2 s))

/-- R225, R227: from the start of the stream, if its first `TOTAL_BITS` bits are the keys of the symbols `out` one
after another and the keys are prefix-free, the scan ends without error with exactly those symbols in
`OUT`. -/
def Obligations.SqRunDecodes : Prop :=
  ∀ (s : State) (out : List Sym), s.bitPos = 0#64 → s.candLen = 0#8 → s.cand = 0#255 → s.outLen = 0#64 →
    s.totalBits.toNat ≤ 8 * s.pkLen.toNat → s.pkLen.toNat ≤ s.caps.pkCap.toNat →
    out.length ≤ s.caps.outCap.toNat → keysPrefixFree s →
    (∀ y, y ∈ out → (s.dcbAt y.toNat).valid = true ∧ 1 ≤ (s.dcbAt y.toNat).len.toNat) →
    (List.range s.totalBits.toNat).map (streamBit s) = out.flatMap (fun y => codeString (s.dcbAt y.toNat)) →
    ∃ t, exec .sqRun s = .next t ∧ storeBytes t .out out.length = out ∧ t.outLen.toNat = out.length ∧
      t.bitPos = s.totalBits ∧ t.candLen = 0#8 ∧ t.cand = 0#255 ∧
      (∀ a, out.length ≤ a → t.byteAt .out a = s.byteAt .out a) ∧
      t = { s with bitPos := t.bitPos, outLen := t.outLen, outStore := t.outStore }

/-- R225: a length marker beyond the packed data is `TruncatedStream(1)` before any bit is read; otherwise the scan
ends at the marker with no candidate pending, or in one of its three errors, each where the rule says; and on a
store that holds its bytes it never stops in a fault or a refusal. From a candidate of 255 bits at the top of the scan,
which R227 rules out, it goes on with a free candidate (the model's choice, log 10). -/
def Obligations.SqRunStops : Prop :=
  ∀ s : State,
    (8 * s.pkLen.toNat < s.totalBits.toNat → exec .sqRun s = .next (errorEntry .truncatedStream 1 s)) ∧
    (s.pkLen.toNat ≤ s.caps.pkCap.toNat → isNext (exec .sqRun s) = true) ∧
    (s.totalBits.toNat ≤ 8 * s.pkLen.toNat → s.pkLen.toNat ≤ s.caps.pkCap.toNat →
      s.bitPos.toNat ≤ s.totalBits.toNat →
      ∃ t u, exec .sqRun s = .next t ∧ u.totalBits = s.totalBits ∧
        ((t = u ∧ u.bitPos = s.totalBits ∧ u.candLen = 0#8) ∨
          (t = errorEntry .truncatedStream 2 u ∧ u.bitPos = s.totalBits ∧ u.candLen ≠ 0#8) ∨
          (t = errorEntry .truncatedStream 3 u ∧ u.candLen = 255#8 ∧ dlLookup u = none) ∨
          (t = errorEntry .storeOverflow 2 u ∧ u.caps.outCap.toNat ≤ u.outLen.toNat ∧ u.uop = 0x73#8)))

/-! ### Status, host and reset -/

/-- R81: where each field of `STATUS` stands, and the bits that read 0. -/
def Obligations.StatusLayout : Prop :=
  ∀ s : State,
    (statusWord s).getLsbD 0 = s.busy ∧ (statusWord s).getLsbD 1 = s.done ∧ (statusWord s).getLsbD 2 = s.err ∧
    (statusWord s).getLsbD 3 = false ∧ (statusWord s).extractLsb' 4 4 = s.step ∧
    (statusWord s).extractLsb' 8 8 = s.uop ∧ (statusWord s).extractLsb' 16 4 = s.errCode ∧
    (statusWord s).extractLsb' 20 8 = s.errSub ∧ (statusWord s).extractLsb' 28 2 = s.curCmd ∧
    (statusWord s).extractLsb' 30 2 = 0#2

/-- R276 (b), (c), (d): inside the window, from the `CMD` write that starts a command to the first `STATUS` read that
returns `BUSY = 0` (log 11), a write to any register, `CMD` included, is dropped; a read of a register other than
`STATUS` returns some value of its width and changes no state of the block (U4, log 7; a reserved number reads 0,
log 15); an access to a store or a debug space is refused (U3). -/
def Obligations.BusyHostAccess : Prop :=
  ∀ (s : State) (rest : List Turn) (sp index : Nat) (v : BitVec 64), inWindow s = true →
    (s.turns = .host (.write 0 index v) :: rest → step s = .next { s with turns := rest }) ∧
    (index ≠ 1 → index < 12 → s.turns = .host (.read 0 index) :: rest →
      ∃ x : BitVec 64, step s = .next { s with
        turns := rest, freeCount := s.freeCount + 1, replies := s.replies ++ [⟨0, index, .reg x⟩] } ∧
        x.toNat < 2 ^ (if index = 0 ∨ index = 2 ∨ index = 3 then 32
          else if index = 7 ∨ index = 8 ∨ index = 9 ∨ index = 10 then 9 else 64)) ∧
    (12 ≤ index → s.turns = .host (.read 0 index) :: rest →
      step s = .next { s with turns := rest, replies := s.replies ++ [⟨0, index, .reg 0#64⟩] }) ∧
    (1 ≤ sp → sp ≤ 9 → s.turns = .host (.write sp index v) :: rest → step s = .refused .hostAccessWhileBusy) ∧
    (1 ≤ sp → sp ≤ 9 → s.turns = .host (.read sp index) :: rest → step s = .refused .hostAccessWhileBusy)

/-- R26, R276 (a): a `STATUS` read while `BUSY = 1` changes no state of the block and shows `BUSY` 1, `DONE` 0,
`ERR` 0, no error and the running command, with `STEP` and `UOP` some pair of the running program's or the pair the
two registers hold when the read comes. That this last pair is admitted too, and the count of free values, are the
model's (log 7). -/
def Obligations.BusyStatusRead : Prop :=
  ∀ (s : State) (rest : List Turn), s.busy = true → s.turns = .host (.read 0 1) :: rest →
    ∃ t p, step s = .next t ∧ p ∈ statusPairs s ∧
      t = { s with
        turns := rest
        freeCount := s.freeCount + 1
        replies := s.replies ++ [⟨0, 1, .reg ((packStatus s.curCmd 0#8 0#4 p.2 p.1 false false true).setWidth 64)⟩] }

/-- R21: what a register write outside the window of R276 does: `IN_LEN`, `CB_LEN` and `PK_LEN` take the value, bits
above the width ignored; the read-only registers and the reserved numbers ignore it. -/
def Obligations.IdleRegisterWrites : Prop :=
  ∀ (s : State) (rest : List Turn) (index : Nat) (v : BitVec 64), s.busy = false → s.owned = false →
    s.turns = .host (.write 0 index v) :: rest →
    (index = 2 → step s = .next { s with turns := rest, inLen := v.setWidth 32 }) ∧
    (index = 3 → step s = .next { s with turns := rest, cbLen := v.setWidth 32 }) ∧
    (index = 4 → step s = .next { s with turns := rest, pkLen := v }) ∧
    (index = 1 ∨ 5 ≤ index → step s = .next { s with turns := rest })

/-- R21, R22: what a register read returns, outside the window of R276 or, for `STATUS`, on an idle block; it changes
no state of the block but that a `STATUS` read, which returns `BUSY = 0`, ends the window (R276, log 11). -/
def Obligations.IdleRegisterReads : Prop :=
  ∀ (s : State) (rest : List Turn) (index : Nat), s.busy = false → (index ≠ 1 → s.owned = false) →
    s.turns = .host (.read 0 index) :: rest →
    ∃ v : BitVec 64,
      step s = .next { s with turns := rest, owned := false, replies := s.replies ++ [⟨0, index, .reg v⟩] } ∧
      v.toNat = (if index = 1 then (statusWord s).toNat else if index = 2 then s.inLen.toNat
        else if index = 3 then s.cbLen.toNat else if index = 4 then s.pkLen.toNat
        else if index = 5 then s.outLen.toNat else if index = 6 then s.totalBits.toNat
        else if index = 7 then s.root.toNat else if index = 8 then s.nextId.toNat
        else if index = 9 then s.heapSize.toNat else if index = 10 then s.dcbCnt.toNat
        else if index = 11 then s.bitPos.toNat else 0)

/-- R47, R66: outside the window of R276 a host write of a byte to `IN`, `CB` or `PK` replaces that byte and no other,
in that store or another; a write to `OUT` or a debug space is ignored; an index outside any space, and a space number
above 9, is refused (U6). That a value of more than 8 bits leaves its low 8 bits in the store is the model's choice
(log 8). -/
def Obligations.IdleStoreWrites : Prop :=
  ∀ (s : State) (rest : List Turn) (sp a : Nat) (v : BitVec 64), s.busy = false → s.owned = false →
    s.turns = .host (.write sp a v) :: rest →
    (∀ S, (sp = 1 ∧ S = .inp) ∨ (sp = 2 ∧ S = .cb) ∨ (sp = 3 ∧ S = .pk) →
      (a < s.capacity S → ∃ t, step s = .next t ∧ t.byteAt S a = v.setWidth 8 ∧
        (∀ S' a', S' ≠ S ∨ a' ≠ a → t.byteAt S' a' = s.byteAt S' a') ∧
        t = { s with turns := rest, inStore := t.inStore, cbStore := t.cbStore, pkStore := t.pkStore }) ∧
      (s.capacity S ≤ a → step s = .refused .hostIndexOutOfRange)) ∧
    (sp = 4 → a < s.caps.outCap.toNat → step s = .next { s with turns := rest }) ∧
    (sp = 4 → s.caps.outCap.toNat ≤ a → step s = .refused .hostIndexOutOfRange) ∧
    ((sp = 5 ∨ sp = 7 ∨ sp = 8 ∨ sp = 9) → a < 256 → step s = .next { s with turns := rest }) ∧
    ((sp = 5 ∨ sp = 7 ∨ sp = 8 ∨ sp = 9) → 256 ≤ a → step s = .refused .hostIndexOutOfRange) ∧
    (sp = 6 → a < 511 → step s = .next { s with turns := rest }) ∧
    (sp = 6 → 511 ≤ a → step s = .refused .hostIndexOutOfRange) ∧
    (10 ≤ sp → step s = .refused .hostIndexOutOfRange)

/-- R47, R259: outside the window of R276 a read of a store or debug space returns the unit at the index and changes no
state of the block; an index outside the space, and a space number above 9, is refused (U6). -/
def Obligations.IdleSpaceReads : Prop :=
  ∀ (s : State) (rest : List Turn) (sp a : Nat), s.busy = false → s.owned = false →
    s.turns = .host (.read sp a) :: rest →
    (∀ d : HostData,
      ((sp = 1 ∧ a < s.caps.inCap.toNat ∧ d = .byte (s.byteAt .inp a)) ∨
        (sp = 2 ∧ a < 8714 ∧ d = .byte (s.byteAt .cb a)) ∨
        (sp = 3 ∧ a < s.caps.pkCap.toNat ∧ d = .byte (s.byteAt .pk a)) ∨
        (sp = 4 ∧ a < s.caps.outCap.toNat ∧ d = .byte (s.byteAt .out a)) ∨
        (sp = 5 ∧ a < 256 ∧ d = .count (s.freqAt a)) ∨
        (sp = 6 ∧ a < 511 ∧ d = .node ⟨s.nodeFreqAt a, s.nodeLeftAt a, s.nodeRightAt a⟩) ∨
        (sp = 7 ∧ a < 256 ∧ d = .code (s.codeAt a)) ∨ (sp = 8 ∧ a < 256 ∧ d = .code (s.dcbAt a)) ∨
        (sp = 9 ∧ a < 256 ∧ d = .heapId (s.heapAt a))) →
      step s = .next { s with turns := rest, replies := s.replies ++ [⟨sp, a, d⟩] }) ∧
    ((sp = 1 ∧ s.caps.inCap.toNat ≤ a) ∨ (sp = 2 ∧ 8714 ≤ a) ∨ (sp = 3 ∧ s.caps.pkCap.toNat ≤ a) ∨
        (sp = 4 ∧ s.caps.outCap.toNat ≤ a) ∨ ((sp = 5 ∨ sp = 7 ∨ sp = 8 ∨ sp = 9) ∧ 256 ≤ a) ∨
        (sp = 6 ∧ 511 ≤ a) ∨ 10 ≤ sp →
      step s = .refused .hostIndexOutOfRange)

/-- R270, R271: `reset` is taken at any time, also while `BUSY = 1`: every register is 0, stores and tables hold
nothing written, no error is recorded. Three clauses are the model's choice, which no rule states: that the new draws
are those of the next epoch (log 3), that reset ends the window of R276 (log 11), and that the pending turns and the
platform's capacities are kept (log 13). -/
def Obligations.ResetAction : Prop :=
  ∀ (s : State) (rest : List Turn), s.turns = .host .reset :: rest →
    ∃ t, step s = .next t ∧ statusWord t = 0#32 ∧ t.owned = false ∧ t.inLen = 0#32 ∧ t.cbLen = 0#32 ∧ t.pkLen = 0#64 ∧
      t.outLen = 0#64 ∧ t.totalBits = 0#64 ∧ t.root = 0#9 ∧ t.nextId = 0#9 ∧ t.heapSize = 0#9 ∧ t.dcbCnt = 0#9 ∧
      t.bitPos = 0#64 ∧ t.acc = 0#8 ∧ t.accN = 0#4 ∧ t.cand = 0#255 ∧ t.candLen = 0#8 ∧ t.wsp = 0#9 ∧
      t.path = 0#255 ∧ (∀ S, t.store S = []) ∧ t.freq = [] ∧ t.heap = [] ∧ t.code = [] ∧ t.dcb = [] ∧
      t.nodeFreq = [] ∧ t.nodeLeft = [] ∧ t.nodeRight = [] ∧ t.wstk = [] ∧
      t.epoch = s.epoch + 1 ∧ t.caps = s.caps ∧ t.turns = rest

/-! ### Frames and invariants -/

/-- R50, `ENCODE`: no micro-operation of the `ENCODE` program, nor any it calls, writes the input, the output, the
loaded codebook, or the decoder's registers, on any path; nor does one open or end the window of R276 (log 11). -/
def Obligations.EncodeFrame : Prop :=
  ∀ (s t : State) (i : Instr), s.curCmd = 1#2 →
    i ∈ [Instr.seqChkin, .seqSkipempty, .seqEnd, .fcClear, .fcCount, .pqClear, .pqExtract, .tbLeaves, .tbMerge,
        .tbBuild, .cwClear, .cwWalk, .bpInit, .bpPack, .bpFlush, .ccSerialize] ∨
      (∃ n, i = .pqInsert n) ∨ (∃ k, i = .pqSiftup k ∨ i = .pqSiftdown k) ∨ (∃ b, i = .bpPutbit b) ∨
      (∃ y, i = .bpPutcode y) →
    exec i s = .next t →
    t.inStore = s.inStore ∧ t.inLen = s.inLen ∧ t.outStore = s.outStore ∧ t.outLen = s.outLen ∧ t.dcb = s.dcb ∧
      t.dcbCnt = s.dcbCnt ∧ t.bitPos = s.bitPos ∧ t.cand = s.cand ∧ t.candLen = s.candLen ∧ t.curCmd = s.curCmd ∧
      t.owned = s.owned

/-- R50, `DECODE`: no micro-operation of the `DECODE` program, nor any it calls, writes the input, the codebook
store, the packed store, or any encoder table or register, on any path; nor does one open or end the window of R276
(log 11). -/
def Obligations.DecodeFrame : Prop :=
  ∀ (s t : State) (i : Instr), s.curCmd = 2#2 →
    i ∈ [Instr.seqChkpk, .ccDeserialize, .ccCheck, .seqChkemptycb, .buInit, .buGetbit, .dlLookup, .sqRun,
        .seqEnd] ∨ (∃ y, i = .sqEmit y) →
    exec i s = .next t →
    t.inStore = s.inStore ∧ t.inLen = s.inLen ∧ t.cbStore = s.cbStore ∧ t.cbLen = s.cbLen ∧
      t.pkStore = s.pkStore ∧ t.pkLen = s.pkLen ∧ t.freq = s.freq ∧ t.nodeFreq = s.nodeFreq ∧
      t.nodeLeft = s.nodeLeft ∧ t.nodeRight = s.nodeRight ∧ t.heap = s.heap ∧ t.heapSize = s.heapSize ∧
      t.nextId = s.nextId ∧ t.root = s.root ∧ t.code = s.code ∧ t.wstk = s.wstk ∧ t.wsp = s.wsp ∧
      t.path = s.path ∧ t.acc = s.acc ∧ t.accN = s.accN ∧ t.curCmd = s.curCmd ∧ t.owned = s.owned

/-- The invariant holds right after reset. -/
def Obligations.InvariantAtReset : Prop := Inv State.reset

/-- Every step keeps the invariant: tables and stores stay in canonical form inside their ranges, records keep the
form of R95, the flags stay one of the four combinations of R26 with `ERR` exactly when `ERRCODE ≠ 0`, a running
command stays at a position of its program and inside the window of R276 (log 11), and the working registers stay in
their ranges. The platform's capacities never change (R7: they are parameters). -/
def Obligations.StepKeepsInvariant : Prop :=
  ∀ s t : State, Inv s → step s = .next t → Inv t ∧ t.caps = s.caps

/-- R281, last part: a step of a running program ends the command or moves `STEP` forward, so no step of a
program runs twice. -/
def Obligations.ProgramMovesForward : Prop :=
  ∀ s t : State, s.turns = [] → s.busy = true → step s = .next t →
    t.busy = false ∨ (s.step.toNat < t.step.toNat ∧ t.curCmd = s.curCmd)

/-! ### Whole commands -/

/-- R281 for `DECODE`: from every idle block, whatever its stores and registers hold, the command issued ends
within the seven steps of its program, without a fault or a refusal. -/
def Obligations.DecodeCommandEnds : Prop :=
  ∀ s : State, s.busy = false → s.turns = [] →
    ∃ u t, exec .decode s = .next u ∧ runFor 7 u = .next t ∧ t.busy = false ∧ t.done = true

/-- R281 for `ENCODE`, R126, R127: from every idle block, whatever its stores and registers hold, the command
issued ends within the fourteen steps of its program, without a fault or a refusal; if it ends without error, no
code is a prefix of another, and the root's frequency is the sum of the counts and the length of the buffer. -/
def Obligations.EncodeCommandEnds : Prop :=
  ∀ s : State, s.busy = false → s.turns = [] →
    ∃ u t, exec .encode s = .next u ∧ runFor 14 u = .next t ∧ t.busy = false ∧ t.done = true ∧
      (t.err = false → codesPrefixFree t) ∧
      (t.err = false → 0 < s.inLen.toNat →
        (t.nodeFreqAt t.root.toNat).toNat = s.inLen.toNat ∧
        ((List.range 256).map fun k => (t.freqAt k).toNat).sum = s.inLen.toNat)

/-- R128: two blocks of one platform whose inputs are equal, whatever else they hold and whatever their resets left,
give equal codes, codebooks, packed bytes and counts, and, for a buffer that is not empty, equal trees (of an empty
one R118 says that the tree registers keep what they held). -/
def Obligations.EncodeDeterministic : Prop :=
  ∀ s s' u u' t t' : State, s.busy = false → s.turns = [] → s'.busy = false → s'.turns = [] → s'.caps = s.caps →
    s'.inLen = s.inLen → (∀ i, i < s.inLen.toNat → s'.byteAt .inp i = s.byteAt .inp i) →
    exec .encode s = .next u → runFor 14 u = .next t → exec .encode s' = .next u' → runFor 14 u' = .next t' →
    t.err = false →
    t'.err = false ∧ t'.cbLen = t.cbLen ∧ t'.pkLen = t.pkLen ∧ t'.totalBits = t.totalBits ∧
      (∀ k, k < 256 → t'.codeAt k = t.codeAt k ∧ t'.freqAt k = t.freqAt k) ∧
      (∀ a, a < t.cbLen.toNat → t'.byteAt .cb a = t.byteAt .cb a) ∧
      (∀ a, a < t.pkLen.toNat → t'.byteAt .pk a = t.byteAt .pk a) ∧
      (0 < s.inLen.toNat → t'.root = t.root ∧ t'.nextId = t.nextId ∧ t'.heapSize = t.heapSize ∧
        (∀ k, k < 256 → t.freqAt k ≠ 0#32 → t'.nodeFreqAt k = t.nodeFreqAt k) ∧
        (∀ k, 256 ≤ k → k < t.nextId.toNat → t'.nodeAt k = t.nodeAt k))

/-- R118: `ENCODE` of an empty buffer gives the empty codebook, ten zero bytes, and no packed bytes, and leaves
queue, tree and walker as they were. -/
def Obligations.EncodeOfEmptyBuffer : Prop :=
  ∀ s : State, s.busy = false → s.turns = [] → s.inLen = 0#32 →
    ∃ u t, exec .encode s = .next u ∧ runFor 14 u = .next t ∧ statusWord t = 0x100000D2#32 ∧
      t.cbLen = 10#32 ∧ storeBytes t .cb 10 = List.replicate 10 0#8 ∧ t.pkLen = 0#64 ∧ t.totalBits = 0#64 ∧
      (∀ k, k < 256 → t.freqAt k = 0#32 ∧ (t.codeAt k).valid = false) ∧
      t.heap = s.heap ∧ t.heapSize = s.heapSize ∧ t.nodeFreq = s.nodeFreq ∧ t.nodeLeft = s.nodeLeft ∧
      t.nodeRight = s.nodeRight ∧ t.nextId = s.nextId ∧ t.root = s.root ∧ t.wstk = s.wstk ∧ t.wsp = s.wsp ∧
      t.path = s.path

/-- R125: what `ENCODE` made of a buffer, `DECODE` on the same block turns back into that buffer. -/
def Obligations.EncodeThenDecode : Prop :=
  ∀ s u v : State, s.busy = false → s.turns = [] → exec .encode s = .next u → runFor 14 u = .next v →
    v.err = false → s.inLen.toNat ≤ s.caps.outCap.toNat →
    ∃ w t, exec .decode v = .next w ∧ runFor 7 w = .next t ∧ t.busy = false ∧ t.done = true ∧ t.err = false ∧
      t.outLen.toNat = s.inLen.toNat ∧
      ∀ i, i < s.inLen.toNat → t.byteAt .out i = s.byteAt .inp i
end

