-- ==== Sys2Proof/Laws/State.lean ====
section
/-! SUPPORT. What each named update of State leaves in each field, once, so that no proof unfolds a record
update. -/

namespace Sys2Proof.Machine

/-! ### `setHeap` -/

@[simp] theorem State.setHeap_curCmd (s : State) (k : Nat) (n : NodeId) :
    (s.setHeap k n).curCmd = s.curCmd := rfl
@[simp] theorem State.setHeap_step (s : State) (k : Nat) (n : NodeId) :
    (s.setHeap k n).step = s.step := rfl
@[simp] theorem State.setHeap_uop (s : State) (k : Nat) (n : NodeId) :
    (s.setHeap k n).uop = s.uop := rfl
@[simp] theorem State.setHeap_busy (s : State) (k : Nat) (n : NodeId) :
    (s.setHeap k n).busy = s.busy := rfl
@[simp] theorem State.setHeap_done (s : State) (k : Nat) (n : NodeId) :
    (s.setHeap k n).done = s.done := rfl
@[simp] theorem State.setHeap_err (s : State) (k : Nat) (n : NodeId) :
    (s.setHeap k n).err = s.err := rfl
@[simp] theorem State.setHeap_owned (s : State) (k : Nat) (n : NodeId) :
    (s.setHeap k n).owned = s.owned := rfl
@[simp] theorem State.setHeap_errCode (s : State) (k : Nat) (n : NodeId) :
    (s.setHeap k n).errCode = s.errCode := rfl
@[simp] theorem State.setHeap_errSub (s : State) (k : Nat) (n : NodeId) :
    (s.setHeap k n).errSub = s.errSub := rfl
@[simp] theorem State.setHeap_inLen (s : State) (k : Nat) (n : NodeId) :
    (s.setHeap k n).inLen = s.inLen := rfl
@[simp] theorem State.setHeap_cbLen (s : State) (k : Nat) (n : NodeId) :
    (s.setHeap k n).cbLen = s.cbLen := rfl
@[simp] theorem State.setHeap_pkLen (s : State) (k : Nat) (n : NodeId) :
    (s.setHeap k n).pkLen = s.pkLen := rfl
@[simp] theorem State.setHeap_outLen (s : State) (k : Nat) (n : NodeId) :
    (s.setHeap k n).outLen = s.outLen := rfl
@[simp] theorem State.setHeap_totalBits (s : State) (k : Nat) (n : NodeId) :
    (s.setHeap k n).totalBits = s.totalBits := rfl
@[simp] theorem State.setHeap_root (s : State) (k : Nat) (n : NodeId) :
    (s.setHeap k n).root = s.root := rfl
@[simp] theorem State.setHeap_nextId (s : State) (k : Nat) (n : NodeId) :
    (s.setHeap k n).nextId = s.nextId := rfl
@[simp] theorem State.setHeap_heapSize (s : State) (k : Nat) (n : NodeId) :
    (s.setHeap k n).heapSize = s.heapSize := rfl
@[simp] theorem State.setHeap_dcbCnt (s : State) (k : Nat) (n : NodeId) :
    (s.setHeap k n).dcbCnt = s.dcbCnt := rfl
@[simp] theorem State.setHeap_bitPos (s : State) (k : Nat) (n : NodeId) :
    (s.setHeap k n).bitPos = s.bitPos := rfl
@[simp] theorem State.setHeap_acc (s : State) (k : Nat) (n : NodeId) :
    (s.setHeap k n).acc = s.acc := rfl
@[simp] theorem State.setHeap_accN (s : State) (k : Nat) (n : NodeId) :
    (s.setHeap k n).accN = s.accN := rfl
@[simp] theorem State.setHeap_cand (s : State) (k : Nat) (n : NodeId) :
    (s.setHeap k n).cand = s.cand := rfl
@[simp] theorem State.setHeap_candLen (s : State) (k : Nat) (n : NodeId) :
    (s.setHeap k n).candLen = s.candLen := rfl
@[simp] theorem State.setHeap_wsp (s : State) (k : Nat) (n : NodeId) :
    (s.setHeap k n).wsp = s.wsp := rfl
@[simp] theorem State.setHeap_path (s : State) (k : Nat) (n : NodeId) :
    (s.setHeap k n).path = s.path := rfl
@[simp] theorem State.setHeap_wstk (s : State) (k : Nat) (n : NodeId) :
    (s.setHeap k n).wstk = s.wstk := rfl
@[simp] theorem State.setHeap_freq (s : State) (k : Nat) (n : NodeId) :
    (s.setHeap k n).freq = s.freq := rfl
@[simp] theorem State.setHeap_nodeFreq (s : State) (k : Nat) (n : NodeId) :
    (s.setHeap k n).nodeFreq = s.nodeFreq := rfl
@[simp] theorem State.setHeap_nodeLeft (s : State) (k : Nat) (n : NodeId) :
    (s.setHeap k n).nodeLeft = s.nodeLeft := rfl
@[simp] theorem State.setHeap_nodeRight (s : State) (k : Nat) (n : NodeId) :
    (s.setHeap k n).nodeRight = s.nodeRight := rfl
@[simp] theorem State.setHeap_heap (s : State) (k : Nat) (n : NodeId) :
    (s.setHeap k n).heap = cellSet k n s.heap := rfl
@[simp] theorem State.setHeap_code (s : State) (k : Nat) (n : NodeId) :
    (s.setHeap k n).code = s.code := rfl
@[simp] theorem State.setHeap_dcb (s : State) (k : Nat) (n : NodeId) :
    (s.setHeap k n).dcb = s.dcb := rfl
@[simp] theorem State.setHeap_inStore (s : State) (k : Nat) (n : NodeId) :
    (s.setHeap k n).inStore = s.inStore := rfl
@[simp] theorem State.setHeap_cbStore (s : State) (k : Nat) (n : NodeId) :
    (s.setHeap k n).cbStore = s.cbStore := rfl
@[simp] theorem State.setHeap_pkStore (s : State) (k : Nat) (n : NodeId) :
    (s.setHeap k n).pkStore = s.pkStore := rfl
@[simp] theorem State.setHeap_outStore (s : State) (k : Nat) (n : NodeId) :
    (s.setHeap k n).outStore = s.outStore := rfl
@[simp] theorem State.setHeap_caps (s : State) (k : Nat) (n : NodeId) :
    (s.setHeap k n).caps = s.caps := rfl
@[simp] theorem State.setHeap_epoch (s : State) (k : Nat) (n : NodeId) :
    (s.setHeap k n).epoch = s.epoch := rfl
@[simp] theorem State.setHeap_freeCount (s : State) (k : Nat) (n : NodeId) :
    (s.setHeap k n).freeCount = s.freeCount := rfl
@[simp] theorem State.setHeap_turns (s : State) (k : Nat) (n : NodeId) :
    (s.setHeap k n).turns = s.turns := rfl
@[simp] theorem State.setHeap_replies (s : State) (k : Nat) (n : NodeId) :
    (s.setHeap k n).replies = s.replies := rfl
@[simp] theorem State.setHeap_result (s : State) (k : Nat) (n : NodeId) :
    (s.setHeap k n).result = s.result := rfl

/-! ### `setNodeFreq` -/

@[simp] theorem State.setNodeFreq_curCmd (s : State) (k : Nat) (v : BitVec 32) :
    (s.setNodeFreq k v).curCmd = s.curCmd := rfl
@[simp] theorem State.setNodeFreq_step (s : State) (k : Nat) (v : BitVec 32) :
    (s.setNodeFreq k v).step = s.step := rfl
@[simp] theorem State.setNodeFreq_uop (s : State) (k : Nat) (v : BitVec 32) :
    (s.setNodeFreq k v).uop = s.uop := rfl
@[simp] theorem State.setNodeFreq_busy (s : State) (k : Nat) (v : BitVec 32) :
    (s.setNodeFreq k v).busy = s.busy := rfl
@[simp] theorem State.setNodeFreq_done (s : State) (k : Nat) (v : BitVec 32) :
    (s.setNodeFreq k v).done = s.done := rfl
@[simp] theorem State.setNodeFreq_err (s : State) (k : Nat) (v : BitVec 32) :
    (s.setNodeFreq k v).err = s.err := rfl
@[simp] theorem State.setNodeFreq_owned (s : State) (k : Nat) (v : BitVec 32) :
    (s.setNodeFreq k v).owned = s.owned := rfl
@[simp] theorem State.setNodeFreq_errCode (s : State) (k : Nat) (v : BitVec 32) :
    (s.setNodeFreq k v).errCode = s.errCode := rfl
@[simp] theorem State.setNodeFreq_errSub (s : State) (k : Nat) (v : BitVec 32) :
    (s.setNodeFreq k v).errSub = s.errSub := rfl
@[simp] theorem State.setNodeFreq_inLen (s : State) (k : Nat) (v : BitVec 32) :
    (s.setNodeFreq k v).inLen = s.inLen := rfl
@[simp] theorem State.setNodeFreq_cbLen (s : State) (k : Nat) (v : BitVec 32) :
    (s.setNodeFreq k v).cbLen = s.cbLen := rfl
@[simp] theorem State.setNodeFreq_pkLen (s : State) (k : Nat) (v : BitVec 32) :
    (s.setNodeFreq k v).pkLen = s.pkLen := rfl
@[simp] theorem State.setNodeFreq_outLen (s : State) (k : Nat) (v : BitVec 32) :
    (s.setNodeFreq k v).outLen = s.outLen := rfl
@[simp] theorem State.setNodeFreq_totalBits (s : State) (k : Nat) (v : BitVec 32) :
    (s.setNodeFreq k v).totalBits = s.totalBits := rfl
@[simp] theorem State.setNodeFreq_root (s : State) (k : Nat) (v : BitVec 32) :
    (s.setNodeFreq k v).root = s.root := rfl
@[simp] theorem State.setNodeFreq_nextId (s : State) (k : Nat) (v : BitVec 32) :
    (s.setNodeFreq k v).nextId = s.nextId := rfl
@[simp] theorem State.setNodeFreq_heapSize (s : State) (k : Nat) (v : BitVec 32) :
    (s.setNodeFreq k v).heapSize = s.heapSize := rfl
@[simp] theorem State.setNodeFreq_dcbCnt (s : State) (k : Nat) (v : BitVec 32) :
    (s.setNodeFreq k v).dcbCnt = s.dcbCnt := rfl
@[simp] theorem State.setNodeFreq_bitPos (s : State) (k : Nat) (v : BitVec 32) :
    (s.setNodeFreq k v).bitPos = s.bitPos := rfl
@[simp] theorem State.setNodeFreq_acc (s : State) (k : Nat) (v : BitVec 32) :
    (s.setNodeFreq k v).acc = s.acc := rfl
@[simp] theorem State.setNodeFreq_accN (s : State) (k : Nat) (v : BitVec 32) :
    (s.setNodeFreq k v).accN = s.accN := rfl
@[simp] theorem State.setNodeFreq_cand (s : State) (k : Nat) (v : BitVec 32) :
    (s.setNodeFreq k v).cand = s.cand := rfl
@[simp] theorem State.setNodeFreq_candLen (s : State) (k : Nat) (v : BitVec 32) :
    (s.setNodeFreq k v).candLen = s.candLen := rfl
@[simp] theorem State.setNodeFreq_wsp (s : State) (k : Nat) (v : BitVec 32) :
    (s.setNodeFreq k v).wsp = s.wsp := rfl
@[simp] theorem State.setNodeFreq_path (s : State) (k : Nat) (v : BitVec 32) :
    (s.setNodeFreq k v).path = s.path := rfl
@[simp] theorem State.setNodeFreq_wstk (s : State) (k : Nat) (v : BitVec 32) :
    (s.setNodeFreq k v).wstk = s.wstk := rfl
@[simp] theorem State.setNodeFreq_freq (s : State) (k : Nat) (v : BitVec 32) :
    (s.setNodeFreq k v).freq = s.freq := rfl
@[simp] theorem State.setNodeFreq_nodeFreq (s : State) (k : Nat) (v : BitVec 32) :
    (s.setNodeFreq k v).nodeFreq = cellSet k v s.nodeFreq := rfl
@[simp] theorem State.setNodeFreq_nodeLeft (s : State) (k : Nat) (v : BitVec 32) :
    (s.setNodeFreq k v).nodeLeft = s.nodeLeft := rfl
@[simp] theorem State.setNodeFreq_nodeRight (s : State) (k : Nat) (v : BitVec 32) :
    (s.setNodeFreq k v).nodeRight = s.nodeRight := rfl
@[simp] theorem State.setNodeFreq_heap (s : State) (k : Nat) (v : BitVec 32) :
    (s.setNodeFreq k v).heap = s.heap := rfl
@[simp] theorem State.setNodeFreq_code (s : State) (k : Nat) (v : BitVec 32) :
    (s.setNodeFreq k v).code = s.code := rfl
@[simp] theorem State.setNodeFreq_dcb (s : State) (k : Nat) (v : BitVec 32) :
    (s.setNodeFreq k v).dcb = s.dcb := rfl
@[simp] theorem State.setNodeFreq_inStore (s : State) (k : Nat) (v : BitVec 32) :
    (s.setNodeFreq k v).inStore = s.inStore := rfl
@[simp] theorem State.setNodeFreq_cbStore (s : State) (k : Nat) (v : BitVec 32) :
    (s.setNodeFreq k v).cbStore = s.cbStore := rfl
@[simp] theorem State.setNodeFreq_pkStore (s : State) (k : Nat) (v : BitVec 32) :
    (s.setNodeFreq k v).pkStore = s.pkStore := rfl
@[simp] theorem State.setNodeFreq_outStore (s : State) (k : Nat) (v : BitVec 32) :
    (s.setNodeFreq k v).outStore = s.outStore := rfl
@[simp] theorem State.setNodeFreq_caps (s : State) (k : Nat) (v : BitVec 32) :
    (s.setNodeFreq k v).caps = s.caps := rfl
@[simp] theorem State.setNodeFreq_epoch (s : State) (k : Nat) (v : BitVec 32) :
    (s.setNodeFreq k v).epoch = s.epoch := rfl
@[simp] theorem State.setNodeFreq_freeCount (s : State) (k : Nat) (v : BitVec 32) :
    (s.setNodeFreq k v).freeCount = s.freeCount := rfl
@[simp] theorem State.setNodeFreq_turns (s : State) (k : Nat) (v : BitVec 32) :
    (s.setNodeFreq k v).turns = s.turns := rfl
@[simp] theorem State.setNodeFreq_replies (s : State) (k : Nat) (v : BitVec 32) :
    (s.setNodeFreq k v).replies = s.replies := rfl
@[simp] theorem State.setNodeFreq_result (s : State) (k : Nat) (v : BitVec 32) :
    (s.setNodeFreq k v).result = s.result := rfl

/-! ### `setNode` -/

@[simp] theorem State.setNode_curCmd (s : State) (k : Nat) (f : BitVec 32) (l r : NodeId) :
    (s.setNode k f l r).curCmd = s.curCmd := rfl
@[simp] theorem State.setNode_step (s : State) (k : Nat) (f : BitVec 32) (l r : NodeId) :
    (s.setNode k f l r).step = s.step := rfl
@[simp] theorem State.setNode_uop (s : State) (k : Nat) (f : BitVec 32) (l r : NodeId) :
    (s.setNode k f l r).uop = s.uop := rfl
@[simp] theorem State.setNode_busy (s : State) (k : Nat) (f : BitVec 32) (l r : NodeId) :
    (s.setNode k f l r).busy = s.busy := rfl
@[simp] theorem State.setNode_done (s : State) (k : Nat) (f : BitVec 32) (l r : NodeId) :
    (s.setNode k f l r).done = s.done := rfl
@[simp] theorem State.setNode_err (s : State) (k : Nat) (f : BitVec 32) (l r : NodeId) :
    (s.setNode k f l r).err = s.err := rfl
@[simp] theorem State.setNode_owned (s : State) (k : Nat) (f : BitVec 32) (l r : NodeId) :
    (s.setNode k f l r).owned = s.owned := rfl
@[simp] theorem State.setNode_errCode (s : State) (k : Nat) (f : BitVec 32) (l r : NodeId) :
    (s.setNode k f l r).errCode = s.errCode := rfl
@[simp] theorem State.setNode_errSub (s : State) (k : Nat) (f : BitVec 32) (l r : NodeId) :
    (s.setNode k f l r).errSub = s.errSub := rfl
@[simp] theorem State.setNode_inLen (s : State) (k : Nat) (f : BitVec 32) (l r : NodeId) :
    (s.setNode k f l r).inLen = s.inLen := rfl
@[simp] theorem State.setNode_cbLen (s : State) (k : Nat) (f : BitVec 32) (l r : NodeId) :
    (s.setNode k f l r).cbLen = s.cbLen := rfl
@[simp] theorem State.setNode_pkLen (s : State) (k : Nat) (f : BitVec 32) (l r : NodeId) :
    (s.setNode k f l r).pkLen = s.pkLen := rfl
@[simp] theorem State.setNode_outLen (s : State) (k : Nat) (f : BitVec 32) (l r : NodeId) :
    (s.setNode k f l r).outLen = s.outLen := rfl
@[simp] theorem State.setNode_totalBits (s : State) (k : Nat) (f : BitVec 32) (l r : NodeId) :
    (s.setNode k f l r).totalBits = s.totalBits := rfl
@[simp] theorem State.setNode_root (s : State) (k : Nat) (f : BitVec 32) (l r : NodeId) :
    (s.setNode k f l r).root = s.root := rfl
@[simp] theorem State.setNode_nextId (s : State) (k : Nat) (f : BitVec 32) (l r : NodeId) :
    (s.setNode k f l r).nextId = s.nextId := rfl
@[simp] theorem State.setNode_heapSize (s : State) (k : Nat) (f : BitVec 32) (l r : NodeId) :
    (s.setNode k f l r).heapSize = s.heapSize := rfl
@[simp] theorem State.setNode_dcbCnt (s : State) (k : Nat) (f : BitVec 32) (l r : NodeId) :
    (s.setNode k f l r).dcbCnt = s.dcbCnt := rfl
@[simp] theorem State.setNode_bitPos (s : State) (k : Nat) (f : BitVec 32) (l r : NodeId) :
    (s.setNode k f l r).bitPos = s.bitPos := rfl
@[simp] theorem State.setNode_acc (s : State) (k : Nat) (f : BitVec 32) (l r : NodeId) :
    (s.setNode k f l r).acc = s.acc := rfl
@[simp] theorem State.setNode_accN (s : State) (k : Nat) (f : BitVec 32) (l r : NodeId) :
    (s.setNode k f l r).accN = s.accN := rfl
@[simp] theorem State.setNode_cand (s : State) (k : Nat) (f : BitVec 32) (l r : NodeId) :
    (s.setNode k f l r).cand = s.cand := rfl
@[simp] theorem State.setNode_candLen (s : State) (k : Nat) (f : BitVec 32) (l r : NodeId) :
    (s.setNode k f l r).candLen = s.candLen := rfl
@[simp] theorem State.setNode_wsp (s : State) (k : Nat) (f : BitVec 32) (l r : NodeId) :
    (s.setNode k f l r).wsp = s.wsp := rfl
@[simp] theorem State.setNode_path (s : State) (k : Nat) (f : BitVec 32) (l r : NodeId) :
    (s.setNode k f l r).path = s.path := rfl
@[simp] theorem State.setNode_wstk (s : State) (k : Nat) (f : BitVec 32) (l r : NodeId) :
    (s.setNode k f l r).wstk = s.wstk := rfl
@[simp] theorem State.setNode_freq (s : State) (k : Nat) (f : BitVec 32) (l r : NodeId) :
    (s.setNode k f l r).freq = s.freq := rfl
@[simp] theorem State.setNode_nodeFreq (s : State) (k : Nat) (f : BitVec 32) (l r : NodeId) :
    (s.setNode k f l r).nodeFreq = cellSet k f s.nodeFreq := rfl
@[simp] theorem State.setNode_nodeLeft (s : State) (k : Nat) (f : BitVec 32) (l r : NodeId) :
    (s.setNode k f l r).nodeLeft = cellSet k l s.nodeLeft := rfl
@[simp] theorem State.setNode_nodeRight (s : State) (k : Nat) (f : BitVec 32) (l r : NodeId) :
    (s.setNode k f l r).nodeRight = cellSet k r s.nodeRight := rfl
@[simp] theorem State.setNode_heap (s : State) (k : Nat) (f : BitVec 32) (l r : NodeId) :
    (s.setNode k f l r).heap = s.heap := rfl
@[simp] theorem State.setNode_code (s : State) (k : Nat) (f : BitVec 32) (l r : NodeId) :
    (s.setNode k f l r).code = s.code := rfl
@[simp] theorem State.setNode_dcb (s : State) (k : Nat) (f : BitVec 32) (l r : NodeId) :
    (s.setNode k f l r).dcb = s.dcb := rfl
@[simp] theorem State.setNode_inStore (s : State) (k : Nat) (f : BitVec 32) (l r : NodeId) :
    (s.setNode k f l r).inStore = s.inStore := rfl
@[simp] theorem State.setNode_cbStore (s : State) (k : Nat) (f : BitVec 32) (l r : NodeId) :
    (s.setNode k f l r).cbStore = s.cbStore := rfl
@[simp] theorem State.setNode_pkStore (s : State) (k : Nat) (f : BitVec 32) (l r : NodeId) :
    (s.setNode k f l r).pkStore = s.pkStore := rfl
@[simp] theorem State.setNode_outStore (s : State) (k : Nat) (f : BitVec 32) (l r : NodeId) :
    (s.setNode k f l r).outStore = s.outStore := rfl
@[simp] theorem State.setNode_caps (s : State) (k : Nat) (f : BitVec 32) (l r : NodeId) :
    (s.setNode k f l r).caps = s.caps := rfl
@[simp] theorem State.setNode_epoch (s : State) (k : Nat) (f : BitVec 32) (l r : NodeId) :
    (s.setNode k f l r).epoch = s.epoch := rfl
@[simp] theorem State.setNode_freeCount (s : State) (k : Nat) (f : BitVec 32) (l r : NodeId) :
    (s.setNode k f l r).freeCount = s.freeCount := rfl
@[simp] theorem State.setNode_turns (s : State) (k : Nat) (f : BitVec 32) (l r : NodeId) :
    (s.setNode k f l r).turns = s.turns := rfl
@[simp] theorem State.setNode_replies (s : State) (k : Nat) (f : BitVec 32) (l r : NodeId) :
    (s.setNode k f l r).replies = s.replies := rfl
@[simp] theorem State.setNode_result (s : State) (k : Nat) (f : BitVec 32) (l r : NodeId) :
    (s.setNode k f l r).result = s.result := rfl

/-! ### `setCode` -/

@[simp] theorem State.setCode_curCmd (s : State) (k : Nat) (e : CodeEntry) :
    (s.setCode k e).curCmd = s.curCmd := rfl
@[simp] theorem State.setCode_step (s : State) (k : Nat) (e : CodeEntry) :
    (s.setCode k e).step = s.step := rfl
@[simp] theorem State.setCode_uop (s : State) (k : Nat) (e : CodeEntry) :
    (s.setCode k e).uop = s.uop := rfl
@[simp] theorem State.setCode_busy (s : State) (k : Nat) (e : CodeEntry) :
    (s.setCode k e).busy = s.busy := rfl
@[simp] theorem State.setCode_done (s : State) (k : Nat) (e : CodeEntry) :
    (s.setCode k e).done = s.done := rfl
@[simp] theorem State.setCode_err (s : State) (k : Nat) (e : CodeEntry) :
    (s.setCode k e).err = s.err := rfl
@[simp] theorem State.setCode_owned (s : State) (k : Nat) (e : CodeEntry) :
    (s.setCode k e).owned = s.owned := rfl
@[simp] theorem State.setCode_errCode (s : State) (k : Nat) (e : CodeEntry) :
    (s.setCode k e).errCode = s.errCode := rfl
@[simp] theorem State.setCode_errSub (s : State) (k : Nat) (e : CodeEntry) :
    (s.setCode k e).errSub = s.errSub := rfl
@[simp] theorem State.setCode_inLen (s : State) (k : Nat) (e : CodeEntry) :
    (s.setCode k e).inLen = s.inLen := rfl
@[simp] theorem State.setCode_cbLen (s : State) (k : Nat) (e : CodeEntry) :
    (s.setCode k e).cbLen = s.cbLen := rfl
@[simp] theorem State.setCode_pkLen (s : State) (k : Nat) (e : CodeEntry) :
    (s.setCode k e).pkLen = s.pkLen := rfl
@[simp] theorem State.setCode_outLen (s : State) (k : Nat) (e : CodeEntry) :
    (s.setCode k e).outLen = s.outLen := rfl
@[simp] theorem State.setCode_totalBits (s : State) (k : Nat) (e : CodeEntry) :
    (s.setCode k e).totalBits = s.totalBits := rfl
@[simp] theorem State.setCode_root (s : State) (k : Nat) (e : CodeEntry) :
    (s.setCode k e).root = s.root := rfl
@[simp] theorem State.setCode_nextId (s : State) (k : Nat) (e : CodeEntry) :
    (s.setCode k e).nextId = s.nextId := rfl
@[simp] theorem State.setCode_heapSize (s : State) (k : Nat) (e : CodeEntry) :
    (s.setCode k e).heapSize = s.heapSize := rfl
@[simp] theorem State.setCode_dcbCnt (s : State) (k : Nat) (e : CodeEntry) :
    (s.setCode k e).dcbCnt = s.dcbCnt := rfl
@[simp] theorem State.setCode_bitPos (s : State) (k : Nat) (e : CodeEntry) :
    (s.setCode k e).bitPos = s.bitPos := rfl
@[simp] theorem State.setCode_acc (s : State) (k : Nat) (e : CodeEntry) :
    (s.setCode k e).acc = s.acc := rfl
@[simp] theorem State.setCode_accN (s : State) (k : Nat) (e : CodeEntry) :
    (s.setCode k e).accN = s.accN := rfl
@[simp] theorem State.setCode_cand (s : State) (k : Nat) (e : CodeEntry) :
    (s.setCode k e).cand = s.cand := rfl
@[simp] theorem State.setCode_candLen (s : State) (k : Nat) (e : CodeEntry) :
    (s.setCode k e).candLen = s.candLen := rfl
@[simp] theorem State.setCode_wsp (s : State) (k : Nat) (e : CodeEntry) :
    (s.setCode k e).wsp = s.wsp := rfl
@[simp] theorem State.setCode_path (s : State) (k : Nat) (e : CodeEntry) :
    (s.setCode k e).path = s.path := rfl
@[simp] theorem State.setCode_wstk (s : State) (k : Nat) (e : CodeEntry) :
    (s.setCode k e).wstk = s.wstk := rfl
@[simp] theorem State.setCode_freq (s : State) (k : Nat) (e : CodeEntry) :
    (s.setCode k e).freq = s.freq := rfl
@[simp] theorem State.setCode_nodeFreq (s : State) (k : Nat) (e : CodeEntry) :
    (s.setCode k e).nodeFreq = s.nodeFreq := rfl
@[simp] theorem State.setCode_nodeLeft (s : State) (k : Nat) (e : CodeEntry) :
    (s.setCode k e).nodeLeft = s.nodeLeft := rfl
@[simp] theorem State.setCode_nodeRight (s : State) (k : Nat) (e : CodeEntry) :
    (s.setCode k e).nodeRight = s.nodeRight := rfl
@[simp] theorem State.setCode_heap (s : State) (k : Nat) (e : CodeEntry) :
    (s.setCode k e).heap = s.heap := rfl
@[simp] theorem State.setCode_code (s : State) (k : Nat) (e : CodeEntry) :
    (s.setCode k e).code = cellSet k e s.code := rfl
@[simp] theorem State.setCode_dcb (s : State) (k : Nat) (e : CodeEntry) :
    (s.setCode k e).dcb = s.dcb := rfl
@[simp] theorem State.setCode_inStore (s : State) (k : Nat) (e : CodeEntry) :
    (s.setCode k e).inStore = s.inStore := rfl
@[simp] theorem State.setCode_cbStore (s : State) (k : Nat) (e : CodeEntry) :
    (s.setCode k e).cbStore = s.cbStore := rfl
@[simp] theorem State.setCode_pkStore (s : State) (k : Nat) (e : CodeEntry) :
    (s.setCode k e).pkStore = s.pkStore := rfl
@[simp] theorem State.setCode_outStore (s : State) (k : Nat) (e : CodeEntry) :
    (s.setCode k e).outStore = s.outStore := rfl
@[simp] theorem State.setCode_caps (s : State) (k : Nat) (e : CodeEntry) :
    (s.setCode k e).caps = s.caps := rfl
@[simp] theorem State.setCode_epoch (s : State) (k : Nat) (e : CodeEntry) :
    (s.setCode k e).epoch = s.epoch := rfl
@[simp] theorem State.setCode_freeCount (s : State) (k : Nat) (e : CodeEntry) :
    (s.setCode k e).freeCount = s.freeCount := rfl
@[simp] theorem State.setCode_turns (s : State) (k : Nat) (e : CodeEntry) :
    (s.setCode k e).turns = s.turns := rfl
@[simp] theorem State.setCode_replies (s : State) (k : Nat) (e : CodeEntry) :
    (s.setCode k e).replies = s.replies := rfl
@[simp] theorem State.setCode_result (s : State) (k : Nat) (e : CodeEntry) :
    (s.setCode k e).result = s.result := rfl

/-! ### `setDcb` -/

@[simp] theorem State.setDcb_curCmd (s : State) (k : Nat) (e : CodeEntry) :
    (s.setDcb k e).curCmd = s.curCmd := rfl
@[simp] theorem State.setDcb_step (s : State) (k : Nat) (e : CodeEntry) :
    (s.setDcb k e).step = s.step := rfl
@[simp] theorem State.setDcb_uop (s : State) (k : Nat) (e : CodeEntry) :
    (s.setDcb k e).uop = s.uop := rfl
@[simp] theorem State.setDcb_busy (s : State) (k : Nat) (e : CodeEntry) :
    (s.setDcb k e).busy = s.busy := rfl
@[simp] theorem State.setDcb_done (s : State) (k : Nat) (e : CodeEntry) :
    (s.setDcb k e).done = s.done := rfl
@[simp] theorem State.setDcb_err (s : State) (k : Nat) (e : CodeEntry) :
    (s.setDcb k e).err = s.err := rfl
@[simp] theorem State.setDcb_owned (s : State) (k : Nat) (e : CodeEntry) :
    (s.setDcb k e).owned = s.owned := rfl
@[simp] theorem State.setDcb_errCode (s : State) (k : Nat) (e : CodeEntry) :
    (s.setDcb k e).errCode = s.errCode := rfl
@[simp] theorem State.setDcb_errSub (s : State) (k : Nat) (e : CodeEntry) :
    (s.setDcb k e).errSub = s.errSub := rfl
@[simp] theorem State.setDcb_inLen (s : State) (k : Nat) (e : CodeEntry) :
    (s.setDcb k e).inLen = s.inLen := rfl
@[simp] theorem State.setDcb_cbLen (s : State) (k : Nat) (e : CodeEntry) :
    (s.setDcb k e).cbLen = s.cbLen := rfl
@[simp] theorem State.setDcb_pkLen (s : State) (k : Nat) (e : CodeEntry) :
    (s.setDcb k e).pkLen = s.pkLen := rfl
@[simp] theorem State.setDcb_outLen (s : State) (k : Nat) (e : CodeEntry) :
    (s.setDcb k e).outLen = s.outLen := rfl
@[simp] theorem State.setDcb_totalBits (s : State) (k : Nat) (e : CodeEntry) :
    (s.setDcb k e).totalBits = s.totalBits := rfl
@[simp] theorem State.setDcb_root (s : State) (k : Nat) (e : CodeEntry) :
    (s.setDcb k e).root = s.root := rfl
@[simp] theorem State.setDcb_nextId (s : State) (k : Nat) (e : CodeEntry) :
    (s.setDcb k e).nextId = s.nextId := rfl
@[simp] theorem State.setDcb_heapSize (s : State) (k : Nat) (e : CodeEntry) :
    (s.setDcb k e).heapSize = s.heapSize := rfl
@[simp] theorem State.setDcb_dcbCnt (s : State) (k : Nat) (e : CodeEntry) :
    (s.setDcb k e).dcbCnt = s.dcbCnt := rfl
@[simp] theorem State.setDcb_bitPos (s : State) (k : Nat) (e : CodeEntry) :
    (s.setDcb k e).bitPos = s.bitPos := rfl
@[simp] theorem State.setDcb_acc (s : State) (k : Nat) (e : CodeEntry) :
    (s.setDcb k e).acc = s.acc := rfl
@[simp] theorem State.setDcb_accN (s : State) (k : Nat) (e : CodeEntry) :
    (s.setDcb k e).accN = s.accN := rfl
@[simp] theorem State.setDcb_cand (s : State) (k : Nat) (e : CodeEntry) :
    (s.setDcb k e).cand = s.cand := rfl
@[simp] theorem State.setDcb_candLen (s : State) (k : Nat) (e : CodeEntry) :
    (s.setDcb k e).candLen = s.candLen := rfl
@[simp] theorem State.setDcb_wsp (s : State) (k : Nat) (e : CodeEntry) :
    (s.setDcb k e).wsp = s.wsp := rfl
@[simp] theorem State.setDcb_path (s : State) (k : Nat) (e : CodeEntry) :
    (s.setDcb k e).path = s.path := rfl
@[simp] theorem State.setDcb_wstk (s : State) (k : Nat) (e : CodeEntry) :
    (s.setDcb k e).wstk = s.wstk := rfl
@[simp] theorem State.setDcb_freq (s : State) (k : Nat) (e : CodeEntry) :
    (s.setDcb k e).freq = s.freq := rfl
@[simp] theorem State.setDcb_nodeFreq (s : State) (k : Nat) (e : CodeEntry) :
    (s.setDcb k e).nodeFreq = s.nodeFreq := rfl
@[simp] theorem State.setDcb_nodeLeft (s : State) (k : Nat) (e : CodeEntry) :
    (s.setDcb k e).nodeLeft = s.nodeLeft := rfl
@[simp] theorem State.setDcb_nodeRight (s : State) (k : Nat) (e : CodeEntry) :
    (s.setDcb k e).nodeRight = s.nodeRight := rfl
@[simp] theorem State.setDcb_heap (s : State) (k : Nat) (e : CodeEntry) :
    (s.setDcb k e).heap = s.heap := rfl
@[simp] theorem State.setDcb_code (s : State) (k : Nat) (e : CodeEntry) :
    (s.setDcb k e).code = s.code := rfl
@[simp] theorem State.setDcb_dcb (s : State) (k : Nat) (e : CodeEntry) :
    (s.setDcb k e).dcb = cellSet k e s.dcb := rfl
@[simp] theorem State.setDcb_inStore (s : State) (k : Nat) (e : CodeEntry) :
    (s.setDcb k e).inStore = s.inStore := rfl
@[simp] theorem State.setDcb_cbStore (s : State) (k : Nat) (e : CodeEntry) :
    (s.setDcb k e).cbStore = s.cbStore := rfl
@[simp] theorem State.setDcb_pkStore (s : State) (k : Nat) (e : CodeEntry) :
    (s.setDcb k e).pkStore = s.pkStore := rfl
@[simp] theorem State.setDcb_outStore (s : State) (k : Nat) (e : CodeEntry) :
    (s.setDcb k e).outStore = s.outStore := rfl
@[simp] theorem State.setDcb_caps (s : State) (k : Nat) (e : CodeEntry) :
    (s.setDcb k e).caps = s.caps := rfl
@[simp] theorem State.setDcb_epoch (s : State) (k : Nat) (e : CodeEntry) :
    (s.setDcb k e).epoch = s.epoch := rfl
@[simp] theorem State.setDcb_freeCount (s : State) (k : Nat) (e : CodeEntry) :
    (s.setDcb k e).freeCount = s.freeCount := rfl
@[simp] theorem State.setDcb_turns (s : State) (k : Nat) (e : CodeEntry) :
    (s.setDcb k e).turns = s.turns := rfl
@[simp] theorem State.setDcb_replies (s : State) (k : Nat) (e : CodeEntry) :
    (s.setDcb k e).replies = s.replies := rfl
@[simp] theorem State.setDcb_result (s : State) (k : Nat) (e : CodeEntry) :
    (s.setDcb k e).result = s.result := rfl

/-! ### `swapHeap` -/

@[simp] theorem State.swapHeap_curCmd (s : State) (i j : Nat) :
    (s.swapHeap i j).curCmd = s.curCmd := rfl
@[simp] theorem State.swapHeap_step (s : State) (i j : Nat) :
    (s.swapHeap i j).step = s.step := rfl
@[simp] theorem State.swapHeap_uop (s : State) (i j : Nat) :
    (s.swapHeap i j).uop = s.uop := rfl
@[simp] theorem State.swapHeap_busy (s : State) (i j : Nat) :
    (s.swapHeap i j).busy = s.busy := rfl
@[simp] theorem State.swapHeap_done (s : State) (i j : Nat) :
    (s.swapHeap i j).done = s.done := rfl
@[simp] theorem State.swapHeap_err (s : State) (i j : Nat) :
    (s.swapHeap i j).err = s.err := rfl
@[simp] theorem State.swapHeap_owned (s : State) (i j : Nat) :
    (s.swapHeap i j).owned = s.owned := rfl
@[simp] theorem State.swapHeap_errCode (s : State) (i j : Nat) :
    (s.swapHeap i j).errCode = s.errCode := rfl
@[simp] theorem State.swapHeap_errSub (s : State) (i j : Nat) :
    (s.swapHeap i j).errSub = s.errSub := rfl
@[simp] theorem State.swapHeap_inLen (s : State) (i j : Nat) :
    (s.swapHeap i j).inLen = s.inLen := rfl
@[simp] theorem State.swapHeap_cbLen (s : State) (i j : Nat) :
    (s.swapHeap i j).cbLen = s.cbLen := rfl
@[simp] theorem State.swapHeap_pkLen (s : State) (i j : Nat) :
    (s.swapHeap i j).pkLen = s.pkLen := rfl
@[simp] theorem State.swapHeap_outLen (s : State) (i j : Nat) :
    (s.swapHeap i j).outLen = s.outLen := rfl
@[simp] theorem State.swapHeap_totalBits (s : State) (i j : Nat) :
    (s.swapHeap i j).totalBits = s.totalBits := rfl
@[simp] theorem State.swapHeap_root (s : State) (i j : Nat) :
    (s.swapHeap i j).root = s.root := rfl
@[simp] theorem State.swapHeap_nextId (s : State) (i j : Nat) :
    (s.swapHeap i j).nextId = s.nextId := rfl
@[simp] theorem State.swapHeap_heapSize (s : State) (i j : Nat) :
    (s.swapHeap i j).heapSize = s.heapSize := rfl
@[simp] theorem State.swapHeap_dcbCnt (s : State) (i j : Nat) :
    (s.swapHeap i j).dcbCnt = s.dcbCnt := rfl
@[simp] theorem State.swapHeap_bitPos (s : State) (i j : Nat) :
    (s.swapHeap i j).bitPos = s.bitPos := rfl
@[simp] theorem State.swapHeap_acc (s : State) (i j : Nat) :
    (s.swapHeap i j).acc = s.acc := rfl
@[simp] theorem State.swapHeap_accN (s : State) (i j : Nat) :
    (s.swapHeap i j).accN = s.accN := rfl
@[simp] theorem State.swapHeap_cand (s : State) (i j : Nat) :
    (s.swapHeap i j).cand = s.cand := rfl
@[simp] theorem State.swapHeap_candLen (s : State) (i j : Nat) :
    (s.swapHeap i j).candLen = s.candLen := rfl
@[simp] theorem State.swapHeap_wsp (s : State) (i j : Nat) :
    (s.swapHeap i j).wsp = s.wsp := rfl
@[simp] theorem State.swapHeap_path (s : State) (i j : Nat) :
    (s.swapHeap i j).path = s.path := rfl
@[simp] theorem State.swapHeap_wstk (s : State) (i j : Nat) :
    (s.swapHeap i j).wstk = s.wstk := rfl
@[simp] theorem State.swapHeap_freq (s : State) (i j : Nat) :
    (s.swapHeap i j).freq = s.freq := rfl
@[simp] theorem State.swapHeap_nodeFreq (s : State) (i j : Nat) :
    (s.swapHeap i j).nodeFreq = s.nodeFreq := rfl
@[simp] theorem State.swapHeap_nodeLeft (s : State) (i j : Nat) :
    (s.swapHeap i j).nodeLeft = s.nodeLeft := rfl
@[simp] theorem State.swapHeap_nodeRight (s : State) (i j : Nat) :
    (s.swapHeap i j).nodeRight = s.nodeRight := rfl
@[simp] theorem State.swapHeap_heap (s : State) (i j : Nat) :
    (s.swapHeap i j).heap = cellSet j (s.heapAt i) (cellSet i (s.heapAt j) s.heap) := rfl
@[simp] theorem State.swapHeap_code (s : State) (i j : Nat) :
    (s.swapHeap i j).code = s.code := rfl
@[simp] theorem State.swapHeap_dcb (s : State) (i j : Nat) :
    (s.swapHeap i j).dcb = s.dcb := rfl
@[simp] theorem State.swapHeap_inStore (s : State) (i j : Nat) :
    (s.swapHeap i j).inStore = s.inStore := rfl
@[simp] theorem State.swapHeap_cbStore (s : State) (i j : Nat) :
    (s.swapHeap i j).cbStore = s.cbStore := rfl
@[simp] theorem State.swapHeap_pkStore (s : State) (i j : Nat) :
    (s.swapHeap i j).pkStore = s.pkStore := rfl
@[simp] theorem State.swapHeap_outStore (s : State) (i j : Nat) :
    (s.swapHeap i j).outStore = s.outStore := rfl
@[simp] theorem State.swapHeap_caps (s : State) (i j : Nat) :
    (s.swapHeap i j).caps = s.caps := rfl
@[simp] theorem State.swapHeap_epoch (s : State) (i j : Nat) :
    (s.swapHeap i j).epoch = s.epoch := rfl
@[simp] theorem State.swapHeap_freeCount (s : State) (i j : Nat) :
    (s.swapHeap i j).freeCount = s.freeCount := rfl
@[simp] theorem State.swapHeap_turns (s : State) (i j : Nat) :
    (s.swapHeap i j).turns = s.turns := rfl
@[simp] theorem State.swapHeap_replies (s : State) (i j : Nat) :
    (s.swapHeap i j).replies = s.replies := rfl
@[simp] theorem State.swapHeap_result (s : State) (i j : Nat) :
    (s.swapHeap i j).result = s.result := rfl

/-! ### `errorEntry` -/

@[simp] theorem errorEntry_curCmd (s : State) (e : ErrKind) (sub : BitVec 8) :
    (errorEntry e sub s).curCmd = s.curCmd := rfl
@[simp] theorem errorEntry_step (s : State) (e : ErrKind) (sub : BitVec 8) :
    (errorEntry e sub s).step = s.step := rfl
@[simp] theorem errorEntry_uop (s : State) (e : ErrKind) (sub : BitVec 8) :
    (errorEntry e sub s).uop = s.uop := rfl
@[simp] theorem errorEntry_busy (s : State) (e : ErrKind) (sub : BitVec 8) :
    (errorEntry e sub s).busy = false := rfl
@[simp] theorem errorEntry_done (s : State) (e : ErrKind) (sub : BitVec 8) :
    (errorEntry e sub s).done = true := rfl
@[simp] theorem errorEntry_err (s : State) (e : ErrKind) (sub : BitVec 8) :
    (errorEntry e sub s).err = true := rfl
@[simp] theorem errorEntry_owned (s : State) (e : ErrKind) (sub : BitVec 8) :
    (errorEntry e sub s).owned = s.owned := rfl
@[simp] theorem errorEntry_errCode (s : State) (e : ErrKind) (sub : BitVec 8) :
    (errorEntry e sub s).errCode = errKindCode e := rfl
@[simp] theorem errorEntry_errSub (s : State) (e : ErrKind) (sub : BitVec 8) :
    (errorEntry e sub s).errSub = sub := rfl
@[simp] theorem errorEntry_inLen (s : State) (e : ErrKind) (sub : BitVec 8) :
    (errorEntry e sub s).inLen = s.inLen := rfl
@[simp] theorem errorEntry_cbLen (s : State) (e : ErrKind) (sub : BitVec 8) :
    (errorEntry e sub s).cbLen = if s.curCmd = 1#2 then 0 else s.cbLen := rfl
@[simp] theorem errorEntry_pkLen (s : State) (e : ErrKind) (sub : BitVec 8) :
    (errorEntry e sub s).pkLen = if s.curCmd = 1#2 then 0 else s.pkLen := rfl
@[simp] theorem errorEntry_outLen (s : State) (e : ErrKind) (sub : BitVec 8) :
    (errorEntry e sub s).outLen = if s.curCmd = 2#2 then 0 else s.outLen := rfl
@[simp] theorem errorEntry_totalBits (s : State) (e : ErrKind) (sub : BitVec 8) :
    (errorEntry e sub s).totalBits = s.totalBits := rfl
@[simp] theorem errorEntry_root (s : State) (e : ErrKind) (sub : BitVec 8) :
    (errorEntry e sub s).root = s.root := rfl
@[simp] theorem errorEntry_nextId (s : State) (e : ErrKind) (sub : BitVec 8) :
    (errorEntry e sub s).nextId = s.nextId := rfl
@[simp] theorem errorEntry_heapSize (s : State) (e : ErrKind) (sub : BitVec 8) :
    (errorEntry e sub s).heapSize = s.heapSize := rfl
@[simp] theorem errorEntry_dcbCnt (s : State) (e : ErrKind) (sub : BitVec 8) :
    (errorEntry e sub s).dcbCnt = s.dcbCnt := rfl
@[simp] theorem errorEntry_bitPos (s : State) (e : ErrKind) (sub : BitVec 8) :
    (errorEntry e sub s).bitPos = s.bitPos := rfl
@[simp] theorem errorEntry_acc (s : State) (e : ErrKind) (sub : BitVec 8) :
    (errorEntry e sub s).acc = s.acc := rfl
@[simp] theorem errorEntry_accN (s : State) (e : ErrKind) (sub : BitVec 8) :
    (errorEntry e sub s).accN = s.accN := rfl
@[simp] theorem errorEntry_cand (s : State) (e : ErrKind) (sub : BitVec 8) :
    (errorEntry e sub s).cand = s.cand := rfl
@[simp] theorem errorEntry_candLen (s : State) (e : ErrKind) (sub : BitVec 8) :
    (errorEntry e sub s).candLen = s.candLen := rfl
@[simp] theorem errorEntry_wsp (s : State) (e : ErrKind) (sub : BitVec 8) :
    (errorEntry e sub s).wsp = s.wsp := rfl
@[simp] theorem errorEntry_path (s : State) (e : ErrKind) (sub : BitVec 8) :
    (errorEntry e sub s).path = s.path := rfl
@[simp] theorem errorEntry_wstk (s : State) (e : ErrKind) (sub : BitVec 8) :
    (errorEntry e sub s).wstk = s.wstk := rfl
@[simp] theorem errorEntry_freq (s : State) (e : ErrKind) (sub : BitVec 8) :
    (errorEntry e sub s).freq = s.freq := rfl
@[simp] theorem errorEntry_nodeFreq (s : State) (e : ErrKind) (sub : BitVec 8) :
    (errorEntry e sub s).nodeFreq = s.nodeFreq := rfl
@[simp] theorem errorEntry_nodeLeft (s : State) (e : ErrKind) (sub : BitVec 8) :
    (errorEntry e sub s).nodeLeft = s.nodeLeft := rfl
@[simp] theorem errorEntry_nodeRight (s : State) (e : ErrKind) (sub : BitVec 8) :
    (errorEntry e sub s).nodeRight = s.nodeRight := rfl
@[simp] theorem errorEntry_heap (s : State) (e : ErrKind) (sub : BitVec 8) :
    (errorEntry e sub s).heap = s.heap := rfl
@[simp] theorem errorEntry_code (s : State) (e : ErrKind) (sub : BitVec 8) :
    (errorEntry e sub s).code = s.code := rfl
@[simp] theorem errorEntry_dcb (s : State) (e : ErrKind) (sub : BitVec 8) :
    (errorEntry e sub s).dcb = s.dcb := rfl
@[simp] theorem errorEntry_inStore (s : State) (e : ErrKind) (sub : BitVec 8) :
    (errorEntry e sub s).inStore = s.inStore := rfl
@[simp] theorem errorEntry_cbStore (s : State) (e : ErrKind) (sub : BitVec 8) :
    (errorEntry e sub s).cbStore = s.cbStore := rfl
@[simp] theorem errorEntry_pkStore (s : State) (e : ErrKind) (sub : BitVec 8) :
    (errorEntry e sub s).pkStore = s.pkStore := rfl
@[simp] theorem errorEntry_outStore (s : State) (e : ErrKind) (sub : BitVec 8) :
    (errorEntry e sub s).outStore = s.outStore := rfl
@[simp] theorem errorEntry_caps (s : State) (e : ErrKind) (sub : BitVec 8) :
    (errorEntry e sub s).caps = s.caps := rfl
@[simp] theorem errorEntry_epoch (s : State) (e : ErrKind) (sub : BitVec 8) :
    (errorEntry e sub s).epoch = s.epoch := rfl
@[simp] theorem errorEntry_freeCount (s : State) (e : ErrKind) (sub : BitVec 8) :
    (errorEntry e sub s).freeCount = s.freeCount := rfl
@[simp] theorem errorEntry_turns (s : State) (e : ErrKind) (sub : BitVec 8) :
    (errorEntry e sub s).turns = s.turns := rfl
@[simp] theorem errorEntry_replies (s : State) (e : ErrKind) (sub : BitVec 8) :
    (errorEntry e sub s).replies = s.replies := rfl
@[simp] theorem errorEntry_result (s : State) (e : ErrKind) (sub : BitVec 8) :
    (errorEntry e sub s).result = s.result := rfl

/-! ### `badCommand` -/

@[simp] theorem badCommand_curCmd (s : State) (sub : BitVec 8) :
    (badCommand sub s).curCmd = s.curCmd := rfl
@[simp] theorem badCommand_step (s : State) (sub : BitVec 8) :
    (badCommand sub s).step = s.step := rfl
@[simp] theorem badCommand_uop (s : State) (sub : BitVec 8) :
    (badCommand sub s).uop = 0 := rfl
@[simp] theorem badCommand_busy (s : State) (sub : BitVec 8) :
    (badCommand sub s).busy = s.busy := rfl
@[simp] theorem badCommand_done (s : State) (sub : BitVec 8) :
    (badCommand sub s).done = true := rfl
@[simp] theorem badCommand_err (s : State) (sub : BitVec 8) :
    (badCommand sub s).err = true := rfl
@[simp] theorem badCommand_owned (s : State) (sub : BitVec 8) :
    (badCommand sub s).owned = s.owned := rfl
@[simp] theorem badCommand_errCode (s : State) (sub : BitVec 8) :
    (badCommand sub s).errCode = errKindCode .badCommand := rfl
@[simp] theorem badCommand_errSub (s : State) (sub : BitVec 8) :
    (badCommand sub s).errSub = sub := rfl
@[simp] theorem badCommand_inLen (s : State) (sub : BitVec 8) :
    (badCommand sub s).inLen = s.inLen := rfl
@[simp] theorem badCommand_cbLen (s : State) (sub : BitVec 8) :
    (badCommand sub s).cbLen = s.cbLen := rfl
@[simp] theorem badCommand_pkLen (s : State) (sub : BitVec 8) :
    (badCommand sub s).pkLen = s.pkLen := rfl
@[simp] theorem badCommand_outLen (s : State) (sub : BitVec 8) :
    (badCommand sub s).outLen = s.outLen := rfl
@[simp] theorem badCommand_totalBits (s : State) (sub : BitVec 8) :
    (badCommand sub s).totalBits = s.totalBits := rfl
@[simp] theorem badCommand_root (s : State) (sub : BitVec 8) :
    (badCommand sub s).root = s.root := rfl
@[simp] theorem badCommand_nextId (s : State) (sub : BitVec 8) :
    (badCommand sub s).nextId = s.nextId := rfl
@[simp] theorem badCommand_heapSize (s : State) (sub : BitVec 8) :
    (badCommand sub s).heapSize = s.heapSize := rfl
@[simp] theorem badCommand_dcbCnt (s : State) (sub : BitVec 8) :
    (badCommand sub s).dcbCnt = s.dcbCnt := rfl
@[simp] theorem badCommand_bitPos (s : State) (sub : BitVec 8) :
    (badCommand sub s).bitPos = s.bitPos := rfl
@[simp] theorem badCommand_acc (s : State) (sub : BitVec 8) :
    (badCommand sub s).acc = s.acc := rfl
@[simp] theorem badCommand_accN (s : State) (sub : BitVec 8) :
    (badCommand sub s).accN = s.accN := rfl
@[simp] theorem badCommand_cand (s : State) (sub : BitVec 8) :
    (badCommand sub s).cand = s.cand := rfl
@[simp] theorem badCommand_candLen (s : State) (sub : BitVec 8) :
    (badCommand sub s).candLen = s.candLen := rfl
@[simp] theorem badCommand_wsp (s : State) (sub : BitVec 8) :
    (badCommand sub s).wsp = s.wsp := rfl
@[simp] theorem badCommand_path (s : State) (sub : BitVec 8) :
    (badCommand sub s).path = s.path := rfl
@[simp] theorem badCommand_wstk (s : State) (sub : BitVec 8) :
    (badCommand sub s).wstk = s.wstk := rfl
@[simp] theorem badCommand_freq (s : State) (sub : BitVec 8) :
    (badCommand sub s).freq = s.freq := rfl
@[simp] theorem badCommand_nodeFreq (s : State) (sub : BitVec 8) :
    (badCommand sub s).nodeFreq = s.nodeFreq := rfl
@[simp] theorem badCommand_nodeLeft (s : State) (sub : BitVec 8) :
    (badCommand sub s).nodeLeft = s.nodeLeft := rfl
@[simp] theorem badCommand_nodeRight (s : State) (sub : BitVec 8) :
    (badCommand sub s).nodeRight = s.nodeRight := rfl
@[simp] theorem badCommand_heap (s : State) (sub : BitVec 8) :
    (badCommand sub s).heap = s.heap := rfl
@[simp] theorem badCommand_code (s : State) (sub : BitVec 8) :
    (badCommand sub s).code = s.code := rfl
@[simp] theorem badCommand_dcb (s : State) (sub : BitVec 8) :
    (badCommand sub s).dcb = s.dcb := rfl
@[simp] theorem badCommand_inStore (s : State) (sub : BitVec 8) :
    (badCommand sub s).inStore = s.inStore := rfl
@[simp] theorem badCommand_cbStore (s : State) (sub : BitVec 8) :
    (badCommand sub s).cbStore = s.cbStore := rfl
@[simp] theorem badCommand_pkStore (s : State) (sub : BitVec 8) :
    (badCommand sub s).pkStore = s.pkStore := rfl
@[simp] theorem badCommand_outStore (s : State) (sub : BitVec 8) :
    (badCommand sub s).outStore = s.outStore := rfl
@[simp] theorem badCommand_caps (s : State) (sub : BitVec 8) :
    (badCommand sub s).caps = s.caps := rfl
@[simp] theorem badCommand_epoch (s : State) (sub : BitVec 8) :
    (badCommand sub s).epoch = s.epoch := rfl
@[simp] theorem badCommand_freeCount (s : State) (sub : BitVec 8) :
    (badCommand sub s).freeCount = s.freeCount := rfl
@[simp] theorem badCommand_turns (s : State) (sub : BitVec 8) :
    (badCommand sub s).turns = s.turns := rfl
@[simp] theorem badCommand_replies (s : State) (sub : BitVec 8) :
    (badCommand sub s).replies = s.replies := rfl
@[simp] theorem badCommand_result (s : State) (sub : BitVec 8) :
    (badCommand sub s).result = s.result := rfl

/-! ### `startCommand` -/

@[simp] theorem startCommand_curCmd (s : State) (c : BitVec 2) :
    (startCommand c s).curCmd = c := rfl
@[simp] theorem startCommand_step (s : State) (c : BitVec 2) :
    (startCommand c s).step = 0 := rfl
@[simp] theorem startCommand_uop (s : State) (c : BitVec 2) :
    (startCommand c s).uop = s.uop := rfl
@[simp] theorem startCommand_busy (s : State) (c : BitVec 2) :
    (startCommand c s).busy = true := rfl
@[simp] theorem startCommand_done (s : State) (c : BitVec 2) :
    (startCommand c s).done = false := rfl
@[simp] theorem startCommand_err (s : State) (c : BitVec 2) :
    (startCommand c s).err = false := rfl
@[simp] theorem startCommand_owned (s : State) (c : BitVec 2) :
    (startCommand c s).owned = true := rfl
@[simp] theorem startCommand_errCode (s : State) (c : BitVec 2) :
    (startCommand c s).errCode = 0 := rfl
@[simp] theorem startCommand_errSub (s : State) (c : BitVec 2) :
    (startCommand c s).errSub = 0 := rfl
@[simp] theorem startCommand_inLen (s : State) (c : BitVec 2) :
    (startCommand c s).inLen = s.inLen := rfl
@[simp] theorem startCommand_cbLen (s : State) (c : BitVec 2) :
    (startCommand c s).cbLen = s.cbLen := rfl
@[simp] theorem startCommand_pkLen (s : State) (c : BitVec 2) :
    (startCommand c s).pkLen = s.pkLen := rfl
@[simp] theorem startCommand_outLen (s : State) (c : BitVec 2) :
    (startCommand c s).outLen = s.outLen := rfl
@[simp] theorem startCommand_totalBits (s : State) (c : BitVec 2) :
    (startCommand c s).totalBits = s.totalBits := rfl
@[simp] theorem startCommand_root (s : State) (c : BitVec 2) :
    (startCommand c s).root = s.root := rfl
@[simp] theorem startCommand_nextId (s : State) (c : BitVec 2) :
    (startCommand c s).nextId = s.nextId := rfl
@[simp] theorem startCommand_heapSize (s : State) (c : BitVec 2) :
    (startCommand c s).heapSize = s.heapSize := rfl
@[simp] theorem startCommand_dcbCnt (s : State) (c : BitVec 2) :
    (startCommand c s).dcbCnt = s.dcbCnt := rfl
@[simp] theorem startCommand_bitPos (s : State) (c : BitVec 2) :
    (startCommand c s).bitPos = s.bitPos := rfl
@[simp] theorem startCommand_acc (s : State) (c : BitVec 2) :
    (startCommand c s).acc = s.acc := rfl
@[simp] theorem startCommand_accN (s : State) (c : BitVec 2) :
    (startCommand c s).accN = s.accN := rfl
@[simp] theorem startCommand_cand (s : State) (c : BitVec 2) :
    (startCommand c s).cand = s.cand := rfl
@[simp] theorem startCommand_candLen (s : State) (c : BitVec 2) :
    (startCommand c s).candLen = s.candLen := rfl
@[simp] theorem startCommand_wsp (s : State) (c : BitVec 2) :
    (startCommand c s).wsp = s.wsp := rfl
@[simp] theorem startCommand_path (s : State) (c : BitVec 2) :
    (startCommand c s).path = s.path := rfl
@[simp] theorem startCommand_wstk (s : State) (c : BitVec 2) :
    (startCommand c s).wstk = s.wstk := rfl
@[simp] theorem startCommand_freq (s : State) (c : BitVec 2) :
    (startCommand c s).freq = s.freq := rfl
@[simp] theorem startCommand_nodeFreq (s : State) (c : BitVec 2) :
    (startCommand c s).nodeFreq = s.nodeFreq := rfl
@[simp] theorem startCommand_nodeLeft (s : State) (c : BitVec 2) :
    (startCommand c s).nodeLeft = s.nodeLeft := rfl
@[simp] theorem startCommand_nodeRight (s : State) (c : BitVec 2) :
    (startCommand c s).nodeRight = s.nodeRight := rfl
@[simp] theorem startCommand_heap (s : State) (c : BitVec 2) :
    (startCommand c s).heap = s.heap := rfl
@[simp] theorem startCommand_code (s : State) (c : BitVec 2) :
    (startCommand c s).code = s.code := rfl
@[simp] theorem startCommand_dcb (s : State) (c : BitVec 2) :
    (startCommand c s).dcb = s.dcb := rfl
@[simp] theorem startCommand_inStore (s : State) (c : BitVec 2) :
    (startCommand c s).inStore = s.inStore := rfl
@[simp] theorem startCommand_cbStore (s : State) (c : BitVec 2) :
    (startCommand c s).cbStore = s.cbStore := rfl
@[simp] theorem startCommand_pkStore (s : State) (c : BitVec 2) :
    (startCommand c s).pkStore = s.pkStore := rfl
@[simp] theorem startCommand_outStore (s : State) (c : BitVec 2) :
    (startCommand c s).outStore = s.outStore := rfl
@[simp] theorem startCommand_caps (s : State) (c : BitVec 2) :
    (startCommand c s).caps = s.caps := rfl
@[simp] theorem startCommand_epoch (s : State) (c : BitVec 2) :
    (startCommand c s).epoch = s.epoch := rfl
@[simp] theorem startCommand_freeCount (s : State) (c : BitVec 2) :
    (startCommand c s).freeCount = s.freeCount := rfl
@[simp] theorem startCommand_turns (s : State) (c : BitVec 2) :
    (startCommand c s).turns = s.turns := rfl
@[simp] theorem startCommand_replies (s : State) (c : BitVec 2) :
    (startCommand c s).replies = s.replies := rfl
@[simp] theorem startCommand_result (s : State) (c : BitVec 2) :
    (startCommand c s).result = s.result := rfl

/-! ### `takeFree` -/

@[simp] theorem takeFree_curCmd (s : State) :
    (takeFree s).curCmd = s.curCmd := rfl
@[simp] theorem takeFree_step (s : State) :
    (takeFree s).step = s.step := rfl
@[simp] theorem takeFree_uop (s : State) :
    (takeFree s).uop = s.uop := rfl
@[simp] theorem takeFree_busy (s : State) :
    (takeFree s).busy = s.busy := rfl
@[simp] theorem takeFree_done (s : State) :
    (takeFree s).done = s.done := rfl
@[simp] theorem takeFree_err (s : State) :
    (takeFree s).err = s.err := rfl
@[simp] theorem takeFree_owned (s : State) :
    (takeFree s).owned = s.owned := rfl
@[simp] theorem takeFree_errCode (s : State) :
    (takeFree s).errCode = s.errCode := rfl
@[simp] theorem takeFree_errSub (s : State) :
    (takeFree s).errSub = s.errSub := rfl
@[simp] theorem takeFree_inLen (s : State) :
    (takeFree s).inLen = s.inLen := rfl
@[simp] theorem takeFree_cbLen (s : State) :
    (takeFree s).cbLen = s.cbLen := rfl
@[simp] theorem takeFree_pkLen (s : State) :
    (takeFree s).pkLen = s.pkLen := rfl
@[simp] theorem takeFree_outLen (s : State) :
    (takeFree s).outLen = s.outLen := rfl
@[simp] theorem takeFree_totalBits (s : State) :
    (takeFree s).totalBits = s.totalBits := rfl
@[simp] theorem takeFree_root (s : State) :
    (takeFree s).root = s.root := rfl
@[simp] theorem takeFree_nextId (s : State) :
    (takeFree s).nextId = s.nextId := rfl
@[simp] theorem takeFree_heapSize (s : State) :
    (takeFree s).heapSize = s.heapSize := rfl
@[simp] theorem takeFree_dcbCnt (s : State) :
    (takeFree s).dcbCnt = s.dcbCnt := rfl
@[simp] theorem takeFree_bitPos (s : State) :
    (takeFree s).bitPos = s.bitPos := rfl
@[simp] theorem takeFree_acc (s : State) :
    (takeFree s).acc = s.acc := rfl
@[simp] theorem takeFree_accN (s : State) :
    (takeFree s).accN = s.accN := rfl
@[simp] theorem takeFree_cand (s : State) :
    (takeFree s).cand = s.cand := rfl
@[simp] theorem takeFree_candLen (s : State) :
    (takeFree s).candLen = s.candLen := rfl
@[simp] theorem takeFree_wsp (s : State) :
    (takeFree s).wsp = s.wsp := rfl
@[simp] theorem takeFree_path (s : State) :
    (takeFree s).path = s.path := rfl
@[simp] theorem takeFree_wstk (s : State) :
    (takeFree s).wstk = s.wstk := rfl
@[simp] theorem takeFree_freq (s : State) :
    (takeFree s).freq = s.freq := rfl
@[simp] theorem takeFree_nodeFreq (s : State) :
    (takeFree s).nodeFreq = s.nodeFreq := rfl
@[simp] theorem takeFree_nodeLeft (s : State) :
    (takeFree s).nodeLeft = s.nodeLeft := rfl
@[simp] theorem takeFree_nodeRight (s : State) :
    (takeFree s).nodeRight = s.nodeRight := rfl
@[simp] theorem takeFree_heap (s : State) :
    (takeFree s).heap = s.heap := rfl
@[simp] theorem takeFree_code (s : State) :
    (takeFree s).code = s.code := rfl
@[simp] theorem takeFree_dcb (s : State) :
    (takeFree s).dcb = s.dcb := rfl
@[simp] theorem takeFree_inStore (s : State) :
    (takeFree s).inStore = s.inStore := rfl
@[simp] theorem takeFree_cbStore (s : State) :
    (takeFree s).cbStore = s.cbStore := rfl
@[simp] theorem takeFree_pkStore (s : State) :
    (takeFree s).pkStore = s.pkStore := rfl
@[simp] theorem takeFree_outStore (s : State) :
    (takeFree s).outStore = s.outStore := rfl
@[simp] theorem takeFree_caps (s : State) :
    (takeFree s).caps = s.caps := rfl
@[simp] theorem takeFree_epoch (s : State) :
    (takeFree s).epoch = s.epoch := rfl
@[simp] theorem takeFree_freeCount (s : State) :
    (takeFree s).freeCount = s.freeCount + 1 := rfl
@[simp] theorem takeFree_turns (s : State) :
    (takeFree s).turns = s.turns := rfl
@[simp] theorem takeFree_replies (s : State) :
    (takeFree s).replies = s.replies := rfl
@[simp] theorem takeFree_result (s : State) :
    (takeFree s).result = s.result := rfl

/-! ### `reply` -/

@[simp] theorem reply_curCmd (s : State) (sp i : Nat) (d : HostData) :
    (reply sp i d s).curCmd = s.curCmd := rfl
@[simp] theorem reply_step (s : State) (sp i : Nat) (d : HostData) :
    (reply sp i d s).step = s.step := rfl
@[simp] theorem reply_uop (s : State) (sp i : Nat) (d : HostData) :
    (reply sp i d s).uop = s.uop := rfl
@[simp] theorem reply_busy (s : State) (sp i : Nat) (d : HostData) :
    (reply sp i d s).busy = s.busy := rfl
@[simp] theorem reply_done (s : State) (sp i : Nat) (d : HostData) :
    (reply sp i d s).done = s.done := rfl
@[simp] theorem reply_err (s : State) (sp i : Nat) (d : HostData) :
    (reply sp i d s).err = s.err := rfl
@[simp] theorem reply_owned (s : State) (sp i : Nat) (d : HostData) :
    (reply sp i d s).owned = s.owned := rfl
@[simp] theorem reply_errCode (s : State) (sp i : Nat) (d : HostData) :
    (reply sp i d s).errCode = s.errCode := rfl
@[simp] theorem reply_errSub (s : State) (sp i : Nat) (d : HostData) :
    (reply sp i d s).errSub = s.errSub := rfl
@[simp] theorem reply_inLen (s : State) (sp i : Nat) (d : HostData) :
    (reply sp i d s).inLen = s.inLen := rfl
@[simp] theorem reply_cbLen (s : State) (sp i : Nat) (d : HostData) :
    (reply sp i d s).cbLen = s.cbLen := rfl
@[simp] theorem reply_pkLen (s : State) (sp i : Nat) (d : HostData) :
    (reply sp i d s).pkLen = s.pkLen := rfl
@[simp] theorem reply_outLen (s : State) (sp i : Nat) (d : HostData) :
    (reply sp i d s).outLen = s.outLen := rfl
@[simp] theorem reply_totalBits (s : State) (sp i : Nat) (d : HostData) :
    (reply sp i d s).totalBits = s.totalBits := rfl
@[simp] theorem reply_root (s : State) (sp i : Nat) (d : HostData) :
    (reply sp i d s).root = s.root := rfl
@[simp] theorem reply_nextId (s : State) (sp i : Nat) (d : HostData) :
    (reply sp i d s).nextId = s.nextId := rfl
@[simp] theorem reply_heapSize (s : State) (sp i : Nat) (d : HostData) :
    (reply sp i d s).heapSize = s.heapSize := rfl
@[simp] theorem reply_dcbCnt (s : State) (sp i : Nat) (d : HostData) :
    (reply sp i d s).dcbCnt = s.dcbCnt := rfl
@[simp] theorem reply_bitPos (s : State) (sp i : Nat) (d : HostData) :
    (reply sp i d s).bitPos = s.bitPos := rfl
@[simp] theorem reply_acc (s : State) (sp i : Nat) (d : HostData) :
    (reply sp i d s).acc = s.acc := rfl
@[simp] theorem reply_accN (s : State) (sp i : Nat) (d : HostData) :
    (reply sp i d s).accN = s.accN := rfl
@[simp] theorem reply_cand (s : State) (sp i : Nat) (d : HostData) :
    (reply sp i d s).cand = s.cand := rfl
@[simp] theorem reply_candLen (s : State) (sp i : Nat) (d : HostData) :
    (reply sp i d s).candLen = s.candLen := rfl
@[simp] theorem reply_wsp (s : State) (sp i : Nat) (d : HostData) :
    (reply sp i d s).wsp = s.wsp := rfl
@[simp] theorem reply_path (s : State) (sp i : Nat) (d : HostData) :
    (reply sp i d s).path = s.path := rfl
@[simp] theorem reply_wstk (s : State) (sp i : Nat) (d : HostData) :
    (reply sp i d s).wstk = s.wstk := rfl
@[simp] theorem reply_freq (s : State) (sp i : Nat) (d : HostData) :
    (reply sp i d s).freq = s.freq := rfl
@[simp] theorem reply_nodeFreq (s : State) (sp i : Nat) (d : HostData) :
    (reply sp i d s).nodeFreq = s.nodeFreq := rfl
@[simp] theorem reply_nodeLeft (s : State) (sp i : Nat) (d : HostData) :
    (reply sp i d s).nodeLeft = s.nodeLeft := rfl
@[simp] theorem reply_nodeRight (s : State) (sp i : Nat) (d : HostData) :
    (reply sp i d s).nodeRight = s.nodeRight := rfl
@[simp] theorem reply_heap (s : State) (sp i : Nat) (d : HostData) :
    (reply sp i d s).heap = s.heap := rfl
@[simp] theorem reply_code (s : State) (sp i : Nat) (d : HostData) :
    (reply sp i d s).code = s.code := rfl
@[simp] theorem reply_dcb (s : State) (sp i : Nat) (d : HostData) :
    (reply sp i d s).dcb = s.dcb := rfl
@[simp] theorem reply_inStore (s : State) (sp i : Nat) (d : HostData) :
    (reply sp i d s).inStore = s.inStore := rfl
@[simp] theorem reply_cbStore (s : State) (sp i : Nat) (d : HostData) :
    (reply sp i d s).cbStore = s.cbStore := rfl
@[simp] theorem reply_pkStore (s : State) (sp i : Nat) (d : HostData) :
    (reply sp i d s).pkStore = s.pkStore := rfl
@[simp] theorem reply_outStore (s : State) (sp i : Nat) (d : HostData) :
    (reply sp i d s).outStore = s.outStore := rfl
@[simp] theorem reply_caps (s : State) (sp i : Nat) (d : HostData) :
    (reply sp i d s).caps = s.caps := rfl
@[simp] theorem reply_epoch (s : State) (sp i : Nat) (d : HostData) :
    (reply sp i d s).epoch = s.epoch := rfl
@[simp] theorem reply_freeCount (s : State) (sp i : Nat) (d : HostData) :
    (reply sp i d s).freeCount = s.freeCount := rfl
@[simp] theorem reply_turns (s : State) (sp i : Nat) (d : HostData) :
    (reply sp i d s).turns = s.turns := rfl
@[simp] theorem reply_replies (s : State) (sp i : Nat) (d : HostData) :
    (reply sp i d s).replies = s.replies ++ [⟨sp, i, d⟩] := rfl
@[simp] theorem reply_result (s : State) (sp i : Nat) (d : HostData) :
    (reply sp i d s).result = s.result := rfl

/-! ### `setStore` -/

@[simp] theorem State.setStore_curCmd (s : State) (S : StoreId) (m : List Host.Cell) :
    (s.setStore S m).curCmd = s.curCmd := by cases S <;> rfl
@[simp] theorem State.setStore_step (s : State) (S : StoreId) (m : List Host.Cell) :
    (s.setStore S m).step = s.step := by cases S <;> rfl
@[simp] theorem State.setStore_uop (s : State) (S : StoreId) (m : List Host.Cell) :
    (s.setStore S m).uop = s.uop := by cases S <;> rfl
@[simp] theorem State.setStore_busy (s : State) (S : StoreId) (m : List Host.Cell) :
    (s.setStore S m).busy = s.busy := by cases S <;> rfl
@[simp] theorem State.setStore_done (s : State) (S : StoreId) (m : List Host.Cell) :
    (s.setStore S m).done = s.done := by cases S <;> rfl
@[simp] theorem State.setStore_err (s : State) (S : StoreId) (m : List Host.Cell) :
    (s.setStore S m).err = s.err := by cases S <;> rfl
@[simp] theorem State.setStore_owned (s : State) (S : StoreId) (m : List Host.Cell) :
    (s.setStore S m).owned = s.owned := by cases S <;> rfl
@[simp] theorem State.setStore_errCode (s : State) (S : StoreId) (m : List Host.Cell) :
    (s.setStore S m).errCode = s.errCode := by cases S <;> rfl
@[simp] theorem State.setStore_errSub (s : State) (S : StoreId) (m : List Host.Cell) :
    (s.setStore S m).errSub = s.errSub := by cases S <;> rfl
@[simp] theorem State.setStore_inLen (s : State) (S : StoreId) (m : List Host.Cell) :
    (s.setStore S m).inLen = s.inLen := by cases S <;> rfl
@[simp] theorem State.setStore_cbLen (s : State) (S : StoreId) (m : List Host.Cell) :
    (s.setStore S m).cbLen = s.cbLen := by cases S <;> rfl
@[simp] theorem State.setStore_pkLen (s : State) (S : StoreId) (m : List Host.Cell) :
    (s.setStore S m).pkLen = s.pkLen := by cases S <;> rfl
@[simp] theorem State.setStore_outLen (s : State) (S : StoreId) (m : List Host.Cell) :
    (s.setStore S m).outLen = s.outLen := by cases S <;> rfl
@[simp] theorem State.setStore_totalBits (s : State) (S : StoreId) (m : List Host.Cell) :
    (s.setStore S m).totalBits = s.totalBits := by cases S <;> rfl
@[simp] theorem State.setStore_root (s : State) (S : StoreId) (m : List Host.Cell) :
    (s.setStore S m).root = s.root := by cases S <;> rfl
@[simp] theorem State.setStore_nextId (s : State) (S : StoreId) (m : List Host.Cell) :
    (s.setStore S m).nextId = s.nextId := by cases S <;> rfl
@[simp] theorem State.setStore_heapSize (s : State) (S : StoreId) (m : List Host.Cell) :
    (s.setStore S m).heapSize = s.heapSize := by cases S <;> rfl
@[simp] theorem State.setStore_dcbCnt (s : State) (S : StoreId) (m : List Host.Cell) :
    (s.setStore S m).dcbCnt = s.dcbCnt := by cases S <;> rfl
@[simp] theorem State.setStore_bitPos (s : State) (S : StoreId) (m : List Host.Cell) :
    (s.setStore S m).bitPos = s.bitPos := by cases S <;> rfl
@[simp] theorem State.setStore_acc (s : State) (S : StoreId) (m : List Host.Cell) :
    (s.setStore S m).acc = s.acc := by cases S <;> rfl
@[simp] theorem State.setStore_accN (s : State) (S : StoreId) (m : List Host.Cell) :
    (s.setStore S m).accN = s.accN := by cases S <;> rfl
@[simp] theorem State.setStore_cand (s : State) (S : StoreId) (m : List Host.Cell) :
    (s.setStore S m).cand = s.cand := by cases S <;> rfl
@[simp] theorem State.setStore_candLen (s : State) (S : StoreId) (m : List Host.Cell) :
    (s.setStore S m).candLen = s.candLen := by cases S <;> rfl
@[simp] theorem State.setStore_wsp (s : State) (S : StoreId) (m : List Host.Cell) :
    (s.setStore S m).wsp = s.wsp := by cases S <;> rfl
@[simp] theorem State.setStore_path (s : State) (S : StoreId) (m : List Host.Cell) :
    (s.setStore S m).path = s.path := by cases S <;> rfl
@[simp] theorem State.setStore_wstk (s : State) (S : StoreId) (m : List Host.Cell) :
    (s.setStore S m).wstk = s.wstk := by cases S <;> rfl
@[simp] theorem State.setStore_freq (s : State) (S : StoreId) (m : List Host.Cell) :
    (s.setStore S m).freq = s.freq := by cases S <;> rfl
@[simp] theorem State.setStore_nodeFreq (s : State) (S : StoreId) (m : List Host.Cell) :
    (s.setStore S m).nodeFreq = s.nodeFreq := by cases S <;> rfl
@[simp] theorem State.setStore_nodeLeft (s : State) (S : StoreId) (m : List Host.Cell) :
    (s.setStore S m).nodeLeft = s.nodeLeft := by cases S <;> rfl
@[simp] theorem State.setStore_nodeRight (s : State) (S : StoreId) (m : List Host.Cell) :
    (s.setStore S m).nodeRight = s.nodeRight := by cases S <;> rfl
@[simp] theorem State.setStore_heap (s : State) (S : StoreId) (m : List Host.Cell) :
    (s.setStore S m).heap = s.heap := by cases S <;> rfl
@[simp] theorem State.setStore_code (s : State) (S : StoreId) (m : List Host.Cell) :
    (s.setStore S m).code = s.code := by cases S <;> rfl
@[simp] theorem State.setStore_dcb (s : State) (S : StoreId) (m : List Host.Cell) :
    (s.setStore S m).dcb = s.dcb := by cases S <;> rfl
@[simp] theorem State.setStore_inStore (s : State) (S : StoreId) (m : List Host.Cell) :
    (s.setStore S m).inStore = if S = .inp then m else s.inStore := by cases S <;> rfl
@[simp] theorem State.setStore_cbStore (s : State) (S : StoreId) (m : List Host.Cell) :
    (s.setStore S m).cbStore = if S = .cb then m else s.cbStore := by cases S <;> rfl
@[simp] theorem State.setStore_pkStore (s : State) (S : StoreId) (m : List Host.Cell) :
    (s.setStore S m).pkStore = if S = .pk then m else s.pkStore := by cases S <;> rfl
@[simp] theorem State.setStore_outStore (s : State) (S : StoreId) (m : List Host.Cell) :
    (s.setStore S m).outStore = if S = .out then m else s.outStore := by cases S <;> rfl
@[simp] theorem State.setStore_caps (s : State) (S : StoreId) (m : List Host.Cell) :
    (s.setStore S m).caps = s.caps := by cases S <;> rfl
@[simp] theorem State.setStore_epoch (s : State) (S : StoreId) (m : List Host.Cell) :
    (s.setStore S m).epoch = s.epoch := by cases S <;> rfl
@[simp] theorem State.setStore_freeCount (s : State) (S : StoreId) (m : List Host.Cell) :
    (s.setStore S m).freeCount = s.freeCount := by cases S <;> rfl
@[simp] theorem State.setStore_turns (s : State) (S : StoreId) (m : List Host.Cell) :
    (s.setStore S m).turns = s.turns := by cases S <;> rfl
@[simp] theorem State.setStore_replies (s : State) (S : StoreId) (m : List Host.Cell) :
    (s.setStore S m).replies = s.replies := by cases S <;> rfl
@[simp] theorem State.setStore_result (s : State) (S : StoreId) (m : List Host.Cell) :
    (s.setStore S m).result = s.result := by cases S <;> rfl

/-! ### `countFree` -/

@[simp] theorem countFree_curCmd (w v : Nat) (s : State) : (countFree w v s).curCmd = s.curCmd := by
  unfold countFree; split <;> rfl
@[simp] theorem countFree_step (w v : Nat) (s : State) : (countFree w v s).step = s.step := by
  unfold countFree; split <;> rfl
@[simp] theorem countFree_uop (w v : Nat) (s : State) : (countFree w v s).uop = s.uop := by
  unfold countFree; split <;> rfl
@[simp] theorem countFree_busy (w v : Nat) (s : State) : (countFree w v s).busy = s.busy := by
  unfold countFree; split <;> rfl
@[simp] theorem countFree_done (w v : Nat) (s : State) : (countFree w v s).done = s.done := by
  unfold countFree; split <;> rfl
@[simp] theorem countFree_err (w v : Nat) (s : State) : (countFree w v s).err = s.err := by
  unfold countFree; split <;> rfl
@[simp] theorem countFree_owned (w v : Nat) (s : State) : (countFree w v s).owned = s.owned := by
  unfold countFree; split <;> rfl
@[simp] theorem countFree_errCode (w v : Nat) (s : State) : (countFree w v s).errCode = s.errCode := by
  unfold countFree; split <;> rfl
@[simp] theorem countFree_errSub (w v : Nat) (s : State) : (countFree w v s).errSub = s.errSub := by
  unfold countFree; split <;> rfl
@[simp] theorem countFree_inLen (w v : Nat) (s : State) : (countFree w v s).inLen = s.inLen := by
  unfold countFree; split <;> rfl
@[simp] theorem countFree_cbLen (w v : Nat) (s : State) : (countFree w v s).cbLen = s.cbLen := by
  unfold countFree; split <;> rfl
@[simp] theorem countFree_pkLen (w v : Nat) (s : State) : (countFree w v s).pkLen = s.pkLen := by
  unfold countFree; split <;> rfl
@[simp] theorem countFree_outLen (w v : Nat) (s : State) : (countFree w v s).outLen = s.outLen := by
  unfold countFree; split <;> rfl
@[simp] theorem countFree_totalBits (w v : Nat) (s : State) : (countFree w v s).totalBits = s.totalBits := by
  unfold countFree; split <;> rfl
@[simp] theorem countFree_root (w v : Nat) (s : State) : (countFree w v s).root = s.root := by
  unfold countFree; split <;> rfl
@[simp] theorem countFree_nextId (w v : Nat) (s : State) : (countFree w v s).nextId = s.nextId := by
  unfold countFree; split <;> rfl
@[simp] theorem countFree_heapSize (w v : Nat) (s : State) : (countFree w v s).heapSize = s.heapSize := by
  unfold countFree; split <;> rfl
@[simp] theorem countFree_dcbCnt (w v : Nat) (s : State) : (countFree w v s).dcbCnt = s.dcbCnt := by
  unfold countFree; split <;> rfl
@[simp] theorem countFree_bitPos (w v : Nat) (s : State) : (countFree w v s).bitPos = s.bitPos := by
  unfold countFree; split <;> rfl
@[simp] theorem countFree_acc (w v : Nat) (s : State) : (countFree w v s).acc = s.acc := by
  unfold countFree; split <;> rfl
@[simp] theorem countFree_accN (w v : Nat) (s : State) : (countFree w v s).accN = s.accN := by
  unfold countFree; split <;> rfl
@[simp] theorem countFree_cand (w v : Nat) (s : State) : (countFree w v s).cand = s.cand := by
  unfold countFree; split <;> rfl
@[simp] theorem countFree_candLen (w v : Nat) (s : State) : (countFree w v s).candLen = s.candLen := by
  unfold countFree; split <;> rfl
@[simp] theorem countFree_wsp (w v : Nat) (s : State) : (countFree w v s).wsp = s.wsp := by
  unfold countFree; split <;> rfl
@[simp] theorem countFree_path (w v : Nat) (s : State) : (countFree w v s).path = s.path := by
  unfold countFree; split <;> rfl
@[simp] theorem countFree_wstk (w v : Nat) (s : State) : (countFree w v s).wstk = s.wstk := by
  unfold countFree; split <;> rfl
@[simp] theorem countFree_freq (w v : Nat) (s : State) : (countFree w v s).freq = s.freq := by
  unfold countFree; split <;> rfl
@[simp] theorem countFree_nodeFreq (w v : Nat) (s : State) : (countFree w v s).nodeFreq = s.nodeFreq := by
  unfold countFree; split <;> rfl
@[simp] theorem countFree_nodeLeft (w v : Nat) (s : State) : (countFree w v s).nodeLeft = s.nodeLeft := by
  unfold countFree; split <;> rfl
@[simp] theorem countFree_nodeRight (w v : Nat) (s : State) : (countFree w v s).nodeRight = s.nodeRight := by
  unfold countFree; split <;> rfl
@[simp] theorem countFree_heap (w v : Nat) (s : State) : (countFree w v s).heap = s.heap := by
  unfold countFree; split <;> rfl
@[simp] theorem countFree_code (w v : Nat) (s : State) : (countFree w v s).code = s.code := by
  unfold countFree; split <;> rfl
@[simp] theorem countFree_dcb (w v : Nat) (s : State) : (countFree w v s).dcb = s.dcb := by
  unfold countFree; split <;> rfl
@[simp] theorem countFree_inStore (w v : Nat) (s : State) : (countFree w v s).inStore = s.inStore := by
  unfold countFree; split <;> rfl
@[simp] theorem countFree_cbStore (w v : Nat) (s : State) : (countFree w v s).cbStore = s.cbStore := by
  unfold countFree; split <;> rfl
@[simp] theorem countFree_pkStore (w v : Nat) (s : State) : (countFree w v s).pkStore = s.pkStore := by
  unfold countFree; split <;> rfl
@[simp] theorem countFree_outStore (w v : Nat) (s : State) : (countFree w v s).outStore = s.outStore := by
  unfold countFree; split <;> rfl
@[simp] theorem countFree_caps (w v : Nat) (s : State) : (countFree w v s).caps = s.caps := by
  unfold countFree; split <;> rfl
@[simp] theorem countFree_epoch (w v : Nat) (s : State) : (countFree w v s).epoch = s.epoch := by
  unfold countFree; split <;> rfl
@[simp] theorem countFree_freeCount (w v : Nat) (s : State) :
    (countFree w v s).freeCount = if v < 2 ^ w then s.freeCount else s.freeCount + 1 := by
  unfold countFree; split <;> rfl
@[simp] theorem countFree_turns (w v : Nat) (s : State) : (countFree w v s).turns = s.turns := by
  unfold countFree; split <;> rfl
@[simp] theorem countFree_replies (w v : Nat) (s : State) : (countFree w v s).replies = s.replies := by
  unfold countFree; split <;> rfl
@[simp] theorem countFree_result (w v : Nat) (s : State) : (countFree w v s).result = s.result := by
  unfold countFree; split <;> rfl

/-! ### `resetAction` -/

@[simp] theorem resetAction_curCmd (s : State) : (resetAction s).curCmd = 0 := rfl
@[simp] theorem resetAction_step (s : State) : (resetAction s).step = 0 := rfl
@[simp] theorem resetAction_uop (s : State) : (resetAction s).uop = 0 := rfl
@[simp] theorem resetAction_busy (s : State) : (resetAction s).busy = false := rfl
@[simp] theorem resetAction_done (s : State) : (resetAction s).done = false := rfl
@[simp] theorem resetAction_err (s : State) : (resetAction s).err = false := rfl
@[simp] theorem resetAction_owned (s : State) : (resetAction s).owned = false := rfl
@[simp] theorem resetAction_errCode (s : State) : (resetAction s).errCode = 0 := rfl
@[simp] theorem resetAction_errSub (s : State) : (resetAction s).errSub = 0 := rfl
@[simp] theorem resetAction_inLen (s : State) : (resetAction s).inLen = 0 := rfl
@[simp] theorem resetAction_cbLen (s : State) : (resetAction s).cbLen = 0 := rfl
@[simp] theorem resetAction_pkLen (s : State) : (resetAction s).pkLen = 0 := rfl
@[simp] theorem resetAction_outLen (s : State) : (resetAction s).outLen = 0 := rfl
@[simp] theorem resetAction_totalBits (s : State) : (resetAction s).totalBits = 0 := rfl
@[simp] theorem resetAction_root (s : State) : (resetAction s).root = 0 := rfl
@[simp] theorem resetAction_nextId (s : State) : (resetAction s).nextId = 0 := rfl
@[simp] theorem resetAction_heapSize (s : State) : (resetAction s).heapSize = 0 := rfl
@[simp] theorem resetAction_dcbCnt (s : State) : (resetAction s).dcbCnt = 0 := rfl
@[simp] theorem resetAction_bitPos (s : State) : (resetAction s).bitPos = 0 := rfl
@[simp] theorem resetAction_acc (s : State) : (resetAction s).acc = 0 := rfl
@[simp] theorem resetAction_accN (s : State) : (resetAction s).accN = 0 := rfl
@[simp] theorem resetAction_cand (s : State) : (resetAction s).cand = 0 := rfl
@[simp] theorem resetAction_candLen (s : State) : (resetAction s).candLen = 0 := rfl
@[simp] theorem resetAction_wsp (s : State) : (resetAction s).wsp = 0 := rfl
@[simp] theorem resetAction_path (s : State) : (resetAction s).path = 0 := rfl
@[simp] theorem resetAction_wstk (s : State) : (resetAction s).wstk = [] := rfl
@[simp] theorem resetAction_freq (s : State) : (resetAction s).freq = [] := rfl
@[simp] theorem resetAction_nodeFreq (s : State) : (resetAction s).nodeFreq = [] := rfl
@[simp] theorem resetAction_nodeLeft (s : State) : (resetAction s).nodeLeft = [] := rfl
@[simp] theorem resetAction_nodeRight (s : State) : (resetAction s).nodeRight = [] := rfl
@[simp] theorem resetAction_heap (s : State) : (resetAction s).heap = [] := rfl
@[simp] theorem resetAction_code (s : State) : (resetAction s).code = [] := rfl
@[simp] theorem resetAction_dcb (s : State) : (resetAction s).dcb = [] := rfl
@[simp] theorem resetAction_inStore (s : State) : (resetAction s).inStore = [] := rfl
@[simp] theorem resetAction_cbStore (s : State) : (resetAction s).cbStore = [] := rfl
@[simp] theorem resetAction_pkStore (s : State) : (resetAction s).pkStore = [] := rfl
@[simp] theorem resetAction_outStore (s : State) : (resetAction s).outStore = [] := rfl
@[simp] theorem resetAction_caps (s : State) : (resetAction s).caps = s.caps := rfl
@[simp] theorem resetAction_epoch (s : State) : (resetAction s).epoch = s.epoch + 1 := rfl
@[simp] theorem resetAction_freeCount (s : State) : (resetAction s).freeCount = s.freeCount := rfl
@[simp] theorem resetAction_turns (s : State) : (resetAction s).turns = s.turns := rfl
@[simp] theorem resetAction_replies (s : State) : (resetAction s).replies = s.replies := rfl
@[simp] theorem resetAction_result (s : State) : (resetAction s).result = .none := rfl

end Sys2Proof.Machine
end

