-- ==== Sys2Proof/Laws/Memory.lean ====
section
/-! SUPPORT. The laws of the sparse tables and the byte stores: read after write, canonical form, big-endian
images. They hold of every list, in canonical form or not, where the form is not a hypothesis. -/

namespace Sys2Proof.Machine

/-! ### Sparse tables -/

section Cells

variable {α : Type}

@[simp] theorem cellGet_nil (k : Nat) : cellGet k ([] : List (Nat × α)) = none := rfl

@[simp] theorem cellGet_cellSet_self (k : Nat) (v : α) (m : List (Nat × α)) : cellGet k (cellSet k v m) = some v := by
  induction m with
  | nil => simp [cellSet, cellGet]
  | cons c r ih =>
    simp only [cellSet]
    split
    · simp [cellGet]
    · split
      · simp [cellGet]
      · rename_i h
        simp [cellGet, Ne.symm h, ih]

theorem cellGet_cellSet_other {j k : Nat} (h : j ≠ k) (v : α) (m : List (Nat × α)) :
    cellGet j (cellSet k v m) = cellGet j m := by
  induction m with
  | nil => simp [cellSet, cellGet, h.symm]
  | cons c r ih =>
    simp only [cellSet]
    split
    · simp [cellGet, h.symm]
    · split
      · rename_i hk
        simp [cellGet, h.symm, ← hk]
      · simp [cellGet, ih]

/-- Read after write, at any index. -/
theorem cellGet_cellSet (j k : Nat) (v : α) (m : List (Nat × α)) :
    cellGet j (cellSet k v m) = if j = k then some v else cellGet j m := by
  split
  · subst j; exact cellGet_cellSet_self k v m
  · rename_i h; exact cellGet_cellSet_other h v m

theorem cellGet_map_pair (v : α) (j : Nat) (l : List Nat) :
    cellGet j (l.map fun k => (k, v)) = if j ∈ l then some v else none := by
  induction l with
  | nil => rfl
  | cons a r ih =>
    by_cases h : a = j
    · subst h; simp [cellGet]
    · simp [cellGet, h, Ne.symm h, ih]

/-- Every entry of a filled table holds the value, and nothing above is listed. -/
theorem cellGet_cellFill (n j : Nat) (v : α) : cellGet j (cellFill n v) = if j < n then some v else none := by
  simp [cellFill, cellGet_map_pair]

/-- The canonical form, read as a property of the indexes: strictly rising and below the bound. -/
theorem cellsWf_iff (b : Nat) (m : List (Nat × α)) :
    cellsWf b m = true ↔ (m.map Prod.fst).Pairwise (· < ·) ∧ ∀ c ∈ m, c.1 < b := by
  induction m with
  | nil => simp [cellsWf]
  | cons c r ih =>
    cases r with
    | nil => simp [cellsWf]
    | cons d r =>
      simp only [cellsWf, Bool.and_eq_true, decide_eq_true_eq, ih, List.map_cons, List.pairwise_cons,
        List.mem_cons, List.mem_map, forall_eq_or_imp]
      constructor
      · rintro ⟨hcd, ⟨hd, hr⟩, hdb, hb⟩
        refine ⟨⟨⟨hcd, ?_⟩, hd, hr⟩, by omega, hdb, hb⟩
        intro x hx
        exact lt_trans hcd (hd x hx)
      · rintro ⟨⟨⟨hcd, -⟩, hd, hr⟩, -, hdb, hb⟩
        exact ⟨hcd, ⟨hd, hr⟩, hdb, hb⟩

theorem mem_cellSet {k : Nat} {v : α} {m : List (Nat × α)} {c : Nat × α} (h : c ∈ cellSet k v m) :
    c = (k, v) ∨ c ∈ m := by
  induction m with
  | nil => simpa [cellSet] using h
  | cons d r ih =>
    simp only [cellSet] at h
    split at h
    · simpa using h
    · split at h
      · rcases List.mem_cons.1 h with h | h
        · exact .inl h
        · exact .inr (List.mem_cons_of_mem _ h)
      · rcases List.mem_cons.1 h with h | h
        · exact .inr (h ▸ List.mem_cons_self)
        · rcases ih h with h | h
          · exact .inl h
          · exact .inr (List.mem_cons_of_mem _ h)

/-- A write inside the bound keeps the canonical form. -/
theorem cellsWf_cellSet {b k : Nat} (v : α) {m : List (Nat × α)} (hm : cellsWf b m = true) (hk : k < b) :
    cellsWf b (cellSet k v m) = true := by
  rw [cellsWf_iff] at hm ⊢
  refine ⟨?_, ?_⟩
  · induction m with
    | nil => simp [cellSet]
    | cons c r ih =>
      obtain ⟨hp, hb⟩ := hm
      simp only [List.map_cons, List.pairwise_cons, List.mem_map, forall_exists_index, and_imp,
        forall_apply_eq_imp_iff₂] at hp
      have ih := ih ⟨hp.2, fun x hx => hb x (List.mem_cons_of_mem _ hx)⟩
      simp only [cellSet]
      split
      · rename_i h
        simp only [List.map_cons, List.pairwise_cons, List.mem_cons, List.mem_map, forall_eq_or_imp,
          forall_exists_index, and_imp, forall_apply_eq_imp_iff₂]
        exact ⟨⟨h, fun x hx => lt_trans h (hp.1 x hx)⟩, hp.1, hp.2⟩
      · split
        · rename_i h
          subst h
          simpa using hp
        · rename_i h1 h2
          simp only [List.map_cons, List.pairwise_cons, List.mem_map, forall_exists_index, and_imp,
            forall_apply_eq_imp_iff₂]
          refine ⟨fun x hx => ?_, ih⟩
          rcases mem_cellSet hx with rfl | hx
          · exact (by omega : c.1 < k)
          · exact hp.1 x hx
  · intro c hc
    rcases mem_cellSet hc with rfl | hc
    · exact hk
    · exact hm.2 c hc

/-- A filled table is in canonical form. -/
theorem cellsWf_cellFill {n b : Nat} (h : n ≤ b) (v : α) : cellsWf b (cellFill n v) = true := by
  rw [cellsWf_iff]
  refine ⟨?_, ?_⟩
  · simpa [cellFill, List.map_map, Function.comp_def] using List.pairwise_lt_range (n := n)
  · simp only [cellFill, List.mem_map, List.mem_range, forall_exists_index, and_imp]
    rintro c k hk rfl
    exact lt_of_lt_of_le hk h

/-- What is listed after a write was listed before, but for the written entry. -/
theorem all_cellSet {p : Nat × α → Bool} {k : Nat} {v : α} {m : List (Nat × α)} (hm : m.all p = true)
    (hv : p (k, v) = true) : (cellSet k v m).all p = true := by
  rw [List.all_eq_true] at hm ⊢
  intro c hc
  rcases mem_cellSet hc with rfl | hc
  · exact hv
  · exact hm c hc

end Cells

/-! ### Table entries -/

theorem State.heapAt_setHeap (s : State) (k j : Nat) (n : NodeId) :
    (s.setHeap k n).heapAt j = if j = k then n else s.heapAt j := by
  simp only [State.heapAt, State.setHeap_heap, State.setHeap_epoch, cellGet_cellSet]
  split <;> rfl

/-- Where `HEAP` has an entry, the read gives it. -/
theorem State.heapEntry_eq (s : State) {k : Nat} (h : k < 256) : s.heapEntry k = s.heapAt k := if_pos h

/-- A read of `HEAP` at an index above 255 still gives an id of the arena. -/
theorem State.heapEntry_lt (s : State) {k : Nat} (h : 256 ≤ k) : (s.heapEntry k).toNat < 511 := by
  rw [State.heapEntry, if_neg (by simpa [Config.heapCap] using h), BitVec.toNat_ofNat]
  exact Nat.lt_of_le_of_lt (Nat.mod_le _ _) (Nat.mod_lt _ (by decide))

theorem State.heapAt_swapHeap (s : State) (i j k : Nat) :
    (s.swapHeap i j).heapAt k = if k = j then s.heapAt i else if k = i then s.heapAt j else s.heapAt k := by
  simp only [State.swapHeap, State.heapAt_setHeap]

theorem State.nodeFreqAt_setNodeFreq (s : State) (k j : Nat) (v : BitVec 32) :
    (s.setNodeFreq k v).nodeFreqAt j = if j = k then v else s.nodeFreqAt j := by
  simp only [State.nodeFreqAt, State.setNodeFreq_nodeFreq, State.setNodeFreq_epoch, cellGet_cellSet]
  split <;> rfl

/-- A write of an arena entry sets its three fields together and leaves every other entry. -/
theorem State.nodeAt_setNode (s : State) (k j : Nat) (f : BitVec 32) (l r : NodeId) :
    (s.setNode k f l r).nodeAt j = if j = k then ⟨f, l, r⟩ else s.nodeAt j := by
  simp only [State.nodeAt, State.nodeFreqAt, State.nodeLeftAt, State.nodeRightAt, State.setNode_nodeFreq,
    State.setNode_nodeLeft, State.setNode_nodeRight, State.setNode_epoch, cellGet_cellSet]
  split <;> rfl

theorem State.codeAt_setCode (s : State) (k j : Nat) (e : CodeEntry) :
    (s.setCode k e).codeAt j = if j = k then e else s.codeAt j := by
  simp only [State.codeAt, State.setCode_code, State.setCode_epoch, cellGet_cellSet]
  split <;> rfl

theorem State.dcbAt_setDcb (s : State) (k j : Nat) (e : CodeEntry) :
    (s.setDcb k e).dcbAt j = if j = k then e else s.dcbAt j := by
  simp only [State.dcbAt, State.setDcb_dcb, State.setDcb_epoch, cellGet_cellSet]
  split <;> rfl

/-! ### The byte stores -/

@[simp] theorem State.capacity_setStore (s : State) (S S' : StoreId) (m : List Host.Cell) :
    (s.setStore S m).capacity S' = s.capacity S' := by
  cases S' <;> simp [State.capacity]

@[simp] theorem State.store_setStore (s : State) (S S' : StoreId) (m : List Host.Cell) :
    (s.setStore S m).store S' = if S = S' then m else s.store S' := by
  cases S <;> cases S' <;> rfl

/-- Read after write in the byte stores: the written byte at its address, every other byte as before. -/
theorem State.byteAt_setStore (s : State) (S S' : StoreId) (a a' : Nat) (v : Byte) :
    (s.setStore S (cellSet a v (s.store S))).byteAt S' a' =
      if S' = S ∧ a' = a then v else s.byteAt S' a' := by
  by_cases hS : S = S'
  · subst hS
    by_cases ha : a' = a
    · simp [State.byteAt, ha]
    · simp [State.byteAt, ha, cellGet_cellSet_other ha]
  · simp [State.byteAt, hS, Ne.symm hS]

/-- Everything a byte read can do. -/
theorem readByte_cases (S : StoreId) (a : Nat) (s : State) :
    (a < s.capacity S ∧ readByte S a s = .ok (s.byteAt S a)) ∨
      (s.capacity S ≤ a ∧ readByte S a s = .error (.fault (.noSuchByte S))) := by
  unfold readByte
  by_cases h : a < s.capacity S
  · simp [h]
  · exact .inr ⟨by omega, by simp [h]⟩

theorem readByte_ok {S : StoreId} {a : Nat} {s : State} {b : Byte} (h : readByte S a s = .ok b) :
    a < s.capacity S ∧ b = s.byteAt S a := by
  rcases readByte_cases S a s with ⟨ha, h'⟩ | ⟨-, h'⟩
  · rw [h] at h'; exact ⟨ha, Except.ok.inj h'⟩
  · rw [h] at h'; exact absurd h' (by simp)

/-- Everything a byte write can do. -/
theorem writeByte_cases (S : StoreId) (a : Nat) (v : Byte) (s : State) :
    (a < s.capacity S ∧ writeByte S a v s = .ok (s.setStore S (cellSet a v (s.store S)))) ∨
      (s.capacity S ≤ a ∧ writeByte S a v s = .error (.fault (.noSuchByte S))) := by
  unfold writeByte
  by_cases h : a < s.capacity S
  · simp [h]
  · exact .inr ⟨by omega, by simp [h]⟩

theorem writeByte_ok {S : StoreId} {a : Nat} {v : Byte} {s t : State} (h : writeByte S a v s = .ok t) :
    a < s.capacity S ∧ t = s.setStore S (cellSet a v (s.store S)) := by
  rcases writeByte_cases S a v s with ⟨ha, h'⟩ | ⟨-, h'⟩
  · rw [h] at h'; exact ⟨ha, Except.ok.inj h'⟩
  · rw [h] at h'; exact absurd h' (by simp)

/-- A byte write keeps the canonical form of the store it writes. -/
theorem wf_writeByte {S : StoreId} {a : Nat} {v : Byte} {s t : State} (h : writeByte S a v s = .ok t)
    (hw : Memory.wf (s.capacity S) (s.store S) = true) : Memory.wf (t.capacity S) (t.store S) = true := by
  obtain ⟨ha, rfl⟩ := writeByte_ok h
  simpa using cellsWf_cellSet v hw ha

/-- A read of consecutive bytes inside the store answers them in ascending order. -/
theorem readBytes_eq {S : StoreId} {a n : Nat} {s : State} (h : a + n ≤ s.capacity S) :
    readBytes S a n s = .ok ((List.range n).map fun j => s.byteAt S (a + j)) := by
  induction n generalizing a with
  | zero => rfl
  | succ n ih =>
    have h1 : readByte S a s = .ok (s.byteAt S a) := by unfold readByte; rw [if_pos (by omega)]
    simp only [readBytes, h1, ih (a := a + 1) (by omega), List.range_succ_eq_map, List.map_cons, List.map_map,
      bind, Except.bind]
    simp only [Nat.add_zero, Except.ok.injEq, List.cons.injEq, true_and]
    apply List.map_congr_left
    intro j _
    simp [Nat.add_assoc, Nat.add_comm 1 j]

/-- Everything a write of consecutive bytes does when it succeeds: the bytes stand at their addresses, no other
byte of any store changes, no field but the store changes, and the canonical form is kept. -/
theorem writeBytes_ok {S : StoreId} {bs : List Byte} {a : Nat} {s t : State} (h : writeBytes S a bs s = .ok t) :
    (∃ m, t = s.setStore S m) ∧
      (∀ S' a', t.byteAt S' a' = if S' = S ∧ a ≤ a' ∧ a' < a + bs.length then bs.getD (a' - a) 0
        else s.byteAt S' a') ∧
      (Memory.wf (s.capacity S) (s.store S) = true → Memory.wf (t.capacity S) (t.store S) = true) := by
  induction bs generalizing a s with
  | nil =>
    obtain rfl := Except.ok.inj h
    refine ⟨⟨s.store S, by cases S <;> rfl⟩, fun S' a' => ?_, id⟩
    rw [if_neg (by simp only [List.length_nil]; omega)]
  | cons b r ih =>
    simp only [writeBytes, bind, Except.bind] at h
    split at h
    · cases h
    · rename_i u hu
      obtain ⟨ha, rfl⟩ := writeByte_ok hu
      obtain ⟨⟨m, hm⟩, hb, hw⟩ := ih h
      refine ⟨⟨m, ?_⟩, fun S' a' => ?_, fun hwf => ?_⟩
      · rw [hm]; cases S <;> rfl
      · rw [hb, State.byteAt_setStore]
        by_cases hS : S' = S
        · by_cases ha' : a' = a
          · subst ha'
            simp [hS]
          · by_cases hlt : a + 1 ≤ a' ∧ a' < a + 1 + r.length
            · have e : a' - a = (a' - (a + 1)) + 1 := by omega
              rw [if_pos ⟨hS, hlt⟩, if_pos ⟨hS, by omega, by simp only [List.length_cons]; omega⟩, e]
              simp
            · rw [if_neg (fun hc => hlt hc.2), if_neg (fun hc => ha' hc.2),
                if_neg (fun hc => hlt ⟨by omega, by have := hc.2.2; simp only [List.length_cons] at this; omega⟩)]
        · simp [hS]
      · exact hw (wf_writeByte hu hwf)

/-- A write of consecutive bytes inside the store succeeds. -/
theorem writeBytes_isOk {S : StoreId} (bs : List Byte) {a : Nat} {s : State} (h : a + bs.length ≤ s.capacity S) :
    ∃ t, writeBytes S a bs s = .ok t := by
  induction bs generalizing a s with
  | nil => exact ⟨s, rfl⟩
  | cons b r ih =>
    simp only [List.length_cons] at h
    rcases writeByte_cases S a b s with ⟨ha, hw⟩ | ⟨ha, -⟩
    · simp only [writeBytes, hw, bind, Except.bind]
      exact ih (by simp only [State.capacity_setStore]; omega)
    · omega

/-- The reset state's stores hold nothing. -/
theorem reset_store (S : StoreId) : State.reset.store S = [] := by cases S <;> rfl

theorem reset_wf (S : StoreId) : Memory.wf (State.reset.capacity S) (State.reset.store S) = true := by
  rw [reset_store]; rfl

/-- A host write keeps every store in canonical form. -/
theorem wf_writeSpace {index : Nat} {v : Byte} {s : State} {x : Space} (hx : index < spaceSize s x)
    (hw : ∀ S, Memory.wf (s.capacity S) (s.store S) = true) (S : StoreId) :
    Memory.wf ((writeSpace index v s x).capacity S) ((writeSpace index v s x).store S) = true := by
  unfold writeSpace
  split
  · split
    · rename_i T _
      simp only [State.capacity_setStore, State.store_setStore]
      split
      · rename_i h
        subst h
        exact cellsWf_cellSet v (hw _) hx
      · exact hw S
    · exact hw S
  · exact hw S

/-! ### Big-endian images -/

@[simp] theorem length_beBytes (n v : Nat) : (beBytes n v).length = n := by
  induction n with
  | zero => rfl
  | succ n ih => simp [beBytes, ih]

theorem beBytes_mod (n v k : Nat) (h : n ≤ k) : beBytes n (v % 256 ^ k) = beBytes n v := by
  induction n with
  | zero => rfl
  | succ n ih =>
    simp only [beBytes, ih (by omega), List.cons.injEq, and_true]
    apply BitVec.eq_of_toNat_eq
    simp only [BitVec.toNat_ofNat]
    obtain ⟨d, rfl⟩ : ∃ d, k = n + 1 + d := ⟨k - (n + 1), by omega⟩
    rw [show 256 ^ (n + 1 + d) = 256 ^ n * (256 * 256 ^ d) by ring, Nat.mod_mul_right_div_self]
    exact Nat.mod_mod_of_dvd _ ⟨256 ^ d, by norm_num⟩

theorem beValue_lt (bs : List Byte) : beValue bs < 256 ^ bs.length := by
  induction bs with
  | nil => simp [beValue]
  | cons b r ih =>
    have hb : b.toNat < 256 := b.isLt
    have : b.toNat * 256 ^ r.length + 256 ^ r.length ≤ 256 * 256 ^ r.length := by
      have := Nat.mul_le_mul_right (256 ^ r.length) (show b.toNat + 1 ≤ 256 by omega)
      rwa [Nat.add_mul, Nat.one_mul] at this
    simp only [beValue, List.length_cons, pow_succ]
    omega

/-- The value of an image is the value it was made from, cut to its bytes. -/
theorem beValue_beBytes (n v : Nat) : beValue (beBytes n v) = v % 256 ^ n := by
  induction n with
  | zero => simp [beBytes, beValue, Nat.mod_one]
  | succ n ih =>
    simp only [beBytes, beValue, length_beBytes, ih, BitVec.toNat_ofNat]
    have h : v % (256 ^ n * 256) = v % 256 ^ n + 256 ^ n * (v / 256 ^ n % 256) := Nat.mod_mul
    rw [show 256 ^ (n + 1) = 256 ^ n * 256 from pow_succ _ _, h, Nat.add_comm, Nat.mul_comm (256 ^ n)]

/-- The image of a value is the bytes it was read from. -/
theorem beBytes_beValue (bs : List Byte) : beBytes bs.length (beValue bs) = bs := by
  induction bs with
  | nil => rfl
  | cons b r ih =>
    have hr := beValue_lt r
    have h1 : (b.toNat * 256 ^ r.length + beValue r) / 256 ^ r.length = b.toNat := by
      rw [Nat.mul_comm, Nat.mul_add_div (Nat.pow_pos (by norm_num)), Nat.div_eq_of_lt hr, Nat.add_zero]
    have h2 : (b.toNat * 256 ^ r.length + beValue r) % 256 ^ r.length = beValue r := by
      rw [Nat.mul_comm, Nat.mul_add_mod, Nat.mod_eq_of_lt hr]
    simp only [List.length_cons, beBytes, beValue, h1]
    rw [← beBytes_mod r.length _ r.length le_rfl, h2, ih]
    simp

end Sys2Proof.Machine
end

