-- ==== Sys2Proof/Laws/Ops.lean ====
section
/-! SUPPORT. One lemma per shared operation that says what it can do: how it ends, and which fields it can change
where it succeeds. A prover cites these and does not unfold the operations. -/

namespace Sys2Proof.Machine

/-! ### Endings -/

@[simp] theorem finish_ok (t : State) : finish (.ok t) = .next t := rfl

@[simp] theorem finish_raised (t : State) : finish (.error (.raised t)) = .next t := rfl

@[simp] theorem finish_fault (f : Fault) : finish (.error (.fault f)) = .fault f := rfl

@[simp] theorem finish_refused (f : Refusal) : finish (.error (.refused f)) = .refused f := rfl

/-- A next state of a micro-operation is where it ended or what it raised. -/
theorem finish_next {r : Res State} {t : State} (h : finish r = .next t) : r = .ok t ∨ r = .error (.raised t) := by
  rcases r with e | u
  · cases e with
    | raised u => exact .inr (by rw [show u = t from by simpa using h])
    | fault f => simp at h
    | refused f => simp at h
  · exact .inl (by rw [show u = t from by simpa using h])

@[simp] theorem finishWith_ok {α : Type} (f : α → UopResult) (a : α) (t : State) :
    finishWith f (.ok (a, t)) = .next { t with result := f a } := rfl

@[simp] theorem finishWith_error {α : Type} (f : α → UopResult) (e : Stop) :
    finishWith f (.error e) = finish (.error e) := rfl

/-- A value that fits is written and takes no free value. -/
theorem fitOrFree_eq {w v : Nat} (h : v < 2 ^ w) (s : State) :
    fitOrFree w v s = BitVec.ofNat w v ∧ countFree w v s = s := by
  simp [fitOrFree, countFree, h]

/-- A value that does not fit takes the next free value, whatever the value is. -/
theorem fitOrFree_open {w v : Nat} (h : 2 ^ w ≤ v) (s : State) :
    fitOrFree w v s = Config.freeResult w s.freeCount ∧ countFree w v s = takeFree s := by
  simp [fitOrFree, countFree, Nat.not_lt.2 h]

/-- The count of free values is the only field that taking one can change. -/
theorem countFree_frame (w v : Nat) (s : State) :
    countFree w v s = { s with freeCount := (countFree w v s).freeCount } := by
  unfold countFree; split <;> rfl

/-- Below a `HEAP_SIZE` of at most 256 no read of `HEAP` takes a free value. -/
theorem countEntry_eq {k : Nat} (h : k < 256) (s : State) : countEntry k s = s := if_pos h

/-- The count of free values is the only field that `countEntry` can change. -/
theorem countEntry_frame (k : Nat) (s : State) :
    countEntry k s = { s with freeCount := (countEntry k s).freeCount } := by
  unfold countEntry; split <;> rfl

/-- A register whose value is written as a number holds that number if it fits. -/
theorem toNat_fitOrFree {w v : Nat} (h : v < 2 ^ w) (s : State) : (fitOrFree w v s).toNat = v := by
  rw [(fitOrFree_eq h s).1, BitVec.toNat_ofNat, Nat.mod_eq_of_lt h]

/-- A call that succeeds gives `UOP` back to the caller. -/
theorem callUop_ok {id : BitVec 8} {f : State → Res State} {s t : State} (h : callUop id f s = .ok t) :
    ∃ u, f { s with uop := id } = .ok u ∧ t = { u with uop := s.uop } := by
  unfold callUop at h
  simp only [bind, Except.bind] at h
  split at h
  · cases h
  · rename_i u hu
    exact ⟨u, hu, (Except.ok.inj h).symm⟩

/-- A call that does not succeed ends as its callee ends. -/
theorem callUop_error {id : BitVec 8} {f : State → Res State} {s : State} {e : Stop}
    (h : callUop id f s = .error e) : f { s with uop := id } = .error e := by
  unfold callUop at h
  simp only [bind, Except.bind] at h
  split at h
  · rename_i u hu
    rw [hu, Except.error.inj h]
  · cases h

theorem nodeIndex_cases (n : NodeId) :
    (n.toNat < 511 ∧ nodeIndex n = .ok n.toNat) ∨ (n.toNat = 511 ∧ nodeIndex n = .error (.fault .noSuchNode)) := by
  unfold nodeIndex Config.nnode
  by_cases h : n.toNat < 511
  · simp [h]
  · exact .inr ⟨by have := n.isLt; omega, by simp [h]⟩

theorem nodeIndex_eq {n : NodeId} (h : n.toNat < 511) : nodeIndex n = .ok n.toNat := by
  simp [nodeIndex, Config.nnode, h]

theorem nodeIndex_ok {n : NodeId} {k : Nat} (h : nodeIndex n = .ok k) : k = n.toNat ∧ n.toNat < 511 := by
  rcases nodeIndex_cases n with ⟨hn, h'⟩ | ⟨-, h'⟩
  · rw [h] at h'; exact ⟨Except.ok.inj h', hn⟩
  · rw [h] at h'; exact absurd h' (by simp)

/-- A loop over a range keeps any property of the state that each iteration keeps. -/
theorem foldlM_ok {f : State → Nat → Res State} {P : State → Prop}
    (hf : ∀ s k t, P s → f s k = .ok t → P t) {l : List Nat} {s t : State} (hs : P s)
    (h : l.foldlM f s = .ok t) : P t := by
  induction l generalizing s with
  | nil => obtain rfl := Except.ok.inj h; exact hs
  | cons a r ih =>
    simp only [List.foldlM_cons, bind, Except.bind] at h
    split at h
    · cases h
    · rename_i u hu
      exact ih (hf _ _ _ hs hu) h

/-- A loop that ends early ends as one of its iterations does, from a state that has the property. -/
theorem foldlM_error {f : State → Nat → Res State} {P : State → Prop}
    (hf : ∀ s k t, P s → f s k = .ok t → P t) {l : List Nat} {s : State} {e : Stop} (hs : P s)
    (h : l.foldlM f s = .error e) : ∃ u k, P u ∧ k ∈ l ∧ f u k = .error e := by
  induction l generalizing s with
  | nil => cases h
  | cons a r ih =>
    simp only [List.foldlM_cons, bind, Except.bind] at h
    split at h
    · rename_i e' he
      exact ⟨s, a, hs, List.mem_cons_self, by rw [he, Except.error.inj h]⟩
    · rename_i u hu
      obtain ⟨v, k, hv, hk, hvk⟩ := ih (hf _ _ _ hs hu) h
      exact ⟨v, k, hv, List.mem_cons_of_mem _ hk, hvk⟩

/-! ### The priority queue -/

/-- On nodes of the arena the comparison answers, and reads only the frequencies. -/
theorem pqLess_eq {s : State} {a b : NodeId} (ha : a.toNat < 511) (hb : b.toNat < 511) :
    pqLess s a b = .ok (keyLess (s.nodeFreqAt a.toNat) a (s.nodeFreqAt b.toNat) b) := by
  simp [pqLess, nodeIndex_eq ha, nodeIndex_eq hb, bind, Except.bind]

theorem pqLess_ne_raised {s : State} {a b : NodeId} {t : State} : pqLess s a b ≠ .error (.raised t) := by
  unfold pqLess
  rcases nodeIndex_cases a with ⟨-, h⟩ | ⟨-, h⟩ <;> rcases nodeIndex_cases b with ⟨-, h'⟩ | ⟨-, h'⟩ <;>
    simp [h, h', bind, Except.bind]

/-- Sifting up writes nothing but `HEAP`. -/
theorem siftUp_frame {fuel i : Nat} {s t : State} (h : siftUp fuel i s = .ok t) : t = { s with heap := t.heap } := by
  induction fuel generalizing i s with
  | zero => obtain rfl := Except.ok.inj h; rfl
  | succ n ih =>
    simp only [siftUp, bind, Except.bind] at h
    split at h
    · obtain rfl := Except.ok.inj h; rfl
    · split at h
      · cases h
      · split at h
        · rw [ih h]; rfl
        · obtain rfl := Except.ok.inj h; rfl

/-- Sifting down writes nothing but `HEAP`. -/
theorem siftDown_frame {fuel i : Nat} {s t : State} (h : siftDown fuel i s = .ok t) :
    t = { s with heap := t.heap } := by
  induction fuel generalizing i s with
  | zero => obtain rfl := Except.ok.inj h; rfl
  | succ n ih =>
    simp only [siftDown, bind, Except.bind] at h
    split at h
    · cases h
    · split at h
      · cases h
      · split at h
        · obtain rfl := Except.ok.inj h; rfl
        · split at h
          · rw [ih h]; rfl
          · obtain rfl := Except.ok.inj h; rfl

theorem siftUp_ne_raised {fuel i : Nat} {s t : State} : siftUp fuel i s ≠ .error (.raised t) := by
  induction fuel generalizing i s with
  | zero => simp [siftUp]
  | succ n ih =>
    intro h
    simp only [siftUp, bind, Except.bind] at h
    split at h
    · cases h
    · split at h
      · rename_i e he
        exact pqLess_ne_raised (he.trans (by rw [Except.error.inj h]))
      · split at h
        · exact ih h
        · cases h

theorem lesserChild_ne_raised {s : State} {c m : Nat} {t : State} : lesserChild s c m ≠ .error (.raised t) := by
  intro h
  simp only [lesserChild, bind, Except.bind] at h
  split at h
  · split at h
    · rename_i e he
      exact pqLess_ne_raised (he.trans (by rw [Except.error.inj h]))
    · cases h
  · cases h

theorem siftDown_ne_raised {fuel i : Nat} {s t : State} : siftDown fuel i s ≠ .error (.raised t) := by
  induction fuel generalizing i s with
  | zero => simp [siftDown]
  | succ n ih =>
    intro h
    simp only [siftDown, bind, Except.bind] at h
    split at h
    · rename_i e he
      exact lesserChild_ne_raised (he.trans (by rw [Except.error.inj h]))
    · split at h
      · rename_i e he
        exact lesserChild_ne_raised (he.trans (by rw [Except.error.inj h]))
      · split at h
        · cases h
        · split at h
          · exact ih h
          · cases h

/-- A `PQ.SIFTUP` that succeeds had a live index and writes nothing but `HEAP`. -/
theorem pqSiftup_ok {i : Nat} {s t : State} (h : pqSiftup i s = .ok t) :
    i < s.heapSize.toNat ∧ t = { s with heap := t.heap } := by
  unfold pqSiftup at h
  split at h
  · cases h
  · exact ⟨by omega, siftUp_frame h⟩

/-- A `PQ.SIFTDOWN` that succeeds had a live index and writes nothing but `HEAP`, and, with a `HEAP_SIZE` above 256
alone, the model's count of free values. -/
theorem pqSiftdown_ok {i : Nat} {s t : State} (h : pqSiftdown i s = .ok t) :
    i < s.heapSize.toNat ∧ (s.heapSize.toNat ≤ 256 → t.freeCount = s.freeCount) ∧
      t = { s with heap := t.heap, freeCount := t.freeCount } := by
  simp only [pqSiftdown, bind, Except.bind] at h
  split at h
  · cases h
  · split at h
    · cases h
    · rename_i u hu
      obtain rfl := Except.ok.inj h
      have hf := siftDown_frame hu
      refine ⟨by omega, fun hs => ?_, ?_⟩
      · rw [countEntry_eq (by omega), hf]
      · rw [countEntry_frame, hf]

/-- A `PQ.INSERT` that succeeds had room and a node of the arena, makes the queue one longer, and writes nothing
but `HEAP` and `HEAP_SIZE`. -/
theorem pqInsert_ok {n : NodeId} {s t : State} (h : pqInsert n s = .ok t) :
    s.heapSize.toNat < 256 ∧ n.toNat < 511 ∧ t.heapSize.toNat = s.heapSize.toNat + 1 ∧
      t = { s with heap := t.heap, heapSize := t.heapSize } := by
  have hcap : Config.heapCap = 256 := rfl
  simp only [pqInsert, bind, Except.bind] at h
  split at h
  · cases h
  · rename_i hs
    split at h
    · cases h
    · rename_i k hk
      have ht := (pqSiftup_ok h).2
      refine ⟨by omega, (nodeIndex_ok hk).2, ?_, ?_⟩
      · rw [ht]
        simp only [BitVec.toNat_ofNat]
        omega
      · rw [ht]; rfl

theorem pqInsert_ne_raised {n : NodeId} {s t : State} : pqInsert n s ≠ .error (.raised t) := by
  intro h
  simp only [pqInsert, pqSiftup, bind, Except.bind] at h
  split at h
  · cases h
  · split at h
    · rename_i e he
      rcases nodeIndex_cases n with ⟨-, h'⟩ | ⟨-, h'⟩ <;> rw [h'] at he <;> cases he
      cases h
    · split at h
      · cases h
      · exact siftUp_ne_raised h

/-- A `PQ.EXTRACT` that succeeds answers `HEAP[0]`, makes the queue one shorter, and writes nothing but `HEAP` and
`HEAP_SIZE`, and, with a `HEAP_SIZE` above 256 alone, the model's count of free values. -/
theorem pqExtract_ok {s t : State} {r : NodeId} (h : pqExtract s = .ok (r, t)) :
    1 ≤ s.heapSize.toNat ∧ (s.heapSize.toNat ≤ 256 → t.freeCount = s.freeCount) ∧ r = s.heapAt 0 ∧
      t.heapSize.toNat + 1 = s.heapSize.toNat ∧
      t = { s with heap := t.heap, heapSize := t.heapSize, freeCount := t.freeCount } := by
  simp only [pqExtract, bind, Except.bind] at h
  split at h
  · cases h
  · have hk : (BitVec.ofNat 9 (s.heapSize.toNat - 1)).toNat + 1 = s.heapSize.toNat := by
      simp only [BitVec.toNat_ofNat]
      omega
    split at h
    · obtain ⟨rfl, rfl⟩ := Prod.mk.inj (Except.ok.inj h)
      exact ⟨by omega, fun _ => rfl, rfl, hk, rfl⟩
    · split at h
      · cases h
      · rename_i u hu
        obtain ⟨rfl, rfl⟩ := Prod.mk.inj (Except.ok.inj h)
        obtain ⟨-, hc, hf⟩ := pqSiftdown_ok hu
        refine ⟨by omega, fun hs => ?_, rfl, ?_, ?_⟩
        · rw [countEntry_eq (by omega)]
          exact hc (by show (BitVec.ofNat 9 (s.heapSize.toNat - 1)).toNat ≤ 256; omega)
        · rw [countEntry_frame, hf]; exact hk
        · rw [countEntry_frame, hf]; rfl

theorem pqSiftdown_ne_raised {i : Nat} {s t : State} : pqSiftdown i s ≠ .error (.raised t) := by
  intro h
  simp only [pqSiftdown, bind, Except.bind] at h
  split at h
  · cases h
  · split at h
    · rename_i e he
      exact siftDown_ne_raised (he.trans (by rw [Except.error.inj h]))
    · cases h

theorem pqExtract_ne_raised {s t : State} : pqExtract s ≠ .error (.raised t) := by
  intro h
  simp only [pqExtract, bind, Except.bind] at h
  split at h
  · cases h
  · split at h
    · cases h
    · split at h
      · rename_i e he
        exact pqSiftdown_ne_raised (he.trans (by rw [Except.error.inj h]))
      · cases h

/-! ### The tree builder -/

/-- A `TB.MERGE` that succeeds makes the queue one shorter, takes the next id, and writes nothing but the arena
entry of that id, `HEAP`, `HEAP_SIZE` and `NEXT_ID`, and the model's count of free values. -/
theorem tbMerge_ok {s t : State} (h : tbMerge s = .ok t) :
    2 ≤ s.heapSize.toNat ∧ s.nextId.toNat < 511 ∧ t.heapSize.toNat + 1 = s.heapSize.toNat ∧
      t.nextId.toNat = s.nextId.toNat + 1 ∧ (∀ k, k ≠ s.nextId.toNat → t.nodeAt k = s.nodeAt k) ∧
      t = { s with
        nodeFreq := t.nodeFreq, nodeLeft := t.nodeLeft, nodeRight := t.nodeRight, heap := t.heap,
        heapSize := t.heapSize, nextId := t.nextId, freeCount := t.freeCount } := by
  simp only [tbMerge, bind, Except.bind] at h
  split at h
  · cases h
  · split at h
    · cases h
    · rename_i hs p hp
      obtain ⟨l, a⟩ := p
      obtain ⟨-, -, -, ha, hae⟩ := pqExtract_ok hp
      split at h
      · cases h
      · rename_i q hq
        obtain ⟨r, u⟩ := q
        obtain ⟨-, -, -, hu, hue⟩ := pqExtract_ok hq
        split at h
        · cases h
        · rename_i k hk
          obtain ⟨hk, hlt⟩ := nodeIndex_ok hk
          have hn : u.nextId = s.nextId := by rw [hue, hae]
          have hnode : ∀ k, u.nodeAt k = s.nodeAt k := by rw [hue, hae]; intro k; rfl
          split at h
          · cases h
          · rename_i i hi
            split at h
            · cases h
            · rename_i j hj
              obtain ⟨-, -, hsz, hte⟩ := pqInsert_ok h
              rw [hn] at hk hlt
              refine ⟨by omega, hlt, ?_, ?_, ?_, ?_⟩
              · rw [hsz]
                simp only [State.setNode_heapSize, countFree_heapSize] at hu ⊢
                omega
              · rw [hte]; simp only [BitVec.toNat_ofNat, hk]; omega
              · intro m hm
                rw [← hnode m, hte]
                have := State.nodeAt_setNode (countFree 32 ((u.nodeFreqAt i).toNat + (u.nodeFreqAt j).toNat) u) k m
                  (fitOrFree 32 ((u.nodeFreqAt i).toNat + (u.nodeFreqAt j).toNat) u) l r
                rw [if_neg (by omega)] at this
                refine Eq.trans this ?_
                simp [State.nodeAt, State.nodeFreqAt, State.nodeLeftAt, State.nodeRightAt]
              · rw [hte]
                simp only [State.setNode]
                rw [countFree_frame, hue, hae]

theorem tbMerge_ne_raised {s t : State} : tbMerge s ≠ .error (.raised t) := by
  intro h
  simp only [tbMerge, bind, Except.bind] at h
  split at h
  · cases h
  · split at h
    · rename_i e he
      exact pqExtract_ne_raised (he.trans (by rw [Except.error.inj h]))
    · split at h
      · rename_i e he
        exact pqExtract_ne_raised (he.trans (by rw [Except.error.inj h]))
      · split at h
        · rename_i e he
          rcases nodeIndex_cases _ with ⟨-, h'⟩ | ⟨-, h'⟩ <;> rw [h'] at he <;> cases he
          cases h
        · split at h
          · rename_i e he
            rcases nodeIndex_cases _ with ⟨-, h'⟩ | ⟨-, h'⟩ <;> rw [h'] at he <;> cases he
            cases h
          · split at h
            · rename_i e he
              rcases nodeIndex_cases _ with ⟨-, h'⟩ | ⟨-, h'⟩ <;> rw [h'] at he <;> cases he
              cases h
            · exact pqInsert_ne_raised h

/-- The merges write nothing but the arena, `HEAP`, `HEAP_SIZE`, `NEXT_ID` and the model's count of free values. -/
theorem mergeAll_frame {fuel : Nat} {s t : State} (h : mergeAll fuel s = .ok t) :
    t = { s with
      nodeFreq := t.nodeFreq, nodeLeft := t.nodeLeft, nodeRight := t.nodeRight, heap := t.heap,
      heapSize := t.heapSize, nextId := t.nextId, freeCount := t.freeCount } := by
  induction fuel generalizing s with
  | zero => obtain rfl := Except.ok.inj h; rfl
  | succ n ih =>
    simp only [mergeAll, bind, Except.bind] at h
    split at h
    · split at h
      · cases h
      · rename_i u hu
        obtain ⟨-, -, -, -, -, hue⟩ := tbMerge_ok hu
        rw [ih h, hue]
    · obtain rfl := Except.ok.inj h; rfl

/-- One leaf: nothing but the leaf's frequency, `HEAP` and `HEAP_SIZE` is written. -/
theorem makeLeaf_frame {k : Nat} {s t : State} (h : makeLeaf s k = .ok t) :
    t = { s with nodeFreq := t.nodeFreq, heap := t.heap, heapSize := t.heapSize } := by
  unfold makeLeaf at h
  split at h
  · obtain rfl := Except.ok.inj h; rfl
  · obtain ⟨-, -, -, ht⟩ := pqInsert_ok h
    rw [ht]; rfl

/-! ### The code walker -/

/-- A push that succeeds wrote the entry at the top of the stack. -/
theorem walkPush_ok {n : NodeId} {d : Nat} {e : Bool} {s t : State} (h : walkPush n d e s = .ok t) :
    d < 256 ∧ s.wsp.toNat < 256 ∧ t.wsp.toNat = s.wsp.toNat + 1 ∧
      t.wstkAt s.wsp.toNat = ⟨n, BitVec.ofNat 8 d, e⟩ ∧
      (∀ k, k ≠ s.wsp.toNat → t.wstkAt k = s.wstkAt k) ∧ t = { s with wstk := t.wstk, wsp := t.wsp } := by
  have hcap : Config.heapCap = 256 := rfl
  have hmax : Config.codeMax = 255 := rfl
  unfold walkPush at h
  split at h
  · cases h
  · split at h
    · obtain rfl := Except.ok.inj h
      refine ⟨by omega, by omega, ?_, ?_, fun k hk => ?_, rfl⟩
      · simp only [BitVec.toNat_ofNat]; omega
      · simp [State.wstkAt]
      · simp [State.wstkAt, cellGet_cellSet_other hk]
    · cases h

/-- One pop writes nothing but `CODE` and the scratch state. -/
theorem walkPop_frame {s t : State} (h : walkPop s = .ok t) :
    t = { s with code := t.code, wstk := t.wstk, wsp := t.wsp, path := t.path } := by
  simp only [walkPop, walkPath, bind, Except.bind] at h
  split at h
  · obtain rfl := Except.ok.inj h
    split <;> rfl
  · split at h
    · cases h
    · split at h
      · cases h
      · rename_i u hu
        obtain ⟨-, -, -, -, -, ht⟩ := walkPush_ok h
        obtain ⟨-, -, -, -, -, hue⟩ := walkPush_ok hu
        rw [ht, hue]
        split <;> rfl

/-- The walk writes nothing but `CODE` and the scratch state. -/
theorem walkLoop_frame {fuel : Nat} {s t : State} (h : walkLoop fuel s = .ok t) :
    t = { s with code := t.code, wstk := t.wstk, wsp := t.wsp, path := t.path } := by
  induction fuel generalizing s with
  | zero =>
    unfold walkLoop at h
    split at h
    · obtain rfl := Except.ok.inj h; rfl
    · cases h
  | succ n ih =>
    simp only [walkLoop, bind, Except.bind] at h
    split at h
    · obtain rfl := Except.ok.inj h; rfl
    · split at h
      · cases h
      · rename_i u hu
        rw [ih h, walkPop_frame hu]

/-! ### The bit packer -/

/-- Everything the flush of a byte can do. -/
theorem flushByte_cases (b : Byte) (s : State) :
    (s.pkLen.toNat < s.caps.pkCap.toNat ∧
      flushByte b s = .ok { s with
        pkStore := cellSet s.pkLen.toNat b s.pkStore, pkLen := s.pkLen + 1#64, acc := 0#8, accN := 0#4 }) ∨
      (s.caps.pkCap.toNat ≤ s.pkLen.toNat ∧ flushByte b s = .error (.raised (errorEntry .storeOverflow 1 s))) := by
  by_cases h : s.pkLen.toNat < s.caps.pkCap.toNat
  · refine .inl ⟨h, ?_⟩
    simp [flushByte, Nat.not_le.2 h, writeByte, State.capacity, h, State.setStore, State.store, bind, Except.bind]
  · exact .inr ⟨by omega, by simp [flushByte, Nat.not_lt.1 h, raise]⟩

/-- A `BP.PUTBIT` that succeeds writes nothing but the packer's state, and the model's count of free values, and
appends one bit; `TOTAL_BITS` counts it as long as it can. -/
theorem bpPutbit_ok {b : Bool} {s t : State} (h : bpPutbit b s = .ok t) :
    s.accN.toNat < 8 ∧ t.accN.toNat < 8 ∧ t.totalBits = fitOrFree 64 (s.totalBits.toNat + 1) s ∧
      8 * t.pkLen.toNat + t.accN.toNat = 8 * s.pkLen.toNat + s.accN.toNat + 1 ∧
      t.freeCount = (countFree 64 (s.totalBits.toNat + 1) s).freeCount ∧
      t = { s with
        acc := t.acc, accN := t.accN, totalBits := t.totalBits, pkLen := t.pkLen, pkStore := t.pkStore,
        freeCount := t.freeCount } := by
  simp only [bpPutbit] at h
  split at h
  · cases h
  · rename_i hn
    have hofs : (BitVec.ofNat 4 (s.accN.toNat + 1)).toNat = s.accN.toNat + 1 := by
      simp only [BitVec.toNat_ofNat]; omega
    rw [countFree_frame] at h
    split at h
    · rename_i h8
      have h8' : s.accN.toNat + 1 = 8 := by rw [← hofs, h8]; rfl
      rcases flushByte_cases _ _ with ⟨hlt, hfl⟩ | ⟨-, hfl⟩
      · rw [hfl] at h
        obtain rfl := Except.ok.inj h
        have hc := s.caps.pkCap.isLt
        have hp : (s.pkLen + 1#64).toNat = s.pkLen.toNat + 1 := by
          simp only at hlt
          simp only [BitVec.toNat_add, BitVec.toNat_ofNat]
          omega
        refine ⟨by omega, (by decide : (0#4).toNat < 8), rfl, ?_, rfl, rfl⟩
        show 8 * (s.pkLen + 1#64).toNat + 0 = _
        rw [hp]
        omega
      · rw [hfl] at h; cases h
    · rename_i h8
      obtain rfl := Except.ok.inj h
      have h8' : s.accN.toNat + 1 ≠ 8 := fun hc => h8 (by rw [hc])
      refine ⟨by omega, ?_, rfl, ?_, rfl, rfl⟩
      · rw [hofs]; omega
      · show 8 * s.pkLen.toNat + (BitVec.ofNat 4 (s.accN.toNat + 1)).toNat = _
        rw [hofs]; omega

/-- A `BP.PUTCODE` that succeeds writes nothing but the packer's state and the model's count of free values. -/
theorem bpPutcode_frame {y : Sym} {s t : State} (h : bpPutcode y s = .ok t) :
    t = { s with
      acc := t.acc, accN := t.accN, totalBits := t.totalBits, pkLen := t.pkLen, pkStore := t.pkStore,
      freeCount := t.freeCount } := by
  simp only [bpPutcode] at h
  split at h
  · refine foldlM_ok (P := fun x => x = { s with
        acc := x.acc, accN := x.accN, totalBits := x.totalBits, pkLen := x.pkLen, pkStore := x.pkStore,
        freeCount := x.freeCount })
      (fun a k b ha hb => ?_) rfl h
    obtain ⟨u, hu, rfl⟩ := callUop_ok hb
    obtain ⟨-, -, -, -, -, he⟩ := bpPutbit_ok hu
    rw [he, ha]
  · cases h

/-! ### The codebook codec -/

/-- Reading the entries writes nothing but `DCB` and `DCB_CNT`. -/
theorem readEntries_frame {n p q : Nat} {prev : Option Sym} {s t : State}
    (h : readEntries n p prev s = .ok (q, t)) : t = { s with dcb := t.dcb, dcbCnt := t.dcbCnt } := by
  induction n generalizing p prev s with
  | zero => obtain ⟨-, rfl⟩ := Prod.mk.inj (Except.ok.inj h); rfl
  | succ n ih =>
    simp only [readEntries, raise, bind, Except.bind] at h
    split at h
    · cases h
    · split at h
      · cases h
      · split at h
        · cases h
        · split at h
          · cases h
          · split at h
            · cases h
            · split at h
              · cases h
              · split at h
                · cases h
                · split at h
                  · cases h
                  · rw [ih h]; rfl

/-! ### The decoder -/

/-- A `BU.GETBIT` that succeeds answers the stream bit and writes nothing but `BITPOS`, and the model's count of
free values. -/
theorem buGetbit_ok {s t : State} {b : Bool} (h : buGetbit s = .ok (b, t)) :
    s.bitPos.toNat < 8 * s.pkLen.toNat ∧ b = Safety.streamBit s s.bitPos.toNat ∧
      t.bitPos = fitOrFree 64 (s.bitPos.toNat + 1) s ∧
      t.freeCount = (countFree 64 (s.bitPos.toNat + 1) s).freeCount ∧
      t = { s with bitPos := t.bitPos, freeCount := t.freeCount } := by
  simp only [buGetbit, bind, Except.bind] at h
  split at h
  · cases h
  · split at h
    · cases h
    · rename_i x hx
      rw [countFree_frame] at h
      obtain ⟨rfl, rfl⟩ := Prod.mk.inj (Except.ok.inj h)
      obtain ⟨-, rfl⟩ := readByte_ok hx
      exact ⟨by omega, rfl, rfl, rfl, rfl⟩

/-- Everything `SQ.EMIT` can do. -/
theorem sqEmit_cases (y : Sym) (s : State) :
    (s.outLen.toNat < s.caps.outCap.toNat ∧
      sqEmit y s = .ok { s with
        outStore := cellSet s.outLen.toNat y s.outStore, outLen := s.outLen + 1#64 }) ∨
      (s.caps.outCap.toNat ≤ s.outLen.toNat ∧ sqEmit y s = .error (.raised (errorEntry .storeOverflow 2 s))) := by
  by_cases h : s.outLen.toNat < s.caps.outCap.toNat
  · refine .inl ⟨h, ?_⟩
    simp [sqEmit, Nat.not_le.2 h, writeByte, State.capacity, h, State.setStore, State.store, bind, Except.bind]
  · exact .inr ⟨by omega, by simp [sqEmit, Nat.not_lt.1 h, raise]⟩

/-- While the candidate has room, a bit is appended and no free value is taken. -/
theorem appendBit_eq {s : State} (h : s.candLen.toNat ≤ 254) (b : Bool) :
    appendBit b s = { s with
      cand := putBit s.cand s.candLen.toNat b, candLen := BitVec.ofNat 8 (s.candLen.toNat + 1) } := by
  obtain ⟨h1, h2⟩ := fitOrFree_eq (w := 8) (v := s.candLen.toNat + 1) (by omega) s
  simp only [appendBit, h1, h2, if_pos (show s.candLen.toNat + 1 ≤ Config.codeMax by simp [Config.codeMax]; omega)]

/-- Appending a bit changes the candidate and the model's count of free values alone. -/
theorem appendBit_frame (b : Bool) (s : State) :
    appendBit b s = { s with
      cand := (appendBit b s).cand, candLen := (appendBit b s).candLen, freeCount := (appendBit b s).freeCount } := by
  simp only [appendBit]
  rw [countFree_frame]

/-- The match of a candidate that goes on writes nothing but the candidate and `OUT`. -/
theorem matchCandidate_ok {s t : State} (h : matchCandidate s = .ok t) :
    t = { s with cand := t.cand, candLen := t.candLen, outLen := t.outLen, outStore := t.outStore } := by
  simp only [matchCandidate, raise, bind, Except.bind] at h
  split at h
  · split at h
    · cases h
    · rename_i v hv
      obtain rfl := Except.ok.inj h
      obtain ⟨w, hw, rfl⟩ := callUop_ok hv
      rcases sqEmit_cases _ _ with ⟨-, he⟩ | ⟨-, he⟩
      · rw [he] at hw
        obtain rfl := Except.ok.inj hw
        rfl
      · rw [he] at hw; cases hw
  · split at h
    · cases h
    · obtain rfl := Except.ok.inj h
      rfl

/-- One iteration of the scan that goes on writes nothing but the scan's registers and `OUT`, and the model's
count of free values, and moves `BITPOS` on by one as long as it can. -/
theorem scanBit_ok {s t : State} (h : scanBit s = .ok t) :
    t.bitPos = fitOrFree 64 (s.bitPos.toNat + 1) s ∧
      t = { s with
        bitPos := t.bitPos, cand := t.cand, candLen := t.candLen, outLen := t.outLen,
        outStore := t.outStore, freeCount := t.freeCount } := by
  simp only [scanBit, bind, Except.bind] at h
  split at h
  · cases h
  · rename_i x hx
    obtain ⟨b, u⟩ := x
    obtain ⟨-, -, hpos, -, hu⟩ := buGetbit_ok hx
    have hm := matchCandidate_ok h
    rw [appendBit_frame b u] at hm
    have hp : t.bitPos = u.bitPos := by rw [hm]
    refine ⟨hp.trans hpos, ?_⟩
    rw [hm, hu]

/-! ### The sequencer -/

/-- A step operation that wrote `STEP` or ended the command leaves `STEP`; any other moves it on. -/
theorem advance_cases (i : Instr) (t : State) :
    (t.busy = true ∧ writesStep i = false ∧ advance i t = { t with step := t.step + 1 }) ∨
      ((t.busy = false ∨ writesStep i = true) ∧ advance i t = t) := by
  unfold advance
  cases t.busy <;> cases writesStep i <;> simp

/-- Everything an idle block's own move does: nothing. -/
theorem blockStep_idle {s : State} (h : s.busy = false) : blockStep s = .next s := by simp [blockStep, h]

/-! ### The host -/

/-- Outside the window of R276 no command runs and the block owns nothing. -/
theorem inWindow_eq_false {s : State} : inWindow s = false ↔ s.busy = false ∧ s.owned = false := by
  simp [inWindow]

/-- Everything the issue of a command word can do (R115). -/
theorem issueCommand_cases (w : BitVec 32) (s : State) :
    (s.busy = true ∧ issueCommand w s = .next s) ∨
      (s.busy = false ∧ ((∃ i, decodeCmd w = .ok i ∧ issueCommand w s = exec i s) ∨
        ∃ k, issueCommand w s = .next (badCommand k s))) := by
  unfold issueCommand
  cases s.busy with
  | true => exact .inl ⟨rfl, rfl⟩
  | false =>
    refine .inr ⟨rfl, ?_⟩
    cases decodeCmd w with
    | ok i => exact .inl ⟨i, rfl, rfl⟩
    | error r => cases r <;> exact .inr ⟨_, rfl⟩

/-- A register write inside the window is dropped. -/
theorem writeReg_inWindow {s : State} (h : inWindow s = true) (index : Nat) (v : BitVec 64) :
    writeReg index v s = .next s := by simp [writeReg, h]

/-- Everything a `STATUS` read can change: while `BUSY = 1` a free value is taken, else the window ends. -/
theorem readStatus_frame (s : State) :
    readStatus s = { s with
      owned := s.busy && s.owned
      freeCount := if s.busy then s.freeCount + 1 else s.freeCount
      replies := (readStatus s).replies } := by
  unfold readStatus
  cases h : s.busy <;> simp [takeFree, reply, h]

/-- A register read can change only the window, the count of free values and the answers. -/
theorem readReg_frame (index : Nat) (s : State) :
    readReg index s = { s with
      owned := (readReg index s).owned, freeCount := (readReg index s).freeCount
      replies := (readReg index s).replies } := by
  unfold readReg
  split
  · rfl
  · rw [readStatus_frame]
  · split <;> rfl

end Sys2Proof.Machine
end

