-- ==== Sys2Proof/Laws/PerInstr.lean ====
section
/-! SUPPORT. A statement about every instruction as syntax, one lemma per constructor: which of the two forms of
words it has (spec/30_encoding.md R82, R84). A command is a 32-bit word with the reserved bits 0, every other row an
8-bit id with an argument of 9 bits. -/

namespace Sys2Proof.Laws.EncodingForm

/-- The words of an instruction have the form its kind says: a command word of one byte's value, or an id of R84's
table, all of which stand between 0x04 and 0x74. -/
def Statement (i : Instr) : Prop :=
  match encode i with
  | .cmd w => i.kind = .command ∧ w.toNat < 256
  | .uop id _ => i.kind ≠ .command ∧ 0x04 ≤ id.toNat ∧ id.toNat ≤ 0x74

theorem encode : Statement (.encode) := by simp [Statement, Sys2Proof.encode, Instr.kind]

theorem decode : Statement (.decode) := by simp [Statement, Sys2Proof.encode, Instr.kind]

theorem seqChkin : Statement (.seqChkin) := by simp [Statement, Sys2Proof.encode, Instr.kind]

theorem seqSkipempty : Statement (.seqSkipempty) := by simp [Statement, Sys2Proof.encode, Instr.kind]

theorem seqChkpk : Statement (.seqChkpk) := by simp [Statement, Sys2Proof.encode, Instr.kind]

theorem seqChkemptycb : Statement (.seqChkemptycb) := by simp [Statement, Sys2Proof.encode, Instr.kind]

theorem seqEnd : Statement (.seqEnd) := by simp [Statement, Sys2Proof.encode, Instr.kind]

theorem fcClear : Statement (.fcClear) := by simp [Statement, Sys2Proof.encode, Instr.kind]

theorem fcCount : Statement (.fcCount) := by simp [Statement, Sys2Proof.encode, Instr.kind]

theorem pqClear : Statement (.pqClear) := by simp [Statement, Sys2Proof.encode, Instr.kind]

theorem pqInsert (n : NodeId) : Statement (.pqInsert n) := by simp [Statement, Sys2Proof.encode, Instr.kind]

theorem pqExtract : Statement (.pqExtract) := by simp [Statement, Sys2Proof.encode, Instr.kind]

theorem pqSiftup (i : BitVec 8) : Statement (.pqSiftup i) := by simp [Statement, Sys2Proof.encode, Instr.kind]

theorem pqSiftdown (i : BitVec 8) : Statement (.pqSiftdown i) := by simp [Statement, Sys2Proof.encode, Instr.kind]

theorem tbLeaves : Statement (.tbLeaves) := by simp [Statement, Sys2Proof.encode, Instr.kind]

theorem tbMerge : Statement (.tbMerge) := by simp [Statement, Sys2Proof.encode, Instr.kind]

theorem tbBuild : Statement (.tbBuild) := by simp [Statement, Sys2Proof.encode, Instr.kind]

theorem cwClear : Statement (.cwClear) := by simp [Statement, Sys2Proof.encode, Instr.kind]

theorem cwWalk : Statement (.cwWalk) := by simp [Statement, Sys2Proof.encode, Instr.kind]

theorem bpInit : Statement (.bpInit) := by simp [Statement, Sys2Proof.encode, Instr.kind]

theorem bpPutbit (b : Bool) : Statement (.bpPutbit b) := by simp [Statement, Sys2Proof.encode, Instr.kind]

theorem bpPutcode (sym : Sym) : Statement (.bpPutcode sym) := by simp [Statement, Sys2Proof.encode, Instr.kind]

theorem bpPack : Statement (.bpPack) := by simp [Statement, Sys2Proof.encode, Instr.kind]

theorem bpFlush : Statement (.bpFlush) := by simp [Statement, Sys2Proof.encode, Instr.kind]

theorem ccSerialize : Statement (.ccSerialize) := by simp [Statement, Sys2Proof.encode, Instr.kind]

theorem ccDeserialize : Statement (.ccDeserialize) := by simp [Statement, Sys2Proof.encode, Instr.kind]

theorem ccCheck : Statement (.ccCheck) := by simp [Statement, Sys2Proof.encode, Instr.kind]

theorem buInit : Statement (.buInit) := by simp [Statement, Sys2Proof.encode, Instr.kind]

theorem buGetbit : Statement (.buGetbit) := by simp [Statement, Sys2Proof.encode, Instr.kind]

theorem dlLookup : Statement (.dlLookup) := by simp [Statement, Sys2Proof.encode, Instr.kind]

theorem sqEmit (sym : Sym) : Statement (.sqEmit sym) := by simp [Statement, Sys2Proof.encode, Instr.kind]

theorem sqRun : Statement (.sqRun) := by simp [Statement, Sys2Proof.encode, Instr.kind]

end Sys2Proof.Laws.EncodingForm
end

