-- ==== Sys2Proof/Tests/Slice0.lean ====
section
/-! SUPPORT. Tests. Expected words come from spec/30_encoding.md R82 to R84, expected results from
spec/95_test_vectors.md (the vector is named) or, where it has none, from the rule named. A `witness` theorem shows
a state and operands that meet every hypothesis of the statement it is named after. -/

namespace Sys2Proof.Tests

set_option Elab.async false

open Sys2Proof Sys2Proof.Machine Sys2Proof.Safety

/-! ### Helpers -/

/-- A block with small capacities: `IN_CAP` 8, `PK_CAP` 2, `OUT_CAP` 3. -/
def small : State := State.afterReset ⟨8#32, 2#64, 3#64⟩ 0

/-- The answer is a next state with the property. -/
def holds (o : Host.Outcome State Fault Refusal) (p : State → Bool) : Bool :=
  match o with
  | .next t => p t
  | _ => false

/-- The answer is this refusal. -/
def refuses (o : Host.Outcome State Fault Refusal) (r : Refusal) : Bool :=
  match o with
  | .refused q => q == r
  | _ => false

/-- Bytes as the cells of a store from address 0. -/
def cells (bs : List Byte) : List Host.Cell := (List.range bs.length).map fun k => (k, bs.getD k 0)

/-- A table of `n` entries, all `d` but the listed ones. -/
def table {α : Type} (n : Nat) (d : α) (es : List (Nat × α)) : List (Nat × α) :=
  es.foldl (fun m c => cellSet c.1 c.2 m) (cellFill n d)

/-- A code given by its bits. -/
def key (p : List Bool) : CodeEntry := entryOf p

/-- "aaab" in `IN`. -/
def aaab : State := { small with inStore := cells [0x61, 0x61, 0x61, 0x62], inLen := 4 }

/-- `FREQ` of "aaab". -/
def aaabFreq : State := { aaab with freq := table 256 0 [(0x61, 3), (0x62, 1)] }

/-- TB1: the queue of "aaab". -/
def aaabQueue : State :=
  { aaabFreq with
    nextId := 256, heapSize := 2, heap := [(0, 0x62), (1, 0x61)], nodeFreq := [(0x61, 3), (0x62, 1)] }

/-- `CODE` of "aaab" (S1): a = "1", b = "0". -/
def aaabCode : State :=
  { aaab with code := table 256 .cleared [(0x61, key [true]), (0x62, key [false])], curCmd := 1 }

/-- `CB` of "aaab" (S1). -/
def aaabCb : List Byte :=
  [0x00, 0x00, 0x00, 0x00, 0x00, 0x00, 0x00, 0x04, 0x00, 0x02, 0x01, 0x80, 0x61, 0x01, 0x00, 0x62]

/-- A loaded `DECODE` of "aaab" (S1), the table read. -/
def aaabDcb : State :=
  { small with
    cbStore := cells aaabCb, cbLen := 16, pkStore := cells [0xe0], pkLen := 1, totalBits := 4, curCmd := 2,
    dcb := table 256 .cleared [(0x61, key [true]), (0x62, key [false])], dcbCnt := 2 }

/-- The queue of section 4's vectors: a 5, b 2, c 1, d 1, r 2. -/
def abraQueue : State :=
  { small with
    heapSize := 4, heap := [(0, 0x63), (1, 0x64), (2, 0x62), (3, 0x61)],
    nodeFreq := [(0x61, 5), (0x62, 2), (0x63, 1), (0x64, 1), (0x72, 2), (256, 2)] }

/-! ### The operand check -/

/-- R143: 511 is no node id. -/
theorem test_wellFormed_refuses_511 : (Instr.pqInsert 511#9).wellFormed = false := by decide

/-- R143: 510 is the greatest. -/
theorem test_wellFormed_admits_510 : (Instr.pqInsert 510#9).wellFormed = true := by decide

/-! ### Decoding: every row, its word written out from R82 and R84 -/

theorem test_decode_commands :
    decodeTableWord 32 0b00000000000000000000000000000001 = some .encode ∧
    decodeTableWord 32 0b00000000000000000000000000000010 = some .decode := by decide

theorem test_decode_sequencer :
    decodeTableWord 8 0b00000100 = some .seqChkin ∧ decodeTableWord 8 0b00000101 = some .seqSkipempty ∧
    decodeTableWord 8 0b00000110 = some .seqChkpk ∧ decodeTableWord 8 0b00000111 = some .seqChkemptycb ∧
    decodeTableWord 8 0b00001000 = some .seqEnd := by decide

theorem test_decode_frequency_counter :
    decodeTableWord 8 0b00010000 = some .fcClear ∧ decodeTableWord 8 0b00010001 = some .fcCount := by decide

theorem test_decode_priority_queue :
    decodeTableWord 8 0b00100000 = some .pqClear ∧ decode (.uop 0b00100001#8 0b100000000#9) = .ok (.pqInsert 256#9) ∧
    decodeTableWord 8 0b00100010 = some .pqExtract ∧
    decode (.uop 0b00100011#8 0b000000101#9) = .ok (.pqSiftup 5#8) ∧
    decode (.uop 0b00100100#8 0b011111111#9) = .ok (.pqSiftdown 255#8) := by decide

theorem test_decode_tree_builder :
    decodeTableWord 8 0b00110000 = some .tbLeaves ∧ decodeTableWord 8 0b00110001 = some .tbMerge ∧
    decodeTableWord 8 0b00110010 = some .tbBuild := by decide

theorem test_decode_code_walker :
    decodeTableWord 8 0b01000000 = some .cwClear ∧ decodeTableWord 8 0b01000001 = some .cwWalk := by decide

theorem test_decode_bit_packer :
    decodeTableWord 8 0b01010000 = some .bpInit ∧ decode (.uop 0b01010001#8 0b000000001#9) = .ok (.bpPutbit true) ∧
    decode (.uop 0b01010010#8 0b001100001#9) = .ok (.bpPutcode 0x61#8) ∧
    decodeTableWord 8 0b01010011 = some .bpPack ∧ decodeTableWord 8 0b01010100 = some .bpFlush := by decide

theorem test_decode_codebook_codec :
    decodeTableWord 8 0b01100000 = some .ccSerialize ∧ decodeTableWord 8 0b01100001 = some .ccDeserialize ∧
    decodeTableWord 8 0b01100010 = some .ccCheck := by decide

theorem test_decode_decoder :
    decodeTableWord 8 0b01110000 = some .buInit ∧ decodeTableWord 8 0b01110001 = some .buGetbit ∧
    decodeTableWord 8 0b01110010 = some .dlLookup ∧
    decode (.uop 0b01110011#8 0b001100001#9) = .ok (.sqEmit 0x61#8) ∧
    decodeTableWord 8 0b01110100 = some .sqRun := by decide

/-- R83, R84: what is no instruction, each under its own name. -/
theorem test_decode_rejects :
    decode (.cmd 0x00000100#32) = .error .reservedBits ∧ decode (.cmd 0x00000101#32) = .error .reservedBits ∧
    decode (.cmd 0x00000000#32) = .error .unknownOp ∧ decode (.cmd 0x00000003#32) = .error .unknownOp ∧
    decode (.uop 0x00#8 0) = .error .unknownUop ∧ decode (.uop 0x75#8 0) = .error .unknownUop ∧
    decode (.uop 0x08#8 1) = .error .operandForNone ∧ decode (.uop 0x51#8 2) = .error .operandTooWide ∧
    decode (.uop 0x73#8 256) = .error .operandTooWide ∧ decode (.uop 0x21#8 511) = .error .notANodeId := by decide

/-! ### The commands and the sequencer -/

/-- R115: the legal arm. -/
theorem test_encode_starts : holds (exec .encode { aaab with done := true, err := true, errCode := 4, errSub := 1 })
    (fun t => statusWord t == 0x10000001#32) = true := by decide

/-- R115: a write while busy is dropped. -/
theorem test_encode_busy_dropped : holds (exec .encode { aaab with busy := true, curCmd := 2, step := 3 })
    (fun t => statusWord t == 0x20000031#32) = true := by decide

/-- R115. -/
theorem test_decode_starts : holds (exec .decode aaabDcb) (fun t => statusWord t == 0x20000001#32) = true := by decide

/-- P3's first word, 0x00000000: `BadCommand(1)`, `STATUS` 0x00140006. -/
theorem test_bad_command : holds (step { small with turns := [.host (.write 0 0 0#64)] })
    (fun t => statusWord t == 0x00140006#32) = true := by decide

/-- R117 at the boundary and above it. -/
theorem test_seqChkin : exec .seqChkin { small with inLen := 8 } = .next { small with inLen := 8 } ∧
    holds (exec .seqChkin { small with inLen := 9 }) (fun t => t.errCode == 1#4 && t.errSub == 2#8 && t.err) = true :=
  ⟨rfl, by decide⟩

/-- R118: both branches. -/
theorem test_seqSkipempty : holds (exec .seqSkipempty { small with step := 5 }) (fun t => t.step == 12#4) = true ∧
    holds (exec .seqSkipempty { small with step := 5, inLen := 1 }) (fun t => t.step == 6#4) = true := by decide

/-- DV14: `InvalidInput(3)`, `STATUS` 0x20310606. -/
theorem test_seqChkpk : holds (step { small with pkLen := 3, busy := true, curCmd := 2 })
    (fun t => statusWord t == 0x20310606#32) = true := by decide

/-- DV5: `InvalidInput(1)`, `STATUS` 0x20110736. -/
theorem test_seqChkemptycb : holds (step { small with pkLen := 1, busy := true, curCmd := 2, step := 3 })
    (fun t => statusWord t == 0x20110736#32) = true := by decide

/-- R116: `STATUS` after an `ENCODE`, 0x100000D2. -/
theorem test_seqEnd : holds (step { small with busy := true, curCmd := 1, step := 13, uop := 0x60 })
    (fun t => statusWord t == 0x100000D2#32) = true := by decide

/-! ### Frequency counter -/

/-- FC1. -/
theorem test_fcClear : holds (exec .fcClear aaab)
    (fun t => t.freqAt 0 == 0 && t.freqAt 255 == 0 && t.freq.length == 256) = true := by decide +kernel

/-- FC2. -/
theorem test_fcCount : holds (exec .fcCount { aaab with freq := table 256 0 [] })
    (fun t => t.freqAt 0x61 == 3 && t.freqAt 0x62 == 1 && t.freqAt 0x63 == 0) = true := by decide +kernel

/-- No rule states a count past 2^32 − 1: that entry is a free value, the others are counted (log 10). -/
theorem test_fcCount_free : holds (exec .fcCount { aaab with freq := table 256 0 [(0x61, 0xfffffffd#32)] })
    (fun t => t.freqAt 0x62 == 1 && t.freqAt 0x63 == 0 && t.freeCount == 1) = true := by decide +kernel

/-! ### Priority queue -/

/-- PQ7. -/
theorem test_pqClear : holds (exec .pqClear abraQueue) (fun t => t.heapSize == 0 && t.heapAt 0 == 0x63) = true := by
  decide

/-- PQ1: 63 into [62, 61]. -/
theorem test_pqInsert_swaps : holds
    (exec (.pqInsert 0x63) { abraQueue with heapSize := 2, heap := [(0, 0x62), (1, 0x61)] })
    (fun t => t.heapSize == 3 && t.heap == [(0, 0x63), (1, 0x61), (2, 0x62)]) = true := by decide

/-- PQ3: 72 into [63, 64, 62, 61]. -/
theorem test_pqInsert_stays : holds (exec (.pqInsert 0x72) abraQueue)
    (fun t => t.heapSize == 5 && t.heap == [(0, 0x63), (1, 0x64), (2, 0x62), (3, 0x61), (4, 0x72)]) = true := by
  decide

/-- PQ4: out of [63, 64, 62, 61, 72]. -/
theorem test_pqExtract : holds
    (exec .pqExtract { abraQueue with
      heapSize := 5, heap := [(0, 0x63), (1, 0x64), (2, 0x62), (3, 0x61), (4, 0x72)] })
    (fun t => t.result == .node 0x63 && t.heapSize == 4 && t.heapAt 0 == 0x64 && t.heapAt 1 == 0x72 &&
      t.heapAt 2 == 0x62 && t.heapAt 3 == 0x61) = true := by decide

/-- PQ6: a queue of one; U7: an empty queue. -/
theorem test_pqExtract_ends :
    holds (exec .pqExtract { small with heapSize := 1, heap := [(0, 259)] })
      (fun t => t.result == .node 259 && t.heapSize == 0) = true ∧
    refuses (exec .pqExtract small) .heapEmpty = true := by decide

/-- PQ2: index 3 holds 64, its parent 61 (5) and grandparent 63. -/
theorem test_pqSiftup : holds
    (exec (.pqSiftup 3) { abraQueue with heap := [(0, 0x63), (1, 0x61), (2, 0x62), (3, 0x64)] })
    (fun t => t.heap == [(0, 0x63), (1, 0x64), (2, 0x62), (3, 0x61)]) = true := by decide

/-- PQ5: 61 at the top of [61, 72, 62]: the lesser child is 62. -/
theorem test_pqSiftdown : holds
    (exec (.pqSiftdown 0) { abraQueue with heapSize := 3, heap := [(0, 0x61), (1, 0x72), (2, 0x62)] })
    (fun t => t.heap == [(0, 0x62), (1, 0x72), (2, 0x61)]) = true := by decide

/-- Section 4's table of `PQ.LESS`: ties go to the lesser id, a leaf before an internal node. -/
theorem test_pqLess :
    keyBefore abraQueue 0x63 0x62 = true ∧ keyBefore abraQueue 0x63 0x64 = true ∧
    keyBefore abraQueue 0x64 0x63 = false ∧ keyBefore abraQueue 0x72 256 = true ∧
    keyBefore abraQueue 256 0x62 = false ∧ keyBefore abraQueue 0x61 0x61 = false := by decide

/-! ### Tree builder -/

/-- TB1. -/
theorem test_tbLeaves : holds (exec .tbLeaves { aaabFreq with nextId := 7 })
    (fun t => t.nextId == 256 && t.heapSize == 2 && t.heap == [(0, 0x62), (1, 0x61)] &&
      t.nodeFreq == [(0x61, 3), (0x62, 1)]) = true := by decide +kernel

/-- TB2: the merge. -/
theorem test_tbMerge : holds (exec .tbMerge aaabQueue)
    (fun t => t.nodeAt 256 == ⟨4, 0x62, 0x61⟩ && t.nextId == 257 && t.heapSize == 1 && t.heapAt 0 == 256) = true := by
  decide

/-- TB2: the build. -/
theorem test_tbBuild : holds (exec .tbBuild aaabQueue) (fun t => t.root == 256 && t.heapSize == 1) = true := by decide

/-- TB5: one symbol, no merge. -/
theorem test_tbBuild_one : holds (exec .tbBuild { small with heapSize := 1, heap := [(0, 0x7a)], nextId := 256 })
    (fun t => t.root == 0x7a && t.nextId == 256 && t.nodeLeft == []) = true := by decide

/-! ### Code walker -/

/-- The tree of "abcc" (CW4). -/
def abccTree : State :=
  { small with
    root := 257, nextId := 258, nodeFreq := [(256, 2), (257, 4)], nodeLeft := [(256, 0x61), (257, 0x63)],
    nodeRight := [(256, 0x62), (257, 256)] }

/-- CW1. -/
theorem test_cwClear : holds (exec .cwClear aaabCode)
    (fun t => (List.range 256).all fun k => t.codeAt k == ⟨false, 0, 0⟩) = true := by decide +kernel

/-- CW4: c = "0", a = "10", b = "11". -/
theorem test_cwWalk : holds (exec .cwWalk abccTree)
    (fun t => t.codeAt 0x63 == key [false] && t.codeAt 0x61 == key [true, false] &&
      t.codeAt 0x62 == key [true, true] && t.code.length == 3 && t.wsp == 0) = true := by decide +kernel

/-- CW3: a bare leaf. -/
theorem test_cwWalk_leaf : holds (exec .cwWalk { small with root := 0x7a })
    (fun t => t.code == [(0x7a, ⟨true, 1, 0⟩)] && t.wstk == []) = true := by decide

/-! ### Bit packer -/

/-- BP1. -/
theorem test_bpInit : holds (exec .bpInit { small with acc := 0x55, accN := 3, pkLen := 9, totalBits := 7 })
    (fun t => t.acc == 0 && t.accN == 0 && t.pkLen == 0 && t.totalBits == 0) = true := by decide

/-- BP3: the eighth bit flushes; no rule states `TOTAL_BITS` past 2^64 − 1: it alone is a free value (log 10). -/
theorem test_bpPutbit_flush :
    holds (exec (.bpPutbit false) { small with acc := 0b0000111, accN := 7, totalBits := 7 })
      (fun t => t.byteAt .pk 0 == 0x0e && t.pkLen == 1 && t.acc == 0 && t.accN == 0 && t.totalBits == 8) = true ∧
    holds (exec (.bpPutbit true) { small with totalBits := 0xffffffffffffffff })
      (fun t => t.acc == 1 && t.accN == 1 && t.pkLen == 0 && t.freeCount == 1) = true := by decide

/-- BP9: no room for the second byte, `STATUS` 0x101551A6 from its state before the 16th bit. -/
theorem test_bpPutbit_overflow : holds (exec (.bpPutbit true)
      { small with acc := 0b1010111, accN := 7, pkLen := 2, totalBits := 15, curCmd := 1, uop := 0x51, step := 10 })
    (fun t => statusWord t == 0x101551A6#32 && t.totalBits == 16 && t.acc == 0xaf && t.accN == 8 && t.pkLen == 0)
    = true := by decide

/-- BP4: "110". -/
theorem test_bpPutcode : holds (exec (.bpPutcode 0x62)
      { small with code := [(0x62, key [true, true, false])], uop := 0x52 })
    (fun t => t.acc == 0b110 && t.accN == 3 && t.totalBits == 3 && t.uop == 0x52) = true := by decide +kernel

/-- BP2, by S1: the bits 1 1 1 0 of "aaab". -/
theorem test_bpPack : holds (exec .bpPack aaabCode)
    (fun t => t.acc == 0b1110 && t.accN == 4 && t.totalBits == 4 && t.pkLen == 0) = true := by decide +kernel

/-- BP5. -/
theorem test_bpFlush : holds (exec .bpFlush { small with acc := 0b1110, accN := 4, totalBits := 4 })
    (fun t => t.byteAt .pk 0 == 0xe0 && t.pkLen == 1 && t.acc == 0 && t.accN == 0 && t.totalBits == 4) = true := by
  decide

/-- BP6; and above the `ACC_N` of R38 the byte alone is a free value (log 10). -/
theorem test_bpFlush_nothing :
    holds (exec .bpFlush { small with pkLen := 2 }) (fun t => t.pkLen == 2 && t.pkStore == []) = true ∧
    holds (exec .bpFlush { small with accN := 9 })
      (fun t => t.pkLen == 1 && t.accN == 0 && t.pkStore.length == 1 && t.freeCount == 1) = true := by decide

/-! ### Codebook codec -/

/-- CC1. -/
theorem test_ccSerialize : holds (exec .ccSerialize { aaabCode with totalBits := 4 })
    (fun t => t.cbLen == 16 && storeBytes t .cb 16 == aaabCb) = true := by decide +kernel

/-- CC5. -/
theorem test_ccDeserialize : holds (exec .ccDeserialize { aaabDcb with dcb := [], dcbCnt := 0, totalBits := 0 })
    (fun t => t.totalBits == 4 && t.dcbCnt == 2 && t.dcbAt 0x61 == key [true] && t.dcbAt 0x62 == key [false] &&
      t.dcbAt 0 == CodeEntry.cleared && !t.err) = true := by decide +kernel

/-- CE5: a pad bit set, `CorruptCodebook(5)`, nothing accepted. -/
theorem test_ccDeserialize_pad : holds
    (step { aaabDcb with cbStore := cells (aaabCb.set 11 0x81), busy := true, step := 1, dcbCnt := 9 })
    (fun t => statusWord t == 0x20526116#32 && t.dcbCnt == 0 && t.totalBits == 4) = true := by decide +kernel

/-- CC5: the check passes. -/
theorem test_ccCheck : holds (exec .ccCheck aaabDcb) (fun t => !t.err) = true := by decide +kernel

/-- CE8b: "1" is a prefix of "10", `STATUS` 0x20826226. -/
theorem test_ccCheck_prefix : holds
    (step { aaabDcb with
      dcb := table 256 .cleared [(0x61, key [true]), (0x62, key [true, false])], busy := true, step := 2 })
    (fun t => statusWord t == 0x20826226#32) = true := by decide +kernel

/-! ### Decoder -/

/-- R220. -/
theorem test_buInit : holds (exec .buInit { small with bitPos := 3, cand := 1, candLen := 1, outLen := 2 })
    (fun t => t.bitPos == 0 && t.cand == 0 && t.candLen == 0 && t.outLen == 0) = true := by decide

/-- BU1: the fourth bit of e0. -/
theorem test_buGetbit : holds (exec .buGetbit { aaabDcb with bitPos := 3 })
    (fun t => t.result == .bit false && t.bitPos == 4) = true := by decide

/-- BU2: bit 8 of 6e 8a. -/
theorem test_buGetbit_second_byte :
    holds (exec .buGetbit { small with pkStore := cells [0x6e, 0x8a], pkLen := 2, bitPos := 8 })
      (fun t => t.result == .bit true && t.bitPos == 9) = true := by decide

/-- DL1. -/
theorem test_dlLookup : holds (exec .dlLookup { aaabDcb with cand := 1, candLen := 1 })
    (fun t => t.result == .symbol (some 0x61)) = true := by decide +kernel

/-- DL2: "1" where only "10" has a key. -/
theorem test_dlLookup_none : holds
    (exec .dlLookup { small with dcb := table 256 .cleared [(0x78, key [true, false])], cand := 1, candLen := 1 })
    (fun t => t.result == .symbol none) = true := by decide +kernel

/-- R224. -/
theorem test_sqEmit : holds (exec (.sqEmit 0x61) { small with outLen := 2 })
    (fun t => t.byteAt .out 2 == 0x61 && t.outLen == 3) = true := by decide

/-- DV9: no room, `StoreOverflow(2)`. -/
theorem test_sqEmit_full : holds (exec (.sqEmit 0x61) { small with outLen := 3, curCmd := 2, uop := 0x73, step := 5 })
    (fun t => statusWord t == 0x20257356#32 && t.outLen == 0 && t.outStore == []) = true := by decide

/-- DV1 cut to three symbols: the stream 1 1 1. -/
theorem test_sqRun : holds (exec .sqRun { aaabDcb with totalBits := 3 })
    (fun t => storeBytes t .out 3 == [0x61, 0x61, 0x61] && t.outLen == 3 && t.bitPos == 3 && t.candLen == 0)
    = true := by decide +kernel

/-- DV3: 9 > 8 bits, `STATUS` 0x20137456. -/
theorem test_sqRun_marker : holds (step { aaabDcb with totalBits := 9, busy := true, step := 5 })
    (fun t => statusWord t == 0x20137456#32 && t.bitPos == 0) = true := by decide

/-! ### The host -/

/-- R276, U3: a store access is refused while `BUSY = 1`, and after that until `STATUS` is read. -/
theorem test_host_busy :
    refuses (step { small with busy := true, turns := [.host (.read 1 0)] }) .hostAccessWhileBusy = true ∧
    refuses (step { small with owned := true, turns := [.host (.read 1 0)] }) .hostAccessWhileBusy = true := by decide

/-- R276: the `CMD` write opens the window, in it a register write is dropped (b), the `STATUS` read that returns
`BUSY = 0` closes it, and then a write has its effect. -/
theorem test_host_window :
    holds (step { aaab with turns := [.host (.write 0 0 1)] }) inWindow = true ∧
    holds (step { small with owned := true, done := true, turns := [.host (.write 0 2 7)] })
      (fun t => t.inLen == 0 && inWindow t) = true ∧
    holds (step { small with owned := true, done := true, turns := [.host (.read 0 1)] })
      (fun t => t.replies == [⟨0, 1, .reg 2⟩] && !inWindow t) = true ∧
    holds (step { small with turns := [.host (.write 0 2 7)] }) (fun t => t.inLen == 7) = true := by decide

/-- R270: reset while busy. -/
theorem test_host_reset : holds (step { aaabDcb with busy := true, turns := [.host .reset] })
    (fun t => statusWord t == 0#32 && t.cbStore == [] && t.epoch == 1) = true := by decide

/-- R100, P1's shape: a written byte is read back through the bus. -/
theorem test_host_write : holds (step { small with turns := [.host (.write 1 7 0x161#64)] })
    (fun t => t.byteAt .inp 7 == 0x61) = true := by decide

/-! ### A step runs the instruction placed -/

theorem test_withFetchWord :
    holds (step (State.reset.withFetchWord 32 0x00000002)) (fun t => t.busy && t.curCmd == 2#2) = true ∧
    holds (step (State.reset.withFetchWord 8 0x20)) (fun t => t.uop == 0x20#8 && t.step == 7#4) = true ∧
    holds (step (State.reset.withFetchWord 8 0x51)) (fun t => t.uop == 0x51#8 && t.accN == 1#4) = true := by decide

/-! ### Witnesses: every hypothesis of each statement, met together -/

/-- A property of a next state names one. -/
theorem exists_of_holds {o : Host.Outcome State Fault Refusal} {p : State → Bool} (h : holds o p = true) :
    ∃ t, o = .next t ∧ p t = true := by
  cases o with
  | next t => exact ⟨t, rfl, h⟩
  | fault f => simp [holds] at h
  | refused f => simp [holds] at h

theorem witness_DecodeOfEncode : (Instr.pqInsert 510#9).wellFormed = true := by decide

theorem witness_EncodeOfDecode :
    decode (.uop 0x21#8 510#9) = .ok (.pqInsert 510#9) ∧ decode (.cmd 2#32) = .ok .decode := by decide

theorem witness_CommandWordsClassified :
    256 ≤ (256#32).toNat ∧ ((255#32).toNat < 256 ∧ (255#32).toNat ≠ 1 ∧ (255#32).toNat ≠ 2) ∧
    ((0#32).toNat < 256 ∧ (0#32).toNat ≠ 1 ∧ (0#32).toNat ≠ 2) ∧ (1#32).toNat = 1 ∧ (2#32).toNat = 2 := by decide

/-- A host write of `v` to `CMD`, on an idle or a busy block. -/
def cmdWrite (v : BitVec 64) (busy : Bool) : State := { small with turns := [.host (.write 0 0 v)], busy := busy }

theorem witness_StepRunsTheDecodedInstruction :
    ((cmdWrite 1 false).turns = .host (.write 0 0 1#64) :: [] ∧ (cmdWrite 1 false).busy = false ∧
      (cmdWrite 1 false).owned = false ∧ decode (.cmd ((1#64).setWidth 32)) = .ok .encode) ∧
    (let s := { small with busy := true, curCmd := 2#2, step := 6#4 };
      s.turns = [] ∧ s.busy = true ∧ programUop s.curCmd s.step = some 0x08#8 ∧
      decode (.uop 0x08#8 0) = .ok .seqEnd) ∧
    (let s := { small with turns := [.call 0x21#8 510#9] };
      s.turns = .call 0x21#8 510#9 :: [] ∧ decode (.uop 0x21#8 510#9) = .ok (.pqInsert 510#9) ∧
      (Instr.pqInsert 510#9).kind = .calledOp) := by decide

/-- R115: each arm, at the least and the greatest words of its range; and a write to `CMD` outside the window. -/
theorem witness_CommandIssue :
    { small with busy := true }.busy = true ∧ small.busy = false ∧
    ((0x100#32).extractLsb' 8 24 ≠ 0#24 ∧ (0xffffffff#32).extractLsb' 8 24 ≠ 0#24) ∧
    ((1#32).extractLsb' 8 24 = 0#24 ∧ (1#32).extractLsb' 0 8 = 1#8) ∧
    ((2#32).extractLsb' 8 24 = 0#24 ∧ (2#32).extractLsb' 0 8 = 2#8) ∧
    ((0#32).extractLsb' 8 24 = 0#24 ∧ (0#32).extractLsb' 0 8 ≠ 1#8 ∧ (0#32).extractLsb' 0 8 ≠ 2#8) ∧
    ((0xff#32).extractLsb' 8 24 = 0#24 ∧ (0xff#32).extractLsb' 0 8 ≠ 1#8 ∧ (0xff#32).extractLsb' 0 8 ≠ 2#8) ∧
    ((cmdWrite 1 false).turns = .host (.write 0 0 1#64) :: [] ∧ (cmdWrite 1 false).owned = false) := by
  decide

theorem witness_CommandsStart : (cmdWrite 1 false).busy = false ∧ (cmdWrite 1 true).busy = true := by decide

theorem witness_LengthChecks :
    { small with inLen := 8 }.inLen.toNat ≤ small.caps.inCap.toNat ∧
    small.caps.inCap.toNat < { small with inLen := 9 }.inLen.toNat ∧
    { small with pkLen := 2 }.pkLen.toNat ≤ small.caps.pkCap.toNat ∧
    small.caps.pkCap.toNat < { small with pkLen := 3 }.pkLen.toNat ∧
    (small.dcbCnt = 0#9 ∧ { small with pkLen := 1 }.pkLen ≠ 0#64) ∧
    (aaabDcb.dcbCnt ≠ 0#9 ∧ small.pkLen = 0#64) := by decide

theorem witness_SeqSkipemptyResult :
    small.inLen = 0#32 ∧ (aaab.inLen ≠ 0#32 ∧ { aaab with step := 14 }.step.toNat < 15) ∧
    (aaab.inLen ≠ 0#32 ∧ { aaab with step := 15 }.step.toNat = 15) := by decide

/-- The count of 61 ends at 2^32 − 1. -/
def fullCount : State := { aaab with freq := table 256 0 [(0x61, 0xfffffffc#32)] }

theorem witness_FcCountResult_count : fullCount.inLen.toNat ≤ fullCount.caps.inCap.toNat ∧
    (∀ k, k < 256 → (fullCount.freqAt k).toNat + countOf fullCount k < 2 ^ 32) := by decide +kernel

/-- The count of 61 would pass 2^32 − 1; that of 62 does not. -/
theorem witness_FcCountResult_free :
    (let s := { aaab with freq := table 256 0 [(0x61, 0xfffffffd#32)] };
      s.inLen.toNat ≤ s.caps.inCap.toNat ∧ (s.freqAt 0x61).toNat + countOf s 0x61 = 2 ^ 32 ∧
      (s.freqAt 0x62).toNat + countOf s 0x62 < 2 ^ 32) := by decide +kernel

theorem witness_FcCountResult_sum :
    ∃ t, aaab.inLen.toNat ≤ aaab.caps.inCap.toNat ∧ exec .fcClear aaab = .next t := ⟨_, by decide, rfl⟩

theorem witness_PqInsertResult : abraQueue.heapSize.toNat < 256 ∧ (510#9 : NodeId).toNat < 511 ∧
    idsInArena abraQueue ∧ heapOrdered abraQueue := by
  unfold idsInArena heapOrdered; decide

theorem witness_PqExtractResult : 1 ≤ abraQueue.heapSize.toNat ∧ abraQueue.heapSize.toNat ≤ 256 ∧
    idsInArena abraQueue ∧ heapOrdered abraQueue := by
  unfold idsInArena heapOrdered; decide

/-- PQ2 before its sift, and PQ5 before its. -/
def siftUpFrom : State := { abraQueue with heap := [(0, 0x63), (1, 0x61), (2, 0x62), (3, 0x64)] }

def siftDownFrom : State := { abraQueue with heapSize := 3, heap := [(0, 0x61), (1, 0x72), (2, 0x62)] }

theorem witness_PqSiftupResult : (3#8).toNat < siftUpFrom.heapSize.toNat ∧ idsInArena siftUpFrom ∧
    orderedButUp siftUpFrom (3#8).toNat := by
  unfold idsInArena orderedButUp; decide

theorem witness_PqSiftdownResult : (0#8).toNat < siftDownFrom.heapSize.toNat ∧ siftDownFrom.heapSize.toNat ≤ 256 ∧
    idsInArena siftDownFrom ∧ orderedButDown siftDownFrom (0#8).toNat := by
  unfold idsInArena orderedButDown; decide

theorem witness_KeyOrderStrictTotal : keyBefore abraQueue 0x63 0x64 = true ∧ keyBefore abraQueue 0x64 0x62 = true ∧
    (0x63#9 : NodeId) ≠ 0x64#9 := by decide

theorem witness_StopsByName :
    small.heapSize = 0#9 ∧ 256 < { small with heapSize := 257 }.heapSize.toNat ∧
    256 ≤ { small with heapSize := 256 }.heapSize.toNat ∧ { small with heapSize := 255 }.heapSize.toNat < 256 ∧
    abraQueue.heapSize.toNat ≤ (4#8).toNat ∧ { small with heapSize := 1 }.heapSize.toNat < 2 ∧
    { small with root := 511 }.root = 511#9 ∧ 8 ≤ { small with accN := 8 }.accN.toNat ∧ (aaabCode.codeAt (0x63#8).toNat).valid = false ∧
    8 * aaabDcb.pkLen.toNat ≤ { aaabDcb with bitPos := 8 }.bitPos.toNat ∧
    ({ small with pkLen := 3, bitPos := 16 }.bitPos.toNat < 8 * { small with pkLen := 3, bitPos := 16 }.pkLen.toNat ∧
      small.caps.pkCap.toNat ≤ { small with pkLen := 3, bitPos := 16 }.bitPos.toNat / 8) := by decide +kernel

theorem witness_StopsByName_tables :
    (let s := { aaabQueue with nextId := 511 };
      2 ≤ s.heapSize.toNat ∧ s.heapSize.toNat ≤ 256 ∧ idsInArena s ∧ s.nextId = 511#9) ∧
    (let s := { small with root := 256, nodeLeft := [(256, 256)] };
      256 ≤ s.root.toNat ∧ s.root.toNat < 511 ∧ s.nodeLeftAt s.root.toNat = s.root) ∧
    small.caps.inCap.toNat < { small with inLen := 9 }.inLen.toNat := by
  unfold idsInArena; decide +kernel

/-- Every entry of `HEAP` an id of the arena, and a `HEAP_SIZE` above what R35 allows. -/
def overfull (n : BitVec 9) : State := { small with heap := cellFill 256 510#9, heapSize := n }

/-- PQ.EXTRACT and PQ.SIFTDOWN above 256, TB.MERGE at 257 and at 258. -/
theorem witness_overfull : (∀ k, k < 256 → ((overfull 257).heapAt k).toNat < 511) ∧
    (∀ k, k < 256 → ((overfull 258).heapAt k).toNat < 511) ∧ 256 < (overfull 511).heapSize.toNat ∧
    (overfull 257).heapSize.toNat = 257 ∧ 258 ≤ (overfull 258).heapSize.toNat ∧
    (overfull 257).nextId.toNat < 511 := by decide +kernel

theorem witness_TbLeavesResult : aaabFreq.heapSize = 0#9 := by decide

theorem witness_TbMergeResult : 2 ≤ aaabQueue.heapSize.toNat ∧ aaabQueue.heapSize.toNat ≤ 256 ∧
    idsInArena aaabQueue ∧ heapOrdered aaabQueue ∧ aaabQueue.nextId.toNat < 511 ∧
    aaabQueue.nextId ∉ liveIds aaabQueue ∧
    (aaabQueue.nodeFreqAt (0x62#9).toNat).toNat + (aaabQueue.nodeFreqAt (0x61#9).toNat).toNat < 2 ^ 32 := by
  unfold idsInArena heapOrdered; decide

/-- The queue of "aaab" with the arena's last entry the next one. -/
def lastNode : State := { aaabQueue with nextId := 510 }

theorem witness_TbBuildResult :
    (1 ≤ lastNode.heapSize.toNat ∧ lastNode.heapSize.toNat ≤ 256 ∧
      lastNode.nextId.toNat + lastNode.heapSize.toNat ≤ 512 ∧
      (∀ x, x ∈ liveIds lastNode → x.toNat < lastNode.nextId.toNat) ∧ liveFreqSum lastNode < 2 ^ 32) ∧
    small.heapSize.toNat ≤ 1 ∧ { small with heapSize := 1 }.heapSize.toNat ≤ 1 := by decide

/-- CW4's paths. -/
def abccPaths : List (Sym × List Bool) := [(0x63, [false]), (0x61, [true, false]), (0x62, [true, true])]

theorem witness_CwWalkResult :
    (256 ≤ abccTree.root.toNat ∧ treePaths abccTree 256 abccTree.root [] = some abccPaths) ∧ { small with root := 255 }.root.toNat < 256 := by decide

theorem witness_WalkGivesPrefixFreeCodes :
    ∃ t u, exec .cwClear abccTree = .next t ∧ 256 ≤ abccTree.root.toNat ∧
      treePaths abccTree 256 abccTree.root [] = some abccPaths ∧ (abccPaths.map Prod.fst).Nodup ∧
      exec .cwWalk t = .next u := by
  obtain ⟨u, hu, -⟩ := exists_of_holds
    (o := exec .cwWalk { abccTree with code := cellFill 256 CodeEntry.cleared }) (p := fun _ => true)
    (by decide +kernel)
  exact ⟨_, u, rfl, by decide, by decide, by decide, hu⟩

theorem witness_BpPutbitResult :
    { small with accN := 6 }.totalBits.toNat + 1 < 2 ^ 64 ∧ { small with accN := 6 }.accN.toNat < 7 ∧
    ({ small with accN := 7, pkLen := 1 }.accN = 7#4 ∧
      { small with accN := 7, pkLen := 1 }.pkLen.toNat < small.caps.pkCap.toNat) ∧
    small.caps.pkCap.toNat ≤ { small with accN := 7, pkLen := 2 }.pkLen.toNat := by decide

/-- "110" for 62, from seven pending bits and one free byte. -/
def putcodeFrom : State := { small with code := [(0x62, key [true, true, false])], accN := 7, pkLen := 1 }

theorem witness_BpPutcodeResult : (putcodeFrom.codeAt (0x62#8).toNat).valid = true ∧ putcodeFrom.accN.toNat < 8 ∧
    putcodeFrom.totalBits.toNat + (putcodeFrom.codeAt (0x62#8).toNat).len.toNat < 2 ^ 64 ∧
    (8 * putcodeFrom.pkLen.toNat + putcodeFrom.accN.toNat + (putcodeFrom.codeAt (0x62#8).toNat).len.toNat) / 8
      ≤ putcodeFrom.caps.pkCap.toNat := by decide +kernel

theorem witness_BpPackResult : aaabCode.inLen.toNat ≤ aaabCode.caps.inCap.toNat ∧
    (∀ i, i < aaabCode.inLen.toNat → (aaabCode.codeAt (aaabCode.byteAt .inp i).toNat).valid = true) ∧
    aaabCode.accN.toNat < 8 ∧ aaabCode.totalBits.toNat + (inputCodeBits aaabCode).length < 2 ^ 64 ∧
    (8 * aaabCode.pkLen.toNat + aaabCode.accN.toNat + (inputCodeBits aaabCode).length) / 8
      ≤ aaabCode.caps.pkCap.toNat := by decide +kernel

/-- "aaab" with seven bits pending and no byte free. -/
def packFull : State := { aaabCode with accN := 7, pkLen := 2 }

theorem witness_BpPackOverflow : packFull.curCmd = 1#2 ∧ packFull.inLen.toNat ≤ packFull.caps.inCap.toNat ∧
    (∀ i, i < packFull.inLen.toNat → (packFull.codeAt (packFull.byteAt .inp i).toNat).valid = true) ∧
    packFull.accN.toNat < 8 ∧
    packFull.pkLen.toNat ≤ packFull.caps.pkCap.toNat ∧
    packFull.caps.pkCap.toNat <
      (8 * packFull.pkLen.toNat + packFull.accN.toNat + (inputCodeBits packFull).length) / 8 := by decide +kernel

theorem witness_BpFlushResult :
    small.accN = 0#4 ∧
    (1 ≤ { small with accN := 8, pkLen := 1 }.accN.toNat ∧ { small with accN := 8, pkLen := 1 }.accN.toNat ≤ 8 ∧
      { small with accN := 8, pkLen := 1 }.pkLen.toNat < small.caps.pkCap.toNat) ∧
    1 ≤ { small with accN := 15 }.accN.toNat ∧
    (1 ≤ { small with accN := 1, pkLen := 2 }.accN.toNat ∧
      small.caps.pkCap.toNat ≤ { small with accN := 1, pkLen := 2 }.pkLen.toNat) := by decide

/-- The entries of CC1. -/
def aaabEntries : List (Sym × List Bool) := [(0x61, [true]), (0x62, [false])]

theorem witness_CcDeserializeAccepts : 4 < 2 ^ 64 ∧ entriesValid aaabEntries ∧
    storeBytes aaabDcb .cb aaabDcb.cbLen.toNat = codebookOf 4 aaabEntries := by
  unfold entriesValid; decide

theorem witness_CcDeserializeSound : ∃ s t : State, s.busy = true ∧ exec .ccDeserialize s = .next t ∧
    t.busy = true := by
  obtain ⟨t, ht, hb⟩ := exists_of_holds (o := exec .ccDeserialize { aaabDcb with busy := true })
    (p := fun t => t.busy) (by decide +kernel)
  exact ⟨_, t, rfl, ht, hb⟩

/-- CE2: E = 257. -/
theorem witness_CcDeserializeHeaderChecks :
    8714 < { small with cbLen := 8715 }.cbLen.toNat ∧ { small with cbLen := 9 }.cbLen.toNat < 10 ∧
    (let s := { small with cbLen := 10, cbStore := [(8, 1), (9, 1)] };
      10 ≤ s.cbLen.toNat ∧ s.cbLen.toNat ≤ 8714 ∧
        256 < 256 * (s.byteAt .cb 8).toNat + (s.byteAt .cb 9).toNat) := by decide

/-- A store with the header of base (T = 4, E = 2) and the given bytes after it. -/
def cbOf (bs : List Byte) : State :=
  { small with
    cbStore := cells ([0, 0, 0, 0, 0, 0, 0, 4, 0, 2] ++ bs), cbLen := BitVec.ofNat 32 (10 + bs.length) }

/-- CE7, CE3b cut to E = 2, CE4, CE3, CE5, CE6: the entries accepted before the failing one, the bytes that fail. -/
theorem witness_CcDeserializeEntryChecks :
    (∀ p, p ∈ ([(aaabEntries, [0x00]), ([(0x61, [true])], []), ([], [0x00, 0x61, 0x01, 0x00, 0x62]),
        ([(0x61, [true])], [0x01, 0x00]), ([], [0x01, 0x81, 0x61, 0x01, 0x00, 0x62]),
        ([(0x62, [false])], [0x01, 0x80, 0x61])] : List (List (Sym × List Bool) × List Byte)) →
      p.1.length ≤ 2 ∧ (cbOf (entriesBytes p.1 ++ p.2)).cbLen.toNat ≤ 8714 ∧
      storeBytes (cbOf (entriesBytes p.1 ++ p.2)) .cb (cbOf (entriesBytes p.1 ++ p.2)).cbLen.toNat =
        beBytes 8 4 ++ beBytes 2 2 ++ entriesBytes p.1 ++ p.2) ∧
    ([0x01, 0x00] : List Byte).length < bytesFor 1 + 1 + 1 ∧ bytesBit [0x81] 7 = true ∧
    (∀ q, 1 ≤ q → q < 8 → bytesBit [0x80] q = false) ∧ (0x61#8).toNat ≤ (0x62#8).toNat := by
  refine ⟨by decide +kernel, by decide, by decide, by decide, by decide⟩

/-- `DCB` of "aaab" holds two keys and no other. -/
theorem aaabDcb_others : ∀ k, k < 256 → k ≠ 0x61 → k ≠ 0x62 → (aaabDcb.dcbAt k).valid = false := by decide +kernel

theorem aaabDcb_prefixFree : keysPrefixFree aaabDcb := by
  intro a ha b hb hab hva hvb
  have h : ∀ k, k < 256 → (aaabDcb.dcbAt k).valid = true → k = 0x61 ∨ k = 0x62 := by
    intro k hk hv
    by_contra hc
    have hc := not_or.1 hc
    rw [aaabDcb_others k hk hc.1 hc.2] at hv
    exact Bool.false_ne_true hv
  rcases h a ha hva with rfl | rfl <;> rcases h b hb hvb with rfl | rfl
  · exact absurd rfl hab
  · decide +kernel
  · decide +kernel
  · exact absurd rfl hab

/-- CE8: equal keys. -/
theorem witness_CcCheckResult : keysPrefixFree aaabDcb ∧
    ¬ keysPrefixFree { aaabDcb with dcb := table 256 .cleared [(0x61, key [true]), (0x62, key [true])] } := by
  refine ⟨aaabDcb_prefixFree, fun h => h 0x61 (by decide) 0x62 (by decide) (by decide) ?_ ?_ ?_⟩ <;> decide +kernel

/-- `CODE` of "aaab" holds two codes and no other. -/
theorem aaabCode_others : ∀ k, k < 256 → k ≠ 0x61 → k ≠ 0x62 → (aaabCode.codeAt k).valid = false := by decide +kernel

theorem aaabCode_prefixFree : codesPrefixFree aaabCode := by
  intro a ha b hb hab hva hvb
  have h : ∀ k, k < 256 → (aaabCode.codeAt k).valid = true → k = 0x61 ∨ k = 0x62 := by
    intro k hk hv
    by_contra hc
    have hc := not_or.1 hc
    rw [aaabCode_others k hk hc.1 hc.2] at hv
    exact Bool.false_ne_true hv
  rcases h a ha hva with rfl | rfl <;> rcases h b hb hvb with rfl | rfl
  · exact absurd rfl hab
  · decide +kernel
  · decide +kernel
  · exact absurd rfl hab

theorem witness_CodebookRoundTrip_a : (∀ k, k < 256 → codeCanonical (aaabCode.codeAt k) = true) ∧
    (∀ k, k < 256 → (aaabCode.codeAt k).valid = true → 1 ≤ (aaabCode.codeAt k).len.toNat) ∧
    codesPrefixFree aaabCode := ⟨by decide +kernel, by decide +kernel, aaabCode_prefixFree⟩

theorem witness_CodebookRoundTrip_b : ∃ s t u : State, 4 < 2 ^ 64 ∧ entriesValid aaabEntries ∧
    storeBytes s .cb s.cbLen.toNat = codebookOf 4 aaabEntries ∧ exec .ccDeserialize s = .next t ∧
    (∀ k, k < 256 → u.codeAt k = t.dcbAt k) ∧ u.totalBits = t.totalBits := by
  obtain ⟨t, ht, hp⟩ := exists_of_holds (o := exec .ccDeserialize aaabDcb)
    (p := fun t => (List.range 256).all fun k => aaabCode.codeAt k == t.dcbAt k) (by decide +kernel)
  exact ⟨aaabDcb, t, { aaabCode with totalBits := t.totalBits }, by decide, witness_CcDeserializeAccepts.2.1,
    witness_CcDeserializeAccepts.2.2, ht,
    fun k hk => eq_of_beq (List.all_eq_true.1 hp k (List.mem_range.2 hk)), rfl⟩

theorem witness_BuGetbitResult :
    (let s := { aaabDcb with bitPos := 7 };
      s.bitPos.toNat < 8 * s.pkLen.toNat ∧ s.bitPos.toNat + 1 < 2 ^ 64 ∧ s.bitPos.toNat / 8 < s.caps.pkCap.toNat) := by
  decide

theorem witness_DlLookupResult :
    dlLookup { aaabDcb with cand := 1, candLen := 1 } = some 0x61 ∧
    dlLookup { aaabDcb with cand := 1, candLen := 2 } = none := by decide +kernel

theorem witness_SqEmitResult :
    { small with outLen := 2 }.outLen.toNat < small.caps.outCap.toNat ∧
    small.caps.outCap.toNat ≤ { small with outLen := 3 }.outLen.toNat := by decide

/-- The stream 1 1 1: three times 61, as many as `OUT` holds. -/
theorem witness_SqRunDecodes :
    (let s := { aaabDcb with totalBits := 3 };
      let out : List Sym := [0x61, 0x61, 0x61];
      s.bitPos = 0#64 ∧ s.candLen = 0#8 ∧ s.cand = 0#255 ∧ s.outLen = 0#64 ∧
      s.totalBits.toNat ≤ 8 * s.pkLen.toNat ∧ s.pkLen.toNat ≤ s.caps.pkCap.toNat ∧
      out.length ≤ s.caps.outCap.toNat ∧ keysPrefixFree s ∧
      (∀ y, y ∈ out → (s.dcbAt y.toNat).valid = true ∧ 1 ≤ (s.dcbAt y.toNat).len.toNat) ∧
      (List.range s.totalBits.toNat).map (streamBit s) = out.flatMap (fun y => codeString (s.dcbAt y.toNat))) := by
  refine ⟨rfl, rfl, rfl, rfl, by decide, by decide, by decide, aaabDcb_prefixFree, ?_, ?_⟩ <;> decide +kernel

theorem witness_SqRunStops :
    8 * aaabDcb.pkLen.toNat < { aaabDcb with totalBits := 9 }.totalBits.toNat ∧
    { aaabDcb with pkLen := 2 }.pkLen.toNat ≤ aaabDcb.caps.pkCap.toNat ∧
    (aaabDcb.totalBits.toNat ≤ 8 * aaabDcb.pkLen.toNat ∧ aaabDcb.bitPos.toNat ≤ aaabDcb.totalBits.toNat) := by decide

/-- One host action on `small`: outside the window of R276, or while a command runs in it. -/
def hostState (a : HostAction) (busy : Bool) : State := { small with turns := [.host a], busy := busy, owned := busy }

/-- While the command runs and after it, before `STATUS` is read: each register, the first reserved number, the first
and the last space. -/
theorem witness_BusyHostAccess :
    (∀ b, b ∈ [true, false] → inWindow { small with busy := b, owned := true } = true) ∧
    (∀ index, index ∈ [0, 1, 2, 11, 12] → (hostState (.write 0 index 7) true).turns = .host (.write 0 index 7) :: []) ∧
    (∀ index, index ∈ [0, 2, 7, 10, 11, 12] → index ≠ 1 ∧
      (hostState (.read 0 index) true).turns = .host (.read 0 index) :: []) ∧
    (∀ sp, sp ∈ [1, 9] → 1 ≤ sp ∧ sp ≤ 9 ∧ (hostState (.write sp 0 7) true).turns = .host (.write sp 0 7) :: [] ∧
      (hostState (.read sp 0) true).turns = .host (.read sp 0) :: []) := by decide

theorem witness_BusyStatusRead :
    (hostState (.read 0 1) true).busy = true ∧ (hostState (.read 0 1) true).turns = .host (.read 0 1) :: [] := by
  decide

theorem witness_IdleRegisterWrites : ∀ index, index ∈ [1, 2, 3, 4, 5, 11, 12] →
    (hostState (.write 0 index 7) false).busy = false ∧ (hostState (.write 0 index 7) false).owned = false ∧
    (hostState (.write 0 index 7) false).turns = .host (.write 0 index 7) :: [] := by decide

theorem witness_IdleRegisterReads : (∀ index, index ∈ [0, 1, 2, 3, 4, 5, 6, 7, 8, 9, 10, 11, 12] →
    (hostState (.read 0 index) false).busy = false ∧ (hostState (.read 0 index) false).owned = false ∧
    (hostState (.read 0 index) false).turns = .host (.read 0 index) :: []) ∧
    (let s := { hostState (.read 0 1) false with owned := true };
      s.busy = false ∧ s.turns = .host (.read 0 1) :: []) := by decide

/-- Each clause at the last index inside its space and the first outside. -/
theorem witness_IdleStoreWrites : ∀ p, p ∈ [(1, 7), (1, 8), (2, 8713), (2, 8714), (3, 1), (3, 2), (4, 2), (4, 3),
      (5, 255), (5, 256), (7, 255), (7, 256), (8, 255), (8, 256), (9, 255), (9, 256), (6, 510), (6, 511), (10, 0)] →
    (hostState (.write p.1 p.2 7) false).busy = false ∧ (hostState (.write p.1 p.2 7) false).owned = false ∧
    (hostState (.write p.1 p.2 7) false).turns = .host (.write p.1 p.2 7) :: [] := by decide

theorem witness_IdleStoreWrites_bounds : 7 < small.capacity .inp ∧ small.capacity .inp ≤ 8 ∧
    8713 < small.capacity .cb ∧ small.capacity .cb ≤ 8714 ∧ 1 < small.capacity .pk ∧ small.capacity .pk ≤ 2 ∧
    2 < small.caps.outCap.toNat ∧ small.caps.outCap.toNat ≤ 3 := by decide

/-- Each space at its last index and the first outside, and the first space number that is none. -/
theorem witness_IdleSpaceReads : (∀ p, p ∈ [(1, 7), (1, 8), (2, 8713), (2, 8714), (3, 1), (3, 2), (4, 2), (4, 3),
      (5, 255), (5, 256), (6, 510), (6, 511), (7, 255), (7, 256), (8, 255), (8, 256), (9, 255), (9, 256), (10, 0)] →
    (hostState (.read p.1 p.2) false).busy = false ∧ (hostState (.read p.1 p.2) false).owned = false ∧
    (hostState (.read p.1 p.2) false).turns = .host (.read p.1 p.2) :: []) ∧
    (7 < small.caps.inCap.toNat ∧ small.caps.inCap.toNat ≤ 8) ∧
    (1 < small.caps.pkCap.toNat ∧ small.caps.pkCap.toNat ≤ 2) ∧
    (2 < small.caps.outCap.toNat ∧ small.caps.outCap.toNat ≤ 3) := by decide

theorem witness_ResetAction : (hostState .reset true).turns = .host .reset :: [] := by decide

theorem witness_EncodeFrame : ∃ t, { aaab with curCmd := 1#2 }.curCmd = 1#2 ∧ Instr.fcClear ∈ [Instr.fcClear] ∧
    exec .fcClear { aaab with curCmd := 1#2 } = .next t := ⟨_, by decide, by decide, rfl⟩

theorem witness_DecodeFrame : ∃ t, aaabDcb.curCmd = 2#2 ∧ exec .buInit aaabDcb = .next t := ⟨_, by decide, rfl⟩

/-- A command in execution, in the invariant, whose step answers a next state. -/
theorem witness_StepKeepsInvariant : ∃ s t, Inv s ∧ step s = .next t := by
  refine ⟨{ aaab with busy := true, owned := true, curCmd := 1#2, step := 1#4 }, _, ?_, rfl⟩
  refine ⟨?_, ?_, ?_, ?_, ?_⟩ <;> decide +kernel

theorem witness_ProgramMovesForward : ∃ s t : State, s.turns = [] ∧ s.busy = true ∧ step s = .next t :=
  ⟨{ aaab with busy := true, owned := true, curCmd := 1#2, step := 1#4 }, _, rfl, rfl, rfl⟩

theorem witness_DecodeCommandEnds : aaabDcb.busy = false ∧ aaabDcb.turns = [] := by decide

theorem witness_EncodeCommandEnds : aaab.busy = false ∧ aaab.turns = [] := by decide

theorem witness_EncodeOfEmptyBuffer : small.busy = false ∧ small.turns = [] ∧ small.inLen = 0#32 := by decide

/-- "ab" (TB4) in a fresh block, and in one that holds an earlier command's tables. -/
theorem witness_EncodeDeterministic : ∃ s s' u u' t t' : State, s.busy = false ∧ s.turns = [] ∧ s'.busy = false ∧
    s'.turns = [] ∧ s'.caps = s.caps ∧ s'.inLen = s.inLen ∧
    (∀ i, i < s.inLen.toNat → s'.byteAt .inp i = s.byteAt .inp i) ∧ exec .encode s = .next u ∧
    runFor 14 u = .next t ∧ exec .encode s' = .next u' ∧ runFor 14 u' = .next t' ∧ t.err = false ∧
    s'.code ≠ s.code := by
  obtain ⟨t, ht, he⟩ := exists_of_holds
    (o := runFor 14 (startCommand 1#2 { small with inStore := cells [0x61, 0x62], inLen := 2 }))
    (p := fun t => !t.err) (by decide +kernel)
  obtain ⟨t', ht', -⟩ := exists_of_holds
    (o := runFor 14 (startCommand 1#2 { aaabCode with inStore := cells [0x61, 0x62], inLen := 2 }))
    (p := fun t => !t.err) (by decide +kernel)
  exact ⟨{ small with inStore := cells [0x61, 0x62], inLen := 2 },
    { aaabCode with inStore := cells [0x61, 0x62], inLen := 2 }, _, _, t, t', rfl, rfl, rfl, rfl, rfl, rfl,
    by decide, rfl, ht, rfl, ht', by simpa using he, by decide +kernel⟩

/-- "ab" (TB4), encoded on a block whose `OUT` holds it. -/
theorem witness_EncodeThenDecode : ∃ s u v : State, s.busy = false ∧ s.turns = [] ∧ exec .encode s = .next u ∧
    runFor 14 u = .next v ∧ v.err = false ∧ 0 < s.inLen.toNat ∧ s.inLen.toNat ≤ s.caps.outCap.toNat := by
  have h : holds (runFor 14 (startCommand 1#2 { small with inStore := cells [0x61, 0x62], inLen := 2 }))
      (fun t => !t.err) = true := by decide +kernel
  obtain ⟨v, hv, he⟩ := exists_of_holds h
  exact ⟨{ small with inStore := cells [0x61, 0x62], inLen := 2 }, _, v, rfl, rfl, rfl, hv, by simpa using he,
    by decide, by decide⟩

end Sys2Proof.Tests
end

section
/-! Proofs of the state family: what an operation can end in, the data part of the invariant, what each
micro-operation keeps, and the host's accesses. -/

namespace Sys2Proof.Proofs

open Sys2Proof.Machine Sys2Proof.Safety

/-! ### How an operation ends -/

/-- If the operation succeeds, its value has `Q`; if it raises, the error is taken (R250) in a state that has `E`. -/
def Ends {α : Type} (Q : α → Prop) (E : State → Prop) : Res α → Prop
  | .ok a => Q a
  | .error (.raised t) => ∃ e sub u, E u ∧ t = errorEntry e sub u
  | .error _ => True

section Ends

variable {α β : Type} {Q : α → Prop} {Q' : β → Prop} {E : State → Prop}

theorem Ends.ok {a : α} (h : Q a) : Ends Q E (.ok a) := h

theorem Ends.raise {e : ErrKind} {sub : BitVec 8} {s : State} (h : E s) : Ends Q E (Machine.raise e sub s) :=
  ⟨e, sub, s, h, rfl⟩

theorem Ends.fault {r : Fault} : Ends Q E (.error (.fault r)) := trivial

theorem Ends.refused {r : Refusal} : Ends Q E (.error (.refused r)) := trivial

theorem Ends.bind {r : Res α} {f : α → Res β} (hr : Ends Q E r) (hf : ∀ a, r = .ok a → Q a → Ends Q' E (f a)) :
    Ends Q' E (r >>= f) := by
  rcases r with (t | _ | _) | a
  · exact hr
  · trivial
  · trivial
  · exact hf a rfl hr

/-- An operation that never raises is followed by what runs after its success. -/
theorem Ends.bind_of_ne_raised {r : Res α} {f : α → Res β} (hr : ∀ t, r ≠ .error (.raised t))
    (hf : ∀ a, r = .ok a → Ends Q' E (f a)) : Ends Q' E (r >>= f) := by
  rcases r with (t | _ | _) | a
  · exact absurd rfl (hr t)
  · trivial
  · trivial
  · exact hf a rfl

theorem Ends.foldlM {P : State → Prop} {f : State → Nat → Res State} {l : List Nat} {s : State}
    (hf : ∀ t k, k ∈ l → P t → Ends P P (f t k)) (hs : P s) : Ends P P (l.foldlM f s) := by
  induction l generalizing s with
  | nil => exact hs
  | cons a r ih =>
    rw [List.foldlM_cons]
    exact (hf s a List.mem_cons_self hs).bind fun t _ ht =>
      ih (fun u k hk => hf u k (List.mem_cons_of_mem _ hk)) ht

/-- A call ends as its callee does, with the caller's `UOP` restored where the callee succeeds. -/
theorem Ends.callUop {P : State → Prop} {id : BitVec 8} {f : State → Res State} {s : State}
    (hf : Ends P P (f { s with uop := id })) (hu : ∀ t, P t → P { t with uop := s.uop }) :
    Ends P P (Machine.callUop id f s) :=
  hf.bind fun t _ ht => hu t ht

end Ends

theorem readByte_ne_raised {S : StoreId} {a : Nat} {s t : State} : readByte S a s ≠ .error (.raised t) := by
  rcases readByte_cases S a s with ⟨-, h⟩ | ⟨-, h⟩ <;> simp [h]

theorem readBytes_ne_raised {S : StoreId} {a n : Nat} {s t : State} : readBytes S a n s ≠ .error (.raised t) := by
  induction n generalizing a with
  | zero => simp [readBytes]
  | succ n ih =>
    rcases readByte_cases S a s with ⟨-, h⟩ | ⟨-, h⟩
    · cases h' : readBytes S (a + 1) n s with
      | error e =>
        simp only [readBytes, h, h', bind, Except.bind, ne_eq, Except.error.injEq]
        rintro rfl
        exact ih h'
      | ok r => simp [readBytes, h, h', bind, Except.bind]
    · simp [readBytes, h, bind, Except.bind]

theorem writeBytes_ne_raised {S : StoreId} {a : Nat} {bs : List Byte} {s t : State} :
    writeBytes S a bs s ≠ .error (.raised t) := by
  induction bs generalizing a s with
  | nil => simp [writeBytes]
  | cons b r ih =>
    rcases writeByte_cases S a b s with ⟨-, h⟩ | ⟨-, h⟩
    · simpa [writeBytes, h, bind, Except.bind] using ih
    · simp [writeBytes, h, bind, Except.bind]

theorem memRead_ne_raised {S : StoreId} {a n : Nat} {s t : State} : memRead S a n s ≠ .error (.raised t) := by
  cases h : readBytes S a n s with
  | error e =>
    simp only [memRead, h, bind, Except.bind, ne_eq, Except.error.injEq]
    rintro rfl
    exact readBytes_ne_raised h
  | ok r => simp [memRead, h, bind, Except.bind]

theorem nodeIndex_ne_raised {n : NodeId} {t : State} : nodeIndex n ≠ .error (.raised t) := by
  rcases nodeIndex_cases n with ⟨-, h⟩ | ⟨-, h⟩ <;> simp [h]

theorem walkPush_ne_raised {n : NodeId} {d : Nat} {e : Bool} {s t : State} :
    walkPush n d e s ≠ .error (.raised t) := by
  unfold walkPush
  split
  · simp
  · split <;> simp

/-! ### Bit-strings in 255-bit fields -/

theorem getLsbD_one_shiftLeft (j k : Nat) : (1#255 <<< j).getLsbD k = decide (k = j ∧ j < 255) := by
  simp only [BitVec.getLsbD_shiftLeft, BitVec.getLsbD_one]
  grind

theorem bitAt_putBit (v : Bits255) (j k : Nat) (b : Bool) :
    bitAt (putBit v j b) k = if k = j ∧ j < 255 then b else bitAt v k := by
  cases b
  · have hv : v.getLsbD k = (decide (k < 255) && v.getLsbD k) := by
      simpa using fun h => BitVec.lt_of_getLsbD h
    simp only [bitAt, putBit, Bool.false_eq_true, if_false, BitVec.getLsbD_and, BitVec.getLsbD_not,
      getLsbD_one_shiftLeft]
    split <;> grind
  · simp only [bitAt, putBit, if_true, BitVec.getLsbD_or, getLsbD_one_shiftLeft]
    split <;> simp [*]

/-- Positions below `n` hold what was put there, every other position 0. -/
theorem bitAt_bitsOf (n : Nat) (f : Nat → Bool) (k : Nat) :
    bitAt (bitsOf n f) k = (decide (k < n) && decide (k < 255) && f k) := by
  induction n with
  | zero => simp [bitsOf, bitAt]
  | succ n ih =>
    have hs : bitsOf (n + 1) f = putBit (bitsOf n f) n (f n) := by
      simp [bitsOf, List.range_succ]
    rw [hs, bitAt_putBit, ih]
    by_cases hk : k = n
    · subst hk
      by_cases h : k < 255 <;> simp [h]
    · have : k < n + 1 ↔ k < n := by omega
      simp [hk, this]

/-- A field is the string of its first `n` positions exactly when it is 0 from `n` on. -/
theorem eq_bitsOf_iff {v : Bits255} {n : Nat} :
    v = bitsOf n (bitAt v) ↔ ∀ k, n ≤ k → bitAt v k = false := by
  constructor
  · intro h k hk
    rw [h, bitAt_bitsOf]
    simp [Nat.not_lt.2 hk]
  · intro h
    refine BitVec.eq_of_getLsbD_eq fun k hk => ?_
    change bitAt v k = bitAt _ k
    rw [bitAt_bitsOf]
    by_cases hn : k < n
    · simp [hn, hk]
    · simp [h k (by omega)]

theorem bitsOf_eq_bitsOf (n : Nat) (f : Nat → Bool) : bitsOf n f = bitsOf n (bitAt (bitsOf n f)) :=
  eq_bitsOf_iff.2 fun k hk => by simp [bitAt_bitsOf, Nat.not_lt.2 hk]

/-- A valid record whose bits are a string of its length has the form of R95. -/
theorem codeCanonical_bitsOf (d : BitVec 8) (f : Nat → Bool) :
    codeCanonical ⟨true, d, bitsOf d.toNat f⟩ = true := by
  simpa [codeCanonical] using bitsOf_eq_bitsOf d.toNat f

theorem codeCanonical_cleared : codeCanonical CodeEntry.cleared = true := by decide

theorem all_cellFill {α : Type} {p : Nat × α → Bool} {n : Nat} {v : α} (h : ∀ k, p (k, v) = true) :
    (cellFill n v).all p = true := by
  simp [cellFill, h]

/-! ### The data part of the invariant -/

/-- The parts of `Inv` that speak of tables, stores, records, working registers and `UOP`, each by name. -/
structure Good (s : State) : Prop where
  freq : cellsWf 256 s.freq = true
  nodeFreq : cellsWf 511 s.nodeFreq = true
  nodeLeft : cellsWf 511 s.nodeLeft = true
  nodeRight : cellsWf 511 s.nodeRight = true
  heap : cellsWf 256 s.heap = true
  code : cellsWf 256 s.code = true
  dcb : cellsWf 256 s.dcb = true
  wstk : cellsWf 256 s.wstk = true
  stores : ∀ S, Memory.wf (s.capacity S) (s.store S) = true
  codeForm : s.code.all (fun c => codeCanonical c.2) = true
  dcbForm : s.dcb.all (fun c => codeCanonical c.2) = true
  heapSize : s.heapSize.toNat ≤ 256
  dcbCnt : s.dcbCnt.toNat ≤ 256
  accN : s.accN.toNat ≤ 8
  wsp : s.wsp.toNat ≤ 256
  cand : s.cand = bitsOf s.candLen.toNat (bitAt s.cand)
  uop : s.uop = 0#8 ∨ (decodeUop s.uop 0).isOk = true

/-- The parts of `controlLegal` that speak of the flags, the error and the command, each by name. -/
structure Control (s : State) : Prop where
  flags : flagsLegal s = true
  err : s.err = decide (s.errCode ≠ 0#4)
  errCode : s.errCode.toNat ≤ 5
  curCmd : s.curCmd ≠ 3#2
  errSub : s.errCode ≠ 0#4 ∨ s.errSub = 0#8
  position : s.busy = true → (programUop s.curCmd s.step).isSome = true
  window : s.busy = true → s.owned = true
  ended : s.owned = true → s.busy = true ∨ s.done = true

theorem inv_iff (s : State) : Inv s ↔ Good s ∧ Control s := by
  constructor
  · rintro ⟨htab, hsto, hcode, hctl, hran⟩
    simp only [tablesWf, storesWf, codesCanonical, rangesLegal, controlLegal, Bool.and_eq_true, Bool.or_eq_true,
      decide_eq_true_eq, beq_iff_eq, Bool.not_eq_true'] at htab hsto hcode hctl hran
    obtain ⟨⟨⟨⟨⟨⟨⟨hfreq, hnf⟩, hnl⟩, hnr⟩, hheap⟩, hc⟩, hd⟩, hw⟩ := htab
    obtain ⟨⟨⟨hin, hcb⟩, hpk⟩, hout⟩ := hsto
    obtain ⟨⟨⟨⟨⟨⟨⟨⟨hfl, herr⟩, hec⟩, hcc⟩, hes⟩, huop⟩, hpos⟩, hwin⟩, hend⟩ := hctl
    obtain ⟨⟨⟨⟨hhs, hdc⟩, han⟩, hwsp⟩, hcand⟩ := hran
    refine ⟨⟨hfreq, hnf, hnl, hnr, hheap, hc, hd, hw, ?_, hcode.1, hcode.2, hhs, hdc, han, hwsp, hcand, huop⟩,
      ⟨hfl, herr, hec, hcc, hes, ?_, ?_, ?_⟩⟩
    · rintro (_ | _ | _ | _)
      exacts [hin, hcb, hpk, hout]
    · exact fun hb => hpos.resolve_left (by simp [hb])
    · exact fun hb => hwin.resolve_left (by simp [hb])
    · rcases hend with (h | h) | h
      · exact fun ho => absurd ho (by simp [h])
      · exact fun _ => .inl h
      · exact fun _ => .inr h
  · rintro ⟨hg, hc⟩
    refine ⟨?_, ?_, ?_, ?_, ?_⟩
    · simp [tablesWf, hg.freq, hg.nodeFreq, hg.nodeLeft, hg.nodeRight, hg.heap, hg.code, hg.dcb, hg.wstk]
    · simpa [storesWf, and_assoc] using ⟨hg.stores .inp, hg.stores .cb, hg.stores .pk, hg.stores .out⟩
    · rw [codesCanonical, hg.codeForm, hg.dcbForm]; rfl
    · have hpos := hc.position
      have hwin := hc.window
      have hend := hc.ended
      simp only [controlLegal, Bool.and_eq_true, Bool.or_eq_true, decide_eq_true_eq, beq_iff_eq, Bool.not_eq_true']
      refine ⟨⟨⟨⟨⟨⟨⟨⟨hc.flags, hc.err⟩, hc.errCode⟩, hc.curCmd⟩, hc.errSub⟩, hg.uop⟩, ?_⟩, ?_⟩, ?_⟩
      · cases hb : s.busy <;> simp_all
      · cases hb : s.busy <;> simp_all
      · cases ho : s.owned <;> simp_all
    · simpa [rangesLegal, and_assoc] using ⟨hg.heapSize, hg.dcbCnt, hg.accN, hg.wsp, hg.cand⟩

end Sys2Proof.Proofs
end

section
namespace Sys2Proof.Proofs

open Sys2Proof.Machine Sys2Proof.Safety

/-! ### What a micro-operation keeps -/

/-- From `s` to `t` the fields that `view` shows are unchanged and the data part of the invariant is kept. -/
structure Kept {β : Type} (view : State → β) (s t : State) : Prop where
  same : view t = view s
  good : Good s → Good t

/-- The parameters, the command and its flags: what a micro-operation inside a program leaves to the sequencer. -/
def controlView (s : State) :=
  (s.caps, s.curCmd, s.step, s.busy, s.done, s.err, s.errCode, s.errSub, s.owned)

/-- What no micro-operation of `ENCODE` writes (R50). -/
def encodeView (s : State) :=
  (controlView s, s.inStore, s.inLen, s.outStore, s.outLen, s.dcb, s.dcbCnt, s.bitPos, s.cand, s.candLen)

/-- What no micro-operation of `DECODE` writes (R50). -/
def decodeView (s : State) :=
  (controlView s, (s.inStore, s.inLen, s.cbStore, s.cbLen, s.pkStore, s.pkLen),
    (s.freq, s.nodeFreq, s.nodeLeft, s.nodeRight, s.heap, s.heapSize, s.nextId, s.root),
    (s.code, s.wstk, s.wsp, s.path, s.acc, s.accN))

section Kept

variable {β : Type} {view : State → β} {s t u : State}

theorem Kept.refl (s : State) : Kept view s s := ⟨rfl, id⟩

/-- A further write that the view does not show and that keeps the data part. -/
theorem Kept.write (h : Kept view s t) (hv : view u = view t) (hg : Good t → Good u) : Kept view s u :=
  ⟨hv.trans h.same, fun hs => hg (h.good hs)⟩

theorem Good.takeFree (h : Good s) : Good (takeFree s) := { h with }

theorem Good.countFree (h : Good s) (w v : Nat) : Good (countFree w v s) := by
  unfold Machine.countFree
  split
  · exact h
  · exact h.takeFree

theorem Good.countEntry (h : Good s) (k : Nat) : Good (countEntry k s) := by
  unfold Machine.countEntry
  split
  · exact h
  · exact h.takeFree

theorem Good.setUop (h : Good s) {id : BitVec 8} (hid : id = 0#8 ∨ (decodeUop id 0).isOk = true) :
    Good { s with uop := id } := { h with uop := hid }

theorem Good.setHeap (h : Good s) {k : Nat} (hk : k < 256) (n : NodeId) : Good (s.setHeap k n) :=
  { h with heap := cellsWf_cellSet n h.heap hk }

theorem Good.setStore (h : Good s) {S : StoreId} {m : List Host.Cell} (hm : Memory.wf (s.capacity S) m = true) :
    Good (s.setStore S m) := by
  have hstores : ∀ S', Memory.wf ((s.setStore S m).capacity S') ((s.setStore S m).store S') = true := by
    intro S'
    rw [State.capacity_setStore, State.store_setStore]
    split
    · next hS => exact hS ▸ hm
    · exact h.stores S'
  cases S <;> exact { h with stores := hstores }

/-- A call of an operation that keeps a view of which `UOP` is no part keeps it. -/
theorem Kept.callUop (h : Kept view s t) (hview : ∀ u id, view { u with uop := id } = view u) {id : BitVec 8}
    (hid : (decodeUop id 0).isOk = true) {f : State → Res State}
    (hf : ∀ u, Kept view s u → Ends (Kept view s) (Kept view s) (f u)) :
    Ends (Kept view s) (Kept view s) (Machine.callUop id f t) :=
  Ends.callUop (hf _ (h.write (hview t id) fun hg => hg.setUop (.inr hid))) fun u hu =>
    ⟨(hview u t.uop).trans hu.same, fun hs => (hu.good hs).setUop (h.good hs).uop⟩

end Kept

end Sys2Proof.Proofs
end

section
namespace Sys2Proof.Proofs

open Sys2Proof.Machine Sys2Proof.Safety

/-! ### The operations of `ENCODE` -/

/-- Started in `s`, the operation ends, or raises, in a state that keeps what `ENCODE` does not write. -/
abbrev KeepsEncode (s : State) (r : Res State) : Prop := Ends (Kept encodeView s) (Kept encodeView s) r

theorem encodeView_countFree (w v : Nat) (s : State) : encodeView (countFree w v s) = encodeView s := by
  rw [countFree_frame]; rfl

theorem encodeView_countEntry (k : Nat) (s : State) : encodeView (countEntry k s) = encodeView s := by
  rw [countEntry_frame]; rfl

section

variable {s t : State}

/-! The priority queue -/

theorem Kept.setHeap (h : Kept encodeView s t) {k : Nat} (hk : k < 256) (n : NodeId) :
    Kept encodeView s (t.setHeap k n) :=
  h.write rfl fun hg => hg.setHeap hk n

theorem Kept.swapHeap (h : Kept encodeView s t) {i j : Nat} (hi : i < 256) (hj : j < 256) :
    Kept encodeView s (t.swapHeap i j) :=
  (h.setHeap hi _).setHeap hj _

theorem siftUp_keepsEncode {fuel i : Nat} (h : Kept encodeView s t) (hi : i < 256) :
    KeepsEncode s (siftUp fuel i t) := by
  induction fuel generalizing i t with
  | zero => exact h
  | succ n ih =>
    unfold siftUp
    split
    · exact h
    · refine Ends.bind_of_ne_raised (fun _ => pqLess_ne_raised) fun lt _ => ?_
      split
      · exact ih (h.swapHeap hi (by omega)) (by omega)
      · exact h

theorem siftDown_keepsEncode {fuel i : Nat} (h : Kept encodeView s t) (hi : i < 256) :
    KeepsEncode s (siftDown fuel i t) := by
  induction fuel generalizing i t with
  | zero => exact h
  | succ n ih =>
    unfold siftDown
    refine Ends.bind_of_ne_raised (fun _ => lesserChild_ne_raised) fun _ _ =>
      Ends.bind_of_ne_raised (fun _ => lesserChild_ne_raised) fun m _ => ?_
    split
    · exact h
    · split
      · next hm => exact ih (h.swapHeap hi hm) hm
      · exact h.setHeap hi _

theorem pqSiftup_keepsEncode {i : Nat} (h : Kept encodeView s t) (hi : i < 256) :
    KeepsEncode s (pqSiftup i t) := by
  unfold pqSiftup
  split
  · exact Ends.refused
  · exact siftUp_keepsEncode h hi

theorem pqSiftdown_keepsEncode {i : Nat} (h : Kept encodeView s t) (hi : i < 256) :
    KeepsEncode s (pqSiftdown i t) := by
  unfold pqSiftdown
  split
  · exact Ends.refused
  · exact (siftDown_keepsEncode h hi).bind fun u _ hu =>
      Ends.ok (hu.write (encodeView_countEntry _ _) fun hg => hg.countEntry _)

theorem pqInsert_keepsEncode (h : Kept encodeView s t) (n : NodeId) : KeepsEncode s (pqInsert n t) := by
  unfold pqInsert
  split
  · exact Ends.refused
  · next hroom =>
    have hk : t.heapSize.toNat < 256 := Nat.not_le.1 hroom
    refine Ends.bind_of_ne_raised (fun _ => nodeIndex_ne_raised) fun _ _ => pqSiftup_keepsEncode ?_ hk
    refine (h.setHeap hk n).write rfl fun hg => { hg with heapSize := ?_ }
    simp only [BitVec.toNat_ofNat]
    omega

theorem pqExtract_keepsEncode (h : Kept encodeView s t) :
    Ends (fun p => Kept encodeView s p.2) (Kept encodeView s) (pqExtract t) := by
  have hsize : Kept encodeView s { t with heapSize := BitVec.ofNat 9 (t.heapSize.toNat - 1) } :=
    h.write rfl fun hg => { hg with
      heapSize := by have := hg.heapSize; simp only [BitVec.toNat_ofNat]; omega }
  unfold pqExtract
  split
  · exact Ends.refused
  · dsimp only
    split
    · exact hsize
    · refine (pqSiftdown_keepsEncode (hsize.setHeap (by decide) _) (by decide)).bind fun u _ hu => ?_
      exact hu.write (encodeView_countEntry _ _) fun hg => hg.countEntry _

/-! The tree builder -/

theorem makeLeaf_keepsEncode {k : Nat} (h : Kept encodeView s t) (hk : k < 256) : KeepsEncode s (makeLeaf t k) := by
  unfold makeLeaf
  split
  · exact h
  · exact pqInsert_keepsEncode (t := t.setNodeFreq k _)
      (h.write rfl fun hg => { hg with nodeFreq := cellsWf_cellSet _ hg.nodeFreq (by omega) }) _

theorem tbLeaves_keepsEncode (h : Kept encodeView s t) : KeepsEncode s (tbLeaves t) :=
  Ends.foldlM (fun _ _ hk hu => makeLeaf_keepsEncode hu (List.mem_range.1 hk))
    (h.write rfl fun hg => { hg with })

theorem Good.setNode {k : Nat} (h : Good t) (hk : k < 511) (f : BitVec 32) (l r : NodeId) :
    Good (t.setNode k f l r) :=
  { h with
    nodeFreq := cellsWf_cellSet f h.nodeFreq hk
    nodeLeft := cellsWf_cellSet l h.nodeLeft hk
    nodeRight := cellsWf_cellSet r h.nodeRight hk }

theorem Kept.mergedNode (h : Kept encodeView s t) {k : Nat} (hk : k < 511) (v : Nat) (f : BitVec 32) (l r : NodeId)
    (id : BitVec 9) : Kept encodeView s { (countFree 32 v t).setNode k f l r with nextId := id } :=
  ((h.write (encodeView_countFree 32 v t) fun hg => hg.countFree 32 v).write (u := State.setNode _ k f l r) rfl
    fun hg => hg.setNode hk f l r).write rfl fun hg => { hg with }

theorem tbMerge_keepsEncode (h : Kept encodeView s t) : KeepsEncode s (tbMerge t) := by
  unfold tbMerge
  split
  · exact Ends.refused
  · refine (pqExtract_keepsEncode h).bind fun p _ hp => (pqExtract_keepsEncode hp).bind fun q _ hq => ?_
    refine Ends.bind_of_ne_raised (fun _ => nodeIndex_ne_raised) fun k hk => ?_
    refine Ends.bind_of_ne_raised (fun _ => nodeIndex_ne_raised) fun i _ => ?_
    refine Ends.bind_of_ne_raised (fun _ => nodeIndex_ne_raised) fun j _ => ?_
    obtain ⟨rfl, hlt⟩ := nodeIndex_ok hk
    exact pqInsert_keepsEncode (hq.mergedNode hlt _ _ _ _ _) _

theorem mergeAll_keepsEncode {fuel : Nat} (h : Kept encodeView s t) : KeepsEncode s (mergeAll fuel t) := by
  induction fuel generalizing t with
  | zero => exact h
  | succ n ih =>
    unfold mergeAll
    split
    · exact (tbMerge_keepsEncode h).bind fun u _ hu => ih hu
    · exact h

theorem tbBuild_keepsEncode (h : Kept encodeView s t) : KeepsEncode s (tbBuild t) :=
  (mergeAll_keepsEncode h).bind fun _ _ hu => hu.write rfl fun hg => { hg with }

/-! The frequency counter -/

theorem countByte_keepsEncode (h : Kept encodeView s t) (i : Nat) : KeepsEncode s (countByte t i) := by
  refine Ends.bind_of_ne_raised (fun _ => readByte_ne_raised) fun b _ => h.write ?_ fun hg => ?_
  · exact encodeView_countFree _ _ _
  · exact { hg.countFree _ _ with freq := cellsWf_cellSet _ hg.freq b.isLt }

theorem fcCount_keepsEncode (h : Kept encodeView s t) : KeepsEncode s (fcCount t) :=
  Ends.foldlM (fun _ i _ hu => countByte_keepsEncode hu i) h

/-! The code walker -/

theorem Kept.setCode (h : Kept encodeView s t) {k : Nat} (hk : k < 256) {e : CodeEntry}
    (he : codeCanonical e = true) : Kept encodeView s (t.setCode k e) :=
  h.write rfl fun hg => { hg with
    code := cellsWf_cellSet e hg.code hk
    codeForm := all_cellSet hg.codeForm he }

theorem walkPush_keepsEncode (h : Kept encodeView s t) (n : NodeId) (d : Nat) (e : Bool) :
    KeepsEncode s (walkPush n d e t) := by
  unfold walkPush
  split
  · exact Ends.refused
  · split
    · next hroom =>
      exact h.write rfl fun hg => { hg with
        wstk := cellsWf_cellSet _ hg.wstk hroom
        wsp := by
          have hcap : Config.heapCap = 256 := rfl
          simp only [BitVec.toNat_ofNat]
          omega }
    · exact Ends.fault

theorem Kept.walkPath (h : Kept encodeView s t) (e : WalkEntry) : Kept encodeView s (walkPath e t) := by
  unfold Machine.walkPath
  split
  · exact h
  · exact h.write rfl fun hg => { hg with }

theorem walkPop_keepsEncode (h : Kept encodeView s t) : KeepsEncode s (walkPop t) := by
  have hpop : Kept encodeView s { t with wsp := BitVec.ofNat 9 (t.wsp.toNat - 1) } :=
    h.write rfl fun hg => { hg with
      wsp := by have := hg.wsp; simp only [BitVec.toNat_ofNat]; omega }
  unfold walkPop
  dsimp only
  split
  · next hleaf => exact (hpop.walkPath _).setCode hleaf (codeCanonical_bitsOf _ _)
  · refine Ends.bind_of_ne_raised (fun _ => nodeIndex_ne_raised) fun i _ => ?_
    exact (walkPush_keepsEncode (hpop.walkPath _) _ _ _).bind fun u _ hu => walkPush_keepsEncode hu _ _ _

theorem walkLoop_keepsEncode {fuel : Nat} (h : Kept encodeView s t) : KeepsEncode s (walkLoop fuel t) := by
  induction fuel generalizing t with
  | zero =>
    unfold walkLoop
    split
    · exact h
    · exact Ends.refused
  | succ n ih =>
    unfold walkLoop
    split
    · exact h
    · exact (walkPop_keepsEncode h).bind fun u _ hu => ih hu

theorem cwWalk_keepsEncode (h : Kept encodeView s t) : KeepsEncode s (cwWalk t) := by
  unfold cwWalk
  split
  · next hleaf => exact h.setCode hleaf (by decide)
  · have hstart : Kept encodeView s { t with wsp := 0 } :=
      h.write rfl fun hg => { hg with wsp := Nat.zero_le 256 }
    exact (walkPush_keepsEncode hstart _ _ _).bind fun u _ hu => walkLoop_keepsEncode hu

/-! The bit packer -/

theorem flushByte_keepsEncode (h : Kept encodeView s t) (b : Byte) : KeepsEncode s (flushByte b t) := by
  rcases flushByte_cases b t with ⟨hroom, heq⟩ | ⟨-, heq⟩ <;> rw [heq]
  · exact h.write rfl fun hg =>
      { hg.setStore (S := .pk) (cellsWf_cellSet b (hg.stores .pk) hroom) with accN := Nat.zero_le 8 }
  · exact Ends.raise h

theorem bpPutbit_keepsEncode (h : Kept encodeView s t) (b : Bool) : KeepsEncode s (bpPutbit b t) := by
  unfold bpPutbit
  split
  · exact Ends.refused
  · next hroom =>
    have hbit : ∀ acc total, Kept encodeView s { countFree 64 (t.totalBits.toNat + 1) t with
        acc := acc, accN := BitVec.ofNat 4 (t.accN.toNat + 1), totalBits := total } := fun acc total =>
      h.write (encodeView_countFree _ _ t) fun hg => { hg.countFree _ _ with
        accN := by simp only [BitVec.toNat_ofNat]; omega }
    dsimp only
    split
    · exact flushByte_keepsEncode (hbit _ _) _
    · exact hbit _ _

theorem bpPutcode_keepsEncode (h : Kept encodeView s t) (y : Sym) : KeepsEncode s (bpPutcode y t) := by
  unfold bpPutcode
  dsimp only
  split
  · exact Ends.foldlM (fun u k _ hu => hu.callUop (fun _ _ => rfl) (by decide) fun v hv =>
      bpPutbit_keepsEncode hv _) h
  · exact Ends.refused

theorem bpPack_keepsEncode (h : Kept encodeView s t) : KeepsEncode s (bpPack t) :=
  Ends.foldlM (fun u k _ hu => Ends.bind_of_ne_raised (fun _ => readByte_ne_raised) fun b _ =>
    hu.callUop (fun _ _ => rfl) (by decide) fun v hv => bpPutcode_keepsEncode hv b) h

theorem bpFlush_keepsEncode (h : Kept encodeView s t) : KeepsEncode s (bpFlush t) := by
  unfold bpFlush
  split
  · exact h
  · refine (flushByte_keepsEncode h _).bind fun u _ hu => ?_
    split
    · exact hu
    · exact hu.write rfl fun hg => hg.takeFree

/-! The codebook -/

theorem ccSerialize_keepsEncode (h : Kept encodeView s t) : KeepsEncode s (ccSerialize t) := by
  refine Ends.bind_of_ne_raised (fun _ => writeBytes_ne_raised) fun u hu => ?_
  obtain ⟨⟨m, rfl⟩, -, hwf⟩ := writeBytes_ok hu
  refine h.write rfl fun hg => { hg.setStore (S := .cb) (m := m) ?_ with }
  simpa using hwf (hg.stores .cb)

end

/-! ### The instructions of `ENCODE` -/

/-- The micro-operations of the `ENCODE` program and those they call, but for the two that write the sequencer's own
registers (R116, R118). -/
def isEncodeOp : Instr → Bool
  | .seqChkin | .fcClear | .fcCount | .pqClear | .pqInsert _ | .pqExtract | .pqSiftup _ | .pqSiftdown _
  | .tbLeaves | .tbMerge | .tbBuild | .cwClear | .cwWalk | .bpInit | .bpPutbit _ | .bpPutcode _ | .bpPack
  | .bpFlush | .ccSerialize => true
  | _ => false

/-- Each next state of the outcome is where an operation of `Ends P P` ended, or what it raised. -/
def NextIn (P : State → Prop) (o : Host.Outcome State Fault Refusal) : Prop :=
  ∀ t, o = .next t → P t ∨ ∃ e sub u, P u ∧ t = errorEntry e sub u

theorem Ends.finish {P : State → Prop} {r : Res State} (h : Ends P P r) : NextIn P (Machine.finish r) := by
  intro t ht
  rcases finish_next ht with rfl | rfl
  · exact .inl h
  · exact .inr h

theorem NextIn.next {P : State → Prop} {t : State} (h : P t) : NextIn P (.next t) := by
  rintro u ⟨⟩
  exact .inl h

/-- The value of an operation run on its own goes to `result`. -/
theorem Ends.finishWith {α : Type} {P : State → Prop} {f : α → UopResult} {r : Res (α × State)}
    (h : Ends (fun p => P p.2) P r) (hres : ∀ t x, P t → P { t with result := x }) :
    NextIn P (Machine.finishWith f r) := by
  refine Ends.finish ?_
  rcases r with (t | _ | _) | ⟨a, t⟩
  · exact h
  · trivial
  · trivial
  · exact hres t _ h

theorem exec_keepsEncode {i : Instr} (hi : isEncodeOp i = true) (s : State) :
    NextIn (Kept encodeView s) (exec i s) := by
  have h0 := Kept.refl (view := encodeView) s
  cases i with
  | seqChkin =>
    refine Ends.finish ?_
    split
    · exact Ends.raise h0
    · exact h0
  | fcClear => exact .next (h0.write rfl fun hg => { hg with freq := cellsWf_cellFill le_rfl _ })
  | fcCount => exact (fcCount_keepsEncode h0).finish
  | pqClear => exact .next (h0.write rfl fun hg => { hg with heapSize := Nat.zero_le 256 })
  | pqInsert n => exact (pqInsert_keepsEncode h0 n).finish
  | pqExtract => exact (pqExtract_keepsEncode h0).finishWith fun t x ht => ht.write rfl fun hg => { hg with }
  | pqSiftup k => exact (pqSiftup_keepsEncode h0 k.isLt).finish
  | pqSiftdown k => exact (pqSiftdown_keepsEncode h0 k.isLt).finish
  | tbLeaves => exact (tbLeaves_keepsEncode h0).finish
  | tbMerge => exact (tbMerge_keepsEncode h0).finish
  | tbBuild => exact (tbBuild_keepsEncode h0).finish
  | cwClear =>
    exact .next (h0.write rfl fun hg => { hg with
      code := cellsWf_cellFill le_rfl _
      codeForm := all_cellFill fun _ => codeCanonical_cleared })
  | cwWalk => exact (cwWalk_keepsEncode h0).finish
  | bpInit => exact .next (h0.write rfl fun hg => { hg with accN := Nat.zero_le 8 })
  | bpPutbit b => exact (bpPutbit_keepsEncode h0 b).finish
  | bpPutcode y => exact (bpPutcode_keepsEncode h0 y).finish
  | bpPack => exact (bpPack_keepsEncode h0).finish
  | bpFlush => exact (bpFlush_keepsEncode h0).finish
  | ccSerialize => exact (ccSerialize_keepsEncode h0).finish
  | _ => cases hi

end Sys2Proof.Proofs
end

section
namespace Sys2Proof.Proofs

open Sys2Proof.Machine Sys2Proof.Safety

/-! ### The operations of `DECODE` -/

/-- Started in `s`, the operation ends, or raises, in a state that keeps what `DECODE` does not write. -/
abbrev KeepsDecode (s : State) (r : Res State) : Prop := Ends (Kept decodeView s) (Kept decodeView s) r

theorem decodeView_countFree (w v : Nat) (s : State) : decodeView (countFree w v s) = decodeView s := by
  rw [countFree_frame]; rfl

section

variable {s t : State}

/-! The codebook -/

theorem toNat_succ_of_lt {v : BitVec 9} (h : v.toNat < 256) : (v + 1).toNat = v.toNat + 1 := by
  rw [BitVec.toNat_add, show (1 : BitVec 9).toNat = 1 from rfl]
  omega

theorem Good.addEntry (h : Good t) {k : Nat} (hk : k < 256) {e : CodeEntry} (he : codeCanonical e = true)
    (hcnt : t.dcbCnt.toNat < 256) : Good { t.setDcb k e with dcbCnt := t.dcbCnt + 1 } :=
  { h with
    dcb := cellsWf_cellSet e h.dcb hk
    dcbForm := all_cellSet h.dcbForm he
    dcbCnt := by rw [toNat_succ_of_lt hcnt]; exact hcnt }

theorem readEntries_keepsDecode {n p : Nat} {prev : Option Sym} (h : Kept decodeView s t)
    (hcnt : t.dcbCnt.toNat + n ≤ 256) :
    Ends (fun x => Kept decodeView s x.2) (Kept decodeView s) (readEntries n p prev t) := by
  induction n generalizing p prev t with
  | zero => exact h
  | succ n ih =>
    have hbyte : ∀ {a u}, readByte .cb a t ≠ .error (.raised u) := readByte_ne_raised
    unfold readEntries
    split
    · exact Ends.raise h
    · refine Ends.bind_of_ne_raised (fun _ => hbyte) fun len _ => ?_
      dsimp only
      split
      · exact Ends.raise h
      · split
        · exact Ends.raise h
        · refine Ends.bind_of_ne_raised (fun _ => readBytes_ne_raised) fun bs _ => ?_
          split
          · exact Ends.raise h
          · refine Ends.bind_of_ne_raised (fun _ => hbyte) fun sym _ => ?_
            split
            · exact Ends.raise h
            · have hlt : t.dcbCnt.toNat < 256 := by omega
              refine ih (h.write rfl fun hg => hg.addEntry sym.isLt (codeCanonical_bitsOf _ _) hlt) ?_
              rw [toNat_succ_of_lt hlt]
              omega

theorem readCodebook_keepsDecode (h : Kept decodeView s t) (hcnt : t.dcbCnt = 0#9) :
    KeepsDecode s (readCodebook t) := by
  refine Ends.bind_of_ne_raised (fun _ => memRead_ne_raised) fun tb _ => ?_
  have hbits : Kept decodeView s { t with totalBits := BitVec.ofNat 64 tb } := h.write rfl fun hg => { hg with }
  refine Ends.bind_of_ne_raised (fun _ => memRead_ne_raised) fun e _ => ?_
  split
  · exact Ends.raise hbits
  · have hroom : ({ t with totalBits := BitVec.ofNat 64 tb } : State).dcbCnt.toNat + e ≤ 256 := by
      simp only [hcnt, BitVec.toNat_ofNat]
      omega
    refine (readEntries_keepsDecode hbits hroom).bind fun x _ hx => ?_
    dsimp only
    split
    · exact Ends.raise hx
    · exact hx

theorem ccDeserialize_keepsDecode (h : Kept decodeView s t) : KeepsDecode s (ccDeserialize t) := by
  have hclear : Kept decodeView s { t with dcb := cellFill Config.nsym CodeEntry.cleared, dcbCnt := 0 } :=
    h.write rfl fun hg => { hg with
      dcb := cellsWf_cellFill le_rfl _
      dcbForm := all_cellFill fun _ => codeCanonical_cleared
      dcbCnt := Nat.zero_le 256 }
  unfold ccDeserialize
  dsimp only
  split
  · exact Ends.raise hclear
  · split
    · exact Ends.raise hclear
    · exact readCodebook_keepsDecode hclear rfl

theorem ccCheck_keepsDecode (h : Kept decodeView s t) : KeepsDecode s (ccCheck t) := by
  unfold ccCheck
  split
  · exact Ends.raise h
  · exact h

/-! The scan -/

theorem buGetbit_keepsDecode (h : Kept decodeView s t) :
    Ends (fun p => Kept decodeView s p.2) (Kept decodeView s) (buGetbit t) := by
  unfold buGetbit
  split
  · exact Ends.refused
  · exact Ends.bind_of_ne_raised (fun _ => readByte_ne_raised) fun b _ =>
      h.write (u := { countFree 64 _ t with bitPos := _ }) (decodeView_countFree _ _ t)
        fun hg => { hg.countFree _ _ with }

theorem sqEmit_keepsDecode (h : Kept decodeView s t) (y : Sym) : KeepsDecode s (sqEmit y t) := by
  rcases sqEmit_cases y t with ⟨hroom, heq⟩ | ⟨-, heq⟩ <;> rw [heq]
  · exact h.write rfl fun hg =>
      { hg.setStore (S := .out) (cellsWf_cellSet y (hg.stores .out) hroom) with }
  · exact Ends.raise h

theorem matchCandidate_keepsDecode (h : Kept decodeView s t) : KeepsDecode s (matchCandidate t) := by
  unfold matchCandidate
  split
  · next y _ =>
    refine (h.callUop (fun _ _ => rfl) (by decide) fun u hu => sqEmit_keepsDecode hu y).bind fun u _ hu => ?_
    exact hu.write rfl fun hg => { hg with cand := bitsOf_eq_bitsOf 0 fun _ => false }
  · split
    · exact Ends.raise h
    · exact h

/-- A bit put at the end of the candidate leaves it 0 above. -/
theorem putBit_eq_bitsOf {v : Bits255} {n : Nat} (h : v = bitsOf n (bitAt v)) (b : Bool) :
    putBit v n b = bitsOf (n + 1) (bitAt (putBit v n b)) := by
  rw [eq_bitsOf_iff] at h ⊢
  intro k hk
  rw [bitAt_putBit, if_neg (by omega), h k (by omega)]

theorem Good.appendBit (h : Good t) (b : Bool) : Good (appendBit b t) := by
  refine { h.countFree 8 (t.candLen.toNat + 1) with cand := ?_ }
  simp only [Machine.appendBit]
  split
  · next hlen =>
    have hfit : t.candLen.toNat + 1 < 2 ^ 8 := Nat.lt_succ_of_le hlen
    rw [toNat_fitOrFree hfit]
    exact putBit_eq_bitsOf h.cand b
  · exact bitsOf_eq_bitsOf _ _

theorem appendBit_keepsDecode (h : Kept decodeView s t) (b : Bool) : Kept decodeView s (appendBit b t) :=
  h.write (by rw [appendBit_frame]; rfl) fun hg => hg.appendBit b

theorem scanBit_keepsDecode (h : Kept decodeView s t) : KeepsDecode s (scanBit t) :=
  (buGetbit_keepsDecode h).bind fun _ _ hu => matchCandidate_keepsDecode (appendBit_keepsDecode hu _)

theorem scanLoop_keepsDecode {fuel : Nat} (h : Kept decodeView s t) : KeepsDecode s (scanLoop fuel t) := by
  induction fuel generalizing t with
  | zero => exact h
  | succ n ih =>
    unfold scanLoop
    split
    · exact (scanBit_keepsDecode h).bind fun u _ hu => ih hu
    · exact h

theorem sqRun_keepsDecode (h : Kept decodeView s t) : KeepsDecode s (sqRun t) := by
  unfold sqRun
  split
  · exact Ends.raise h
  · refine (scanLoop_keepsDecode h).bind fun u _ hu => ?_
    split
    · exact Ends.raise hu
    · exact hu

end

/-- The micro-operations of the `DECODE` program and those they call, but for `SEQ.END` (R116). -/
def isDecodeOp : Instr → Bool
  | .seqChkpk | .ccDeserialize | .ccCheck | .seqChkemptycb | .buInit | .buGetbit | .dlLookup | .sqEmit _
  | .sqRun => true
  | _ => false

theorem exec_keepsDecode {i : Instr} (hi : isDecodeOp i = true) (s : State) :
    NextIn (Kept decodeView s) (exec i s) := by
  have h0 := Kept.refl (view := decodeView) s
  cases i with
  | seqChkpk =>
    refine Ends.finish ?_
    split
    · exact Ends.raise h0
    · exact h0
  | ccDeserialize => exact (ccDeserialize_keepsDecode h0).finish
  | ccCheck => exact (ccCheck_keepsDecode h0).finish
  | seqChkemptycb =>
    refine Ends.finish ?_
    split
    · exact Ends.raise h0
    · exact h0
  | buInit => exact .next (h0.write rfl fun hg => { hg with cand := bitsOf_eq_bitsOf 0 fun _ => false })
  | buGetbit => exact (buGetbit_keepsDecode h0).finishWith fun t x ht => ht.write rfl fun hg => { hg with }
  | dlLookup => exact .next (h0.write rfl fun hg => { hg with })
  | sqEmit y => exact (sqEmit_keepsDecode h0 y).finish
  | sqRun => exact (sqRun_keepsDecode h0).finish
  | _ => cases hi

/-! ### The frames of R50 -/

/-- Everything `SEQ.SKIPEMPTY` can do (R118): it writes `STEP`, and the model's count of free values. -/
theorem exec_seqSkipempty (s : State) :
    ∃ k n, exec .seqSkipempty s = .next { s with step := k, freeCount := n } ∧
      (k = 12#4 ∨ k = fitOrFree 4 (s.step.toNat + 1) s) := by
  by_cases h : s.inLen = 0#32
  · exact ⟨12#4, s.freeCount, by simp [exec, execSeqSkipempty, h], .inl rfl⟩
  · refine ⟨_, (countFree 4 (s.step.toNat + 1) s).freeCount, ?_, .inr rfl⟩
    simp only [exec, execSeqSkipempty, if_neg h, finish_ok]
    rw [countFree_frame]

/-- What `SEQ.END` does (R116). -/
theorem exec_seqEnd (s : State) : exec .seqEnd s = .next { s with busy := false, done := true, uop := 0 } := rfl

/-- Settles O51: every operation but two keeps `encodeView`; `SEQ.SKIPEMPTY` and `SEQ.END` write the sequencer's
registers alone; and taking an error in `ENCODE` writes only lengths that `ENCODE` owns. -/
theorem encodeFrame : Obligations.EncodeFrame := by
  intro s t i hcmd hi ht
  have hcases : i = .seqSkipempty ∨ i = .seqEnd ∨ isEncodeOp i = true := by
    rcases hi with hi | ⟨n, rfl⟩ | ⟨k, rfl | rfl⟩ | ⟨b, rfl⟩ | ⟨y, rfl⟩
    · clear ht
      revert i
      decide
    all_goals simp [isEncodeOp]
  rcases hcases with rfl | rfl | hop
  · obtain ⟨k, n, heq, -⟩ := exec_seqSkipempty s
    obtain rfl := Host.Outcome.next.inj (heq.symm.trans ht)
    simp
  · obtain rfl := Host.Outcome.next.inj ht
    simp
  · rcases exec_keepsEncode hop s t ht with h | ⟨e, sub, u, h, rfl⟩
    · have hsame := h.same
      simp only [encodeView, controlView, Prod.mk.injEq] at hsame
      simp [hsame]
    · have hsame := h.same
      simp only [encodeView, controlView, Prod.mk.injEq] at hsame
      simp [hsame, hcmd]

/-- Settles O52: every operation but `SEQ.END` keeps `decodeView`, and taking an error in `DECODE` writes no length but
`OUT_LEN`. -/
theorem decodeFrame : Obligations.DecodeFrame := by
  intro s t i hcmd hi ht
  have hcases : i = .seqEnd ∨ isDecodeOp i = true := by
    rcases hi with hi | ⟨y, rfl⟩
    · clear ht
      revert i
      decide
    · simp [isDecodeOp]
  rcases hcases with rfl | hop
  · obtain rfl := Host.Outcome.next.inj ht
    simp
  · rcases exec_keepsDecode hop s t ht with h | ⟨e, sub, u, h, rfl⟩
    · have hsame := h.same
      simp only [decodeView, controlView, Prod.mk.injEq] at hsame
      simp [hsame]
    · have hsame := h.same
      simp only [decodeView, controlView, Prod.mk.injEq] at hsame
      simp [hsame, hcmd]

end Sys2Proof.Proofs
end

section
namespace Sys2Proof.Proofs

open Sys2Proof.Machine Sys2Proof.Safety

/-! ### What the decoders accept -/

theorem encode_of_decodePlain {i j : Instr} {id : BitVec 8} {arg : BitVec 9} (h : decodePlain i arg = .ok j)
    (hi : encode i = .uop id 0) : encode j = .uop id arg := by
  unfold decodePlain at h
  split at h
  · next ha =>
    obtain rfl := Except.ok.inj h
    rw [hi, ha]
    rfl
  · cases h

theorem encode_of_decodeByteArg {f : BitVec 8 → Instr} {j : Instr} {id : BitVec 8} {arg : BitVec 9}
    (h : decodeByteArg f arg = .ok j) (hf : ∀ y, encode (f y) = .uop id (y.setWidth 9)) :
    encode j = .uop id arg := by
  unfold decodeByteArg at h
  split at h
  · obtain rfl := Except.ok.inj h
    have harg : (arg.setWidth 8).setWidth 9 = arg := by
      apply BitVec.eq_of_toNat_eq
      simp only [BitVec.toNat_setWidth]
      omega
    rw [hf, harg]
  · cases h

/-- Whatever the micro-operation decoder accepts is encoded by the id and the argument it was read from. -/
theorem encode_of_decodeUop {id : BitVec 8} {arg : BitVec 9} {i : Instr} (h : decodeUop id arg = .ok i) :
    encode i = .uop id arg := by
  have hid : id = BitVec.ofNat 8 id.toNat := by simp
  unfold decodeUop at h
  split at h
  case h_31 => cases h
  all_goals
    rename_i hn
    rw [hn] at hid
    subst hid
  case h_9 =>
    split at h
    · obtain rfl := Except.ok.inj h
      rfl
    · cases h
  case h_19 =>
    split at h
    · next ha =>
      obtain rfl := Except.ok.inj h
      have harg : arg = 0#9 ∨ arg = 1#9 := by
        have : arg.toNat = 0 ∨ arg.toNat = 1 := by omega
        exact this.imp BitVec.eq_of_toNat_eq BitVec.eq_of_toNat_eq
      rcases harg with rfl | rfl <;> rfl
    · cases h
  case h_11 | h_12 | h_20 | h_29 => exact encode_of_decodeByteArg h fun _ => rfl
  all_goals exact encode_of_decodePlain h rfl

/-- The sequencer can select whatever id a call can name: it decodes with no operand. -/
theorem decodeUop_zero_isOk {id : BitVec 8} {arg : BitVec 9} {i : Instr} (h : decodeUop id arg = .ok i) :
    (decodeUop id 0).isOk = true := by
  have henc := encode_of_decodeUop h
  cases i <;> simp only [encode, Code.uop.injEq, reduceCtorEq] at henc <;>
    exact henc.1 ▸ (by decide)

/-- A micro-operation is one of the two that write the sequencer's registers, or runs in one of the programs. -/
theorem decodeUop_cases {id : BitVec 8} {arg : BitVec 9} {i : Instr} (h : decodeUop id arg = .ok i) :
    (i = .seqSkipempty ∧ id = 0x05#8) ∨ (i = .seqEnd ∧ id = 0x08#8) ∨
      (id ≠ 0x08#8 ∧ (isEncodeOp i = true ∨ isDecodeOp i = true)) := by
  have henc := encode_of_decodeUop h
  cases i <;> simp only [encode, Code.uop.injEq, reduceCtorEq] at henc <;>
    obtain ⟨rfl, -⟩ := henc <;> simp [isEncodeOp, isDecodeOp]

theorem decodeCmd_ok {w : BitVec 32} {i : Instr} (h : decodeCmd w = .ok i) : i = .encode ∨ i = .decode := by
  unfold decodeCmd at h
  split at h
  · cases h
  · split at h
    · exact .inl (Except.ok.inj h).symm
    · split at h
      · exact .inr (Except.ok.inj h).symm
      · cases h

/-! ### The control part of the invariant -/

section

variable {s t u : State}

theorem Control.of_view (h : Control s) (hv : controlView t = controlView s) : Control t := by
  simp only [controlView, Prod.mk.injEq] at hv
  obtain ⟨-, hcmd, hstep, hbusy, hdone, herr, hcode, hsub, howned⟩ := hv
  exact {
    flags := by simpa only [flagsLegal, hbusy, hdone, herr] using h.flags
    err := by simpa only [herr, hcode] using h.err
    errCode := by simpa only [hcode] using h.errCode
    curCmd := by simpa only [hcmd] using h.curCmd
    errSub := by simpa only [hcode, hsub] using h.errSub
    position := by simpa only [hbusy, hcmd, hstep] using h.position
    window := by simpa only [hbusy, howned] using h.window
    ended := by simpa only [howned, hbusy, hdone] using h.ended }

theorem Good.errorEntry (h : Good s) (e : ErrKind) (sub : BitVec 8) : Good (errorEntry e sub s) := { h with }

theorem errKindCode_range (e : ErrKind) : (errKindCode e).toNat ≤ 5 ∧ errKindCode e ≠ 0#4 := by
  cases e <;> decide

theorem Control.errorEntry (h : Control s) (e : ErrKind) (sub : BitVec 8) : Control (errorEntry e sub s) where
  flags := rfl
  err := (decide_eq_true (errKindCode_range e).2).symm
  errCode := (errKindCode_range e).1
  curCmd := h.curCmd
  errSub := .inl (errKindCode_range e).2
  position := by simp
  window := by simp
  ended := fun _ => .inr rfl

theorem Control.badCommand (h : Control s) (hidle : s.busy = false) (sub : BitVec 8) :
    Control (badCommand sub s) where
  flags := by simp [flagsLegal, hidle]
  err := (decide_eq_true (errKindCode_range .badCommand).2).symm
  errCode := (errKindCode_range .badCommand).1
  curCmd := h.curCmd
  errSub := .inl (errKindCode_range .badCommand).2
  position := by simp [hidle]
  window := by simp [hidle]
  ended := fun _ => .inr rfl

theorem Control.startCommand {c : BitVec 2} (hc : c = 1#2 ∨ c = 2#2) (s : State) : Control (startCommand c s) where
  flags := rfl
  err := rfl
  errCode := Nat.zero_le 5
  curCmd := by rcases hc with rfl | rfl <;> simp
  errSub := .inr rfl
  position := fun _ => by rcases hc with rfl | rfl <;> rfl
  window := fun _ => rfl
  ended := fun _ => .inl rfl

/-! ### One step keeps the invariant -/

/-- Each next state of the outcome is in the invariant and on the same platform. -/
def StepSound (s : State) (o : Host.Outcome State Fault Refusal) : Prop :=
  ∀ t, o = .next t → Inv t ∧ t.caps = s.caps

theorem StepSound.next (hg : Good t) (hc : Control t) (hcaps : t.caps = s.caps) : StepSound s (.next t) := by
  rintro u ⟨⟩
  exact ⟨(inv_iff t).2 ⟨hg, hc⟩, hcaps⟩

theorem StepSound.refused {r : Refusal} : StepSound s (.refused r) := fun _ h => nomatch h

/-- A micro-operation that is not the sequencer's own leaves the command and its flags, on every path. -/
theorem exec_keepsControl {i : Instr} (hi : isEncodeOp i = true ∨ isDecodeOp i = true) (s : State) :
    NextIn (Kept controlView s) (exec i s) := by
  intro t ht
  rcases hi with hi | hi
  · exact (exec_keepsEncode hi s t ht).imp (fun h => ⟨(Prod.mk.inj h.same).1, h.good⟩)
      fun ⟨e, sub, u, h, hu⟩ => ⟨e, sub, u, ⟨(Prod.mk.inj h.same).1, h.good⟩, hu⟩
  · exact (exec_keepsDecode hi s t ht).imp (fun h => ⟨(Prod.mk.inj h.same).1, h.good⟩)
      fun ⟨e, sub, u, h, hu⟩ => ⟨e, sub, u, ⟨(Prod.mk.inj h.same).1, h.good⟩, hu⟩

theorem Kept.caps (h : Kept controlView s t) : t.caps = s.caps := (Prod.mk.inj h.same).1

/-- Before its last operation a program has a next position. -/
theorem programUop_succ {c : BitVec 2} {k : BitVec 4} {id : BitVec 8} (h : programUop c k = some id)
    (hend : id ≠ 0x08#8) : (programUop c (k + 1)).isSome = true := by
  have hall : ∀ c k, programUop c k = some 0x08#8 ∨ programUop c k = none ∨ (programUop c (k + 1)).isSome = true := by
    decide
  rcases hall c k with hlast | hnone | hnext
  · exact absurd (Option.some.inj (h.symm.trans hlast)) hend
  · cases h.symm.trans hnone
  · exact hnext

/-- `SEQ.SKIPEMPTY` stands at step 5 of `ENCODE` and nowhere else (R113, R114). -/
theorem programUop_skipempty : ∀ (c : BitVec 2) (k : BitVec 4), 0x05#8 ∈ programUop c k → c = 1#2 ∧ k = 5#4 := by
  decide

theorem runStepOp_next {id : BitVec 8} {i : Instr} (h : runStepOp id i s = .next t) :
    ∃ u, exec i { s with uop := id } = .next u ∧ t = advance i u := by
  unfold runStepOp at h
  split at h
  · next u hu => exact ⟨u, hu, (Host.Outcome.next.inj h).symm⟩
  · cases h
  · cases h

end

end Sys2Proof.Proofs
end

section
namespace Sys2Proof.Proofs

open Sys2Proof.Machine Sys2Proof.Safety

section

variable {s t : State}

/-- An outcome of a micro-operation that leaves the command and its flags is sound, also where it raises. -/
theorem NextIn.sound (hg : Good s) (hc : Control s) {o : Host.Outcome State Fault Refusal}
    (h : NextIn (Kept controlView s) o) : StepSound s o := by
  intro t ht
  rcases h t ht with h | ⟨e, sub, u, h, rfl⟩
  · exact ⟨(inv_iff t).2 ⟨h.good hg, hc.of_view h.same⟩, h.caps⟩
  · exact ⟨(inv_iff _).2 ⟨(h.good hg).errorEntry e sub, (hc.of_view h.same).errorEntry e sub⟩, h.caps⟩

/-! The block -/

/-- While a command runs no error is recorded (R26). -/
theorem Control.err_of_busy (h : Control s) (hb : s.busy = true) : s.err = false := by
  have hfl := h.flags
  cases hd : s.done <;> cases he : s.err <;> simp [flagsLegal, hb, hd, he] at hfl ⊢

theorem runSkipempty_sound (hg : Good s) (hc : Control s) (hpos : programUop s.curCmd s.step = some 0x05#8) :
    StepSound s (runStepOp 0x05#8 .seqSkipempty s) := by
  intro t ht
  obtain ⟨u, hu, rfl⟩ := runStepOp_next ht
  obtain ⟨k, n, heq, hk⟩ := exec_seqSkipempty { s with uop := 0x05#8 }
  obtain rfl := Host.Outcome.next.inj (heq.symm.trans hu)
  obtain ⟨hcmd, hstep⟩ := programUop_skipempty s.curCmd s.step hpos
  have hnext : (programUop s.curCmd k).isSome = true := by
    rcases hk with rfl | rfl
    · rw [hcmd]; rfl
    · rw [hcmd, hstep, (fitOrFree_eq (by decide) _).1]; rfl
  have hadv : ∀ v : State, advance .seqSkipempty v = v := fun v => by simp [advance, writesStep]
  rw [hadv]
  refine StepSound.next (t := { s with uop := 0x05#8, step := k, freeCount := n }) ?_ ?_ rfl _ rfl
  · exact { hg with uop := .inr rfl }
  · exact { hc with position := fun _ => hnext }

theorem runEnd_sound (hg : Good s) (hc : Control s) (hb : s.busy = true) :
    StepSound s (runStepOp 0x08#8 .seqEnd s) := by
  have hcontrol : Control { s with busy := false, done := true, uop := 0 } :=
    { hc with
      flags := by simp [flagsLegal, hc.err_of_busy hb]
      position := fun h => nomatch h
      window := fun h => nomatch h
      ended := fun _ => .inr rfl }
  exact StepSound.next (t := { s with busy := false, done := true, uop := 0 }) { hg with uop := .inl rfl } hcontrol rfl

theorem Control.advance (h : Control t) (i : Instr)
    (hnext : t.busy = true → (programUop t.curCmd (t.step + 1)).isSome = true) : Control (advance i t) := by
  rcases advance_cases i t with ⟨-, -, heq⟩ | ⟨-, heq⟩ <;> rw [heq]
  · exact { h with position := hnext }
  · exact h

theorem Good.advance (h : Good t) (i : Instr) : Good (advance i t) := by
  rcases advance_cases i t with ⟨-, -, heq⟩ | ⟨-, heq⟩ <;> rw [heq]
  · exact { h with }
  · exact h

theorem advance_caps (i : Instr) (t : State) : (advance i t).caps = t.caps := by
  rcases advance_cases i t with ⟨-, -, heq⟩ | ⟨-, heq⟩ <;> rw [heq]

/-- A step whose operation leaves the sequencer's registers: before `SEQ.END` the program has a next position. -/
theorem runStepOp_sound {id : BitVec 8} {i : Instr} (hg : Good s) (hc : Control s)
    (hpos : programUop s.curCmd s.step = some id) (hid : (decodeUop id 0).isOk = true) (hend : id ≠ 0x08#8)
    (hop : isEncodeOp i = true ∨ isDecodeOp i = true) : StepSound s (runStepOp id i s) := by
  intro t ht
  obtain ⟨u, hu, rfl⟩ := runStepOp_next ht
  have hnext : (programUop s.curCmd (s.step + 1)).isSome = true := programUop_succ hpos hend
  have hg' : Good { s with uop := id } := hg.setUop (.inr hid)
  have hc' : Control { s with uop := id } := hc.of_view rfl
  obtain ⟨hinv, hcaps⟩ := (exec_keepsControl hop _).sound hg' hc' u hu
  obtain ⟨hgood, hcontrol⟩ := (inv_iff u).1 hinv
  refine ⟨(inv_iff _).2 ⟨hgood.advance i, hcontrol.advance i fun hbusy => ?_⟩, (advance_caps i u).trans hcaps⟩
  rcases exec_keepsControl hop _ u hu with h | ⟨e, sub, v, -, rfl⟩
  · have hsame := h.same
    simp only [controlView, Prod.mk.injEq] at hsame
    obtain ⟨-, hcmd, hstep, -⟩ := hsame
    rw [hcmd, hstep]
    exact hnext
  · cases hbusy

theorem blockStep_sound (hg : Good s) (hc : Control s) : StepSound s (blockStep s) := by
  unfold blockStep
  split
  · next hb =>
    unfold sequencerStep
    split
    · exact StepSound.refused
    · next id hpos =>
      split
      · next i hdec =>
        rcases decodeUop_cases hdec with ⟨rfl, rfl⟩ | ⟨rfl, rfl⟩ | ⟨hend, hop⟩
        · exact runSkipempty_sound hg hc hpos
        · exact runEnd_sound hg hc hb
        · exact runStepOp_sound hg hc hpos (decodeUop_zero_isOk hdec) hend hop
      · exact StepSound.refused
  · exact StepSound.next hg hc rfl

theorem runCalledOp_sound (hg : Good s) (hc : Control s) (id : BitVec 8) (arg : BitVec 9) :
    StepSound s (runCalledOp id arg s) := by
  unfold runCalledOp
  split
  · next i hdec =>
    split
    · next hkind =>
      rcases decodeUop_cases hdec with ⟨rfl, -⟩ | ⟨rfl, -⟩ | ⟨-, hop⟩
      · cases hkind
      · cases hkind
      · exact (exec_keepsControl hop { s with uop := id }).sound (hg.setUop (.inr (decodeUop_zero_isOk hdec)))
          (hc.of_view rfl)
    · exact StepSound.refused
  · exact StepSound.refused

/-! The host -/

theorem issueCommand_sound (hg : Good s) (hc : Control s) (w : BitVec 32) : StepSound s (issueCommand w s) := by
  have hstart : ∀ c, c = 1#2 ∨ c = 2#2 → StepSound s (.next (startCommand c s)) := fun c hcmd =>
    StepSound.next { hg with } (Control.startCommand hcmd s) rfl
  rcases issueCommand_cases w s with ⟨-, heq⟩ | ⟨hidle, ⟨i, hdec, heq⟩ | ⟨k, heq⟩⟩ <;> rw [heq]
  · exact StepSound.next hg hc rfl
  · rcases decodeCmd_ok hdec with rfl | rfl
    · simpa [exec, execEncode, hidle] using hstart 1#2 (.inl rfl)
    · simpa [exec, execDecode, hidle] using hstart 2#2 (.inr rfl)
  · exact StepSound.next { hg with uop := .inl rfl } (hc.badCommand hidle k) rfl

theorem writeReg_sound (hg : Good s) (hc : Control s) (index : Nat) (v : BitVec 64) :
    StepSound s (writeReg index v s) := by
  unfold writeReg
  split
  · exact StepSound.next hg hc rfl
  · split
    · exact issueCommand_sound hg hc _
    all_goals exact StepSound.next { hg with } (hc.of_view rfl) rfl

/-- Everything a host write to a space can do: nothing, or one byte of a store. -/
theorem writeSpace_cases (index : Nat) (v : Byte) (s : State) (x : Space) :
    writeSpace index v s x = s ∨
      ∃ S, x = .bytes S ∧ writeSpace index v s x = s.setStore S (cellSet index v (s.store S)) := by
  unfold writeSpace
  split
  · next S =>
    split
    · exact .inr ⟨S, rfl, rfl⟩
    · exact .inl rfl
  · exact .inl rfl

theorem writeSpace_sound (hg : Good s) (hc : Control s) {index : Nat} (v : Byte) {x : Space}
    (hin : index < spaceSize s x) : StepSound s (.next (writeSpace index v s x)) := by
  rcases writeSpace_cases index v s x with heq | ⟨S, rfl, heq⟩ <;> rw [heq]
  · exact StepSound.next hg hc rfl
  · have hview : controlView (s.setStore S (cellSet index v (s.store S))) = controlView s := by cases S <;> rfl
    exact StepSound.next (hg.setStore (cellsWf_cellSet v (hg.stores S) hin)) (hc.of_view hview)
      (State.setStore_caps _ _ _)

theorem hostWrite_sound (hg : Good s) (hc : Control s) (space index : Nat) (v : BitVec 64) :
    StepSound s (hostWrite space index v s) := by
  unfold hostWrite
  split
  · exact writeReg_sound hg hc index v
  · split
    · exact StepSound.refused
    · split
      · exact StepSound.refused
      · split
        · exact StepSound.refused
        · next hin => exact writeSpace_sound hg hc _ (Nat.not_le.1 hin)

/-- A register read leaves the window, or ends it on an idle block (R276). -/
theorem readReg_owned (index : Nat) (s : State) :
    (readReg index s).owned = s.owned ∨ (s.busy = false ∧ (readReg index s).owned = false) := by
  unfold readReg
  split
  · exact .inl rfl
  · rw [readStatus_frame]
    cases s.busy
    · exact .inr ⟨rfl, rfl⟩
    · exact .inl rfl
  · split <;> exact .inl rfl

theorem readReg_sound (hg : Good s) (hc : Control s) (index : Nat) : StepSound s (.next (readReg index s)) := by
  have howned := readReg_owned index s
  rw [readReg_frame]
  generalize (readReg index s).owned = owned at *
  refine StepSound.next { hg with } { hc with window := ?_, ended := ?_ } rfl
  · rcases howned with rfl | ⟨hidle, rfl⟩
    · exact hc.window
    · exact fun hb => absurd hb (by simp [hidle])
  · rcases howned with rfl | ⟨-, rfl⟩
    · exact hc.ended
    · exact fun h => nomatch h

theorem hostRead_sound (hg : Good s) (hc : Control s) (space index : Nat) :
    StepSound s (hostRead space index s) := by
  unfold hostRead
  split
  · exact readReg_sound hg hc index
  · split
    · exact StepSound.refused
    · split
      · exact StepSound.refused
      · split
        · exact StepSound.refused
        · exact StepSound.next { hg with } (hc.of_view rfl) rfl

end

/-! Reset -/

theorem good_afterReset (caps : Caps) (epoch : Nat) : Good (State.afterReset caps epoch) where
  freq := rfl
  nodeFreq := rfl
  nodeLeft := rfl
  nodeRight := rfl
  heap := rfl
  code := rfl
  dcb := rfl
  wstk := rfl
  stores := by rintro (_ | _ | _ | _) <;> rfl
  codeForm := rfl
  dcbForm := rfl
  heapSize := Nat.zero_le 256
  dcbCnt := Nat.zero_le 256
  accN := Nat.zero_le 8
  wsp := Nat.zero_le 256
  cand := bitsOf_eq_bitsOf 0 fun _ => false
  uop := .inl rfl

theorem control_afterReset (caps : Caps) (epoch : Nat) : Control (State.afterReset caps epoch) where
  flags := rfl
  err := rfl
  errCode := Nat.zero_le 5
  curCmd := by simp [State.afterReset]
  errSub := .inr rfl
  position := fun h => nomatch h
  window := fun h => nomatch h
  ended := fun h => nomatch h

/-- Settles O53: the reset state lists nothing and every register is 0. -/
theorem invariantAtReset : Obligations.InvariantAtReset :=
  (inv_iff _).2 ⟨good_afterReset _ _, control_afterReset _ _⟩

/-! The step -/

section

variable {s : State}

theorem hostAct_sound (hg : Good s) (hc : Control s) (a : HostAction) : StepSound s (hostAct a s) := by
  cases a with
  | read space index => exact hostRead_sound hg hc space index
  | write space index v => exact hostWrite_sound hg hc space index v
  | reset =>
    exact StepSound.next (t := resetAction s) { good_afterReset s.caps (s.epoch + 1) with }
      ((control_afterReset s.caps (s.epoch + 1)).of_view rfl) rfl

theorem step_sound (hg : Good s) (hc : Control s) : StepSound s (step s) := by
  have hg' : ∀ r, Good { s with turns := r } := fun r => { hg with }
  have hc' : ∀ r, Control { s with turns := r } := fun r => hc.of_view rfl
  unfold step takeTurn
  split
  · exact blockStep_sound hg hc
  · exact blockStep_sound (hg' _) (hc' _)
  · unfold waitTurn
    split
    · exact blockStep_sound hg hc
    · exact hostRead_sound (hg' _) (hc' _) 0 1
  · exact hostAct_sound (hg' _) (hc' _) _
  · exact runCalledOp_sound (hg' _) (hc' _) _ _

end

/-- Settles O54: the invariant is a data part, which every operation keeps as it runs, and a control part, which only
the sequencer, the taking of an error and the host touch. -/
theorem stepKeepsInvariant : Obligations.StepKeepsInvariant := by
  intro s t hinv ht
  obtain ⟨hg, hc⟩ := (inv_iff s).1 hinv
  exact step_sound hg hc t ht

end Sys2Proof.Proofs
end

section
namespace Sys2Proof.Proofs

open Sys2Proof.Machine Sys2Proof.Safety

/-! ### The status word -/

/-- Settles O43: each field of R81 is what stands in the concatenation above the fields to its right. -/
theorem statusLayout : Obligations.StatusLayout := by
  intro s
  unfold statusWord packStatus
  refine ⟨?_, ?_, ?_, ?_, ?_, ?_, ?_, ?_, ?_, ?_⟩
  case refine_10 =>
    repeat rw [BitVec.extractLsb'_append_eq_of_le (by decide)]
    exact BitVec.extractLsb'_eq_self
  case refine_5 | refine_6 | refine_7 | refine_8 | refine_9 =>
    repeat rw [BitVec.extractLsb'_append_eq_of_le (by decide)]
    exact BitVec.extractLsb'_append_eq_right
  all_goals
    repeat rw [BitVec.getLsbD_append, if_neg (by decide)]
    rw [BitVec.getLsbD_append, if_pos (by decide)]
    simp

/-! ### The host's accesses -/

section

variable {s : State}

theorem step_host {a : HostAction} {rest : List Turn} (h : s.turns = .host a :: rest) :
    step s = hostAct a { s with turns := rest } := by
  simp [step, takeTurn, h]

theorem regOfNumber_regNumber (r : RegName) : regOfNumber (regNumber r) = some r := by cases r <;> rfl

theorem eq_regNumber_of_regOfNumber {index : Nat} {r : RegName} (h : regOfNumber index = some r) :
    index = regNumber r := by
  unfold regOfNumber at h
  split at h <;> cases h <;> rfl

theorem regNumber_eq_one {r : RegName} : regNumber r = 1 ↔ r = .STATUS := by cases r <;> simp [regNumber]

theorem regOfNumber_of_le {index : Nat} (h : 12 ≤ index) : regOfNumber index = none := by
  cases hr : regOfNumber index with
  | none => rfl
  | some r =>
    obtain rfl := eq_regNumber_of_regOfNumber hr
    cases r <;> exact absurd h (by decide)

/-- A register number of R21 is the number of a register. -/
theorem exists_regNumber {index : Nat} (h : index < 12) : ∃ r, index = regNumber r := by
  cases hr : regOfNumber index with
  | some r => exact ⟨r, eq_regNumber_of_regOfNumber hr⟩
  | none => interval_cases index <;> cases hr

theorem spaceOfNumber_of_le {sp : Nat} (h : 10 ≤ sp) : spaceOfNumber sp = none := by
  unfold spaceOfNumber
  split
  case h_10 => rfl
  all_goals omega

/-- A block that owns nothing is left as it is where the window ends. -/
theorem owned_false_eta (h : s.owned = false) : { s with owned := false } = s := by rw [← h]

/-- A register read outside the window of R276, or of `STATUS` on an idle block, answers `regValue` and ends the
window. -/
theorem readReg_idle (r : RegName) (hb : s.busy = false) (ho : r ≠ .STATUS → s.owned = false) :
    readReg (regNumber r) s =
      { s with owned := false, replies := s.replies ++ [⟨0, regNumber r, .reg (regValue s r)⟩] } := by
  by_cases hr : r = .STATUS
  · subst hr
    simp [readReg, regNumber, regOfNumber, readStatus, hb, reply]
  · have hwin : inWindow s = false := inWindow_eq_false.2 ⟨hb, ho hr⟩
    have heq : readReg (regNumber r) s = reply 0 (regNumber r) (.reg (regValue s r)) s := by
      unfold readReg
      rw [regOfNumber_regNumber]
      cases r <;> simp [hwin] at hr ⊢
    exact heq.trans (owned_false_eta (s := reply _ _ _ s) (ho hr)).symm

/-- A read of a store or a debug space outside the window of R276. -/
theorem hostRead_space {sp : Nat} {x : Space} (hx : spaceOfNumber sp = some x) (hwin : inWindow s = false) (a : Nat) :
    hostRead sp a s = if spaceSize s x ≤ a then .refused .hostIndexOutOfRange
      else .next (reply sp a (spaceData s a x) s) := by
  have hsp : sp ≠ 0 := by rintro rfl; cases hx
  simp [hostRead, hsp, hx, hwin]

/-- A write to a store or a debug space outside the window of R276. -/
theorem hostWrite_space {sp : Nat} {x : Space} (hx : spaceOfNumber sp = some x) (hwin : inWindow s = false) (a : Nat)
    (v : BitVec 64) :
    hostWrite sp a v s = if spaceSize s x ≤ a then .refused .hostIndexOutOfRange
      else .next (writeSpace a (v.setWidth 8) s x) := by
  have hsp : sp ≠ 0 := by rintro rfl; cases hx
  simp [hostWrite, hsp, hx, hwin]

/-- An access to a space number above 9 is refused. -/
theorem host_noSpace {sp : Nat} (h : 10 ≤ sp) (a : Nat) (v : BitVec 64) :
    hostRead sp a s = .refused .hostIndexOutOfRange ∧ hostWrite sp a v s = .refused .hostIndexOutOfRange := by
  have hsp : sp ≠ 0 := by omega
  simp [hostRead, hostWrite, hsp, spaceOfNumber_of_le h]

/-- What the free value picks is one of the pairs that a `STATUS` read may show. -/
theorem statusPairs_pick (s : State) (n : Nat) :
    (statusPairs s).getD (n % (statusPairs s).length) (s.step, s.uop) ∈ statusPairs s := by
  have hlt := Nat.mod_lt n (show 0 < (statusPairs s).length by simp [statusPairs])
  rw [List.getD_eq_getElem _ _ hlt]
  exact List.getElem_mem hlt

end

/-- Settles O45: the pair shown is the one the free value picks out of `statusPairs`. -/
theorem busyStatusRead : Obligations.BusyStatusRead := by
  intro s rest hb hturn
  refine ⟨_, _, ?_, statusPairs_pick s (Config.freeStatusPick s.freeCount), rfl⟩
  rw [step_host hturn]
  simp [hostAct, hostRead, readReg, regOfNumber, readStatus, hb, takeFree, reply, busyStatus, statusPairs]

/-- Settles O46: outside the window only the numbers of `CMD`, `IN_LEN`, `CB_LEN` and `PK_LEN` have an effect. -/
theorem idleRegisterWrites : Obligations.IdleRegisterWrites := by
  intro s rest index v hb ho hturn
  have hwin : inWindow { s with turns := rest } = false := inWindow_eq_false.2 ⟨hb, ho⟩
  rw [step_host hturn]
  simp only [hostAct, hostWrite, if_true, writeReg, hwin, Bool.false_eq_true, if_false]
  refine ⟨?_, ?_, ?_, fun hindex => ?_⟩
  · rintro rfl; rfl
  · rintro rfl; rfl
  · rintro rfl; rfl
  · split
    case h_5 => rfl
    all_goals
      next hr =>
      have := eq_regNumber_of_regOfNumber hr
      simp only [regNumber] at this
      omega

/-- Settles O47: a read gives `regValue`, or 0 for a reserved number, and a `STATUS` read ends the window. -/
theorem idleRegisterReads : Obligations.IdleRegisterReads := by
  intro s rest index hb ho hturn
  rw [step_host hturn]
  simp only [hostAct, hostRead, if_true]
  by_cases hindex : index < 12
  · obtain ⟨r, rfl⟩ := exists_regNumber hindex
    have howned : r ≠ .STATUS → s.owned = false := fun hr => ho fun h => hr (regNumber_eq_one.1 h)
    refine ⟨regValue s r, ?_, ?_⟩
    · rw [readReg_idle (s := { s with turns := rest }) r hb howned]
      cases r <;> rfl
    · cases r <;> simp [regNumber, regValue, -BitVec.toNat_setWidth, BitVec.toNat_setWidth_of_le]
  · have howned : s.owned = false := ho (by omega)
    refine ⟨0, ?_, ?_⟩
    · rw [readReg, regOfNumber_of_le (Nat.not_lt.1 hindex)]
      exact congrArg _ (owned_false_eta (s := reply 0 index (.reg 0) { s with turns := rest }) howned).symm
    · repeat rw [if_neg (by omega)]
      rfl

/-- Settles O49: each space number of R47 has its space, whose unit the reply shows. -/
theorem idleSpaceReads : Obligations.IdleSpaceReads := by
  intro s rest sp a hb ho hturn
  have hwin : inWindow { s with turns := rest } = false := inWindow_eq_false.2 ⟨hb, ho⟩
  rw [step_host hturn]
  simp only [hostAct]
  have hin : ∀ x, spaceOfNumber sp = some x → a < spaceSize s x → hostRead sp a { s with turns := rest } =
      .next { s with turns := rest, replies := s.replies ++ [⟨sp, a, spaceData s a x⟩] } := fun x hx ha => by
    refine (hostRead_space hx hwin a).trans ((if_neg (Nat.not_le.2 ha)).trans ?_)
    rcases x with (_ | _ | _ | _) | _ | _ | _ | _ | _ <;> rfl
  have hout : ∀ x, spaceOfNumber sp = some x → spaceSize s x ≤ a →
      hostRead sp a { s with turns := rest } = .refused .hostIndexOutOfRange := fun x hx ha =>
    (hostRead_space hx hwin a).trans (if_pos ha)
  constructor
  · rintro d (⟨rfl, ha, rfl⟩ | ⟨rfl, ha, rfl⟩ | ⟨rfl, ha, rfl⟩ | ⟨rfl, ha, rfl⟩ | ⟨rfl, ha, rfl⟩ | ⟨rfl, ha, rfl⟩ |
      ⟨rfl, ha, rfl⟩ | ⟨rfl, ha, rfl⟩ | ⟨rfl, ha, rfl⟩) <;> exact hin _ rfl ha
  · rintro (⟨rfl, ha⟩ | ⟨rfl, ha⟩ | ⟨rfl, ha⟩ | ⟨rfl, ha⟩ | ⟨rfl | rfl | rfl | rfl, ha⟩ | ⟨rfl, ha⟩ | ha)
    case inr.inr.inr.inr.inr.inr => exact (host_noSpace ha a 0).1
    all_goals exact hout _ rfl ha

theorem writeSpace_bytes {S : StoreId} (hS : S ≠ .out) {s : State} {a : Nat} {v : Byte} :
    writeSpace a v s (.bytes S) = s.setStore S (cellSet a v (s.store S)) := by
  cases S
  case out => exact absurd rfl hS
  all_goals rfl

theorem writeSpace_readOnly {x : Space} (hx : spaceWritable x = false) {s : State} {a : Nat} {v : Byte} :
    writeSpace a v s x = s := by
  unfold writeSpace
  split
  · rw [hx]; rfl
  · rfl

/-- A write to one of the three writable stores replaces the one byte. -/
theorem hostWrite_store {s : State} {rest : List Turn} {sp a : Nat} {S : StoreId} (hb : s.busy = false)
    (ho : s.owned = false) (hx : spaceOfNumber sp = some (.bytes S)) (hS : S ≠ .out) (v : BitVec 64) :
    (a < s.capacity S → ∃ t, hostWrite sp a v { s with turns := rest } = .next t ∧ t.byteAt S a = v.setWidth 8 ∧
      (∀ S' a', S' ≠ S ∨ a' ≠ a → t.byteAt S' a' = s.byteAt S' a') ∧
      t = { s with turns := rest, inStore := t.inStore, cbStore := t.cbStore, pkStore := t.pkStore }) ∧
    (s.capacity S ≤ a → hostWrite sp a v { s with turns := rest } = .refused .hostIndexOutOfRange) := by
  have hwin : inWindow { s with turns := rest } = false := inWindow_eq_false.2 ⟨hb, ho⟩
  have hbytes : ∀ S' a', ({ s with turns := rest } : State).byteAt S' a' = s.byteAt S' a' := by
    rintro (_ | _ | _ | _) a' <;> rfl
  rw [hostWrite_space hx hwin]
  refine ⟨fun ha => ?_, fun ha => if_pos ha⟩
  refine ⟨_, if_neg (Nat.not_le.2 ha), ?_, fun S' a' hne => ?_, ?_⟩
  · rw [writeSpace_bytes hS, State.byteAt_setStore, if_pos ⟨rfl, rfl⟩]
  · rw [writeSpace_bytes hS, State.byteAt_setStore, if_neg (by tauto), hbytes]
  · rw [writeSpace_bytes hS]
    cases S
    case out => exact absurd rfl hS
    all_goals rfl

/-- Settles O48: the three writable stores by `hostWrite_store`; in every other space a write has no effect. -/
theorem idleStoreWrites : Obligations.IdleStoreWrites := by
  intro s rest sp a v hb ho hturn
  have hwin : inWindow { s with turns := rest } = false := inWindow_eq_false.2 ⟨hb, ho⟩
  rw [step_host hturn]
  simp only [hostAct]
  have hkeep : ∀ x, spaceOfNumber sp = some x → spaceWritable x = false → a < spaceSize s x →
      hostWrite sp a v { s with turns := rest } = .next { s with turns := rest } := fun x hx hro ha => by
    rw [hostWrite_space hx hwin, writeSpace_readOnly hro]
    exact if_neg (Nat.not_le.2 ha)
  have hout : ∀ x, spaceOfNumber sp = some x → spaceSize s x ≤ a →
      hostWrite sp a v { s with turns := rest } = .refused .hostIndexOutOfRange := fun x hx ha =>
    (hostWrite_space hx hwin a v).trans (if_pos ha)
  refine ⟨fun S hS => ?_, ?_, ?_, ?_, ?_, ?_, ?_, fun hsp => (host_noSpace hsp a v).2⟩
  · rcases hS with ⟨rfl, rfl⟩ | ⟨rfl, rfl⟩ | ⟨rfl, rfl⟩ <;>
      exact hostWrite_store hb ho rfl (by decide) v
  · rintro rfl ha
    exact hkeep _ rfl rfl ha
  · rintro rfl ha
    exact hout _ rfl ha
  · rintro (rfl | rfl | rfl | rfl) ha <;> exact hkeep _ rfl rfl ha
  · rintro (rfl | rfl | rfl | rfl) ha <;> exact hout _ rfl ha
  · rintro rfl ha
    exact hkeep _ rfl rfl ha
  · rintro rfl ha
    exact hout _ rfl ha

end Sys2Proof.Proofs
end

section
/-! Proofs of the encoding family: the decoders against the encoder. -/

namespace Sys2Proof.Proofs

open Sys2Proof.Machine Sys2Proof.Safety

/-! ### The command word -/

/-- R83 on the number of the word: the reserved bits are 0 exactly below 256, where the word is its own `op`. -/
theorem decodeCmd_eq (w : BitVec 32) :
    decodeCmd w = if 256 ≤ w.toNat then .error .reservedBits else if w.toNat = 1 then .ok .encode
      else if w.toNat = 2 then .ok .decode else .error .unknownOp := by
  have hrsv : w.extractLsb' 8 24 ≠ 0#24 ↔ 256 ≤ w.toNat := by
    have := w.isLt
    rw [ne_eq, ← BitVec.toNat_inj, BitVec.extractLsb'_toNat, Nat.shiftRight_eq_div_pow, BitVec.toNat_ofNat]
    omega
  have hop : ∀ k, k < 256 → w.toNat < 256 → (w.extractLsb' 0 8 = BitVec.ofNat 8 k ↔ w.toNat = k) := by
    intro k hk hw
    rw [← BitVec.toNat_inj, BitVec.extractLsb'_toNat, Nat.shiftRight_zero, BitVec.toNat_ofNat]
    omega
  unfold decodeCmd
  simp only [hrsv]
  split
  · rfl
  · next hw => simp only [hop 1 (by omega) (by omega), hop 2 (by omega) (by omega)]

/-- Settles O4: the four arms of `decodeCmd_eq`. -/
theorem commandWordsClassified : Obligations.CommandWordsClassified := by
  intro w
  rw [decodeCmd_eq]
  refine ⟨fun h => if_pos h, fun h h1 h2 => ?_, fun h => ?_, fun h => ?_⟩
  · rw [if_neg (by omega), if_neg h1, if_neg h2]
  · simp [h]
  · simp [h]

theorem encode_of_decodeCmd {w : BitVec 32} {i : Instr} (h : decodeCmd w = .ok i) : encode i = .cmd w := by
  rw [decodeCmd_eq] at h
  split at h
  · cases h
  · split at h
    · next hw =>
      obtain rfl := Except.ok.inj h
      exact congrArg Code.cmd (BitVec.eq_of_toNat_eq hw.symm)
    · split at h
      · next hw =>
        obtain rfl := Except.ok.inj h
        exact congrArg Code.cmd (BitVec.eq_of_toNat_eq hw.symm)
      · cases h

/-! ### Decoding and encoding are inverse -/

theorem encode_of_decode {c : Code} {i : Instr} (h : decode c = .ok i) : encode i = c := by
  cases c with
  | cmd w => exact encode_of_decodeCmd h
  | uop id arg => exact encode_of_decodeUop h

/-- An 8-bit operand fits its argument and comes back from it. -/
theorem decodeByteArg_setWidth (f : BitVec 8 → Instr) (y : BitVec 8) :
    decodeByteArg f (y.setWidth 9) = .ok (f y) := by
  have hy : (y.setWidth 9).toNat < 256 := by
    have := y.isLt
    rw [BitVec.toNat_setWidth]
    omega
  rw [decodeByteArg, if_pos hy, BitVec.setWidth_setWidth_of_le y (by decide), BitVec.setWidth_eq]

/-- `PQ.INSERT` is decoded exactly with the node ids of the arena (R143). -/
theorem decode_pqInsert (n : NodeId) :
    decode (encode (.pqInsert n)) =
      if (Instr.pqInsert n).wellFormed then .ok (.pqInsert n) else .error .notANodeId := by
  simp [decode, encode, decodeUop, Instr.wellFormed]

/-- Settles O2: a row without operand by evaluation, a byte operand by `decodeByteArg_setWidth`. -/
theorem decodeOfEncode : Obligations.DecodeOfEncode := by
  intro i hi
  cases i with
  | pqInsert n => rw [decode_pqInsert, if_pos hi]
  | pqSiftup k => exact decodeByteArg_setWidth _ k
  | pqSiftdown k => exact decodeByteArg_setWidth _ k
  | bpPutcode y => exact decodeByteArg_setWidth _ y
  | sqEmit y => exact decodeByteArg_setWidth _ y
  | bpPutbit b => cases b <;> rfl
  | _ => rfl

/-- Settles O3: the word is the encoding, so for `PQ.INSERT`, the only row with an operand check, it is the word
that `decode_pqInsert` speaks of. -/
theorem encodeOfDecode : Obligations.EncodeOfDecode := by
  intro c i h
  obtain rfl := encode_of_decode h
  refine ⟨?_, rfl⟩
  cases i with
  | pqInsert n =>
    rw [decode_pqInsert] at h
    split at h
    · assumption
    · cases h
  | _ => rfl

/-- Settles O1: each word is the encoding of its row. -/
theorem specWordsDecode : Obligations.SpecWordsDecode :=
  ⟨decodeOfEncode .encode rfl, decodeOfEncode .decode rfl, decodeOfEncode .seqEnd rfl, decodeOfEncode .fcCount rfl,
    decodeOfEncode (.pqInsert 510#9) (by decide), decodeOfEncode .tbBuild rfl, decodeOfEncode .cwWalk rfl,
    decodeOfEncode (.bpPutbit true) rfl, decodeOfEncode .ccCheck rfl, decodeOfEncode (.sqEmit 0x61#8) rfl⟩

end Sys2Proof.Proofs
end

section
namespace Sys2Proof.Proofs

open Sys2Proof.Machine Sys2Proof.Safety

/-! ### Bits and bytes, most significant bit first (R61, R91) -/

/-- Position `j` of the first `n` bits read into a number, the first bit the most significant. -/
theorem testBit_foldl_bits (f : Nat → Bool) {n j : Nat} (hj : j < n) :
    ((List.range n).foldl (fun acc t => 2 * acc + (f t).toNat) 0).testBit (n - 1 - j) = f j := by
  induction n with
  | zero => omega
  | succ n ih =>
    rw [List.range_succ, List.foldl_append, List.foldl_cons, List.foldl_nil, ← Nat.bit_val]
    rcases Nat.eq_or_lt_of_le (Nat.le_of_lt_succ hj) with rfl | hlt
    · simp
    · rw [show n + 1 - 1 - j = (n - 1 - j) + 1 by omega, Nat.testBit_bit_succ, ih hlt]

theorem getLsbD_byteOfBits (f : Nat → Bool) {j : Nat} (hj : j < 8) : (byteOfBits f).getLsbD (7 - j) = f j := by
  rw [byteOfBits, BitVec.getLsbD_ofNat, testBit_foldl_bits f hj, decide_eq_true (by omega), Bool.true_and]

/-- Byte sequences of one length are equal when they have the same bits. -/
theorem eq_of_bytesBit {as bs : List Byte} (hlen : as.length = bs.length)
    (h : ∀ k, k < 8 * as.length → bytesBit as k = bytesBit bs k) : as = bs := by
  refine List.ext_getElem hlen fun i hi hi' => BitVec.eq_of_getLsbD_eq fun j hj => ?_
  have hk := h (8 * i + (7 - j)) (by omega)
  rwa [bytesBit, bytesBit, show (8 * i + (7 - j)) / 8 = i by omega, show 7 - (8 * i + (7 - j)) % 8 = j by omega,
    List.getD_eq_getElem _ _ hi, List.getD_eq_getElem _ _ hi'] at hk

@[simp] theorem length_packBits (p : List Bool) : (packBits p).length = bytesFor p.length := by simp [packBits]

/-- The bits of a packed string: the string, then zeros. -/
theorem bytesBit_packBits (p : List Bool) (k : Nat) : bytesBit (packBits p) k = p.getD k false := by
  by_cases hk : k / 8 < bytesFor p.length
  · have hget : (packBits p).getD (k / 8) 0 = byteOfBits fun t => p.getD (8 * (k / 8) + t) false := by
      rw [List.getD_eq_getElem _ _ (by simpa using hk)]
      simp [packBits]
    rw [bytesBit, hget, getLsbD_byteOfBits _ (Nat.mod_lt _ (by decide)), Nat.div_add_mod]
  · have hp : p.length ≤ k := by
      unfold bytesFor at hk
      omega
    rw [bytesBit, List.getD_eq_default _ _ (by simpa using hk), List.getD_eq_default _ _ hp]
    simp

theorem padBitSet_eq_false {n : Nat} {bs : List Byte} :
    padBitSet n bs = false ↔ ∀ k, n ≤ k → k < 8 * bs.length → bytesBit bs k = false := by
  simp only [padBitSet, List.any_eq_false, List.mem_range, Bool.not_eq_true]
  constructor
  · intro h k hn hk
    have := h (k - n) (by omega)
    rwa [show n + (k - n) = k by omega] at this
  · exact fun h k hk => h (n + k) (by omega) (by omega)

theorem padBitSet_packBits (p : List Bool) : padBitSet p.length (packBits p) = false :=
  padBitSet_eq_false.2 fun k hk _ => by rw [bytesBit_packBits, List.getD_eq_default _ _ hk]

/-- The bit-string of length `n` at the head of a byte sequence. -/
def firstBits (n : Nat) (bs : List Byte) : List Bool := (List.range n).map (bytesBit bs)

@[simp] theorem length_firstBits (n : Nat) (bs : List Byte) : (firstBits n bs).length = n := by simp [firstBits]

theorem getD_map_range (f : Nat → Bool) (n k : Nat) :
    ((List.range n).map f).getD k false = (decide (k < n) && f k) := by
  by_cases hk : k < n
  · rw [List.getD_eq_getElem _ _ (by simpa using hk)]
    simp [hk]
  · rw [List.getD_eq_default _ _ (by simpa using hk)]
    simp [hk]

/-- Unpacking a packed string gives it back. -/
theorem firstBits_packBits (p : List Bool) : firstBits p.length (packBits p) = p := by
  refine List.ext_getElem (by simp) fun i hi hi' => ?_
  simp [firstBits, bytesBit_packBits, hi']

/-- Packing an unpacked string gives the bytes back if their pad bits are 0. -/
theorem packBits_firstBits {n : Nat} {bs : List Byte} (hlen : bs.length = bytesFor n)
    (hpad : padBitSet n bs = false) : packBits (firstBits n bs) = bs := by
  refine eq_of_bytesBit (by simp [hlen]) fun k hk => ?_
  rw [bytesBit_packBits, firstBits, getD_map_range]
  by_cases hn : k < n
  · simp [hn]
  · have hk' : k < 8 * bs.length := by simpa [hlen] using hk
    simp [hn, padBitSet_eq_false.1 hpad k (by omega) hk']

theorem bitsOf_congr {n : Nat} {f g : Nat → Bool} (h : ∀ k, k < n → f k = g k) : bitsOf n f = bitsOf n g := by
  refine BitVec.eq_of_getLsbD_eq fun k _ => ?_
  change bitAt _ k = bitAt _ k
  rw [bitAt_bitsOf, bitAt_bitsOf]
  by_cases hk : k < n
  · rw [h k hk]
  · simp [hk]

/-- The record that `CC.DESERIALIZE` makes of a length and code bytes holds their bit-string. -/
theorem entryOf_firstBits (len : BitVec 8) (bs : List Byte) :
    entryOf (firstBits len.toNat bs) = ⟨true, len, bitsOfBytes len.toNat bs⟩ := by
  have hbits : bitsOf len.toNat (fun k => (firstBits len.toNat bs).getD k false) = bitsOfBytes len.toNat bs :=
    bitsOf_congr fun k hk => by simp [firstBits, hk]
  simp only [entryOf, length_firstBits, hbits, BitVec.ofNat_toNat, BitVec.setWidth_eq]

@[simp] theorem length_codeString (e : CodeEntry) : (codeString e).length = e.len.toNat := by simp [codeString]

/-- The code bytes of a record are its bit-string, packed. -/
theorem codeBytes_eq_packBits (e : CodeEntry) : codeBytes e = packBits (codeString e) := by
  simp only [codeBytes, packBits, length_codeString]
  refine List.map_congr_left fun j _ => congrArg byteOfBits (funext fun t => ?_)
  rw [codeString, getD_map_range]

/-! ### The bytes of a store -/

/-- The `n` bytes of a store from address `p`. -/
def bytesFrom (s : State) (S : StoreId) (p n : Nat) : List Byte := (List.range n).map fun j => s.byteAt S (p + j)

theorem storeBytes_eq (s : State) (S : StoreId) (n : Nat) : storeBytes s S n = bytesFrom s S 0 n := by
  simp [storeBytes, bytesFrom]

@[simp] theorem length_bytesFrom (s : State) (S : StoreId) (p n : Nat) : (bytesFrom s S p n).length = n := by
  simp [bytesFrom]

theorem bytesFrom_append (s : State) (S : StoreId) (p m n : Nat) :
    bytesFrom s S p (m + n) = bytesFrom s S p m ++ bytesFrom s S (p + m) n := by
  simp [bytesFrom, List.range_add, Function.comp_def, Nat.add_assoc]

theorem bytesFrom_one (s : State) (S : StoreId) (p : Nat) : bytesFrom s S p 1 = [s.byteAt S p] := by
  simp [bytesFrom]

/-- A head of the bytes stands at the same address, the rest after it. -/
theorem bytesFrom_eq_append {s : State} {S : StoreId} {p n : Nat} {as bs : List Byte}
    (h : bytesFrom s S p n = as ++ bs) :
    bytesFrom s S p as.length = as ∧ bytesFrom s S (p + as.length) bs.length = bs := by
  obtain rfl : n = as.length + bs.length := by simpa using congrArg List.length h
  rw [bytesFrom_append] at h
  exact List.append_inj h (by simp)

theorem readByte_eq {S : StoreId} {a : Nat} {s : State} (h : a < s.capacity S) :
    readByte S a s = .ok (s.byteAt S a) := if_pos h

theorem readBytes_eq_bytesFrom {S : StoreId} {p n : Nat} {s : State} (h : p + n ≤ s.capacity S) :
    readBytes S p n s = .ok (bytesFrom s S p n) := readBytes_eq h

theorem memRead_eq {S : StoreId} {p n : Nat} {s : State} (h : p + n ≤ s.capacity S) :
    memRead S p n s = .ok (beValue (bytesFrom s S p n)) := by
  rw [memRead, readBytes_eq_bytesFrom h]
  rfl

/-- The number that bytes of a store are read as has them as its image. -/
theorem beBytes_beValue_bytesFrom (s : State) (S : StoreId) (p n : Nat) :
    beBytes n (beValue (bytesFrom s S p n)) = bytesFrom s S p n := by
  simpa using beBytes_beValue (bytesFrom s S p n)

/-- Bytes written to a store inside its capacity are the store's bytes from there. -/
theorem bytesFrom_writeBytes {S : StoreId} {bs : List Byte} {p : Nat} {s t : State}
    (h : writeBytes S p bs s = .ok t) : bytesFrom t S p bs.length = bs := by
  obtain ⟨-, hbyte, -⟩ := writeBytes_ok h
  refine List.ext_getElem (by simp) fun i hi hi' => ?_
  simp only [bytesFrom, List.getElem_map, List.getElem_range, hbyte]
  rw [if_pos ⟨trivial, by omega, by omega⟩, Nat.add_sub_cancel_left, List.getD_eq_getElem _ _ hi']

/-! ### The serialized entries (R91, R93) -/

/-- The bytes of one serialized entry (R91). -/
def entryImage (e : Sym × List Bool) : List Byte := BitVec.ofNat 8 e.2.length :: packBits e.2 ++ [e.1]

theorem length_entryImage (e : Sym × List Bool) : (entryImage e).length = 2 + bytesFor e.2.length := by
  simp [entryImage]
  omega

theorem entriesBytes_cons (e : Sym × List Bool) (es : List (Sym × List Bool)) :
    entriesBytes (e :: es) = entryImage e ++ entriesBytes es := rfl

/-- An entry of at most 255 bits has at most 34 bytes (R93). -/
theorem length_entriesBytes_le {es : List (Sym × List Bool)} (h : ∀ e ∈ es, e.2.length ≤ 255) :
    (entriesBytes es).length ≤ 34 * es.length := by
  induction es with
  | nil => simp [entriesBytes]
  | cons e es ih =>
    have he := h e List.mem_cons_self
    have hes := ih fun x hx => h x (List.mem_cons_of_mem _ hx)
    rw [entriesBytes_cons, List.length_append, length_entryImage, List.length_cons]
    unfold bytesFor
    omega

theorem length_codebookOf (T : Nat) (es : List (Sym × List Bool)) :
    (codebookOf T es).length = 10 + (entriesBytes es).length := by
  simp [codebookOf]
  omega

/-- A codebook of at most 256 entries fits the store (R93). -/
theorem length_codebookOf_le (T : Nat) {es : List (Sym × List Bool)} (hlen : es.length ≤ 256)
    (h : ∀ e ∈ es, e.2.length ≤ 255) : (codebookOf T es).length ≤ 8714 := by
  have := length_entriesBytes_le h
  rw [length_codebookOf]
  omega

/-- Ascending symbols are at most 256. -/
theorem length_le_of_entriesValid {es : List (Sym × List Bool)} (h : entriesValid es) : es.length ≤ 256 := by
  have hnodup : (es.map fun e => e.1.toNat).Nodup :=
    (List.pairwise_map.2 h.1).imp fun hlt => Nat.ne_of_lt hlt
  have hsub : (es.map fun e => e.1.toNat) ⊆ List.range 256 := by
    intro k hk
    obtain ⟨e, -, rfl⟩ := List.mem_map.1 hk
    exact List.mem_range.2 e.1.isLt
  simpa using (hnodup.subperm hsub).length_le

end Sys2Proof.Proofs
end

section
namespace Sys2Proof.Proofs

open Sys2Proof.Machine Sys2Proof.Safety

/-! ### `CC.SERIALIZE` -/

theorem length_codeEntries_le (s : State) : (codeEntries s).length ≤ 256 := by
  simpa [codeEntries] using List.length_filter_le (fun k => (s.codeAt k).valid) (List.range 256)

theorem key_length_of_mem_codeEntries {s : State} {e : Sym × List Bool} (he : e ∈ codeEntries s) :
    e.2.length ≤ 255 := by
  obtain ⟨k, -, rfl⟩ := List.mem_map.1 he
  have := (s.codeAt k).len.isLt
  simp only [length_codeString]
  omega

/-- The bytes that `CC.SERIALIZE` puts out are the codebook of the valid entries under the length marker. -/
theorem serialized_eq (s : State) : serialized s = codebookOf s.totalBits.toNat (codeEntries s) := by
  have hentries : ((validSymbols s).flatMap fun k => entryBytes (s.codeAt k) (BitVec.ofNat 8 k)) =
      entriesBytes (codeEntries s) := by
    rw [entriesBytes, codeEntries, List.flatMap_map]
    exact congrArg (List.flatMap · _) (funext fun k => by simp [entryBytes, codeBytes_eq_packBits])
  have hcount : (codeEntries s).length = (validSymbols s).length := List.length_map _
  rw [serialized, hentries, codebookOf, hcount]

theorem exec_ccSerialize (s : State) : exec .ccSerialize s = finish (ccSerialize s) := rfl

/-- Settles O31: the bytes are the codebook by `serialized_eq`, they fit `CB` by R93, and the write changes no other
byte. -/
theorem ccSerializeResult : Obligations.CcSerializeResult := by
  intro s
  have hfit : (serialized s).length ≤ 8714 := by
    rw [serialized_eq]
    exact length_codebookOf_le _ (length_codeEntries_le s) fun e => key_length_of_mem_codeEntries
  obtain ⟨u, hu⟩ := writeBytes_isOk (S := .cb) (serialized s) (a := 0) (s := s) (by rwa [Nat.zero_add])
  obtain ⟨⟨m, rfl⟩, hbyte, -⟩ := writeBytes_ok hu
  have hlen : (BitVec.ofNat 32 (serialized s).length).toNat = (serialized s).length := by
    rw [BitVec.toNat_ofNat]
    omega
  refine ⟨{ s.setStore .cb m with cbLen := BitVec.ofNat 32 (serialized s).length }, ?_, ?_, ?_, fun a ha => ?_, rfl⟩
  · rw [exec_ccSerialize, ccSerialize, hu]
    rfl
  · rw [← serialized_eq, hlen, storeBytes_eq]
    exact (bytesFrom_writeBytes hu :)
  · rwa [hlen]
  · refine (hbyte .cb a).trans (if_neg fun hin => ?_)
    rw [hlen] at ha
    omega

end Sys2Proof.Proofs
end

section
namespace Sys2Proof.Proofs

open Sys2Proof.Machine Sys2Proof.Safety

/-! ### The table of accepted entries -/

/-- One accepted entry: its record goes to `DCB`, and `DCB_CNT` counts it (R197). -/
def loadEntry (s : State) (e : Sym × List Bool) : State :=
  { s.setDcb e.1.toNat (entryOf e.2) with dcbCnt := s.dcbCnt + 1 }

/-- The state after the entries `es` have been accepted, in order. -/
def loadEntries (es : List (Sym × List Bool)) (s : State) : State := es.foldl loadEntry s

@[simp] theorem bytesFrom_loadEntry (s : State) (e : Sym × List Bool) (S : StoreId) (p n : Nat) :
    bytesFrom (loadEntry s e) S p n = bytesFrom s S p n := by cases S <;> rfl

@[simp] theorem cbLen_loadEntry (s : State) (e : Sym × List Bool) : (loadEntry s e).cbLen = s.cbLen := rfl

theorem dcbAt_loadEntry (s : State) (e : Sym × List Bool) (k : Nat) :
    (loadEntry s e).dcbAt k = if k = e.1.toNat then entryOf e.2 else s.dcbAt k :=
  State.dcbAt_setDcb s e.1.toNat k (entryOf e.2)

/-- Accepting entries writes nothing but `DCB` and `DCB_CNT`. -/
theorem loadEntries_frame (es : List (Sym × List Bool)) (s : State) :
    loadEntries es s = { s with dcb := (loadEntries es s).dcb, dcbCnt := (loadEntries es s).dcbCnt } := by
  induction es generalizing s with
  | nil => rfl
  | cons e es ih => exact ih (loadEntry s e)

theorem dcbCnt_loadEntries (es : List (Sym × List Bool)) (s : State) :
    (loadEntries es s).dcbCnt = s.dcbCnt + BitVec.ofNat 9 es.length := by
  induction es generalizing s with
  | nil => simp [loadEntries]
  | cons e es ih =>
    refine (ih (loadEntry s e)).trans ?_
    rw [List.length_cons, Nat.add_comm es.length, BitVec.ofNat_add, ← BitVec.add_assoc]
    rfl

theorem toNat_dcbCnt_loadEntries {es : List (Sym × List Bool)} {s : State} (hlen : es.length ≤ 256)
    (hcnt : s.dcbCnt = 0#9) : (loadEntries es s).dcbCnt.toNat = es.length := by
  rw [dcbCnt_loadEntries, hcnt, BitVec.zero_add, BitVec.toNat_ofNat]
  omega

theorem dcbAt_loadEntries_of_forall_ne {es : List (Sym × List Bool)} {k : Nat} (h : ∀ e ∈ es, e.1.toNat ≠ k)
    (s : State) : (loadEntries es s).dcbAt k = s.dcbAt k := by
  induction es generalizing s with
  | nil => rfl
  | cons e es ih =>
    obtain ⟨hne, hes⟩ := List.forall_mem_cons.1 h
    exact (ih hes (loadEntry s e)).trans ((dcbAt_loadEntry s e k).trans (if_neg hne.symm))

theorem entryFor_cons (e : Sym × List Bool) (es : List (Sym × List Bool)) (k : Nat) :
    entryFor (e :: es) k = if e.1.toNat = k then entryOf e.2 else entryFor es k := by
  by_cases h : e.1.toNat = k <;> simp [entryFor, h]

/-- Entries with distinct symbols, accepted into a cleared table, make the table that `entryFor` describes. -/
theorem dcbAt_loadEntries {es : List (Sym × List Bool)} (h : es.Pairwise fun a b => a.1.toNat < b.1.toNat) {k : Nat}
    {s : State} (hs : s.dcbAt k = CodeEntry.cleared) : (loadEntries es s).dcbAt k = entryFor es k := by
  induction es generalizing s with
  | nil => exact hs
  | cons e es ih =>
    obtain ⟨hlt, hes⟩ := List.pairwise_cons.1 h
    rw [entryFor_cons]
    split
    · next hk =>
      have hne : ∀ x ∈ es, x.1.toNat ≠ k := fun x hx => hk ▸ Nat.ne_of_gt (hlt x hx)
      exact (dcbAt_loadEntries_of_forall_ne hne _).trans ((dcbAt_loadEntry s e k).trans (if_pos hk.symm))
    · next hk =>
      exact ih hes ((dcbAt_loadEntry s e k).trans ((if_neg (Ne.symm hk)).trans hs))

/-- Valid entries that may follow the symbol `prev` (R92 (e), (g)). -/
def ValidAfter (prev : Option Sym) (es : List (Sym × List Bool)) : Prop :=
  entriesValid es ∧ ∀ q ∈ prev, ∀ e ∈ es, q.toNat < e.1.toNat

theorem validAfter_none {es : List (Sym × List Bool)} : ValidAfter none es ↔ entriesValid es := by
  simp [ValidAfter]

theorem validAfter_nil (prev : Option Sym) : ValidAfter prev [] := by simp [ValidAfter, entriesValid]

theorem validAfter_cons {prev : Option Sym} {e : Sym × List Bool} {es : List (Sym × List Bool)} :
    ValidAfter prev (e :: es) ↔
      (1 ≤ e.2.length ∧ e.2.length ≤ 255) ∧ (∀ q ∈ prev, q.toNat < e.1.toNat) ∧ ValidAfter (some e.1) es := by
  simp only [ValidAfter, entriesValid, List.pairwise_cons, List.forall_mem_cons, Option.mem_some_iff,
    forall_eq']
  constructor
  · rintro ⟨⟨⟨hlt, hp⟩, hkey, hkeys⟩, hprev⟩
    exact ⟨hkey, fun q hq => (hprev q hq).1, ⟨hp, hkeys⟩, hlt⟩
  · rintro ⟨hkey, hprev, ⟨hp, hkeys⟩, hlt⟩
    exact ⟨⟨⟨hlt, hp⟩, hkey, hkeys⟩, fun q hq => ⟨hprev q hq, fun x hx => (hprev q hq).trans (hlt x hx)⟩⟩

/-! ### Reading the entries (R197, R201 to R203) -/

/-- One entry read from address `p` of a codebook that fits the store: the checks in their order on the length byte,
the code bytes and the symbol, and the entry accepted where all pass. -/
theorem readEntries_succ {s : State} (hcap : s.cbLen.toNat ≤ 8714) (n p : Nat) (prev : Option Sym) :
    readEntries (n + 1) p prev s =
      let len := s.byteAt .cb p
      let nb := bytesFor len.toNat
      let bs := bytesFrom s .cb (p + 1) nb
      let sym := s.byteAt .cb (p + 1 + nb)
      if s.cbLen.toNat ≤ p then raise .corruptCodebook 3 s
      else if len = 0#8 then raise .corruptCodebook 4 s
      else if s.cbLen.toNat < p + 2 + nb then raise .corruptCodebook 3 s
      else if padBitSet len.toNat bs then raise .corruptCodebook 5 s
      else if prev.any (fun q => decide (sym.toNat ≤ q.toNat)) then raise .corruptCodebook 6 s
      else readEntries n (p + 2 + nb) (some sym) (loadEntry s (sym, firstBits len.toNat bs)) := by
  have hbyte : ∀ {a}, a < 8714 → readByte .cb a s = .ok (s.byteAt .cb a) := fun h => readByte_eq h
  have hbytes : ∀ {a m}, a + m ≤ 8714 → readBytes .cb a m s = .ok (bytesFrom s .cb a m) :=
    fun h => readBytes_eq_bytesFrom h
  dsimp only
  rw [readEntries]
  split
  · rfl
  rw [hbyte (by omega)]
  dsimp only [bind, Except.bind]
  split
  · rfl
  split
  · rfl
  rw [hbytes (by omega)]
  dsimp only
  split
  · rfl
  rw [hbyte (by omega)]
  dsimp only
  split
  · rfl
  rw [loadEntry, entryOf_firstBits]

/-- Where the image of an entry stands, its length byte, its code bytes and its symbol stand. -/
theorem bytes_of_entryImage {s : State} {p : Nat} {e : Sym × List Bool}
    (h : bytesFrom s .cb p (entryImage e).length = entryImage e) :
    s.byteAt .cb p = BitVec.ofNat 8 e.2.length ∧
      bytesFrom s .cb (p + 1) (bytesFor e.2.length) = packBits e.2 ∧
      s.byteAt .cb (p + 1 + bytesFor e.2.length) = e.1 := by
  rw [entryImage, List.cons_append, ← List.singleton_append] at h
  obtain ⟨hlen, hrest⟩ := bytesFrom_eq_append h
  obtain ⟨hcode, hsym⟩ := bytesFrom_eq_append hrest
  simp only [List.length_cons, List.length_nil, Nat.zero_add, length_packBits, bytesFrom_one,
    List.cons.injEq, and_true] at hlen hcode hsym
  exact ⟨hlen, hcode, hsym⟩

/-- A length byte, code bytes with their pad bits 0 and a symbol are the image of an entry. -/
theorem bytesFrom_eq_entryImage {s : State} {p : Nat} {len : Byte} {bs : List Byte} (hlen : s.byteAt .cb p = len)
    (hbs : bytesFrom s .cb (p + 1) (bytesFor len.toNat) = bs) (hpad : padBitSet len.toNat bs = false) :
    bytesFrom s .cb p (2 + bytesFor len.toNat) =
      entryImage (s.byteAt .cb (p + 1 + bytesFor len.toNat), firstBits len.toNat bs) := by
  have hcode : bs.length = bytesFor len.toNat := by simp [← hbs]
  rw [entryImage, packBits_firstBits hcode hpad, length_firstBits, BitVec.ofNat_toNat, BitVec.setWidth_eq,
    show 2 + bytesFor len.toNat = 1 + bytesFor len.toNat + 1 by omega, bytesFrom_append, bytesFrom_append,
    bytesFrom_one, bytesFrom_one, hlen, hbs, Nat.add_assoc p 1]
  rfl

section

variable {s t : State} {p q n : Nat} {prev : Option Sym}

/-- A valid entry that stands at `p` is accepted, and the reading goes on behind it. -/
theorem readEntries_image (hcap : s.cbLen.toNat ≤ 8714) {e : Sym × List Bool}
    (hkey : 1 ≤ e.2.length ∧ e.2.length ≤ 255) (hprev : ∀ q ∈ prev, q.toNat < e.1.toNat)
    (himage : bytesFrom s .cb p (entryImage e).length = entryImage e)
    (hend : p + (entryImage e).length ≤ s.cbLen.toNat) (n : Nat) :
    readEntries (n + 1) p prev s =
      readEntries n (p + (entryImage e).length) (some e.1) (loadEntry s e) := by
  obtain ⟨hlen, hcode, hsym⟩ := bytes_of_entryImage himage
  rw [length_entryImage, ← Nat.add_assoc] at hend ⊢
  have hL : (BitVec.ofNat 8 e.2.length).toNat = e.2.length := by
    rw [BitVec.toNat_ofNat]
    omega
  have hL0 : BitVec.ofNat 8 e.2.length ≠ 0#8 := fun h0 => by
    rw [h0] at hL
    exact absurd hL.symm (Nat.ne_of_gt hkey.1)
  have hasc : prev.any (fun q => decide (e.1.toNat ≤ q.toNat)) = false := by
    cases prev with
    | none => rfl
    | some q => simpa using hprev q rfl
  rw [readEntries_succ hcap]
  simp only [hlen, hL, hcode, hsym, padBitSet_packBits, hasc, firstBits_packBits]
  rw [if_neg (by omega), if_neg hL0, if_neg (by omega), if_neg Bool.false_ne_true, if_neg Bool.false_ne_true]

/-- What the reading of an entry accepts is a valid entry that stands at `p`. -/
theorem readEntries_succ_ok (hcap : s.cbLen.toNat ≤ 8714) {x : Nat × State}
    (h : readEntries (n + 1) p prev s = .ok x) :
    ∃ e : Sym × List Bool, (1 ≤ e.2.length ∧ e.2.length ≤ 255) ∧ (∀ q ∈ prev, q.toNat < e.1.toNat) ∧
      bytesFrom s .cb p (entryImage e).length = entryImage e ∧
      readEntries n (p + (entryImage e).length) (some e.1) (loadEntry s e) = .ok x := by
  rw [readEntries_succ hcap] at h
  dsimp only at h
  generalize hlen : s.byteAt .cb p = len at h
  generalize hbs : bytesFrom s .cb (p + 1) (bytesFor len.toNat) = bs at h
  split at h
  · cases h
  split at h
  · cases h
  next hL0 =>
  split at h
  · cases h
  split at h
  · cases h
  next hpad =>
  split at h
  · cases h
  next hasc =>
  have himage := bytesFrom_eq_entryImage hlen hbs (Bool.eq_false_of_not_eq_true hpad)
  have hsize := length_entryImage (s.byteAt .cb (p + 1 + bytesFor len.toNat), firstBits len.toNat bs)
  rw [length_firstBits] at hsize
  refine ⟨_, ?_, fun q hq => ?_, hsize ▸ himage, by rwa [hsize, ← Nat.add_assoc]⟩
  · have hpos : len.toNat ≠ 0 := fun h0 => hL0 (BitVec.eq_of_toNat_eq h0)
    rw [length_firstBits]
    exact ⟨Nat.pos_of_ne_zero hpos, Nat.le_of_lt_succ len.isLt⟩
  · obtain rfl := Option.mem_def.1 hq
    simpa using hasc

/-- Valid entries that stand at `p` are accepted one after another, and the reading goes on behind them. -/
theorem readEntries_of_valid {es : List (Sym × List Bool)} (hcap : s.cbLen.toNat ≤ 8714) (hval : ValidAfter prev es)
    (hbytes : bytesFrom s .cb p (entriesBytes es).length = entriesBytes es)
    (hend : p + (entriesBytes es).length ≤ s.cbLen.toNat) (n : Nat) :
    readEntries (n + es.length) p prev s =
      readEntries n (p + (entriesBytes es).length) ((es.getLast?.map Prod.fst).or prev) (loadEntries es s) := by
  induction es generalizing s p prev with
  | nil => rfl
  | cons e es ih =>
    obtain ⟨hkey, hprev, hes⟩ := validAfter_cons.1 hval
    rw [entriesBytes_cons] at hbytes
    obtain ⟨himage, hrest⟩ := bytesFrom_eq_append hbytes
    rw [entriesBytes_cons, List.length_append, ← Nat.add_assoc] at hend ⊢
    have hlast : ((e :: es).getLast?.map Prod.fst).or prev = (es.getLast?.map Prod.fst).or (some e.1) := by
      rw [List.getLast?_cons]
      cases es.getLast? <;> rfl
    calc readEntries (n + (es.length + 1)) p prev s
        = readEntries (n + es.length) (p + (entryImage e).length) (some e.1) (loadEntry s e) :=
          readEntries_image hcap hkey hprev himage (by omega) _
      _ = _ := by
          rw [hlast]
          exact ih (by rwa [cbLen_loadEntry]) hes (by rwa [bytesFrom_loadEntry]) (by rwa [cbLen_loadEntry])

/-- What the reading of `n` entries accepts is `n` valid entries that stand at `p`. -/
theorem readEntries_ok (hcap : s.cbLen.toNat ≤ 8714) (h : readEntries n p prev s = .ok (q, t)) :
    ∃ es, es.length = n ∧ ValidAfter prev es ∧ bytesFrom s .cb p (entriesBytes es).length = entriesBytes es ∧
      q = p + (entriesBytes es).length ∧ t = loadEntries es s := by
  induction n generalizing s p prev with
  | zero =>
    obtain ⟨rfl, rfl⟩ := Prod.mk.inj (Except.ok.inj h)
    exact ⟨[], rfl, validAfter_nil prev, rfl, rfl, rfl⟩
  | succ n ih =>
    obtain ⟨e, hkey, hprev, himage, hrest⟩ := readEntries_succ_ok hcap h
    obtain ⟨es, hlen, hval, hbytes, rfl, rfl⟩ := ih (by rwa [cbLen_loadEntry]) hrest
    refine ⟨e :: es, by rw [List.length_cons, hlen], validAfter_cons.2 ⟨hkey, hprev, hval⟩, ?_, ?_, rfl⟩
    · rw [bytesFrom_loadEntry] at hbytes
      rw [entriesBytes_cons, List.length_append, bytesFrom_append, himage, hbytes]
    · rw [entriesBytes_cons, List.length_append, Nat.add_assoc]

end

end Sys2Proof.Proofs
end

section
namespace Sys2Proof.Proofs

open Sys2Proof.Machine Sys2Proof.Safety

/-! ### `CC.DESERIALIZE` (R197, R206) -/

/-- The table cleared (R197). -/
def clearTable (s : State) : State := { s with dcb := cellFill Config.nsym CodeEntry.cleared, dcbCnt := 0 }

/-- The header's marker goes to `TOTAL_BITS` (R197). -/
def setMarker (s : State) (T : Nat) : State := { s with totalBits := BitVec.ofNat 64 T }

@[simp] theorem bytesFrom_clearTable (s : State) (S : StoreId) (p n : Nat) :
    bytesFrom (clearTable s) S p n = bytesFrom s S p n := by cases S <;> rfl

@[simp] theorem bytesFrom_setMarker (s : State) (T : Nat) (S : StoreId) (p n : Nat) :
    bytesFrom (setMarker s T) S p n = bytesFrom s S p n := by cases S <;> rfl

/-- What `CC.DESERIALIZE` starts reading the entries from. -/
def headerRead (s : State) (T : Nat) : State := setMarker (clearTable s) T

@[simp] theorem bytesFrom_headerRead (s : State) (T : Nat) (S : StoreId) (p n : Nat) :
    bytesFrom (headerRead s T) S p n = bytesFrom s S p n := by simp [headerRead]

@[simp] theorem cbLen_headerRead (s : State) (T : Nat) : (headerRead s T).cbLen = s.cbLen := rfl

theorem cbLen_loadEntries_headerRead (es : List (Sym × List Bool)) (s : State) (T : Nat) :
    (loadEntries es (headerRead s T)).cbLen = s.cbLen := by
  rw [loadEntries_frame]
  rfl

theorem dcbAt_headerRead (s : State) (T : Nat) {k : Nat} (hk : k < 256) :
    (headerRead s T).dcbAt k = CodeEntry.cleared := by
  simp [State.dcbAt, headerRead, setMarker, clearTable, cellGet_cellFill, Config.nsym, hk]

/-- The two checks of `CB_LEN` come first (R198, R199). -/
theorem ccDeserialize_eq (s : State) :
    ccDeserialize s =
      if 8714 < s.cbLen.toNat then raise .corruptCodebook 9 (clearTable s)
      else if s.cbLen.toNat < 10 then raise .corruptCodebook 1 (clearTable s)
      else readCodebook (clearTable s) := rfl

theorem memRead_cb {s : State} {p n : Nat} (h : p + n ≤ 8714) :
    memRead .cb p n s = .ok (beValue (bytesFrom s .cb p n)) := memRead_eq h

/-- The header, its check (R200), the entries, and the check of the end (R204). -/
theorem readCodebook_eq (s : State) :
    readCodebook s =
      let u := setMarker s (beValue (bytesFrom s .cb 0 8))
      let E := beValue (bytesFrom s .cb 8 2)
      if 256 < E then raise .corruptCodebook 2 u else (do
        let (p, t) ← readEntries E 10 none u
        if p ≠ t.cbLen.toNat then raise .corruptCodebook 7 t else .ok t) := by
  rw [readCodebook, memRead_cb (by decide)]
  dsimp only [bind, Except.bind]
  rw [← setMarker, memRead_cb (by decide), bytesFrom_setMarker]

/-- The bytes of a codebook are a header of the marker and the number of entries, and the entries. -/
theorem storeBytes_eq_codebookOf_iff {s : State} {T : Nat} {es : List (Sym × List Bool)} :
    storeBytes s .cb s.cbLen.toNat = codebookOf T es ↔
      bytesFrom s .cb 0 8 = beBytes 8 T ∧ bytesFrom s .cb 8 2 = beBytes 2 es.length ∧
        bytesFrom s .cb 10 (entriesBytes es).length = entriesBytes es ∧
        s.cbLen.toNat = 10 + (entriesBytes es).length := by
  rw [storeBytes_eq]
  constructor
  · intro h
    have hlen : s.cbLen.toNat = 10 + (entriesBytes es).length := by
      rw [← length_codebookOf T es, ← h, length_bytesFrom]
    obtain ⟨hheader, hentries⟩ := bytesFrom_eq_append h
    obtain ⟨hmarker, hcount⟩ := bytesFrom_eq_append hheader
    simp only [List.length_append, length_beBytes] at hmarker hcount hentries
    exact ⟨hmarker, hcount, hentries, hlen⟩
  · rintro ⟨hmarker, hcount, hentries, hlen⟩
    rw [hlen, bytesFrom_append, show 10 = 8 + 2 from rfl, bytesFrom_append, hmarker, hcount, hentries, codebookOf]

/-- What passes `CC.DESERIALIZE` has a size that R198 and R199 let pass. -/
theorem cbLen_of_ccDeserialize {s t : State} (h : ccDeserialize s = .ok t) :
    10 ≤ s.cbLen.toNat ∧ s.cbLen.toNat ≤ 8714 := by
  rw [ccDeserialize_eq] at h
  split at h
  · cases h
  · split at h
    · cases h
    · omega

/-- What the header's check and the entries' checks let pass is a valid serialized codebook, R92 (a) to (h). -/
theorem codebook_of_ccDeserialize {s t : State} (h : ccDeserialize s = .ok t) :
    ∃ T es, T < 2 ^ 64 ∧ entriesValid es ∧ storeBytes s .cb s.cbLen.toNat = codebookOf T es ∧
      t = loadEntries es (headerRead s T) := by
  obtain ⟨hmin, hcap⟩ := cbLen_of_ccDeserialize h
  rw [ccDeserialize_eq, if_neg (by omega), if_neg (by omega), readCodebook_eq, bytesFrom_clearTable,
    bytesFrom_clearTable, ← headerRead] at h
  have hmarker := beValue_lt (bytesFrom s .cb 0 8)
  rw [length_bytesFrom] at hmarker
  generalize hT : beValue (bytesFrom s .cb 0 8) = T at h hmarker
  generalize hE : beValue (bytesFrom s .cb 8 2) = E at h
  dsimp only at h
  split at h
  · cases h
  rcases hr : readEntries E 10 none (headerRead s T) with _ | ⟨q, u⟩ <;> rw [hr] at h
  · cases h
  obtain ⟨es, hcount, hval, hbytes, rfl, rfl⟩ := readEntries_ok (by rwa [cbLen_headerRead]) hr
  dsimp only [bind, Except.bind] at h
  split at h
  · cases h
  next hend =>
  obtain rfl := Except.ok.inj h
  rw [cbLen_loadEntries_headerRead] at hend
  rw [bytesFrom_headerRead] at hbytes
  refine ⟨T, es, by omega, validAfter_none.1 hval, ?_, rfl⟩
  refine storeBytes_eq_codebookOf_iff.2 ⟨?_, ?_, hbytes, (not_not.1 hend).symm⟩
  · rw [← hT, beBytes_beValue_bytesFrom]
  · rw [hcount, ← hE, beBytes_beValue_bytesFrom]

/-- A valid serialized codebook passes, and its entries are loaded. -/
theorem ccDeserialize_codebook {s : State} {T : Nat} {es : List (Sym × List Bool)} (hT : T < 2 ^ 64)
    (hval : entriesValid es) (hbytes : storeBytes s .cb s.cbLen.toNat = codebookOf T es) :
    ccDeserialize s = .ok (loadEntries es (headerRead s T)) := by
  have hE := length_le_of_entriesValid hval
  have hcap := length_codebookOf_le T hE fun e he => (hval.2 e he).2
  rw [length_codebookOf] at hcap
  obtain ⟨hmarker, hcount, hentries, hlen⟩ := storeBytes_eq_codebookOf_iff.1 hbytes
  have hread : readEntries es.length 10 none (headerRead s T) =
      .ok (10 + (entriesBytes es).length, loadEntries es (headerRead s T)) := by
    have := readEntries_of_valid (s := headerRead s T) (by rwa [cbLen_headerRead, hlen])
      (validAfter_none.2 hval) (by rwa [bytesFrom_headerRead]) (by rw [cbLen_headerRead, hlen]) 0
    rwa [Nat.zero_add, readEntries] at this
  rw [ccDeserialize_eq, if_neg (by omega), if_neg (by omega), readCodebook_eq, bytesFrom_clearTable,
    bytesFrom_clearTable, ← headerRead, hmarker, hcount, beValue_beBytes, beValue_beBytes,
    Nat.mod_eq_of_lt (by omega), Nat.mod_eq_of_lt (by omega)]
  dsimp only
  rw [if_neg (by omega), hread]
  dsimp only [bind, Except.bind]
  rw [cbLen_loadEntries_headerRead, if_neg (not_not.2 hlen.symm)]

section

variable {s : State} {T : Nat} {es : List (Sym × List Bool)}

/-- The marker, the number and the records that a valid codebook leaves. -/
theorem loadEntries_headerRead (hT : T < 2 ^ 64) (hval : entriesValid es) :
    (loadEntries es (headerRead s T)).totalBits.toNat = T ∧
      (loadEntries es (headerRead s T)).dcbCnt.toNat = es.length ∧
      ∀ k, k < 256 → (loadEntries es (headerRead s T)).dcbAt k = entryFor es k := by
  refine ⟨?_, toNat_dcbCnt_loadEntries (length_le_of_entriesValid hval) rfl, fun k hk => ?_⟩
  · rw [loadEntries_frame]
    exact (BitVec.toNat_ofNat T 64).trans (Nat.mod_eq_of_lt hT)
  · exact dcbAt_loadEntries hval.1 (dcbAt_headerRead s T hk)

end

theorem exec_ccDeserialize (s : State) : exec .ccDeserialize s = finish (ccDeserialize s) := rfl

/-- Settles O32: the codebook passes by `ccDeserialize_codebook`, and what it leaves is `loadEntries_headerRead`. -/
theorem ccDeserializeAccepts : Obligations.CcDeserializeAccepts := by
  intro s T es hT hval hbytes
  obtain ⟨hbits, hcnt, hdcb⟩ := loadEntries_headerRead (s := s) hT hval
  refine ⟨loadEntries es (headerRead s T), ?_, hbits, hcnt, hdcb, ?_⟩
  · rw [exec_ccDeserialize, ccDeserialize_codebook hT hval hbytes, finish_ok]
  · rw [loadEntries_frame]
    rfl

/-- Settles O33: a command that still runs has not raised, and what passes is a valid codebook by
`codebook_of_ccDeserialize`. -/
theorem ccDeserializeSound : Obligations.CcDeserializeSound := by
  intro s t _ hexec hbusy
  rw [exec_ccDeserialize] at hexec
  rcases finish_next hexec with hok | hraised
  · obtain ⟨T, es, hT, hval, hbytes, rfl⟩ := codebook_of_ccDeserialize hok
    obtain ⟨hbits, hcnt, hdcb⟩ := loadEntries_headerRead (s := s) hT hval
    exact ⟨es, hval, hbits.symm ▸ hbytes, hcnt, hdcb⟩
  · have hends := ccDeserialize_keepsDecode (Kept.refl (view := decodeView) s)
    rw [KeepsDecode, hraised] at hends
    obtain ⟨e, sub, u, -, rfl⟩ := hends
    cases hbusy

end Sys2Proof.Proofs
end

section
/-! Proofs of the frequency counter family: the cleared tables, and the counts of `FC.COUNT`. -/

namespace Sys2Proof.Proofs

open Sys2Proof.Machine Sys2Proof.Safety

/-! ### `FC.CLEAR` and `CW.CLEAR` (R130, R170) -/

theorem exec_fcClear (s : State) : exec .fcClear s = .next { s with freq := cellFill Config.nsym 0#32 } := rfl

theorem exec_cwClear (s : State) :
    exec .cwClear s = .next { s with code := cellFill Config.nsym CodeEntry.cleared } := rfl

theorem freqAt_cleared (s : State) {k : Nat} (hk : k < 256) :
    { s with freq := cellFill Config.nsym 0#32 }.freqAt k = 0#32 := by
  simp [State.freqAt, cellGet_cellFill, Config.nsym, hk]

theorem codeAt_cleared (s : State) {k : Nat} (hk : k < 256) :
    { s with code := cellFill Config.nsym CodeEntry.cleared }.codeAt k = CodeEntry.cleared := by
  simp [State.codeAt, cellGet_cellFill, Config.nsym, hk]

/-- Settles O11: the filled tables are the only fields written, and read as `freqAt_cleared` and `codeAt_cleared`
say. -/
theorem tablesCleared : Obligations.TablesCleared := fun s =>
  ⟨⟨_, exec_fcClear s, fun _ hk => freqAt_cleared s hk, rfl⟩,
    ⟨_, exec_cwClear s, fun _ hk => codeAt_cleared s hk, rfl⟩⟩

/-! ### `FC.COUNT` (R131)

`Counts c s t`: between `s` and `t` the block has counted each byte value `k` `c k` times. Counting one byte is
`Counts` of that byte, and `Counts.trans` adds up. -/

/-- From `s` to `t` every count rises by `c`, where the sum fits, and only where some sum does not fit is a free value
taken (log 10); nothing else changes. -/
structure Counts (c : Nat → Nat) (s t : State) : Prop where
  freqAt : ∀ k, (s.freqAt k).toNat + c k < 2 ^ 32 → (t.freqAt k).toNat = (s.freqAt k).toNat + c k
  freeCount : (∀ k, k < 256 → (s.freqAt k).toNat + c k < 2 ^ 32) → t.freeCount = s.freeCount
  frame : t = { s with freq := t.freq, freeCount := t.freeCount }

section Counts

variable {c d : Nat → Nat} {s t u : State}

theorem Counts.refl (s : State) : Counts (fun _ => 0) s s := ⟨fun _ _ => rfl, fun _ => rfl, rfl⟩

theorem Counts.trans (hst : Counts c s t) (htu : Counts d t u) : Counts (fun k => c k + d k) s u := by
  have hmid {k : Nat} (hk : (s.freqAt k).toNat + (c k + d k) < 2 ^ 32) :
      (t.freqAt k).toNat = (s.freqAt k).toNat + c k := hst.freqAt k (by omega)
  constructor
  case freqAt =>
    intro k hk
    rw [htu.freqAt k (by rw [hmid hk]; omega), hmid hk, Nat.add_assoc]
  case freeCount =>
    intro h
    rw [htu.freeCount fun k hk => by have := h k hk; rw [hmid this]; omega,
      hst.freeCount fun k hk => by have := h k hk; omega]
  case frame =>
    have h := htu.frame
    rw [hst.frame] at h
    exact h

/-- The counter writes neither `IN` nor its length. -/
theorem Counts.byteAt_inp (h : Counts c s t) (i : Nat) : t.byteAt .inp i = s.byteAt .inp i := by
  rw [h.frame]; rfl

theorem Counts.capacity_inp (h : Counts c s t) : t.capacity .inp = s.capacity .inp := by
  rw [h.frame]; rfl

end Counts

/-- Read after write in `FREQ`, in the form of the write of one iteration: a free value taken with it is not seen. -/
theorem freqAt_countFree_write (s : State) (w n b k : Nat) (v : BitVec 32) :
    { countFree w n s with freq := cellSet b v s.freq }.freqAt k = if k = b then v else s.freqAt k := by
  simp only [State.freqAt, countFree_epoch, cellGet_cellSet]
  split <;> rfl

/-- One iteration counts the byte at its address once. -/
theorem countByte_counts {s : State} {i : Nat} (hi : i < s.capacity .inp) :
    ∃ t, countByte s i = .ok t ∧ Counts (fun k => if (s.byteAt .inp i).toNat = k then 1 else 0) s t := by
  have hread := readByte_eq hi
  generalize s.byteAt .inp i = b at hread
  refine ⟨_, by rw [countByte, hread]; rfl, ?freqAt, ?freeCount, ?frame⟩
  case freqAt =>
    intro k hk
    rw [freqAt_countFree_write]
    by_cases hb : b.toNat = k
    · subst hb
      rw [if_pos rfl] at hk ⊢
      rw [if_pos rfl, toNat_fitOrFree hk]
    · rw [if_neg hb, if_neg (Ne.symm hb), Nat.add_zero]
  case freeCount =>
    intro h
    have hfit := h b.toNat b.isLt
    rw [if_pos rfl] at hfit
    rw [(fitOrFree_eq hfit s).2]
  case frame =>
    rw [countFree_frame]

/-- The number of addresses below `n` in `IN` that hold the byte value `k`. -/
def countBelow (s : State) (n k : Nat) : Nat := (List.range n).countP fun i => decide ((s.byteAt .inp i).toNat = k)

theorem countOf_eq (s : State) : countOf s = countBelow s s.inLen.toNat := rfl

theorem countBelow_succ (s : State) (n : Nat) :
    countBelow s (n + 1) = fun k => countBelow s n k + if (s.byteAt .inp n).toNat = k then 1 else 0 := by
  funext k
  simp [countBelow, List.range_succ, List.countP_append, List.countP_singleton]

theorem countBelow_le (s : State) (n k : Nat) : countBelow s n k ≤ n :=
  List.countP_le_length.trans_eq List.length_range

/-- The loop of R131, by induction on the number of bytes counted. -/
theorem foldlM_countByte_counts {s : State} {n : Nat} (hn : n ≤ s.capacity .inp) :
    ∃ t, (List.range n).foldlM countByte s = .ok t ∧ Counts (countBelow s n) s t := by
  induction n with
  | zero => exact ⟨s, rfl, Counts.refl s⟩
  | succ n ih =>
    obtain ⟨t, hloop, hst⟩ := ih (by omega)
    obtain ⟨u, hbyte, htu⟩ := countByte_counts (s := t) (i := n) (by rw [hst.capacity_inp]; omega)
    refine ⟨u, ?_, ?_⟩
    · rw [List.range_succ, List.foldlM_append, hloop]
      simp [bind, Except.bind, pure, Except.pure, hbyte]
    · rw [countBelow_succ, ← hst.byteAt_inp n]
      exact hst.trans htu

theorem exec_fcCount (s : State) : exec .fcCount s = finish (fcCount s) := rfl

/-- `FC.COUNT` counts the bytes of the input (R131). -/
theorem exec_fcCount_counts {s : State} (h : s.inLen.toNat ≤ s.caps.inCap.toNat) :
    ∃ t, exec .fcCount s = .next t ∧ Counts (countOf s) s t := by
  obtain ⟨t, hloop, hst⟩ := foldlM_countByte_counts h
  exact ⟨t, by rw [exec_fcCount, fcCount, hloop, finish_ok], hst⟩

/-- The byte values in `IN[0 .. IN_LEN − 1]`, in the order of their addresses. -/
def inputValues (s : State) : List Nat := (List.range s.inLen.toNat).map fun i => (s.byteAt .inp i).toNat

theorem countOf_eq_count (s : State) (k : Nat) : countOf s k = (inputValues s).count k := by
  rw [inputValues, List.count, List.countP_map]
  rfl

theorem length_inputValues (s : State) : (inputValues s).length = s.inLen.toNat := by simp [inputValues]

theorem inputValues_lt {s : State} {k : Nat} (hk : k ∈ inputValues s) : k < 256 := by
  obtain ⟨i, -, rfl⟩ := List.mem_map.1 hk
  exact (s.byteAt .inp i).isLt

/-- Each byte of the input has one of the 256 values, so their occurrences add up to its length (R132). -/
theorem sum_countOf (s : State) : ((List.range 256).map (countOf s)).sum = s.inLen.toNat :=
  calc ((List.range 256).map (countOf s)).sum
    _ = ∑ k ∈ (List.range 256).toFinset, countOf s k := (List.sum_toFinset _ List.nodup_range).symm
    _ = ∑ k ∈ (List.range 256).toFinset, (inputValues s : Multiset Nat).count k :=
      Finset.sum_congr rfl fun k _ => (countOf_eq_count s k).trans (Multiset.coe_count k _).symm
    _ = (inputValues s).length :=
      Multiset.sum_count_eq_card fun _ hk => List.mem_toFinset.2 (List.mem_range.2 (inputValues_lt hk))
    _ = s.inLen.toNat := length_inputValues s

/-- From empty counts no sum passes `IN_LEN`, so every count is exact and no free value is taken (R133). -/
theorem Counts.of_cleared {s t : State} (h : Counts (countOf s) s t) (h0 : ∀ k, k < 256 → s.freqAt k = 0#32) :
    t.freeCount = s.freeCount ∧ ∀ k, k < 256 → (t.freqAt k).toNat = countOf s k := by
  have hzero {k : Nat} (hk : k < 256) : (s.freqAt k).toNat = 0 := by rw [h0 k hk]; rfl
  have hfit : ∀ k, k < 256 → (s.freqAt k).toNat + countOf s k < 2 ^ 32 := fun k hk => by
    have hle : countOf s k ≤ s.inLen.toNat := countBelow_le s _ k
    have := s.inLen.isLt
    rw [hzero hk]
    omega
  exact ⟨h.freeCount hfit, fun k hk => by rw [h.freqAt k (hfit k hk), hzero hk, Nat.zero_add]⟩

/-- Settles O14: the counting by `exec_fcCount_counts`; from cleared counts it gives `countOf`, whose sum is
`sum_countOf`. -/
theorem fcCountResult : Obligations.FcCountResult := by
  constructor
  · intro s hcap
    obtain ⟨t, hexec, hst⟩ := exec_fcCount_counts hcap
    exact ⟨t, hexec, fun k _ => hst.freqAt k, hst.freeCount, hst.frame⟩
  · intro s t hcap hclear
    rw [exec_fcClear] at hclear
    cases hclear
    obtain ⟨u, hexec, htu⟩ := exec_fcCount_counts (s := { s with freq := cellFill Config.nsym 0#32 }) hcap
    obtain ⟨hfree, hcounts⟩ := htu.of_cleared fun _ => freqAt_cleared s
    refine ⟨u, hexec, hfree, ?_⟩
    rw [List.map_congr_left fun k hk => hcounts k (List.mem_range.1 hk)]
    exact sum_countOf _

end Sys2Proof.Proofs
end

section
/-! Proofs of the priority queue family: the order of the keys, the two sifts, and `PQ.INSERT` and `PQ.EXTRACT`. -/

namespace Sys2Proof.Proofs

open Sys2Proof.Machine Sys2Proof.Safety

/-! ### The order of the keys (R140) -/

/-- The key of a node id as one number, the frequency above the id's 9 bits. -/
def keyRank (s : State) (a : NodeId) : Nat := (s.nodeFreqAt a.toNat).toNat * 512 + a.toNat

theorem keyLess_iff (fa fb : BitVec 32) (a b : NodeId) :
    keyLess fa a fb b = true ↔ fa.toNat * 512 + a.toNat < fb.toNat * 512 + b.toNat := by
  have := a.isLt
  have := b.isLt
  simp only [keyLess, Bool.or_eq_true, Bool.and_eq_true, decide_eq_true_eq, ← BitVec.toNat_inj]
  omega

theorem keyBefore_iff {s : State} {a b : NodeId} : keyBefore s a b = true ↔ keyRank s a < keyRank s b :=
  keyLess_iff ..

theorem keyBefore_eq_false_iff {s : State} {a b : NodeId} : keyBefore s a b = false ↔ keyRank s b ≤ keyRank s a := by
  rw [← Bool.not_eq_true, keyBefore_iff, Nat.not_lt]

/-- The id is the rank's low digit. -/
theorem keyRank_injective (s : State) : Function.Injective (keyRank s) := by
  intro a b h
  have := a.isLt
  have := b.isLt
  unfold keyRank at h
  exact BitVec.eq_of_toNat_eq (by omega)

/-- Settles O19: `keyRank` embeds the order of the keys in that of the natural numbers. -/
theorem keyOrderStrictTotal : Obligations.KeyOrderStrictTotal := by
  intro s a b c
  simp only [keyBefore_iff, keyBefore_eq_false_iff]
  refine ⟨le_rfl, lt_trans, fun hne => ?_⟩
  rcases lt_or_gt_of_ne ((keyRank_injective s).ne hne) with h | h
  · exact .inl ⟨h, h.le⟩
  · exact .inr ⟨h.le, h⟩

theorem pqLess_eq_decide {s : State} {a b : NodeId} (ha : a.toNat < 511) (hb : b.toNat < 511) :
    pqLess s a b = .ok (decide (keyRank s a < keyRank s b)) := by
  rw [pqLess_eq ha hb]
  exact congrArg _ (Bool.eq_iff_iff.2 ((keyLess_iff ..).trans decide_eq_true_iff.symm))

/-! ### The queue's entries -/

/-- The rank of the id at `HEAP[k]`. -/
def entryRank (s : State) (k : Nat) : Nat := keyRank s (s.heapAt k)

theorem heapOrdered_iff {s : State} :
    heapOrdered s ↔ ∀ j, j < s.heapSize.toNat → 0 < j → entryRank s ((j - 1) / 2) ≤ entryRank s j := by
  simp only [heapOrdered, keyBefore_eq_false_iff, entryRank]

theorem orderedButUp_iff {s : State} {i : Nat} :
    orderedButUp s i ↔
      (∀ j, j < s.heapSize.toNat → 0 < j → j ≠ i → entryRank s ((j - 1) / 2) ≤ entryRank s j) ∧
      ∀ j, j < s.heapSize.toNat → 0 < j → (j - 1) / 2 = i → 0 < i → entryRank s ((i - 1) / 2) ≤ entryRank s j := by
  simp only [orderedButUp, keyBefore_eq_false_iff, entryRank]

theorem orderedButDown_iff {s : State} {i : Nat} :
    orderedButDown s i ↔
      (∀ j, j < s.heapSize.toNat → 0 < j → (j - 1) / 2 ≠ i → entryRank s ((j - 1) / 2) ≤ entryRank s j) ∧
      ∀ j, j < s.heapSize.toNat → 0 < j → (j - 1) / 2 = i → 0 < i → entryRank s ((i - 1) / 2) ≤ entryRank s j := by
  simp only [orderedButDown, keyBefore_eq_false_iff, entryRank]

/-- In an ordered heap no key is below the root's, by induction along the path to the root (R141). -/
theorem entryRank_zero_le {s : State} (h : heapOrdered s) {k : Nat} (hk : k < s.heapSize.toNat) :
    entryRank s 0 ≤ entryRank s k := by
  induction k using Nat.strongRecOn with
  | ind k ih =>
    rcases Nat.eq_zero_or_pos k with rfl | hpos
    · exact le_rfl
    · exact (ih ((k - 1) / 2) (by omega) (by omega)).trans (heapOrdered_iff.1 h k hk hpos)

theorem mem_liveIds {s : State} {x : NodeId} : x ∈ liveIds s ↔ ∃ k, k < s.heapSize.toNat ∧ s.heapAt k = x := by
  simp [liveIds]

/-! ### A swap in the queue -/

section

variable {s : State} {i j : Nat}

theorem entryRank_swapHeap (s : State) (i j k : Nat) :
    entryRank (s.swapHeap i j) k =
      if k = j then entryRank s i else if k = i then entryRank s j else entryRank s k := by
  rw [entryRank, State.heapAt_swapHeap, apply_ite (keyRank _), apply_ite (keyRank _)]
  rfl

theorem entryRank_swapHeap_left (s : State) (i j : Nat) : entryRank (s.swapHeap i j) i = entryRank s j := by
  rw [entryRank_swapHeap, if_pos rfl]
  split_ifs with h <;> simp [h]

theorem entryRank_swapHeap_right (s : State) (i j : Nat) : entryRank (s.swapHeap i j) j = entryRank s i := by
  rw [entryRank_swapHeap, if_pos rfl]

theorem entryRank_swapHeap_of_ne {k : Nat} (hi : k ≠ i) (hj : k ≠ j) :
    entryRank (s.swapHeap i j) k = entryRank s k := by
  rw [entryRank_swapHeap, if_neg hj, if_neg hi]

theorem idsInArena_swapHeap (h : idsInArena s) (hi : i < s.heapSize.toNat) (hj : j < s.heapSize.toNat) :
    idsInArena (s.swapHeap i j) := by
  intro k hk
  rw [State.heapAt_swapHeap]
  split
  · exact h i hi
  · split
    · exact h j hj
    · exact h k hk

theorem heapAt_swapHeap_of_size_le (hi : i < s.heapSize.toNat) (hj : j < s.heapSize.toNat) {k : Nat}
    (hk : s.heapSize.toNat ≤ k) : (s.swapHeap i j).heapAt k = s.heapAt k := by
  rw [State.heapAt_swapHeap, if_neg (by omega), if_neg (by omega)]

theorem map_swap_range_perm {n i j : Nat} (hi : i < n) (hj : j < n) :
    ((List.range n).map (Equiv.swap j i)).Perm (List.range n) := by
  rw [List.perm_ext_iff_of_nodup (List.nodup_range.map (Equiv.swap j i).injective) List.nodup_range]
  intro k
  rw [← Equiv.swap_apply_self j i k, List.mem_map_of_injective (Equiv.swap j i).injective, Equiv.swap_apply_self,
    List.mem_range, List.mem_range, Equiv.swap_apply_def]
  split_ifs <;> omega

theorem liveIds_swapHeap_perm (hi : i < s.heapSize.toNat) (hj : j < s.heapSize.toNat) :
    (liveIds (s.swapHeap i j)).Perm (liveIds s) := by
  have hswap : (s.swapHeap i j).heapAt = s.heapAt ∘ Equiv.swap j i := by
    funext k
    simp only [State.heapAt_swapHeap, Function.comp_apply, Equiv.swap_apply_def, apply_ite s.heapAt]
  rw [liveIds, hswap, ← List.map_map]
  exact (map_swap_range_perm hi hj).map s.heapAt

end

end Sys2Proof.Proofs
end

section
namespace Sys2Proof.Proofs

open Sys2Proof.Machine Sys2Proof.Safety

/-! ### Sifting up (R145) -/

section

variable {s : State} {i : Nat}

/-- One turn of the loop of `PQ.SIFTUP`. -/
theorem siftUp_succ (hids : idsInArena s) (hi : i < s.heapSize.toNat) (hpos : 0 < i) (fuel : Nat) :
    siftUp (fuel + 1) i s =
      if entryRank s i < entryRank s ((i - 1) / 2) then siftUp fuel ((i - 1) / 2) (s.swapHeap i ((i - 1) / 2))
      else .ok s := by
  simp only [siftUp, hpos.ne', if_false, bind, Except.bind,
    pqLess_eq_decide (hids i hi) (hids ((i - 1) / 2) (by omega)), decide_eq_true_eq, entryRank]
  rfl

/-- An entry whose parent is not above it in key is in order. -/
theorem heapOrdered_of_orderedButUp (h : orderedButUp s i)
    (hle : 0 < i → entryRank s ((i - 1) / 2) ≤ entryRank s i) : heapOrdered s := by
  rw [heapOrdered_iff]
  intro j hj hpos
  rcases eq_or_ne j i with rfl | hji
  · exact hle hpos
  · exact (orderedButUp_iff.1 h).1 j hj hpos hji

/-- Swapping an entry with a parent above it in key moves the one possible fault to the parent's place. -/
theorem orderedButUp_swapHeap (h : orderedButUp s i) (hi : i < s.heapSize.toNat) (hpos : 0 < i)
    (hlt : entryRank s i < entryRank s ((i - 1) / 2)) :
    orderedButUp (s.swapHeap i ((i - 1) / 2)) ((i - 1) / 2) := by
  obtain ⟨hord, hskip⟩ := orderedButUp_iff.1 h
  generalize hp : (i - 1) / 2 = p at *
  rw [orderedButUp_iff]
  constructor
  · intro j hj hj0 hjp
    rcases eq_or_ne j i with rfl | hji
    · rw [hp, entryRank_swapHeap_left, entryRank_swapHeap_right]
      exact hlt.le
    · rw [entryRank_swapHeap_of_ne hji hjp]
      rcases eq_or_ne ((j - 1) / 2) i with hpar | hpar
      · rw [hpar, entryRank_swapHeap_left]
        exact hskip j hj hj0 hpar hpos
      · have hle := hord j hj hj0 hji
        rcases eq_or_ne ((j - 1) / 2) p with hpar' | hpar'
        · rw [hpar', entryRank_swapHeap_right]
          exact hlt.le.trans (hpar' ▸ hle)
        · rwa [entryRank_swapHeap_of_ne hpar hpar']
  · intro j hj hj0 hpar hp0
    have hgrand : entryRank s ((p - 1) / 2) ≤ entryRank s p := hord p (by omega) hp0 (by omega)
    rw [entryRank_swapHeap_of_ne (by omega) (by omega)]
    rcases eq_or_ne j i with rfl | hji
    · rwa [entryRank_swapHeap_left]
    · rw [entryRank_swapHeap_of_ne hji (by omega)]
      exact hgrand.trans (hpar ▸ hord j hj hj0 hji)

/-- `PQ.SIFTUP`'s loop from a live index, by induction on its fuel. -/
theorem siftUp_spec {fuel : Nat} (hids : idsInArena s) (hi : i < s.heapSize.toNat) (hfuel : i ≤ fuel) :
    ∃ t, siftUp fuel i s = .ok t ∧ (liveIds t).Perm (liveIds s) ∧
      (∀ k, s.heapSize.toNat ≤ k → t.heapAt k = s.heapAt k) ∧ (orderedButUp s i → heapOrdered t) := by
  induction fuel generalizing i s with
  | zero => exact ⟨s, rfl, .refl _, fun _ _ => rfl, fun h => heapOrdered_of_orderedButUp h (by omega)⟩
  | succ n ih =>
    rcases Nat.eq_zero_or_pos i with rfl | hpos
    · exact ⟨s, by simp [siftUp], .refl _, fun _ _ => rfl, fun h => heapOrdered_of_orderedButUp h (by omega)⟩
    · have hp : (i - 1) / 2 < s.heapSize.toNat := by omega
      rw [siftUp_succ hids hi hpos]
      split
      · next hlt =>
        obtain ⟨t, hrun, hperm, habove, hord⟩ := ih (idsInArena_swapHeap hids hi hp) hp (by omega)
        exact ⟨t, hrun, hperm.trans (liveIds_swapHeap_perm hi hp),
          fun k hk => (habove k hk).trans (heapAt_swapHeap_of_size_le hi hp hk),
          fun h => hord (orderedButUp_swapHeap h hi hpos hlt)⟩
      · next hle =>
        exact ⟨s, rfl, .refl _, fun _ _ => rfl, fun h => heapOrdered_of_orderedButUp h fun _ => not_lt.1 hle⟩

theorem pqSiftup_spec (hids : idsInArena s) (hi : i < s.heapSize.toNat) :
    ∃ t, pqSiftup i s = .ok t ∧ (liveIds t).Perm (liveIds s) ∧
      (∀ k, s.heapSize.toNat ≤ k → t.heapAt k = s.heapAt k) ∧ (orderedButUp s i → heapOrdered t) := by
  rw [pqSiftup, if_neg (Nat.not_le.2 hi)]
  exact siftUp_spec hids hi le_rfl

end

theorem exec_pqSiftup (i : BitVec 8) (s : State) : exec (.pqSiftup i) s = finish (pqSiftup i.toNat s) := rfl

/-- Settles O17: `pqSiftup_spec`, and `pqSiftup_ok` for what is not written. -/
theorem pqSiftupResult : Obligations.PqSiftupResult := by
  intro s i hi hids
  obtain ⟨t, hrun, hperm, -, hord⟩ := pqSiftup_spec hids hi
  exact ⟨t, by rw [exec_pqSiftup, hrun, finish_ok], hperm, (pqSiftup_ok hrun).2, hord⟩

end Sys2Proof.Proofs
end

section
namespace Sys2Proof.Proofs

open Sys2Proof.Machine Sys2Proof.Safety

/-! ### `PQ.INSERT` (R143) -/

/-- The queue with an id put behind its last entry. -/
def appendId (s : State) (n : NodeId) : State :=
  { s.setHeap s.heapSize.toNat n with heapSize := BitVec.ofNat 9 (s.heapSize.toNat + 1) }

section

variable {s : State} {n : NodeId}

theorem pqInsert_eq (hsize : s.heapSize.toNat < 256) (hn : n.toNat < 511) :
    pqInsert n s = pqSiftup s.heapSize.toNat (appendId s n) := by
  rw [pqInsert, if_neg (Nat.not_le.2 (show s.heapSize.toNat < Config.heapCap from hsize)), nodeIndex_eq hn]
  rfl

theorem toNat_heapSize_appendId (hsize : s.heapSize.toNat < 256) :
    (appendId s n).heapSize.toNat = s.heapSize.toNat + 1 := by
  simp only [appendId, BitVec.toNat_ofNat]
  omega

theorem heapAt_appendId (s : State) (n : NodeId) (k : Nat) :
    (appendId s n).heapAt k = if k = s.heapSize.toNat then n else s.heapAt k :=
  State.heapAt_setHeap ..

theorem entryRank_appendId {k : Nat} (hk : k ≠ s.heapSize.toNat) : entryRank (appendId s n) k = entryRank s k := by
  rw [entryRank, heapAt_appendId, if_neg hk]
  rfl

theorem liveIds_appendId_perm (hsize : s.heapSize.toNat < 256) : (liveIds (appendId s n)).Perm (n :: liveIds s) := by
  have hold : (List.range s.heapSize.toNat).map (appendId s n).heapAt = liveIds s :=
    List.map_congr_left fun k hk => by rw [heapAt_appendId, if_neg (List.mem_range.1 hk).ne]
  rw [liveIds, toNat_heapSize_appendId hsize, List.range_succ, List.map_append, hold, List.map_singleton,
    heapAt_appendId, if_pos rfl]
  exact List.perm_append_singleton n _

theorem idsInArena_appendId (hsize : s.heapSize.toNat < 256) (hn : n.toNat < 511) (hids : idsInArena s) :
    idsInArena (appendId s n) := by
  intro k hk
  rw [toNat_heapSize_appendId hsize] at hk
  rw [heapAt_appendId]
  split
  · exact hn
  · exact hids k (by omega)

/-- The new last entry has no children, so the order can only fail against its parent. -/
theorem orderedButUp_appendId (hsize : s.heapSize.toNat < 256) (h : heapOrdered s) :
    orderedButUp (appendId s n) s.heapSize.toNat := by
  rw [orderedButUp_iff, toNat_heapSize_appendId hsize]
  constructor
  · intro j hj hpos hne
    rw [entryRank_appendId hne, entryRank_appendId (by omega)]
    exact heapOrdered_iff.1 h j (by omega) hpos
  · intro j hj hpos hparent
    omega

theorem pqInsert_spec (hsize : s.heapSize.toNat < 256) (hn : n.toNat < 511) (hids : idsInArena s) :
    ∃ t, pqInsert n s = .ok t ∧ (liveIds t).Perm (n :: liveIds s) ∧
      (∀ k, s.heapSize.toNat < k → t.heapAt k = s.heapAt k) ∧ (heapOrdered s → heapOrdered t) := by
  have hsize' := toNat_heapSize_appendId (n := n) hsize
  obtain ⟨t, hrun, hperm, habove, hord⟩ :=
    pqSiftup_spec (idsInArena_appendId hsize hn hids) (i := s.heapSize.toNat) (by omega)
  refine ⟨t, by rw [pqInsert_eq hsize hn, hrun], hperm.trans (liveIds_appendId_perm hsize), fun k hk => ?_,
    fun h => hord (orderedButUp_appendId hsize h)⟩
  rw [habove k (by omega), heapAt_appendId, if_neg hk.ne']

end

theorem exec_pqInsert (n : NodeId) (s : State) : exec (.pqInsert n) s = finish (pqInsert n s) := rfl

/-- Settles O15: `pqInsert_spec`, and `pqInsert_ok` for the size and what is not written. -/
theorem pqInsertResult : Obligations.PqInsertResult := by
  intro s n hsize hn hids hordered
  obtain ⟨t, hrun, hperm, habove, hord⟩ := pqInsert_spec hsize hn hids
  obtain ⟨-, -, hsize', hframe⟩ := pqInsert_ok hrun
  exact ⟨t, by rw [exec_pqInsert, hrun, finish_ok], hord hordered, hsize', hperm, habove, hframe⟩

end Sys2Proof.Proofs
end

section
namespace Sys2Proof.Proofs

open Sys2Proof.Machine Sys2Proof.Safety

/-! ### What sifting down reads (R146)

The loop reads `HEAP` with `heapEntry`, whose value above index 255 is a free one (log 10). -/

/-- Every id that the loop can read below `HEAP_SIZE` is a node of the arena. -/
def EntriesInArena (s : State) : Prop := ∀ k, k < s.heapSize.toNat → (s.heapEntry k).toNat < 511

/-- Every entry of `HEAP`, live or not, holds a node of the arena. -/
def ArrayInArena (s : State) : Prop := ∀ k, k < 256 → (s.heapAt k).toNat < 511

/-- The rank of the id that is read at index `k`. -/
def readRank (s : State) (k : Nat) : Nat := keyRank s (s.heapEntry k)

/-- `m` or its rival `c`, as `lesserChild` answers. -/
def lesserOf (s : State) (c m : Nat) : Nat := if c < s.heapSize.toNat ∧ readRank s c < readRank s m then c else m

/-- The place with the least key among `i` and its two children. -/
def siftTarget (s : State) (i : Nat) : Nat := lesserOf s (2 * i + 2) (lesserOf s (2 * i + 1) i)

section

variable {s : State} {i c m : Nat}

theorem entriesInArena_of_idsInArena (hsize : s.heapSize.toNat ≤ 256) (h : idsInArena s) : EntriesInArena s := by
  intro k hk
  rw [s.heapEntry_eq (by omega)]
  exact h k hk

theorem ArrayInArena.entriesInArena (h : ArrayInArena s) : EntriesInArena s := by
  intro k _
  rcases Nat.lt_or_ge k 256 with hk | hk
  · rw [s.heapEntry_eq hk]
    exact h k hk
  · exact s.heapEntry_lt hk

theorem ArrayInArena.setHeap (h : ArrayInArena s) {a : NodeId} (ha : a.toNat < 511) : ArrayInArena (s.setHeap i a) := by
  intro k hk
  rw [State.heapAt_setHeap]
  split
  · exact ha
  · exact h k hk

theorem ArrayInArena.swapHeap (h : ArrayInArena s) (hi : i < 256) (hm : m < 256) : ArrayInArena (s.swapHeap i m) :=
  (h.setHeap (h m hm)).setHeap (h i hi)

theorem readRank_eq {k : Nat} (hk : k < 256) : readRank s k = entryRank s k := by
  rw [readRank, s.heapEntry_eq hk, entryRank]

theorem lesserChild_eq (h : EntriesInArena s) (hm : m < s.heapSize.toNat) (c : Nat) :
    lesserChild s c m = .ok (lesserOf s c m) := by
  rw [lesserChild, lesserOf]
  split
  · next hc =>
    rw [pqLess_eq_decide (h c hc) (h m hm)]
    simp [bind, Except.bind, hc, readRank]
  · next hc => rw [if_neg fun hlt => hc hlt.1]

theorem lesserOf_lt_heapSize (hm : m < s.heapSize.toNat) : lesserOf s c m < s.heapSize.toNat := by
  rw [lesserOf]
  split
  · next h => exact h.1
  · exact hm

theorem lesserOf_eq_or (s : State) (c m : Nat) : lesserOf s c m = c ∨ lesserOf s c m = m := ite_eq_or_eq ..

theorem readRank_lesserOf_le (s : State) (c m : Nat) : readRank s (lesserOf s c m) ≤ readRank s m := by
  rw [lesserOf]
  split
  · next h => exact h.2.le
  · exact le_rfl

theorem readRank_lesserOf_le_rival (hc : c < s.heapSize.toNat) : readRank s (lesserOf s c m) ≤ readRank s c := by
  rw [lesserOf]
  split
  · exact le_rfl
  · next h => exact not_lt.1 fun hlt => h ⟨hc, hlt⟩

theorem siftTarget_lt_heapSize (hi : i < s.heapSize.toNat) : siftTarget s i < s.heapSize.toNat :=
  lesserOf_lt_heapSize (lesserOf_lt_heapSize hi)

theorem siftTarget_eq_or (s : State) (i : Nat) :
    siftTarget s i = i ∨ siftTarget s i = 2 * i + 1 ∨ siftTarget s i = 2 * i + 2 := by
  rcases lesserOf_eq_or s (2 * i + 2) (lesserOf s (2 * i + 1) i) with h | h
  · exact .inr (.inr h)
  · rcases lesserOf_eq_or s (2 * i + 1) i with h' | h'
    · exact .inr (.inl (h.trans h'))
    · exact .inl (h.trans h')

theorem readRank_siftTarget_le (s : State) (i : Nat) : readRank s (siftTarget s i) ≤ readRank s i :=
  (readRank_lesserOf_le ..).trans (readRank_lesserOf_le ..)

theorem readRank_siftTarget_le_child {j : Nat} (hj : j < s.heapSize.toNat) (hpos : 0 < j) (hpar : (j - 1) / 2 = i) :
    readRank s (siftTarget s i) ≤ readRank s j := by
  obtain rfl | rfl : j = 2 * i + 1 ∨ j = 2 * i + 2 := by omega
  · exact (readRank_lesserOf_le ..).trans (readRank_lesserOf_le_rival hj)
  · exact readRank_lesserOf_le_rival hj

/-- One turn of the loop of `PQ.SIFTDOWN`. -/
theorem siftDown_succ (h : EntriesInArena s) (hi : i < s.heapSize.toNat) (fuel : Nat) :
    siftDown (fuel + 1) i s =
      if siftTarget s i = i then .ok s
      else if siftTarget s i < 256 then siftDown fuel (siftTarget s i) (s.swapHeap i (siftTarget s i))
      else .ok (s.setHeap i (s.heapEntry (siftTarget s i))) := by
  rw [siftDown, lesserChild_eq h hi]
  simp only [bind, Except.bind]
  rw [lesserChild_eq h (lesserOf_lt_heapSize hi)]
  rfl

/-! ### Sifting down restores the order -/

/-- An entry whose children are not below it in key is in order. -/
theorem heapOrdered_of_orderedButDown (h : orderedButDown s i)
    (hle : ∀ j, j < s.heapSize.toNat → 0 < j → (j - 1) / 2 = i → entryRank s i ≤ entryRank s j) : heapOrdered s := by
  rw [heapOrdered_iff]
  intro j hj hpos
  rcases eq_or_ne ((j - 1) / 2) i with hpar | hpar
  · exact hpar ▸ hle j hj hpos hpar
  · exact (orderedButDown_iff.1 h).1 j hj hpos hpar

/-- Swapping an entry with its least child moves the one possible fault to the child's place. -/
theorem orderedButDown_swapHeap (h : orderedButDown s i) (hm : m < s.heapSize.toNat) (hm0 : 0 < m)
    (hpar : (m - 1) / 2 = i) (hle : entryRank s m ≤ entryRank s i)
    (hleast : ∀ j, j < s.heapSize.toNat → 0 < j → (j - 1) / 2 = i → entryRank s m ≤ entryRank s j) :
    orderedButDown (s.swapHeap i m) m := by
  obtain ⟨hord, hskip⟩ := orderedButDown_iff.1 h
  rw [orderedButDown_iff]
  constructor
  · intro j hj hj0 hjm
    rcases eq_or_ne ((j - 1) / 2) i with hji | hji
    · rw [hji, entryRank_swapHeap_left]
      rcases eq_or_ne j m with rfl | hne
      · rwa [entryRank_swapHeap_right]
      · rw [entryRank_swapHeap_of_ne (by omega) hne]
        exact hleast j hj hj0 hji
    · have hordj := hord j hj hj0 hji
      rw [entryRank_swapHeap_of_ne hji hjm]
      rcases eq_or_ne j i with rfl | hne
      · rw [entryRank_swapHeap_left]
        exact hskip m hm hm0 hpar hj0
      · rwa [entryRank_swapHeap_of_ne hne fun hjm' => hji (hjm' ▸ hpar)]
  · intro j hj hj0 hjm _
    rw [hpar, entryRank_swapHeap_left, entryRank_swapHeap_of_ne (by omega) (by omega)]
    exact hjm ▸ hord j hj hj0 (by omega)

/-- `PQ.SIFTDOWN`'s loop from a live index, by induction on its fuel. -/
theorem siftDown_spec {fuel : Nat} (hsize : s.heapSize.toNat ≤ 256) (hids : idsInArena s) (hi : i < s.heapSize.toNat)
    (hfuel : s.heapSize.toNat - i ≤ fuel) :
    ∃ t, siftDown fuel i s = .ok t ∧ (liveIds t).Perm (liveIds s) ∧ (orderedButDown s i → heapOrdered t) := by
  induction fuel generalizing i s with
  | zero => omega
  | succ n ih =>
    have hm := siftTarget_lt_heapSize hi
    have hle := readRank_siftTarget_le s i
    have hleast : ∀ j, j < s.heapSize.toNat → 0 < j → (j - 1) / 2 = i →
        entryRank s (siftTarget s i) ≤ entryRank s j := by
      intro j hj hpos hpar
      have hchild := readRank_siftTarget_le_child hj hpos hpar
      rwa [readRank_eq (by omega), readRank_eq (by omega)] at hchild
    have hfamily := siftTarget_eq_or s i
    rw [readRank_eq (by omega), readRank_eq (by omega)] at hle
    rw [siftDown_succ (entriesInArena_of_idsInArena hsize hids) hi]
    generalize siftTarget s i = m at *
    split
    · next hmi =>
      subst hmi
      exact ⟨s, rfl, .refl _, fun h => heapOrdered_of_orderedButDown h hleast⟩
    · rw [if_pos (by omega)]
      obtain ⟨t, hrun, hperm, hord⟩ :=
        ih (s := s.swapHeap i m) (i := m) hsize (idsInArena_swapHeap hids hi hm) hm (by simp; omega)
      exact ⟨t, hrun, hperm.trans (liveIds_swapHeap_perm hi hm),
        fun h => hord (orderedButDown_swapHeap h hm (by omega) (by omega) hle hleast)⟩

theorem pqSiftdown_spec (hsize : s.heapSize.toNat ≤ 256) (hids : idsInArena s) (hi : i < s.heapSize.toNat) :
    ∃ t, pqSiftdown i s = .ok t ∧ (liveIds t).Perm (liveIds s) ∧ (orderedButDown s i → heapOrdered t) := by
  obtain ⟨t, hrun, hperm, hord⟩ := siftDown_spec hsize hids hi le_rfl
  refine ⟨t, ?_, hperm, hord⟩
  rw [pqSiftdown, if_neg (Nat.not_le.2 hi), hrun]
  exact congrArg Except.ok (countEntry_eq (by omega) t)

/-! ### Sifting down with a `HEAP_SIZE` that may be above 256 (log 10) -/

theorem siftDown_keepsArray {fuel : Nat} (h : ArrayInArena s) (hi : i < 256) (hlive : i < s.heapSize.toNat) :
    ∃ t, siftDown fuel i s = .ok t ∧ ArrayInArena t := by
  induction fuel generalizing i s with
  | zero => exact ⟨s, rfl, h⟩
  | succ n ih =>
    have hm := siftTarget_lt_heapSize hlive
    rw [siftDown_succ h.entriesInArena hlive]
    generalize siftTarget s i = m at *
    split
    · exact ⟨s, rfl, h⟩
    · split
      · next hm' => exact ih (h.swapHeap hi hm') hm' hm
      · exact ⟨_, rfl, h.setHeap (h.entriesInArena m hm)⟩

theorem arrayInArena_countEntry (h : ArrayInArena s) (k : Nat) : ArrayInArena (countEntry k s) := by
  rw [countEntry_frame]
  exact h

theorem pqSiftdown_keepsArray (h : ArrayInArena s) (hi : i < 256) (hlive : i < s.heapSize.toNat) :
    ∃ t, pqSiftdown i s = .ok t ∧ ArrayInArena t := by
  obtain ⟨t, hrun, ht⟩ := siftDown_keepsArray (fuel := s.heapSize.toNat - i) h hi hlive
  refine ⟨countEntry (s.heapSize.toNat - 1) t, ?_, arrayInArena_countEntry ht _⟩
  rw [pqSiftdown, if_neg (Nat.not_le.2 hlive), hrun]
  rfl

end

theorem exec_pqSiftdown (i : BitVec 8) (s : State) : exec (.pqSiftdown i) s = finish (pqSiftdown i.toNat s) := rfl

/-- Settles O18: `pqSiftdown_spec` up to a `HEAP_SIZE` of 256 and `pqSiftdown_keepsArray` above it, and `pqSiftdown_ok`
for what is not written. -/
theorem pqSiftdownResult : Obligations.PqSiftdownResult := by
  constructor
  · intro s i hi hsize hids
    obtain ⟨t, hrun, hperm, hord⟩ := pqSiftdown_spec hsize hids hi
    obtain ⟨-, hfree, hframe⟩ := pqSiftdown_ok hrun
    rw [hfree hsize] at hframe
    exact ⟨t, by rw [exec_pqSiftdown, hrun, finish_ok], hperm, hframe, hord⟩
  · intro s i hsize harray
    obtain ⟨t, hrun, ht⟩ := pqSiftdown_keepsArray harray i.isLt (hlive := by have := i.isLt; omega)
    exact ⟨t, by rw [exec_pqSiftdown, hrun, finish_ok], ht, (pqSiftdown_ok hrun).2.2⟩

end Sys2Proof.Proofs
end

section
namespace Sys2Proof.Proofs

open Sys2Proof.Machine Sys2Proof.Safety

/-! ### `PQ.EXTRACT` (R144) -/

/-- The queue with its last id in place of its first. -/
def lastToRoot (s : State) : State :=
  { s.setHeap 0 (s.heapEntry (s.heapSize.toNat - 1)) with heapSize := BitVec.ofNat 9 (s.heapSize.toNat - 1) }

section

variable {s : State}

theorem pqExtract_eq_of_one (h : s.heapSize.toNat = 1) :
    pqExtract s = .ok (s.heapAt 0, { s with heapSize := 0#9 }) := by
  simp [pqExtract, h]

theorem pqExtract_eq (h : 2 ≤ s.heapSize.toNat) :
    pqExtract s = (do
      let u ← pqSiftdown 0 (lastToRoot s)
      .ok (s.heapAt 0, countEntry (s.heapSize.toNat - 1) u)) := by
  rw [pqExtract, if_neg (by omega)]
  exact if_neg (by omega)

theorem toNat_heapSize_lastToRoot (s : State) : (lastToRoot s).heapSize.toNat = s.heapSize.toNat - 1 := by
  simp only [lastToRoot, BitVec.toNat_ofNat]
  omega

theorem heapAt_lastToRoot (s : State) (k : Nat) :
    (lastToRoot s).heapAt k = if k = 0 then s.heapEntry (s.heapSize.toNat - 1) else s.heapAt k :=
  State.heapAt_setHeap ..

theorem entryRank_lastToRoot {k : Nat} (hk : k ≠ 0) : entryRank (lastToRoot s) k = entryRank s k := by
  rw [entryRank, heapAt_lastToRoot, if_neg hk]
  rfl

theorem idsInArena_lastToRoot (hpos : 1 ≤ s.heapSize.toNat) (hsize : s.heapSize.toNat ≤ 256) (hids : idsInArena s) :
    idsInArena (lastToRoot s) := by
  intro k hk
  rw [toNat_heapSize_lastToRoot] at hk
  rw [heapAt_lastToRoot]
  split
  · exact entriesInArena_of_idsInArena hsize hids _ (by omega)
  · exact hids k (by omega)

/-- The ids behind the first keep their places, but for the last one. -/
theorem liveIds_perm_lastToRoot (hpos : 2 ≤ s.heapSize.toNat) (hsize : s.heapSize.toNat ≤ 256) :
    (liveIds s).Perm (s.heapAt 0 :: liveIds (lastToRoot s)) := by
  obtain ⟨n, hn⟩ : ∃ n, s.heapSize.toNat = n + 2 := ⟨_, (Nat.sub_add_cancel hpos).symm⟩
  have hlast : (lastToRoot s).heapAt 0 = s.heapAt (n + 1) := by
    rw [heapAt_lastToRoot, if_pos rfl, hn, s.heapEntry_eq (by omega)]
    rfl
  have hmid : (lastToRoot s).heapAt ∘ Nat.succ = s.heapAt ∘ Nat.succ := by
    funext k
    rw [Function.comp_apply, heapAt_lastToRoot, if_neg k.succ_ne_zero, Function.comp_apply]
  have hs : liveIds s = s.heapAt 0 :: ((List.range n).map (s.heapAt ∘ Nat.succ) ++ [s.heapAt (n + 1)]) := by
    rw [liveIds, hn, List.range_succ_eq_map, List.map_cons, List.map_map, List.range_succ, List.map_append]
    rfl
  have ht : liveIds (lastToRoot s) = s.heapAt (n + 1) :: (List.range n).map (s.heapAt ∘ Nat.succ) := by
    rw [liveIds, toNat_heapSize_lastToRoot, hn, Nat.add_sub_cancel (m := 1), List.range_succ_eq_map, List.map_cons,
      List.map_map, hlast, hmid]
  rw [hs, ht]
  exact (List.perm_append_singleton _ _).cons _

/-- The new root has no parent, so the order can only fail against its children. -/
theorem orderedButDown_lastToRoot (h : heapOrdered s) : orderedButDown (lastToRoot s) 0 := by
  rw [orderedButDown_iff, toNat_heapSize_lastToRoot]
  constructor
  · intro j hj hpos hpar
    rw [entryRank_lastToRoot hpar, entryRank_lastToRoot hpos.ne']
    exact heapOrdered_iff.1 h j (by omega) hpos
  · intro j _ _ _ hlt
    exact absurd hlt (lt_irrefl 0)

theorem pqExtract_spec (hpos : 1 ≤ s.heapSize.toNat) (hsize : s.heapSize.toNat ≤ 256) (hids : idsInArena s) :
    ∃ t, pqExtract s = .ok (s.heapAt 0, t) ∧ (liveIds s).Perm (s.heapAt 0 :: liveIds t) ∧
      (heapOrdered s → heapOrdered t) := by
  rcases hpos.eq_or_lt' with hone | htwo
  · refine ⟨_, pqExtract_eq_of_one hone, ?_, fun _ => heapOrdered_iff.2 fun j hj => absurd hj j.not_lt_zero⟩
    rw [liveIds, hone]
    rfl
  · obtain ⟨t, hrun, hperm, hord⟩ := pqSiftdown_spec (i := 0) (by rw [toNat_heapSize_lastToRoot]; omega)
      (idsInArena_lastToRoot hpos hsize hids) (by rw [toNat_heapSize_lastToRoot]; omega)
    refine ⟨t, ?_, (liveIds_perm_lastToRoot htwo hsize).trans (hperm.symm.cons _),
      fun h => hord (orderedButDown_lastToRoot h)⟩
    rw [pqExtract_eq htwo, hrun]
    exact congrArg (fun u => Except.ok (s.heapAt 0, u)) (countEntry_eq (by omega) t)

theorem pqExtract_keepsArray (hsize : 2 ≤ s.heapSize.toNat) (h : ArrayInArena s) :
    ∃ t, pqExtract s = .ok (s.heapAt 0, t) ∧ ArrayInArena t := by
  have hroot : ArrayInArena (lastToRoot s) := h.setHeap (h.entriesInArena _ (by omega))
  obtain ⟨t, hrun, ht⟩ := pqSiftdown_keepsArray hroot (i := 0) (by omega) (by rw [toNat_heapSize_lastToRoot]; omega)
  refine ⟨countEntry (s.heapSize.toNat - 1) t, ?_, arrayInArena_countEntry ht _⟩
  rw [pqExtract_eq hsize, hrun]
  rfl

end

theorem exec_pqExtract (s : State) : exec .pqExtract s = finishWith UopResult.node (pqExtract s) := rfl

/-- Settles O16: `pqExtract_spec` up to a `HEAP_SIZE` of 256 and `pqExtract_keepsArray` above it, `entryRank_zero_le`
for the least key, and `pqExtract_ok` for the size and what is not written. -/
theorem pqExtractResult : Obligations.PqExtractResult := by
  constructor
  · intro s hpos hsize hids hordered
    obtain ⟨t, hrun, hperm, hord⟩ := pqExtract_spec hpos hsize hids
    obtain ⟨-, hfree, -, hsize', hframe⟩ := pqExtract_ok hrun
    rw [hfree hsize] at hframe
    refine ⟨{ t with result := .node (s.heapAt 0) }, by rw [exec_pqExtract, hrun, finishWith_ok], rfl, hord hordered,
      hsize', hperm, fun x hx => ?_, by rw [hframe]⟩
    obtain ⟨k, hk, rfl⟩ := mem_liveIds.1 hx
    exact keyBefore_eq_false_iff.2 (entryRank_zero_le hordered hk)
  · intro s hsize harray
    obtain ⟨t, hrun, ht⟩ := pqExtract_keepsArray (by omega) harray
    obtain ⟨-, -, -, hsize', hframe⟩ := pqExtract_ok hrun
    exact ⟨{ t with result := .node (s.heapAt 0) }, by rw [exec_pqExtract, hrun, finishWith_ok], rfl, hsize', ht,
      by rw [hframe]⟩

end Sys2Proof.Proofs
end

section
/-! Proofs of the tree builder family: the leaves, one merge, and the build. -/

namespace Sys2Proof.Proofs

open Sys2Proof.Machine Sys2Proof.Safety

/-! ### What the queue's order and its ids depend on -/

section

variable {s t : State}

theorem length_liveIds (s : State) : (liveIds s).length = s.heapSize.toNat := by simp [liveIds]

theorem heapAt_mem_liveIds {k : Nat} (hk : k < s.heapSize.toNat) : s.heapAt k ∈ liveIds s :=
  mem_liveIds.2 ⟨k, hk, rfl⟩

theorem idsInArena_iff : idsInArena s ↔ ∀ x ∈ liveIds s, x.toNat < 511 := by simp [idsInArena, liveIds]

/-- In an ordered heap no id in the queue has a lesser key than `HEAP[0]` (R141). -/
theorem keyBefore_heapAt_zero (h : heapOrdered s) {x : NodeId} (hx : x ∈ liveIds s) :
    keyBefore s x (s.heapAt 0) = false := by
  obtain ⟨k, hk, rfl⟩ := mem_liveIds.1 hx
  exact keyBefore_eq_false_iff.2 (entryRank_zero_le h hk)

/-- The order reads the queue and the frequencies of the ids in it, and nothing else. -/
theorem heapOrdered_of_same_keys (hsize : t.heapSize = s.heapSize) (hheap : t.heapAt = s.heapAt)
    (hfreq : ∀ x ∈ liveIds s, t.nodeFreqAt x.toNat = s.nodeFreqAt x.toNat) (h : heapOrdered s) : heapOrdered t := by
  have hrank {k : Nat} (hk : k < s.heapSize.toNat) : entryRank t k = entryRank s k := by
    simp only [entryRank, keyRank, hheap, hfreq _ (heapAt_mem_liveIds hk)]
  rw [heapOrdered_iff] at h ⊢
  intro j hj hpos
  rw [hsize] at hj
  rw [hrank hj, hrank (by omega)]
  exact h j hj hpos

theorem nodeAt_of_pqInsert {n : NodeId} (h : pqInsert n s = .ok t) : t.nodeAt = s.nodeAt := by
  obtain ⟨-, -, -, hframe⟩ := pqInsert_ok h
  rw [hframe]
  rfl

end

end Sys2Proof.Proofs
end

section
namespace Sys2Proof.Proofs

open Sys2Proof.Machine Sys2Proof.Safety

/-! ### `TB.LEAVES` (R155) -/

/-- The present symbols below `n` as node ids, ascending. -/
def presentBelow (s : State) (n : Nat) : List NodeId :=
  ((List.range n).filter fun k => decide (s.freqAt k ≠ 0#32)).map (BitVec.ofNat 9)

theorem presentIds_eq (s : State) : presentIds s = presentBelow s 256 := rfl

theorem presentBelow_succ (s : State) (n : Nat) :
    presentBelow s (n + 1) = presentBelow s n ++ if s.freqAt n = 0#32 then [] else [BitVec.ofNat 9 n] := by
  rw [presentBelow, List.range_succ, List.filter_append, List.map_append, presentBelow]
  split <;> simp [*]

theorem length_presentBelow_le (s : State) (n : Nat) : (presentBelow s n).length ≤ n := by
  rw [presentBelow, List.length_map]
  exact (List.length_filter_le ..).trans_eq List.length_range

theorem toNat_lt_of_mem_presentBelow {s : State} {n : Nat} {x : NodeId} (hn : n ≤ 256) (hx : x ∈ presentBelow s n) :
    x.toNat < n := by
  obtain ⟨k, hk, rfl⟩ := List.mem_map.1 hx
  have := List.mem_range.1 (List.mem_filter.1 hk).1
  rw [BitVec.toNat_ofNat]
  omega

/-- From `s`, whose queue is empty, to `t` the present symbols below `n` have got their leaves and entered the queue;
nothing else changes. -/
structure LeavesMade (s : State) (n : Nat) (t : State) : Prop where
  live : (liveIds t).Perm (presentBelow s n)
  ordered : heapOrdered t
  nodeFreqAt : ∀ k, t.nodeFreqAt k = if k < n ∧ s.freqAt k ≠ 0#32 then s.freqAt k else s.nodeFreqAt k
  frame : t = { s with nodeFreq := t.nodeFreq, heap := t.heap, heapSize := t.heapSize }

section

variable {s t : State} {n : Nat}

theorem LeavesMade.zero (h : s.heapSize = 0#9) : LeavesMade s 0 s where
  live := by simp [liveIds, presentBelow, h]
  ordered := heapOrdered_iff.2 fun j hj => by simp [h] at hj
  nodeFreqAt k := by simp
  frame := rfl

theorem LeavesMade.freqAt (h : LeavesMade s n t) (k : Nat) : t.freqAt k = s.freqAt k := by
  rw [h.frame]
  rfl

theorem LeavesMade.toNat_lt (h : LeavesMade s n t) (hn : n ≤ 256) {x : NodeId} (hx : x ∈ liveIds t) : x.toNat < n :=
  toNat_lt_of_mem_presentBelow hn (h.live.mem_iff.1 hx)

theorem LeavesMade.heapSize_le (h : LeavesMade s n t) : t.heapSize.toNat ≤ n := by
  rw [← length_liveIds, h.live.length_eq]
  exact length_presentBelow_le s n

/-- A symbol that is not present gets no leaf. -/
theorem LeavesMade.skip (h : LeavesMade s n t) (habsent : s.freqAt n = 0#32) : LeavesMade s (n + 1) t where
  live := by simpa [presentBelow_succ, habsent] using h.live
  ordered := h.ordered
  nodeFreqAt k := by
    rw [h.nodeFreqAt k]
    rcases eq_or_ne k n with rfl | hk
    · simp [habsent]
    · simp only [show k < n + 1 ↔ k < n by omega]
  frame := h.frame

/-- The leaf of a present symbol is not in the queue when its frequency is written, so the order stands. -/
theorem LeavesMade.insert (h : LeavesMade s n t) (hn : n < 256) (hpresent : s.freqAt n ≠ 0#32) :
    ∃ u, makeLeaf t n = .ok u ∧ LeavesMade s (n + 1) u := by
  have hid : (BitVec.ofNat 9 n).toNat = n := by rw [BitVec.toNat_ofNat]; omega
  have hroom : t.heapSize.toNat < 256 := h.heapSize_le.trans_lt hn
  have hids : idsInArena t := idsInArena_iff.2 fun x hx => by have := h.toNat_lt hn.le hx; omega
  obtain ⟨u, hrun, hperm, -, hord⟩ :=
    pqInsert_spec (s := t.setNodeFreq n (s.freqAt n)) (n := BitVec.ofNat 9 n) hroom (by omega) hids
  have hleaf : makeLeaf t n = .ok u := by rw [makeLeaf, h.freqAt, if_neg hpresent, hrun]
  refine ⟨u, hleaf, ?live, ?ordered, ?nodeFreqAt, ?frame⟩
  case live =>
    rw [presentBelow_succ, if_neg hpresent]
    exact hperm.trans ((h.live.cons _).trans (List.perm_append_singleton _ _).symm)
  case ordered =>
    refine hord (heapOrdered_of_same_keys (s := t) rfl rfl (fun x hx => ?_) h.ordered)
    rw [State.nodeFreqAt_setNodeFreq, if_neg (h.toNat_lt hn.le hx).ne]
  case nodeFreqAt =>
    intro k
    have hread : u.nodeFreqAt k = _ := congrArg NodeRec.freq (congrFun (nodeAt_of_pqInsert hrun) k)
    refine hread.trans ((State.nodeFreqAt_setNodeFreq ..).trans ?_)
    rw [h.nodeFreqAt k]
    rcases eq_or_ne k n with rfl | hk
    · simp [hpresent]
    · simp only [hk, if_false, show k < n + 1 ↔ k < n by omega]
  case frame =>
    have hframe := makeLeaf_frame hleaf
    rw [h.frame] at hframe
    exact hframe

theorem LeavesMade.makeLeaf (h : LeavesMade s n t) (hn : n < 256) :
    ∃ u, makeLeaf t n = .ok u ∧ LeavesMade s (n + 1) u := by
  by_cases hfreq : s.freqAt n = 0#32
  · exact ⟨t, by rw [Machine.makeLeaf, h.freqAt, if_pos hfreq], h.skip hfreq⟩
  · exact h.insert hn hfreq

/-- The loop of R155, by induction on the number of symbols passed. -/
theorem foldlM_makeLeaf_leavesMade (hempty : s.heapSize = 0#9) (hn : n ≤ 256) :
    ∃ t, (List.range n).foldlM makeLeaf s = .ok t ∧ LeavesMade s n t := by
  induction n with
  | zero => exact ⟨s, rfl, .zero hempty⟩
  | succ n ih =>
    obtain ⟨t, hloop, ht⟩ := ih (by omega)
    obtain ⟨u, hleaf, hu⟩ := ht.makeLeaf (by omega)
    refine ⟨u, ?_, hu⟩
    rw [List.range_succ, List.foldlM_append, hloop]
    simp [bind, Except.bind, pure, Except.pure, hleaf]

end

theorem exec_tbLeaves (s : State) : exec .tbLeaves s = finish (tbLeaves s) := rfl

/-- Settles O21: the loop by `foldlM_makeLeaf_leavesMade`, from the state in which `NEXT_ID` is written. -/
theorem tbLeavesResult : Obligations.TbLeavesResult := by
  intro s hempty
  obtain ⟨t, hloop, ht⟩ := foldlM_makeLeaf_leavesMade (s := { s with nextId := 256#9 }) hempty le_rfl
  have hnext : t.nextId = 256#9 := by rw [ht.frame]
  refine ⟨t, ?_, hnext, ht.live, ht.ordered, ht.nodeFreqAt, ?_⟩
  · rw [exec_tbLeaves, tbLeaves, Config.nsym, hloop, finish_ok]
  · rw [hnext]
    exact ht.frame

end Sys2Proof.Proofs
end

section
namespace Sys2Proof.Proofs

open Sys2Proof.Machine Sys2Proof.Safety

/-! ### `TB.MERGE` (R156) -/

/-- The sum of the frequencies of two nodes. -/
def freqSum (s : State) (l r : NodeId) : Nat := (s.nodeFreqAt l.toNat).toNat + (s.nodeFreqAt r.toNat).toNat

/-- `NODE[NEXT_ID]` written as the parent of `l` and `r`, and `NEXT_ID` moved on. -/
def joinUnder (s : State) (l r : NodeId) : State :=
  { (countFree 32 (freqSum s l r) s).setNode s.nextId.toNat (fitOrFree 32 (freqSum s l r) s) l r with
    nextId := BitVec.ofNat 9 (s.nextId.toNat + 1) }

section

variable {s t u : State} {l r : NodeId}

@[simp] theorem heapSize_joinUnder (s : State) (l r : NodeId) : (joinUnder s l r).heapSize = s.heapSize :=
  countFree_heapSize ..

@[simp] theorem heapAt_joinUnder (s : State) (l r : NodeId) : (joinUnder s l r).heapAt = s.heapAt := by
  funext k
  rw [joinUnder, countFree_frame]
  rfl

@[simp] theorem liveIds_joinUnder (s : State) (l r : NodeId) : liveIds (joinUnder s l r) = liveIds s := by
  simp [liveIds]

theorem nodeAt_joinUnder (s : State) (l r : NodeId) (k : Nat) :
    (joinUnder s l r).nodeAt k =
      if k = s.nextId.toNat then ⟨fitOrFree 32 (freqSum s l r) s, l, r⟩ else s.nodeAt k := by
  refine (State.nodeAt_setNode ..).trans ?_
  rw [countFree_frame]
  rfl

/-- The new parent is not in the queue when its entry is written, so the order stands. -/
theorem heapOrdered_joinUnder (hfresh : s.nextId ∉ liveIds s) (h : heapOrdered s) :
    heapOrdered (joinUnder s l r) := by
  refine heapOrdered_of_same_keys (heapSize_joinUnder ..) (heapAt_joinUnder ..) (fun x hx => ?_) h
  have hne : x.toNat ≠ s.nextId.toNat := fun he => hfresh (BitVec.eq_of_toNat_eq he ▸ hx)
  have hnode := nodeAt_joinUnder s l r x.toNat
  rw [if_neg hne] at hnode
  exact congrArg NodeRec.freq hnode

theorem tbMerge_eq (hsize : 2 ≤ s.heapSize.toNat) (hl : pqExtract s = .ok (l, t)) (hr : pqExtract t = .ok (r, u))
    (hnext : u.nextId.toNat < 511) (hlt : l.toNat < 511) (hrt : r.toNat < 511) :
    tbMerge s = pqInsert u.nextId (joinUnder u l r) := by
  simp only [tbMerge, if_neg (Nat.not_lt.2 hsize), hl, hr, bind, Except.bind, nodeIndex_eq hnext, nodeIndex_eq hlt,
    nodeIndex_eq hrt]
  rfl

/-- `PQ.INSERT` of the new parent, on a queue with room for it. -/
theorem pqInsert_joinUnder (l r : NodeId) (hroom : s.heapSize.toNat < 256) (hnext : s.nextId.toNat < 511)
    (hids : idsInArena s) :
    ∃ t, pqInsert s.nextId (joinUnder s l r) = .ok t ∧ (liveIds t).Perm (s.nextId :: liveIds s) ∧
      t.nodeAt s.nextId.toNat = ⟨fitOrFree 32 (freqSum s l r) s, l, r⟩ ∧
      (freqSum s l r < 2 ^ 32 → t.freeCount = s.freeCount) ∧
      (s.nextId ∉ liveIds s → heapOrdered s → heapOrdered t) := by
  have hids' : idsInArena (joinUnder s l r) := by rwa [idsInArena_iff, liveIds_joinUnder, ← idsInArena_iff]
  obtain ⟨t, hrun, hlive, -, hord⟩ := pqInsert_spec (by rwa [heapSize_joinUnder]) hnext hids'
  rw [liveIds_joinUnder] at hlive
  refine ⟨t, hrun, hlive, ?_, fun hfit => ?_, fun hfresh h => hord (heapOrdered_joinUnder hfresh h)⟩
  · rw [nodeAt_of_pqInsert hrun, nodeAt_joinUnder, if_pos rfl]
  · obtain ⟨-, -, -, hframe⟩ := pqInsert_ok hrun
    rw [hframe, joinUnder, (fitOrFree_eq hfit s).2]
    rfl

/-- From `s` to `t` the id `HEAP[0]` has left the queue, and the arena and `NEXT_ID` are as they were. -/
structure Extracts (s t : State) : Prop where
  live : (liveIds s).Perm (s.heapAt 0 :: liveIds t)
  ordered : heapOrdered s → heapOrdered t
  heapSize : t.heapSize.toNat + 1 = s.heapSize.toNat
  nextId : t.nextId = s.nextId
  nodeAt : t.nodeAt = s.nodeAt
  freeCount : t.freeCount = s.freeCount

theorem pqExtract_extracts (hpos : 1 ≤ s.heapSize.toNat) (hsize : s.heapSize.toNat ≤ 256) (hids : idsInArena s) :
    ∃ t, pqExtract s = .ok (s.heapAt 0, t) ∧ Extracts s t := by
  obtain ⟨t, hrun, hlive, hord⟩ := pqExtract_spec hpos hsize hids
  obtain ⟨-, hfree, -, hsize', hframe⟩ := pqExtract_ok hrun
  exact ⟨t, hrun, hlive, hord, hsize', by rw [hframe], by rw [hframe]; rfl, hfree hsize⟩

theorem Extracts.mem (h : Extracts s t) {x : NodeId} (hx : x ∈ liveIds t) : x ∈ liveIds s :=
  h.live.mem_iff.2 (List.mem_cons_of_mem _ hx)

theorem Extracts.idsInArena (h : Extracts s t) (hids : idsInArena s) : idsInArena t :=
  idsInArena_iff.2 fun _ hx => idsInArena_iff.1 hids _ (h.mem hx)

theorem Extracts.nodeFreqAt (h : Extracts s t) (k : Nat) : t.nodeFreqAt k = s.nodeFreqAt k :=
  congrArg NodeRec.freq (congrFun h.nodeAt k)

theorem Extracts.freqSum (h : Extracts s t) (l r : NodeId) : freqSum t l r = freqSum s l r := by
  simp only [Proofs.freqSum, h.nodeFreqAt]

theorem Extracts.keyBefore (h : Extracts s t) (x y : NodeId) : keyBefore t x y = keyBefore s x y := by
  simp only [Safety.keyBefore, h.nodeFreqAt]

end

/-- From `s` to `t` the ids `l` and `r` have left the queue, whose other ids are `rest`, and their parent
`NODE[NEXT_ID]` has entered it; in an ordered queue they were the two least, `l` first. -/
structure Merges (s : State) (l r : NodeId) (rest : List NodeId) (t : State) : Prop where
  before : (liveIds s).Perm (l :: r :: rest)
  after : (liveIds t).Perm (s.nextId :: rest)
  left : t.nodeLeftAt s.nextId.toNat = l
  right : t.nodeRightAt s.nextId.toNat = r
  freq : freqSum s l r < 2 ^ 32 → (t.nodeFreqAt s.nextId.toNat).toNat = freqSum s l r ∧ t.freeCount = s.freeCount
  least : heapOrdered s → (∀ x ∈ r :: rest, keyBefore s x l = false) ∧ ∀ x ∈ rest, keyBefore s x r = false
  ordered : heapOrdered s → heapOrdered t

section

variable {s t u : State}

/-- The two extractions and the insert of the parent, put together. -/
theorem merges_of_extracts (hst : Extracts s t) (htu : Extracts t u) (hids : idsInArena s)
    (hroom : u.heapSize.toNat < 256) (hnext : s.nextId.toNat < 511) (hfresh : s.nextId ∉ liveIds s) :
    ∃ v, pqInsert u.nextId (joinUnder u (s.heapAt 0) (t.heapAt 0)) = .ok v ∧
      Merges s (s.heapAt 0) (t.heapAt 0) (liveIds u) v := by
  have hnextId : u.nextId = s.nextId := htu.nextId.trans hst.nextId
  have hsum : freqSum u (s.heapAt 0) (t.heapAt 0) = freqSum s (s.heapAt 0) (t.heapAt 0) := by
    rw [htu.freqSum, hst.freqSum]
  obtain ⟨v, hrun, hafter, hnode, hfree, hord⟩ :=
    pqInsert_joinUnder (s.heapAt 0) (t.heapAt 0) hroom (by rwa [hnextId]) (htu.idsInArena (hst.idsInArena hids))
  have hfreq : v.nodeFreqAt u.nextId.toNat = _ := congrArg NodeRec.freq hnode
  have hleft : v.nodeLeftAt u.nextId.toNat = _ := congrArg NodeRec.left hnode
  have hright : v.nodeRightAt u.nextId.toNat = _ := congrArg NodeRec.right hnode
  rw [hsum] at hfreq hfree
  rw [hnextId] at hafter hfreq hleft hright hord
  refine ⟨v, hrun, ?before, hafter, hleft, hright, ?freq, ?least, ?ordered⟩
  case before => exact hst.live.trans (htu.live.cons _)
  case freq =>
    intro hfit
    rw [hfreq, toNat_fitOrFree hfit, hfree hfit, htu.freeCount, hst.freeCount]
    exact ⟨rfl, rfl⟩
  case least =>
    intro h
    constructor
    · intro x hx
      exact keyBefore_heapAt_zero h (hst.mem (htu.live.mem_iff.2 hx))
    · intro x hx
      rw [← hst.keyBefore]
      exact keyBefore_heapAt_zero (hst.ordered h) (htu.mem hx)
  case ordered =>
    intro h
    exact hord (fun hmem => hfresh (hst.mem (htu.mem hmem))) (htu.ordered (hst.ordered h))

theorem tbMerge_merges (hsize : 2 ≤ s.heapSize.toNat) (hsize' : s.heapSize.toNat ≤ 256) (hids : idsInArena s)
    (hnext : s.nextId.toNat < 511) (hfresh : s.nextId ∉ liveIds s) :
    ∃ t l r rest, tbMerge s = .ok t ∧ Merges s l r rest t := by
  obtain ⟨t, hl, hst⟩ := pqExtract_extracts (by omega) hsize' hids
  have hsizeT := hst.heapSize
  obtain ⟨u, hr, htu⟩ := pqExtract_extracts (by omega) (by omega) (hst.idsInArena hids)
  have hsizeU := htu.heapSize
  obtain ⟨v, hrun, hmerges⟩ := merges_of_extracts hst htu hids (by omega) hnext hfresh
  refine ⟨v, _, _, _, ?_, hmerges⟩
  rw [tbMerge_eq hsize hl hr (by rwa [htu.nextId, hst.nextId]) (hids 0 (by omega))
    (hst.idsInArena hids 0 (by omega)), hrun]

/-- With a `HEAP_SIZE` of 257 the second extraction leaves just the room that the insert needs (log 10). -/
theorem tbMerge_overfull (hsize : s.heapSize.toNat = 257) (harray : ArrayInArena s) (hnext : s.nextId.toNat < 511) :
    ∃ t, tbMerge s = .ok t ∧ t.nodeLeftAt s.nextId.toNat = s.heapAt 0 := by
  obtain ⟨t, hl, ht⟩ := pqExtract_keepsArray (by omega) harray
  obtain ⟨-, -, -, hsizeT, hframeT⟩ := pqExtract_ok hl
  obtain ⟨u, hr, hu⟩ := pqExtract_keepsArray (by omega) ht
  obtain ⟨-, -, -, hsizeU, hframeU⟩ := pqExtract_ok hr
  have hnextId : u.nextId = s.nextId := by rw [hframeU, hframeT]
  obtain ⟨v, hrun, -, hnode, -⟩ :=
    pqInsert_joinUnder (s.heapAt 0) (t.heapAt 0) (by omega) (by rwa [hnextId]) fun k hk => hu k (by omega)
  refine ⟨v, ?_, ?_⟩
  · rw [tbMerge_eq (by omega) hl hr (by rwa [hnextId]) (harray 0 (by omega)) (ht 0 (by omega)), hrun]
  · rw [← hnextId]
    exact congrArg NodeRec.left hnode

end

theorem exec_tbMerge (s : State) : exec .tbMerge s = finish (tbMerge s) := rfl

/-- Settles O22: `tbMerge_merges` up to a `HEAP_SIZE` of 256 and `tbMerge_overfull` for 257, and `tbMerge_ok` for what
is not written. -/
theorem tbMergeResult : Obligations.TbMergeResult := by
  constructor
  · intro s hsize hsize' hids hordered hnext hfresh
    obtain ⟨t, l, r, rest, hrun, hm⟩ := tbMerge_merges hsize hsize' hids hnext hfresh
    obtain ⟨-, -, -, hnextId, hnodes, hframe⟩ := tbMerge_ok hrun
    obtain ⟨hleastL, hleastR⟩ := hm.least hordered
    exact ⟨t, l, r, rest, by rw [exec_tbMerge, hrun, finish_ok], hm.before, hleastL, hleastR, hm.left, hm.right,
      hm.freq, hnodes, hm.after, hm.ordered hordered, hnextId, hframe⟩
  · intro s hsize harray hnext
    obtain ⟨t, hrun, hleft⟩ := tbMerge_overfull hsize harray hnext
    obtain ⟨-, -, hsize', hnextId, hnodes, hframe⟩ := tbMerge_ok hrun
    exact ⟨t, by rw [exec_tbMerge, hrun, finish_ok], hleft, by omega, hnextId, hnodes, hframe⟩

end Sys2Proof.Proofs
end

section
namespace Sys2Proof.Proofs

open Sys2Proof.Machine Sys2Proof.Safety

/-! ### `TB.BUILD` (R157, R158) -/

/-- The sum of the frequencies of a list of nodes. -/
def freqTotal (s : State) (ids : List NodeId) : Nat := (ids.map fun n => (s.nodeFreqAt n.toNat).toNat).sum

section

variable {s t : State}

theorem liveFreqSum_eq_of_perm {ids : List NodeId} (h : (liveIds s).Perm ids) : liveFreqSum s = freqTotal s ids :=
  (h.map _).sum_eq

@[simp] theorem freqTotal_cons (s : State) (n : NodeId) (ids : List NodeId) :
    freqTotal s (n :: ids) = (s.nodeFreqAt n.toNat).toNat + freqTotal s ids := rfl

theorem freqTotal_congr {ids : List NodeId} (h : ∀ x ∈ ids, t.nodeAt x.toNat = s.nodeAt x.toNat) :
    freqTotal t ids = freqTotal s ids :=
  congrArg List.sum (List.map_congr_left fun x hx => congrArg (fun n => n.freq.toNat) (h x hx))

/-- What the loop of R157 keeps: a queue that is not empty, of nodes that are older than `NEXT_ID`, and as many free
ids from `NEXT_ID` on as there are merges to come. -/
structure Buildable (s : State) : Prop where
  nonempty : 1 ≤ s.heapSize.toNat
  heapSize_le : s.heapSize.toNat ≤ 256
  room : s.nextId.toNat + s.heapSize.toNat ≤ 512
  older : ∀ x ∈ liveIds s, x.toNat < s.nextId.toNat

/-- From `s` to `t` nodes have been merged: the frequencies of the queue keep their sum, each merge takes one id, and no
older node is written. -/
structure Built (s t : State) : Prop where
  freqSum : liveFreqSum s < 2 ^ 32 → liveFreqSum t = liveFreqSum s ∧ t.freeCount = s.freeCount
  nextId : t.nextId.toNat + t.heapSize.toNat = s.nextId.toNat + s.heapSize.toNat
  nextId_le : s.nextId.toNat ≤ t.nextId.toNat
  nodeAt : ∀ k, k < s.nextId.toNat → t.nodeAt k = s.nodeAt k

theorem Built.refl (s : State) : Built s s := ⟨fun _ => ⟨rfl, rfl⟩, rfl, le_rfl, fun _ _ => rfl⟩

theorem Built.trans {u : State} (hst : Built s t) (htu : Built t u) : Built s u where
  freqSum h := by
    obtain ⟨hsum, hfree⟩ := hst.freqSum h
    obtain ⟨hsum', hfree'⟩ := htu.freqSum (hsum ▸ h)
    exact ⟨hsum'.trans hsum, hfree'.trans hfree⟩
  nextId := htu.nextId.trans hst.nextId
  nextId_le := hst.nextId_le.trans htu.nextId_le
  nodeAt k hk := (htu.nodeAt k (hk.trans_le hst.nextId_le)).trans (hst.nodeAt k hk)

/-- One merge: the parent has the frequency that its two children took out of the queue (R158 (a)). -/
theorem Buildable.merge (h : Buildable s) (htwo : 2 ≤ s.heapSize.toNat) :
    ∃ t, tbMerge s = .ok t ∧ Buildable t ∧ t.heapSize.toNat + 1 = s.heapSize.toNat ∧ Built s t := by
  have hroom := h.room
  have hsize := h.heapSize_le
  have hids : idsInArena s := idsInArena_iff.2 fun x hx => by have := h.older x hx; omega
  obtain ⟨t, l, r, rest, hrun, hm⟩ :=
    tbMerge_merges htwo hsize hids (by omega) fun hmem => lt_irrefl _ (h.older _ hmem)
  obtain ⟨-, -, hsize', hnextId, hnodes, -⟩ := tbMerge_ok hrun
  have hrest : ∀ x ∈ rest, x.toNat < s.nextId.toNat := fun x hx =>
    h.older x (hm.before.mem_iff.2 (List.mem_cons_of_mem _ (List.mem_cons_of_mem _ hx)))
  refine ⟨t, hrun, ⟨by omega, by omega, by omega, fun x hx => ?_⟩, hsize', fun hfit => ?_, by omega, by omega,
    fun k hk => hnodes k hk.ne⟩
  · rw [hnextId]
    rcases List.mem_cons.1 (hm.after.mem_iff.1 hx) with rfl | hx
    · omega
    · exact (hrest x hx).trans (Nat.lt_succ_self _)
  · have hbefore : liveFreqSum s = freqSum s l r + freqTotal s rest := by
      rw [liveFreqSum_eq_of_perm hm.before, freqTotal_cons, freqTotal_cons, freqSum, Nat.add_assoc]
    obtain ⟨hfreq, hfree⟩ := hm.freq (by omega)
    refine ⟨?_, hfree⟩
    rw [liveFreqSum_eq_of_perm hm.after, freqTotal_cons, hfreq, freqTotal_congr fun x hx => hnodes _ (hrest x hx).ne,
      hbefore]

theorem mergeAll_of_heapSize_le_one (fuel : Nat) (h : s.heapSize.toNat ≤ 1) : mergeAll fuel s = .ok s := by
  cases fuel with
  | zero => rfl
  | succ n => rw [mergeAll, if_neg (Nat.not_lt.2 h)]

theorem mergeAll_succ (fuel : Nat) (h : 2 ≤ s.heapSize.toNat) (hrun : tbMerge s = .ok t) :
    mergeAll (fuel + 1) s = mergeAll fuel t := by
  rw [mergeAll, if_pos (Nat.lt_of_succ_le h), hrun]
  rfl

/-- The loop of R157, by induction on its fuel. -/
theorem Buildable.mergeAll {fuel : Nat} (h : Buildable s) (hfuel : s.heapSize.toNat ≤ fuel) :
    ∃ t, mergeAll fuel s = .ok t ∧ t.heapSize.toNat = 1 ∧ Built s t := by
  induction fuel generalizing s with
  | zero => exact absurd (h.nonempty.trans hfuel) (by omega)
  | succ n ih =>
    rcases h.nonempty.eq_or_lt' with hone | htwo
    · exact ⟨s, mergeAll_of_heapSize_le_one _ hone.le, hone, .refl s⟩
    · obtain ⟨t, hmerge, ht, hsize, hst⟩ := h.merge htwo
      obtain ⟨u, hrun, hone, htu⟩ := ih ht (by omega)
      exact ⟨u, (mergeAll_succ n htwo hmerge).trans hrun, hone, hst.trans htu⟩

theorem liveFreqSum_of_one (h : s.heapSize.toNat = 1) :
    liveFreqSum s = (s.nodeFreqAt (s.heapAt 0).toNat).toNat := by
  simp [liveFreqSum, liveIds, h]

theorem tbBuild_eq (h : Machine.mergeAll s.heapSize.toNat s = .ok t) :
    tbBuild s = .ok { t with root := t.heapAt 0 } := by
  rw [tbBuild, h]
  rfl

end

theorem exec_tbBuild (s : State) : exec .tbBuild s = finish (tbBuild s) := rfl

/-- Settles O23: the merges by `Buildable.mergeAll`, whose sum is at the end that of the one id left, and
`mergeAll_frame` for what is not written. -/
theorem tbBuildResult : Obligations.TbBuildResult := by
  constructor
  · intro s hpos hsize hroom holder
    obtain ⟨t, hrun, hone, hbuilt⟩ := Buildable.mergeAll ⟨hpos, hsize, hroom, holder⟩ le_rfl
    have hnextId := hbuilt.nextId
    have hframe := mergeAll_frame hrun
    refine ⟨{ t with root := t.heapAt 0 }, by rw [exec_tbBuild, tbBuild_eq hrun, finish_ok],
      BitVec.eq_of_toNat_eq hone, rfl, fun hfit => ?_, ?_, hbuilt.nodeAt, by rw [hframe]⟩
    · have hsum := hbuilt.freqSum hfit
      rw [liveFreqSum_of_one hone] at hsum
      exact hsum
    · rwa [hone] at hnextId
  · intro s hsize
    rw [exec_tbBuild, tbBuild_eq (mergeAll_of_heapSize_le_one _ hsize), finish_ok]

end Sys2Proof.Proofs
end

section
/-! Proofs of the code walker family: the walk of R172 binds the paths of R171. -/

namespace Sys2Proof.Proofs

open Sys2Proof.Machine Sys2Proof.Safety

/-! ### The records that a list of leaves leaves in `CODE` -/

/-- The record of symbol `k` when the leaves `ps` have been bound in order: the last leaf of `k` stands. -/
def boundTo (ps : List (Sym × List Bool)) (k : Nat) (old : CodeEntry) : CodeEntry :=
  match ps.reverse.find? (fun e => decide (e.1.toNat = k)) with
  | some e => entryOf e.2
  | none => old

theorem boundTo_singleton (y : Sym) (p : List Bool) (k : Nat) (old : CodeEntry) :
    boundTo [(y, p)] k old = if k = y.toNat then entryOf p else old := by
  by_cases h : y.toNat = k
  · simp [boundTo, h]
  · simp [boundTo, h, Ne.symm h]

theorem boundTo_append (l r : List (Sym × List Bool)) (k : Nat) (old : CodeEntry) :
    boundTo (l ++ r) k old = boundTo r k (boundTo l k old) := by
  rw [boundTo, List.reverse_append, List.find?_append, boundTo.eq_def r]
  cases r.reverse.find? _ <;> rfl

/-! ### The paths of a tree -/

/-- What R171 reads of the arena. -/
theorem treePaths_congr {s t : State} (hleft : t.nodeLeftAt = s.nodeLeftAt) (hright : t.nodeRightAt = s.nodeRightAt)
    (f : Nat) (n : NodeId) (p : List Bool) : treePaths t f n p = treePaths s f n p := by
  induction f generalizing n p with
  | zero => rfl
  | succ f ih => simp only [treePaths, hleft, hright, ih]

theorem treePaths_pos {s : State} {f : Nat} {n : NodeId} {p : List Bool} {ps : List (Sym × List Bool)}
    (h : treePaths s f n p = some ps) : 0 < f := by
  cases f with
  | zero => cases h
  | succ f => exact f.succ_pos

/-- A node with paths is a leaf, or an internal node whose children have them. -/
theorem treePaths_succ {s : State} {f : Nat} {n : NodeId} {p : List Bool} {ps : List (Sym × List Bool)}
    (h : treePaths s (f + 1) n p = some ps) :
    (n.toNat < 256 ∧ ps = [(n.setWidth 8, p)]) ∨
      (256 ≤ n.toNat ∧ n.toNat < 511 ∧ ∃ l r, treePaths s f (s.nodeLeftAt n.toNat) (p ++ [false]) = some l ∧
        treePaths s f (s.nodeRightAt n.toNat) (p ++ [true]) = some r ∧ ps = l ++ r) := by
  unfold treePaths at h
  split at h
  · next hleaf => exact .inl ⟨hleaf, (Option.some.inj h).symm⟩
  · next hinner =>
    split at h
    · next hnode =>
      split at h
      · next l r hl hr => exact .inr ⟨Nat.le_of_not_lt hinner, hnode, l, r, hl, hr, (Option.some.inj h).symm⟩
      · cases h
    · cases h

/-! ### The walker's state -/

/-- Nothing but `CODE` and the scratch state of R172 differs. -/
def SameButWalk (s t : State) : Prop := t = { s with code := t.code, wstk := t.wstk, wsp := t.wsp, path := t.path }

/-- `PATH` begins with the bit-string `p`. -/
def PathHolds (s : State) (p : List Bool) : Prop := ∀ k, k < p.length → bitAt s.path k = p.getD k false

/-- The entry that stands on `WSTK` for the node `n` at path `p`: its edge is the last bit of the path, 0 for the
root (R172). -/
def walkEntry (n : NodeId) (p : List Bool) : WalkEntry := ⟨n, BitVec.ofNat 8 p.length, p.getLastD false⟩

/-- The node `n` at path `p` is to be visited next, with `w` entries under it on `WSTK`: the path to its parent is in
`PATH` (R172), and `WSTK` has room for its children (R174). -/
structure OnTop (s : State) (w : Nat) (n : NodeId) (p : List Bool) : Prop where
  wsp : s.wsp.toNat = w + 1
  top : s.wstkAt w = walkEntry n p
  path : PathHolds s p.dropLast
  under : w ≤ p.length
  depth : p.length ≤ 255

/-- From `s` to `t` the subtree at path `p`, with the leaves `ps`, has been visited and has left `WSTK`: the `w`
entries under it and the path to it stand. -/
structure Walked (s : State) (w : Nat) (p : List Bool) (ps : List (Sym × List Bool)) (t : State) : Prop where
  wsp : t.wsp.toNat = w
  under : ∀ k, k < w → t.wstkAt k = s.wstkAt k
  path : PathHolds t p
  codeAt : ∀ k, t.codeAt k = boundTo ps k (s.codeAt k)
  frame : SameButWalk s t

/-- The state in which a pop binds a leaf or pushes children: the top entry is off `WSTK` and its edge is in `PATH`. -/
def popTop (s : State) : State :=
  walkPath (s.wstkAt (s.wsp.toNat - 1)) { s with wsp := BitVec.ofNat 9 (s.wsp.toNat - 1) }

section

variable {s t u v : State} {w : Nat} {n : NodeId} {p : List Bool} {b : Bool} {l r ps : List (Sym × List Bool)}

/-! ### Paths and `PATH` -/

theorem length_child (p : List Bool) (b : Bool) : (p ++ [b]).length = p.length + 1 := List.length_append

theorem depth_walkEntry (n : NodeId) (hp : p.length ≤ 255) : (walkEntry n p).depth.toNat = p.length := by
  rw [walkEntry, BitVec.toNat_ofNat]
  omega

theorem walkEntry_child (n : NodeId) (p : List Bool) (b : Bool) :
    walkEntry n (p ++ [b]) = ⟨n, BitVec.ofNat 8 (p.length + 1), b⟩ := by
  rw [walkEntry, length_child, List.getLastD_concat]

theorem SameButWalk.trans (hst : SameButWalk s t) (htu : SameButWalk t u) : SameButWalk s u := by
  unfold SameButWalk at *
  rw [htu, hst]

theorem SameButWalk.nodeLeftAt (h : SameButWalk s t) : t.nodeLeftAt = s.nodeLeftAt := by rw [h]; rfl

theorem SameButWalk.nodeRightAt (h : SameButWalk s t) : t.nodeRightAt = s.nodeRightAt := by rw [h]; rfl

theorem SameButWalk.treePaths (h : SameButWalk s t) : treePaths t = treePaths s :=
  funext fun _ => funext fun _ => funext (treePaths_congr h.nodeLeftAt h.nodeRightAt _ _)

theorem PathHolds.of_append (h : PathHolds s (p ++ [b])) : PathHolds s p := by
  intro k hk
  have hlen := length_child p b
  rw [h k (by omega), List.getD_append _ _ _ _ hk]

/-- The record that a leaf at path `p` gets is the one that holds the path. -/
theorem PathHolds.pathEntry (h : PathHolds s p) (n : NodeId) (hp : p.length ≤ 255) :
    pathEntry (walkEntry n p).depth s.path = entryOf p := by
  rw [Machine.pathEntry, depth_walkEntry n hp, bitsOf_congr h]
  rfl

/-- The edge of an entry completes the path to its parent. -/
theorem PathHolds.walkPath (h : PathHolds s p.dropLast) (n : NodeId) (hp : p.length ≤ 255) :
    PathHolds (walkPath (walkEntry n p) s) p := by
  intro k hk
  rcases List.eq_nil_or_concat' p with rfl | ⟨q, b, rfl⟩
  · exact absurd hk (Nat.not_lt_zero k)
  · have hedge : (walkEntry n (q ++ [b])).edge = b := by rw [walkEntry_child]
    rw [List.dropLast_concat] at h
    rw [length_child] at hk hp
    rw [Machine.walkPath, depth_walkEntry n (by rwa [length_child]), hedge, length_child, if_neg (Nat.succ_ne_zero _),
      Nat.add_sub_cancel, bitAt_putBit]
    rcases Nat.lt_succ_iff_lt_or_eq.1 hk with hlt | rfl
    · rw [if_neg (by omega), h k hlt, List.getD_append _ _ _ _ hlt]
    · rw [if_pos ⟨rfl, by omega⟩, List.getD_append_right _ _ _ _ le_rfl, Nat.sub_self]
      rfl

theorem walkPath_frame (e : WalkEntry) (s : State) : walkPath e s = { s with path := (walkPath e s).path } := by
  unfold walkPath
  split <;> rfl

theorem popTop_frame (s : State) :
    popTop s = { s with wsp := BitVec.ofNat 9 (s.wsp.toNat - 1), path := (popTop s).path } :=
  walkPath_frame _ _

theorem wstkAt_popTop (s : State) : (popTop s).wstkAt = s.wstkAt := by rw [popTop_frame]; rfl

theorem sameButWalk_popTop (s : State) : SameButWalk s (popTop s) := by
  unfold SameButWalk
  rw [popTop_frame]

/-! ### One pop (R172) -/

theorem OnTop.topEntry (h : OnTop s w n p) : s.wstkAt (s.wsp.toNat - 1) = walkEntry n p := by
  rw [h.wsp, Nat.add_sub_cancel, h.top]

theorem OnTop.wsp_popTop (h : OnTop s w n p) : (popTop s).wsp.toNat = w := by
  have hunder := h.under
  have hdepth := h.depth
  rw [popTop_frame, h.wsp, Nat.add_sub_cancel, BitVec.toNat_ofNat]
  omega

theorem OnTop.path_popTop (h : OnTop s w n p) : PathHolds (popTop s) p := by
  rw [popTop, h.topEntry]
  refine PathHolds.walkPath ?_ n h.depth
  exact h.path

theorem OnTop.walkPop_leaf (h : OnTop s w n p) (hn : n.toNat < 256) :
    walkPop s = .ok ((popTop s).setCode n.toNat (entryOf p)) := by
  have hpath := h.path_popTop.pathEntry n h.depth
  rw [popTop] at hpath ⊢
  rw [h.topEntry] at hpath ⊢
  rw [walkPop, h.topEntry, ← hpath]
  exact if_pos hn

theorem OnTop.walked_leaf (h : OnTop s w n p) (hn : n.toNat < 256) :
    Walked s w p [(n.setWidth 8, p)] ((popTop s).setCode n.toNat (entryOf p)) where
  wsp := h.wsp_popTop
  under k _ := congrFun (wstkAt_popTop s) k
  path := h.path_popTop
  codeAt k := by
    have hsym : (n.setWidth 8).toNat = n.toNat := by rw [BitVec.toNat_setWidth]; omega
    rw [State.codeAt_setCode, boundTo_singleton, hsym, popTop_frame]
    rfl
  frame := (sameButWalk_popTop s).trans rfl

/-! ### An internal node -/

/-- A push succeeds while the depth and `WSTK` have room. -/
theorem walkPush_room (n : NodeId) {d : Nat} (e : Bool) (hd : d ≤ 255) (hw : s.wsp.toNat ≤ 255) :
    ∃ t, walkPush n d e s = .ok t ∧ t.wsp.toNat = s.wsp.toNat + 1 ∧
      t.wstkAt s.wsp.toNat = ⟨n, BitVec.ofNat 8 d, e⟩ ∧ (∀ k, k ≠ s.wsp.toNat → t.wstkAt k = s.wstkAt k) ∧
      t = { s with wstk := t.wstk, wsp := t.wsp } := by
  have hrun : walkPush n d e s = .ok _ := (if_neg (Nat.not_lt.2 hd)).trans (if_pos (Nat.lt_succ_of_le hw))
  obtain ⟨-, -, hpushed⟩ := walkPush_ok hrun
  exact ⟨_, hrun, hpushed⟩

theorem OnTop.walkPop_inner (h : OnTop s w n p) (hn : 256 ≤ n.toNat) (hn' : n.toNat < 511)
    (hright : walkPush (s.nodeRightAt n.toNat) (p.length + 1) true (popTop s) = .ok u)
    (hleft : walkPush (s.nodeLeftAt n.toNat) (p.length + 1) false u = .ok t) : walkPop s = .ok t := by
  have hinner : ¬ n.toNat < Config.nsym := Nat.not_lt.2 hn
  have hsame := sameButWalk_popTop s
  rw [← hsame.nodeRightAt, popTop, h.topEntry] at hright
  rw [← hsame.nodeLeftAt, popTop, h.topEntry] at hleft
  have hnode : (walkEntry n p).node = n := rfl
  simp only [walkPop, h.topEntry, hnode, depth_walkEntry n h.depth, if_neg hinner, nodeIndex_eq hn']
  exact (congrArg (· >>= _) hright).trans hleft

/-- An internal node gives way to its left child, with its right child under it. -/
structure Opened (s : State) (w : Nat) (n : NodeId) (p : List Bool) (u : State) : Prop where
  left : OnTop u (w + 1) (s.nodeLeftAt n.toNat) (p ++ [false])
  right : u.wstkAt w = walkEntry (s.nodeRightAt n.toNat) (p ++ [true])
  under : ∀ k, k < w → u.wstkAt k = s.wstkAt k
  codeAt : u.codeAt = s.codeAt
  frame : SameButWalk s u

theorem OnTop.opened (h : OnTop s w n p) (hn : 256 ≤ n.toNat) (hn' : n.toNat < 511) (hp : p.length < 255) :
    ∃ u, walkPop s = .ok u ∧ Opened s w n p u := by
  have hw := h.wsp_popTop
  have hunder := h.under
  have hlen := length_child p false
  obtain ⟨v, hv, hvwsp, hvtop, hvother, hvframe⟩ :=
    walkPush_room (s := popTop s) (s.nodeRightAt n.toNat) true hp (by omega)
  obtain ⟨u, hu, huwsp, hutop, huother, huframe⟩ :=
    walkPush_room (s := v) (s.nodeLeftAt n.toNat) false hp (by omega)
  rw [hvwsp, hw] at huwsp hutop huother
  rw [hw] at hvtop hvother
  have hpath : u.path = (popTop s).path := by rw [huframe, hvframe]
  have hframe : SameButWalk s u :=
    (sameButWalk_popTop s).trans (by unfold SameButWalk; rw [huframe, hvframe])
  refine ⟨u, h.walkPop_inner hn hn' hv hu,
    ⟨⟨huwsp, ?top, ?path, by omega, by omega⟩, ?right, ?under, ?code, hframe⟩⟩
  case top => rw [hutop, walkEntry_child]
  case path =>
    rw [List.dropLast_concat, PathHolds, hpath]
    exact h.path_popTop
  case right => rw [huother w (by omega), hvtop, walkEntry_child]
  case under =>
    intro k hk
    rw [huother k (by omega), hvother k (by omega), wstkAt_popTop]
  case code => rw [huframe, hvframe, popTop_frame]; rfl

/-- After the left subtree the right child is next, and the path to it stands. -/
theorem Opened.right_onTop (h : Opened s w n p u) (hl : Walked u (w + 1) (p ++ [false]) l v) :
    OnTop v w (s.nodeRightAt n.toNat) (p ++ [true]) where
  wsp := hl.wsp
  top := by rw [hl.under w (Nat.lt_succ_self w), h.right]
  path := by rw [List.dropLast_concat]; exact hl.path.of_append
  under := by
    have hunder := h.left.under
    rw [length_child] at hunder ⊢
    omega
  depth := by
    have hdepth := h.left.depth
    rwa [length_child] at hdepth ⊢

/-- An internal node is visited when its left and then its right subtree are. -/
theorem Opened.walked (h : Opened s w n p u) (hl : Walked u (w + 1) (p ++ [false]) l v)
    (hr : Walked v w (p ++ [true]) r t) : Walked s w p (l ++ r) t where
  wsp := hr.wsp
  under k hk := by rw [hr.under k hk, hl.under k (by omega), h.under k hk]
  path := hr.path.of_append
  codeAt k := by rw [hr.codeAt, hl.codeAt, h.codeAt, boundTo_append]
  frame := (h.frame.trans hl.frame).trans hr.frame

/-! ### The loop -/

/-- `c` turns of the loop of R172 lead from `s` to `t`. -/
def Loops (c : Nat) (s t : State) : Prop := ∀ fuel, walkLoop (fuel + c) s = walkLoop fuel t

theorem Loops.trans {c d : Nat} (hst : Loops c s t) (htu : Loops d t u) : Loops (d + c) s u := by
  intro fuel
  rw [← Nat.add_assoc, hst, htu]

theorem Loops.one (hwsp : s.wsp.toNat ≠ 0) (hrun : walkPop s = .ok t) : Loops 1 s t := by
  intro fuel
  have h : s.wsp ≠ 0#9 := fun h => hwsp (by rw [h]; rfl)
  rw [walkLoop, if_neg h, hrun]
  rfl

theorem walkLoop_of_wsp_eq_zero (fuel : Nat) (h : s.wsp = 0#9) : walkLoop fuel s = .ok s := by
  cases fuel <;> rw [walkLoop, if_pos h]

/-- The loop visits the subtree on top of `WSTK`, by induction on the height that R171 allows it; a tree of height
`f` has fewer than `2 ^ f` nodes. -/
theorem OnTop.loops {f : Nat} (h : OnTop s w n p) (hf : f + p.length ≤ 256)
    (hps : treePaths s f n p = some ps) : ∃ c t, c < 2 ^ f ∧ Loops c s t ∧ Walked s w p ps t := by
  induction f generalizing s w n p ps with
  | zero => cases hps
  | succ f ih =>
    have hwsp : s.wsp.toNat ≠ 0 := by rw [h.wsp]; exact w.succ_ne_zero
    rcases treePaths_succ hps with ⟨hn, rfl⟩ | ⟨hn, hn', l, r, hl, hr, rfl⟩
    · exact ⟨1, _, Nat.one_lt_two_pow f.succ_ne_zero, .one hwsp (h.walkPop_leaf hn), h.walked_leaf hn⟩
    · have hpos := treePaths_pos hl
      obtain ⟨u, hrun, hu⟩ := h.opened hn hn' (by omega)
      obtain ⟨c, v, hc, hloopL, hv⟩ := ih hu.left (by rw [length_child]; omega)
        (by rw [hu.frame.treePaths]; exact hl)
      obtain ⟨d, t, hd, hloopR, ht⟩ := ih (hu.right_onTop hv) (by rw [length_child]; omega)
        (by rw [(hu.frame.trans hv.frame).treePaths]; exact hr)
      exact ⟨_, t, by rw [Nat.pow_succ]; omega, ((Loops.one hwsp hrun).trans hloopL).trans hloopR, hu.walked hv ht⟩

theorem cwWalk_eq (hroot : 256 ≤ s.root.toNat) (hpush : walkPush s.root 0 false { s with wsp := 0 } = .ok u) :
    cwWalk s = walkLoop Config.walkFuel u := by
  have hinner : ¬ s.root.toNat < Config.nsym := Nat.not_lt.2 hroot
  rw [cwWalk, if_neg hinner, hpush]
  rfl

/-- The walk of a tree with an internal root (R172). -/
theorem cwWalk_inner (hroot : 256 ≤ s.root.toNat) (hps : treePaths s 256 s.root [] = some ps) :
    ∃ t, cwWalk s = .ok t ∧ Walked s 0 [] ps t := by
  obtain ⟨u, hpush, hwsp, htop, -, hframe⟩ :=
    walkPush_room (s := { s with wsp := 0 }) (d := 0) s.root false (Nat.zero_le _) (Nat.zero_le _)
  have hsame : SameButWalk s u := by unfold SameButWalk; rw [hframe]
  have hcode : u.codeAt = s.codeAt := by rw [hframe]; rfl
  have htop : OnTop u 0 s.root [] := ⟨hwsp, htop, fun k hk => absurd hk (Nat.not_lt_zero k), le_rfl, Nat.zero_le _⟩
  obtain ⟨c, t, hc, hloop, ht⟩ := htop.loops (f := 256) le_rfl (by rw [hsame.treePaths]; exact hps)
  refine ⟨t, ?_, ht.wsp, fun k hk => absurd hk k.not_lt_zero, ht.path, fun k => by rw [ht.codeAt, hcode],
    hsame.trans ht.frame⟩
  have hfuel : Config.walkFuel = Config.walkFuel - c + c := (Nat.sub_add_cancel hc.le).symm
  rw [cwWalk_eq hroot hpush, hfuel, hloop]
  exact walkLoop_of_wsp_eq_zero _ (BitVec.eq_of_toNat_eq ht.wsp)

theorem cwWalk_leaf (hroot : s.root.toNat < 256) : cwWalk s = .ok (s.setCode s.root.toNat (entryOf [false])) :=
  if_pos hroot

end

theorem exec_cwWalk (s : State) : exec .cwWalk s = finish (cwWalk s) := rfl

/-- Settles O24: the loop by `OnTop.loops` from the root on an empty `WSTK`, and the write of `cwWalk_leaf` for a bare
leaf. -/
theorem cwWalkResult : Obligations.CwWalkResult := by
  constructor
  · intro s ps hroot hps
    obtain ⟨t, hrun, ht⟩ := cwWalk_inner hroot hps
    exact ⟨t, by rw [exec_cwWalk, hrun, finish_ok], fun k _ => ht.codeAt k, BitVec.eq_of_toNat_eq ht.wsp, ht.frame⟩
  · intro s hroot
    refine ⟨_, by rw [exec_cwWalk, cwWalk_leaf hroot, finish_ok], ?_, fun k hk => ?_, rfl⟩
    · rw [State.codeAt_setCode, if_pos rfl]
    · rw [State.codeAt_setCode, if_neg hk]

end Sys2Proof.Proofs
end

section
/-! Proofs of the bit packer family: the packer appends bits one by one, and a byte of them fills at a time. -/

namespace Sys2Proof.Proofs

open Sys2Proof.Machine Sys2Proof.Safety

/-! ### The two writes of the packer

`withBit b s` has one more bit pending in `ACC`, and `flushed v s` has the byte `v` appended to `PK` and none pending.
`BP.PUTBIT` is the first, followed by the second where it makes eight bits; `BP.FLUSH` is the second. -/

/-- The state in which the bit `b` has joined the accumulator and is counted (R182). -/
def withBit (b : Bool) (s : State) : State :=
  { countFree 64 (s.totalBits.toNat + 1) s with
    acc := (s.acc <<< 1) ||| (if b then 1#8 else 0#8)
    accN := s.accN + 1#4
    totalBits := fitOrFree 64 (s.totalBits.toNat + 1) s }

/-- The state in which the byte `v` has been flushed (R182, R185). -/
def flushed (v : Byte) (s : State) : State :=
  { s with pkStore := cellSet s.pkLen.toNat v s.pkStore, pkLen := s.pkLen + 1#64, acc := 0#8, accN := 0#4 }

section
variable {s t u v : State} {b : Bool}

theorem flushByte_room (hroom : s.pkLen.toNat < s.caps.pkCap.toNat) (v : Byte) :
    flushByte v s = .ok (flushed v s) := by
  rcases flushByte_cases v s with ⟨-, h⟩ | ⟨hfull, -⟩
  · exact h
  · omega

theorem flushByte_full (hfull : s.caps.pkCap.toNat ≤ s.pkLen.toNat) (v : Byte) :
    flushByte v s = .error (.raised (errorEntry .storeOverflow 1 s)) := by
  rcases flushByte_cases v s with ⟨hroom, -⟩ | ⟨-, h⟩
  · omega
  · exact h

theorem byteAt_flushed (v : Byte) (s : State) (a : Nat) :
    (flushed v s).byteAt .pk a = if a = s.pkLen.toNat then v else s.byteAt .pk a :=
  (s.byteAt_setStore .pk .pk s.pkLen.toNat a v).trans (by simp)

theorem toNat_pkLen_flushed (hroom : s.pkLen.toNat < s.caps.pkCap.toNat) (v : Byte) :
    (flushed v s).pkLen.toNat = s.pkLen.toNat + 1 := by
  have hcap := s.caps.pkCap.isLt
  simp only [flushed, BitVec.toNat_add, BitVec.toNat_ofNat]
  omega

theorem accN_withBit (h : s.accN.toNat < 8) : (withBit b s).accN.toNat = s.accN.toNat + 1 := by
  simp only [withBit, BitVec.toNat_add, BitVec.toNat_ofNat]
  omega

theorem accN_withBit_eq_eight (h : s.accN = 7#4) : (withBit b s).accN = 8#4 := by
  simp [withBit, h]

/-- Only `TOTAL_BITS`, `ACC`, `ACC_N` and the model's count of free values change. -/
theorem withBit_frame (b : Bool) (s : State) :
    withBit b s = { s with
      acc := (s.acc <<< 1) ||| (if b then 1#8 else 0#8), accN := s.accN + 1#4,
      totalBits := (withBit b s).totalBits, freeCount := (withBit b s).freeCount } := by
  rw [withBit, countFree_frame]

@[simp] theorem pkLen_withBit (b : Bool) (s : State) : (withBit b s).pkLen = s.pkLen := by rw [withBit_frame]

@[simp] theorem caps_withBit (b : Bool) (s : State) : (withBit b s).caps = s.caps := by rw [withBit_frame]

@[simp] theorem byteAt_withBit (b : Bool) (s : State) : (withBit b s).byteAt = s.byteAt := by rw [withBit_frame]; rfl

theorem totalBits_withBit (h : s.totalBits.toNat + 1 < 2 ^ 64) :
    (withBit b s).totalBits = s.totalBits + 1#64 ∧ (withBit b s).freeCount = s.freeCount := by
  obtain ⟨hfit, hcount⟩ := fitOrFree_eq h s
  simp only [withBit, hfit, hcount, and_true]
  rw [BitVec.ofNat_add, BitVec.ofNat_toNat, BitVec.setWidth_eq]

/-! ### `BP.PUTBIT` (R182) -/

/-- Everything a `BP.PUTBIT` with its precondition does, in terms of the two writes. -/
theorem bpPutbit_eq (h : s.accN.toNat < 8) :
    bpPutbit b s =
      if (withBit b s).accN = 8#4 then flushByte (withBit b s).acc (withBit b s) else .ok (withBit b s) := by
  have hacc : (BitVec.ofBool b).setWidth 8 = if b then 1#8 else 0#8 := by cases b <;> rfl
  have haccN : BitVec.ofNat 4 (s.accN.toNat + 1) = s.accN + 1#4 := by
    rw [BitVec.ofNat_add, BitVec.ofNat_toNat, BitVec.setWidth_eq]
  simp only [bpPutbit, if_neg (Nat.not_le.2 h), hacc, haccN]
  rfl

theorem bpPutbit_join (h : s.accN.toNat < 7) : bpPutbit b s = .ok (withBit b s) := by
  have hne : (withBit b s).accN ≠ 8#4 := fun heq => by
    have hn : (8#4).toNat = s.accN.toNat + 1 := by rw [← heq, accN_withBit (by omega)]
    bv_omega
  rw [bpPutbit_eq (by omega), if_neg hne]

theorem bpPutbit_flush (h : s.accN = 7#4) (hroom : s.pkLen.toNat < s.caps.pkCap.toNat) :
    bpPutbit b s = .ok (flushed (withBit b s).acc (withBit b s)) := by
  rw [bpPutbit_eq (by rw [h]; decide), if_pos (accN_withBit_eq_eight h),
    flushByte_room (by simpa using hroom)]

theorem bpPutbit_full (h : s.accN = 7#4) (hfull : s.caps.pkCap.toNat ≤ s.pkLen.toNat) :
    bpPutbit b s = .error (.raised (errorEntry .storeOverflow 1 (withBit b s))) := by
  rw [bpPutbit_eq (by rw [h]; decide), if_pos (accN_withBit_eq_eight h),
    flushByte_full (by simpa using hfull)]

/-! ### `BP.FLUSH` (R185) -/

theorem bpFlush_pending (h : 1 ≤ s.accN.toNat) :
    bpFlush s = flushByte (paddedByte s) s >>= fun t => .ok (if s.accN.toNat ≤ 8 then t else takeFree t) :=
  if_neg fun h0 => by rw [h0] at h; exact absurd h (by decide)

theorem bpFlush_room (hpending : 1 ≤ s.accN.toNat) (hroom : s.pkLen.toNat < s.caps.pkCap.toNat) :
    bpFlush s = .ok (if s.accN.toNat ≤ 8 then flushed (paddedByte s) s else takeFree (flushed (paddedByte s) s)) := by
  rw [bpFlush_pending hpending, flushByte_room hroom]
  rfl

theorem bpFlush_full (hpending : 1 ≤ s.accN.toNat) (hfull : s.caps.pkCap.toNat ≤ s.pkLen.toNat) :
    bpFlush s = .error (.raised (errorEntry .storeOverflow 1 s)) := by
  rw [bpFlush_pending hpending, flushByte_full hfull]
  rfl

/-! ### The bits appended so far (R186) -/

@[simp] theorem length_packedBits (s : State) : (packedBits s).length = 8 * s.pkLen.toNat + s.accN.toNat := by
  simp [packedBits]

/-- A bit that joins the accumulator is the last of the bits appended. -/
theorem packedBits_withBit (h : s.accN.toNat < 8) : packedBits (withBit b s) = packedBits s ++ [b] := by
  have hstored : streamBit (withBit b s) = streamBit s := by
    funext p
    rw [streamBit, byteAt_withBit, streamBit]
  have hacc : (withBit b s).acc = (s.acc <<< 1) ||| (if b then 1#8 else 0#8) := rfl
  have hlast : (withBit b s).acc.getLsbD 0 = b := by cases b <;> simp [hacc]
  have hbefore : ∀ j, j < 7 → (withBit b s).acc.getLsbD (j + 1) = s.acc.getLsbD j := fun j hj => by
    cases b <;> simp [hacc, BitVec.getLsbD_one] <;> omega
  rw [packedBits, packedBits, pkLen_withBit, hstored, accN_withBit h, List.range_succ, List.map_append,
    List.append_assoc]
  congr 2
  · refine List.map_congr_left fun k hk => ?_
    have hk := List.mem_range.1 hk
    rw [← hbefore _ (by omega)]
    congr 1
    omega
  · rw [List.map_singleton, Nat.add_sub_cancel, Nat.sub_self, hlast]

/-- The flush of eight pending bits moves them to `PK` and appends none. -/
theorem packedBits_flushed (h : s.accN = 8#4) (hroom : s.pkLen.toNat < s.caps.pkCap.toNat) :
    packedBits (flushed s.acc s) = packedBits s := by
  have hbefore : ∀ p, p < 8 * s.pkLen.toNat → streamBit (flushed s.acc s) p = streamBit s p := fun p hp => by
    rw [streamBit, byteAt_flushed, if_neg (by omega), streamBit]
  have hlast : ∀ k, k < 8 → streamBit (flushed s.acc s) (8 * s.pkLen.toNat + k) = s.acc.getLsbD (8 - 1 - k) :=
    fun k hk => by
      rw [streamBit, byteAt_flushed, if_pos (by omega)]
      congr 1
      omega
  have hnone : (flushed s.acc s).accN.toNat = 0 := rfl
  have h8 : s.accN.toNat = 8 := by rw [h]; rfl
  rw [packedBits, packedBits, hnone, h8, toNat_pkLen_flushed hroom, Nat.mul_succ, List.range_add, List.map_append,
    List.map_map, List.range_zero, List.map_nil, List.append_nil]
  congr 1
  · exact List.map_congr_left fun p hp => hbefore p (List.mem_range.1 hp)
  · exact List.map_congr_left fun k hk => hlast k (List.mem_range.1 hk)

/-! ### Appending a bit-string

`Packs bs s r`: the computation `r` from `s` appends `bs` if `PK` has room for the bytes that they fill, and overflows
if it has not. It holds of one `BP.PUTBIT`, and `Packs.bind` and `Packs.foldlM` carry it through the loops. -/

/-- From `s` to `t` the packer has appended `bs`; nothing but its own state, and the model's count of free values, is
written. -/
structure Appends (bs : List Bool) (s t : State) : Prop where
  bits : packedBits t = packedBits s ++ bs
  accN : t.accN.toNat < 8
  total : s.totalBits.toNat + bs.length < 2 ^ 64 →
    t.totalBits.toNat = s.totalBits.toNat + bs.length ∧ t.freeCount = s.freeCount
  byteAt : ∀ a, a < s.pkLen.toNat ∨ t.pkLen.toNat ≤ a → t.byteAt .pk a = s.byteAt .pk a
  frame : t = { s with
    acc := t.acc, accN := t.accN, totalBits := t.totalBits, pkLen := t.pkLen, pkStore := t.pkStore,
    freeCount := t.freeCount }

/-- From `s` the packer has ended in `StoreOverflow(1)`, raised by `BP.PUTBIT` with its eighth bit pending, after
writes to nothing but its own state. -/
def Overflows (s v : State) : Prop :=
  ∃ u, v = errorEntry .storeOverflow 1 u ∧ u.uop = 0x51#8 ∧ u.accN = 8#4 ∧
    u = { s with
      uop := u.uop, acc := u.acc, accN := u.accN, totalBits := u.totalBits, pkLen := u.pkLen, pkStore := u.pkStore,
      freeCount := u.freeCount }

/-- The number of full bytes of `PK` once `bs` has been appended. -/
def fullBytes (s : State) (bs : List Bool) : Nat := (8 * s.pkLen.toNat + s.accN.toNat + bs.length) / 8

/-- `r`, run from `s`, appends `bs`, or overflows where `PK` is too small for the full bytes (R186). -/
structure Packs (bs : List Bool) (s : State) (r : Res State) : Prop where
  room : fullBytes s bs ≤ s.caps.pkCap.toNat → ∃ t, r = .ok t ∧ Appends bs s t
  full : s.pkLen.toNat ≤ s.caps.pkCap.toNat → s.caps.pkCap.toNat < fullBytes s bs →
    ∃ v, r = .error (.raised v) ∧ Overflows s v

variable {bs cs : List Bool}

theorem Appends.refl (h : s.accN.toNat < 8) : Appends [] s s :=
  ⟨(List.append_nil _).symm, h, fun _ => ⟨rfl, rfl⟩, fun _ _ => rfl, rfl⟩

theorem Appends.count (h : Appends bs s t) :
    8 * t.pkLen.toNat + t.accN.toNat = 8 * s.pkLen.toNat + s.accN.toNat + bs.length := by
  simpa using congrArg List.length h.bits

theorem Appends.caps (h : Appends bs s t) : t.caps = s.caps := by rw [h.frame]

theorem Appends.codeAt (h : Appends bs s t) : t.codeAt = s.codeAt := by rw [h.frame]; rfl

theorem Appends.byteAt_inp (h : Appends bs s t) : t.byteAt .inp = s.byteAt .inp := by rw [h.frame]; rfl

theorem Appends.trans (hst : Appends bs s t) (htu : Appends cs t u) : Appends (bs ++ cs) s u where
  bits := by rw [htu.bits, hst.bits, List.append_assoc]
  accN := htu.accN
  total hfit := by
    rw [List.length_append] at hfit ⊢
    obtain ⟨ht, hfree⟩ := hst.total (by omega)
    obtain ⟨hu, hfree'⟩ := htu.total (by omega)
    exact ⟨by omega, hfree'.trans hfree⟩
  byteAt a ha := by
    have := hst.accN
    have := htu.accN
    have := hst.count
    have := htu.count
    rw [htu.byteAt a (by omega), hst.byteAt a (by omega)]
  frame := by
    have h := htu.frame
    rw [hst.frame] at h
    exact h

theorem Overflows.of_appends (hst : Appends bs s t) (h : Overflows t v) : Overflows s v := by
  obtain ⟨u, rfl, huop, haccN, hframe⟩ := h
  rw [hst.frame] at hframe
  exact ⟨u, rfl, huop, haccN, hframe⟩

theorem fullBytes_append (hst : Appends bs s t) (cs : List Bool) : fullBytes t cs = fullBytes s (bs ++ cs) := by
  have := hst.count
  rw [fullBytes, fullBytes, List.length_append]
  omega

/-- A computation that appends `bs` where there is room for them packs them. -/
theorem Packs.of_appends {r : Res State}
    (hroom : s.pkLen.toNat ≤ s.caps.pkCap.toNat → fullBytes s bs ≤ s.caps.pkCap.toNat)
    (hr : r = .ok t) (hst : Appends bs s t) : Packs bs s r :=
  ⟨fun _ => ⟨t, hr, hst⟩, fun hlen hfull => absurd (hroom hlen) (Nat.not_le.2 hfull)⟩

/-- What is appended in two steps overflows in the first step or, after it, in the second. -/
theorem Packs.bind {r : Res State} {f : State → Res State} (hr : Packs bs s r)
    (hf : ∀ t, Appends bs s t → Packs cs t (f t)) : Packs (bs ++ cs) s (r >>= f) where
  room hroom := by
    have hle : fullBytes s bs ≤ fullBytes s (bs ++ cs) := by
      rw [fullBytes, fullBytes, List.length_append]
      omega
    obtain ⟨t, rfl, hst⟩ := hr.room (hle.trans hroom)
    obtain ⟨u, hu, htu⟩ := (hf t hst).room (by rw [fullBytes_append hst, hst.caps]; exact hroom)
    exact ⟨u, hu, hst.trans htu⟩
  full hlen hfull := by
    rcases Nat.lt_or_ge s.caps.pkCap.toNat (fullBytes s bs) with hfirst | hroom
    · obtain ⟨v, rfl, hv⟩ := hr.full hlen hfirst
      exact ⟨v, rfl, hv⟩
    · obtain ⟨t, rfl, hst⟩ := hr.room hroom
      have hlen' : t.pkLen.toNat ≤ t.caps.pkCap.toNat := by
        have := hst.count
        have := hst.accN
        rw [hst.caps]
        rw [fullBytes] at hroom
        omega
      obtain ⟨v, hv, hover⟩ := (hf t hst).full hlen' (by rw [fullBytes_append hst, hst.caps]; exact hfull)
      exact ⟨v, hv, hover.of_appends hst⟩

/-- A loop appends what its iterations append. -/
theorem Packs.foldlM {f : State → Nat → Res State} {g : Nat → List Bool} {l : List Nat} (hs : s.accN.toNat < 8)
    (hf : ∀ bs t k, k ∈ l → Appends bs s t → Packs (g k) t (f t k)) : Packs (l.flatMap g) s (l.foldlM f s) := by
  induction l generalizing s with
  | nil =>
    refine .of_appends (fun hlen => ?_) rfl (.refl hs)
    rw [fullBytes, List.flatMap_nil, List.length_nil]
    omega
  | cons a l ih =>
    rw [List.flatMap_cons, List.foldlM_cons]
    refine (hf [] s a List.mem_cons_self (.refl hs)).bind fun t hst => ih hst.accN fun cs u k hk htu => ?_
    exact hf _ u k (List.mem_cons_of_mem _ hk) (hst.trans htu)

/-- A callee that packs is called with its id in `UOP`, which the caller has back where it succeeds (R25). -/
theorem Packs.callUop {id : BitVec 8} {f : State → Res State}
    (h : Packs bs { s with uop := id } (f { s with uop := id })) : Packs bs s (callUop id f s) where
  room hroom := by
    obtain ⟨t, ht, hst⟩ := h.room hroom
    refine ⟨{ t with uop := s.uop }, by rw [Machine.callUop, ht]; rfl, hst.bits, hst.accN, hst.total, hst.byteAt, ?_⟩
    rw [hst.frame]
  full hlen hfull := by
    obtain ⟨v, hv, hover⟩ := h.full hlen hfull
    exact ⟨v, by rw [Machine.callUop, hv]; rfl, hover⟩

/-! ### `BP.PUTBIT`, `BP.PUTCODE` and `BP.PACK` pack (R182 to R184) -/

/-- A `BP.PUTBIT` that succeeds appends its bit. -/
theorem appends_of_bpPutbit (h : bpPutbit b s = .ok t) (hbits : packedBits t = packedBits s ++ [b])
    (hbyte : ∀ a, a < s.pkLen.toNat ∨ t.pkLen.toNat ≤ a → t.byteAt .pk a = s.byteAt .pk a) : Appends [b] s t := by
  obtain ⟨-, haccN, htotal, -, hfree, hframe⟩ := bpPutbit_ok h
  refine ⟨hbits, haccN, fun hfit => ?_, hbyte, hframe⟩
  have hfit : s.totalBits.toNat + 1 < 2 ^ 64 := hfit
  rw [htotal, hfree, toNat_fitOrFree hfit, (fitOrFree_eq hfit s).2]
  exact ⟨rfl, rfl⟩

theorem appends_withBit (h : s.accN.toNat < 7) : Appends [b] s (withBit b s) :=
  appends_of_bpPutbit (bpPutbit_join h) (packedBits_withBit (by omega)) fun a _ => by rw [byteAt_withBit]

theorem appends_flushed (h : s.accN = 7#4) (hroom : s.pkLen.toNat < s.caps.pkCap.toNat) :
    Appends [b] s (flushed (withBit b s).acc (withBit b s)) := by
  have hroom' : (withBit b s).pkLen.toNat < (withBit b s).caps.pkCap.toNat := by simpa using hroom
  refine appends_of_bpPutbit (bpPutbit_flush h hroom) ?_ fun a ha => ?_
  · rw [packedBits_flushed (accN_withBit_eq_eight h) hroom', packedBits_withBit (by rw [h]; decide)]
  · rw [toNat_pkLen_flushed hroom', pkLen_withBit] at ha
    rw [byteAt_flushed, pkLen_withBit, if_neg (by omega), byteAt_withBit]

/-- A `BP.PUTBIT` that a program has called appends its bit, and raises where that is the eighth and `PK` is full. -/
theorem packs_bpPutbit (huop : s.uop = 0x51#8) (h : s.accN.toNat < 8) : Packs [b] s (bpPutbit b s) := by
  have hbytes : fullBytes s [b] = s.pkLen.toNat + (s.accN.toNat + 1) / 8 := by
    rw [fullBytes, List.length_singleton]
    omega
  rcases Nat.lt_or_eq_of_le (Nat.le_of_lt_succ h) with hfew | h7
  · exact .of_appends (fun hlen => by omega) (bpPutbit_join hfew) (appends_withBit hfew)
  · have hacc : s.accN = 7#4 := BitVec.eq_of_toNat_eq h7
    rcases Nat.lt_or_ge s.pkLen.toNat s.caps.pkCap.toNat with hroom | hfull
    · exact .of_appends (fun _ => by omega) (bpPutbit_flush hacc hroom) (appends_flushed hacc hroom)
    · refine ⟨fun hroom => absurd hroom (by omega), fun _ _ => ⟨_, bpPutbit_full hacc hfull, withBit b s, rfl, ?_,
        accN_withBit_eq_eight hacc, ?_⟩⟩
      · rw [withBit_frame]
        exact huop
      · rw [withBit_frame]

theorem packs_bpPutcode {y : Sym} (hvalid : (s.codeAt y.toNat).valid = true) (h : s.accN.toNat < 8) :
    Packs (codeString (s.codeAt y.toNat)) s (bpPutcode y s) := by
  rw [bpPutcode, if_pos hvalid, codeString, ← List.flatMap_pure_eq_map]
  exact .foldlM h fun _ t k _ hst => .callUop (packs_bpPutbit rfl hst.accN)

theorem packs_packByte {i : Nat} (hi : i < s.capacity .inp)
    (hvalid : (s.codeAt (s.byteAt .inp i).toNat).valid = true) (h : s.accN.toNat < 8) :
    Packs (codeString (s.codeAt (s.byteAt .inp i).toNat)) s (packByte s i) := by
  rw [packByte, readByte_eq hi]
  exact .callUop (packs_bpPutcode (s := { s with uop := 0x52#8 }) hvalid h)

theorem packs_bpPack (hlen : s.inLen.toNat ≤ s.caps.inCap.toNat)
    (hvalid : ∀ i, i < s.inLen.toNat → (s.codeAt (s.byteAt .inp i).toNat).valid = true) (h : s.accN.toNat < 8) :
    Packs (inputCodeBits s) s (bpPack s) :=
  .foldlM h fun bs t i hi hst => by
    have hi := List.mem_range.1 hi
    have hcap : i < t.capacity .inp := by
      rw [State.capacity, hst.caps]
      omega
    have hpack := packs_packByte (i := i) hcap (by rw [hst.codeAt, hst.byteAt_inp]; exact hvalid i hi) hst.accN
    rwa [hst.codeAt, hst.byteAt_inp] at hpack

end

/-! ### The statements -/

theorem exec_bpPutbit (b : Bool) (s : State) : exec (.bpPutbit b) s = finish (bpPutbit b s) := rfl

/-- Settles O26: the three ways of `BP.PUTBIT`, each to the state its lemma names. -/
theorem bpPutbitResult : Obligations.BpPutbitResult := by
  refine fun s b => ⟨fun hfew => ?_, fun h7 hroom => ?_, fun h7 hfull => ?_⟩
  · exact ⟨_, by rw [exec_bpPutbit, bpPutbit_join hfew, finish_ok], totalBits_withBit, withBit_frame b s⟩
  · refine ⟨flushed (withBit b s).acc (withBit b s), by rw [exec_bpPutbit, bpPutbit_flush h7 hroom, finish_ok], ?_,
      fun a ha => ?_, totalBits_withBit (b := b), ?_⟩
    · rw [byteAt_flushed, pkLen_withBit, if_pos rfl]
      rfl
    · rw [byteAt_flushed, pkLen_withBit, if_neg ha, byteAt_withBit]
    · rw [withBit_frame]
      rfl
  · exact ⟨_, by rw [exec_bpPutbit, bpPutbit_full h7 hfull, finish_raised], totalBits_withBit, by
      rw [withBit_frame, h7]; rfl⟩

theorem exec_bpFlush (s : State) : exec .bpFlush s = finish (bpFlush s) := rfl

/-- Settles O30: the byte flushed is `paddedByte`, which R185 states up to eight pending bits. -/
theorem bpFlushResult : Obligations.BpFlushResult := by
  refine fun s => ⟨fun hnone => ?_, fun hpending hroom => ?_, fun hpending hfull => ?_⟩
  · rw [exec_bpFlush, bpFlush, if_pos hnone, finish_ok]
  · refine ⟨_, by rw [exec_bpFlush, bpFlush_room hpending hroom, finish_ok], fun h8 => ?_, fun a ha => ?_, ?_⟩
    · rw [if_pos h8, byteAt_flushed, if_pos rfl, paddedByte, if_pos h8]
      exact ⟨rfl, rfl⟩
    · have hbyte : (flushed (paddedByte s) s).byteAt .pk a = s.byteAt .pk a := by rw [byteAt_flushed, if_neg ha]
      split <;> exact hbyte
    · split <;> rfl
  · rw [exec_bpFlush, bpFlush_full hpending hfull, finish_raised]

theorem exec_bpPutcode (y : Sym) (s : State) : exec (.bpPutcode y) s = finish (bpPutcode y s) := rfl

theorem exec_bpPack (s : State) : exec .bpPack s = finish (bpPack s) := rfl

/-- Settles O27: the code is packed by `packs_bpPutcode`, and there is room for it. -/
theorem bpPutcodeResult : Obligations.BpPutcodeResult := by
  intro s y hvalid hacc hroom
  obtain ⟨t, hrun, ht⟩ := (packs_bpPutcode hvalid hacc).room (by rw [fullBytes, length_codeString]; exact hroom)
  refine ⟨t, by rw [exec_bpPutcode, hrun, finish_ok], ht.bits, fun hfit => ?_, ht.accN, ht.byteAt, ht.frame⟩
  simpa using ht.total (by simpa using hfit)

/-- Settles O28: the codes are packed by `packs_bpPack`, and there is room for them. -/
theorem bpPackResult : Obligations.BpPackResult := by
  intro s hlen hvalid hacc hroom
  obtain ⟨t, hrun, ht⟩ := (packs_bpPack hlen hvalid hacc).room hroom
  exact ⟨t, by rw [exec_bpPack, hrun, finish_ok], ht.bits, ht.total, ht.accN, ht.byteAt, ht.frame⟩

/-- Settles O29: where there is no room, `packs_bpPack` ends in the error entry that `Overflows` states. -/
theorem bpPackOverflow : Obligations.BpPackOverflow := by
  intro s hcmd hlen hvalid hacc hpk hfull
  obtain ⟨v, hrun, u, rfl, huop, haccN, hframe⟩ := (packs_bpPack hlen hvalid hacc).full hpk hfull
  have hcmd' : u.curCmd = 1#2 := by rw [hframe]; exact hcmd
  have hstep : u.step = s.step := by rw [hframe]
  exact ⟨errorEntry .storeOverflow 1 u, by rw [exec_bpPack, hrun, finish_raised], rfl, rfl, rfl, rfl, rfl, huop, hstep,
    if_pos hcmd', if_pos hcmd', haccN⟩

end Sys2Proof.Proofs
end

section
/-! Proofs of the codebook codec family: what `CC.DESERIALIZE` raises, and what `CC.CHECK` passes. -/

namespace Sys2Proof.Proofs

open Sys2Proof.Machine Sys2Proof.Safety

/-! ### Operations that never stop the machine -/

/-- The operation succeeds or raises: it ends in no fault and no refusal. -/
def NeverStops {α : Type} : Res α → Prop
  | .ok _ | .error (.raised _) => True
  | .error (.fault _) | .error (.refused _) => False

section NeverStops

variable {α β : Type}

theorem neverStops_ok (a : α) : NeverStops (.ok a : Res α) := trivial

theorem neverStops_raise (e : ErrKind) (sub : BitVec 8) (s : State) : NeverStops (raise e sub s : Res α) := trivial

theorem NeverStops.bind {r : Res α} {f : α → Res β} (hr : NeverStops r) (hf : ∀ a, NeverStops (f a)) :
    NeverStops (r >>= f) := by
  rcases r with (_ | _ | _) | a
  · trivial
  · exact hr
  · exact hr
  · exact hf a

theorem NeverStops.ite {c : Prop} [Decidable c] {r r' : Res α} (hr : c → NeverStops r) (hr' : ¬c → NeverStops r') :
    NeverStops (if c then r else r') := by
  split
  · next h => exact hr h
  · next h => exact hr' h

theorem NeverStops.isNext_finish {r : Res State} (h : NeverStops r) : isNext (finish r) = true := by
  rcases r with (_ | _ | _) | _
  · rfl
  · exact h.elim
  · exact h.elim
  · rfl

end NeverStops

/-! ### The header checks (R198 to R200) -/

/-- The entries read and nothing left over (R204): what `CC.DESERIALIZE` does after the header. -/
def readToEnd (n p : Nat) (prev : Option Sym) (s : State) : Res State := do
  let (q, t) ← readEntries n p prev s
  if q ≠ t.cbLen.toNat then raise .corruptCodebook 7 t else .ok t

theorem readCodebook_clearTable (s : State) :
    readCodebook (clearTable s) =
      if 256 < beValue (bytesFrom s .cb 8 2) then
        raise .corruptCodebook 2 (headerRead s (beValue (bytesFrom s .cb 0 8)))
      else readToEnd (beValue (bytesFrom s .cb 8 2)) 10 none (headerRead s (beValue (bytesFrom s .cb 0 8))) := by
  rw [readCodebook_eq, bytesFrom_clearTable, bytesFrom_clearTable]
  rfl

theorem readEntries_neverStops {n p : Nat} {prev : Option Sym} {s : State} (hcap : s.cbLen.toNat ≤ 8714) :
    NeverStops (readEntries n p prev s) := by
  induction n generalizing p prev s with
  | zero => exact neverStops_ok _
  | succ n ih =>
    rw [readEntries_succ hcap]
    refine .ite (fun _ => neverStops_raise ..) fun _ => ?_
    refine .ite (fun _ => neverStops_raise ..) fun _ => ?_
    refine .ite (fun _ => neverStops_raise ..) fun _ => ?_
    refine .ite (fun _ => neverStops_raise ..) fun _ => ?_
    exact .ite (fun _ => neverStops_raise ..) fun _ => ih (by rwa [cbLen_loadEntry])

theorem readToEnd_neverStops {n p : Nat} {prev : Option Sym} {s : State} (hcap : s.cbLen.toNat ≤ 8714) :
    NeverStops (readToEnd n p prev s) :=
  (readEntries_neverStops hcap).bind fun _ => .ite (fun _ => neverStops_raise ..) fun _ => neverStops_ok _

theorem ccDeserialize_neverStops (s : State) : NeverStops (ccDeserialize s) := by
  rw [ccDeserialize_eq]
  refine .ite (fun _ => neverStops_raise ..) fun hcap => .ite (fun _ => neverStops_raise ..) fun _ => ?_
  rw [readCodebook_clearTable]
  exact .ite (fun _ => neverStops_raise ..) fun _ => readToEnd_neverStops (by rw [cbLen_headerRead]; omega)

theorem beValue_bytesFrom_two (s : State) (S : StoreId) (p : Nat) :
    beValue (bytesFrom s S p 2) = 256 * (s.byteAt S p).toNat + (s.byteAt S (p + 1)).toNat := by
  rw [bytesFrom_append s S p 1 1, bytesFrom_one, bytesFrom_one]
  simp [beValue, Nat.mul_comm]

/-- Settles O34: the checks of `CB_LEN` are the branches of `ccDeserialize_eq`, that of the number of entries is the
branch of `readCodebook_clearTable`. -/
theorem ccDeserializeHeaderChecks : Obligations.CcDeserializeHeaderChecks := by
  intro s
  simp only [exec_ccDeserialize]
  refine ⟨(ccDeserialize_neverStops s).isNext_finish, fun hbig => ?_, fun hsmall => ?_, fun hmin hcap hE => ?_⟩
  · rw [ccDeserialize_eq, if_pos hbig]
    rfl
  · rw [ccDeserialize_eq, if_neg (by omega), if_pos hsmall]
    rfl
  · refine ⟨headerRead s (beValue (bytesFrom s .cb 0 8)), ?_, rfl⟩
    rw [ccDeserialize_eq, if_neg (by omega), if_neg (by omega), readCodebook_clearTable, beValue_bytesFrom_two,
      if_pos hE]
    rfl

/-! ### The first bad entry (R201 to R204) -/

theorem padBitSet_eq_true {n : Nat} {bs : List Byte} :
    padBitSet n bs = true ↔ ∃ k, n ≤ k ∧ k < 8 * bs.length ∧ bytesBit bs k = true := by
  rw [← Bool.not_eq_false, padBitSet_eq_false]
  push Not
  simp

@[simp] theorem bytesFrom_loadEntries (es : List (Sym × List Bool)) (s : State) (S : StoreId) (p n : Nat) :
    bytesFrom (loadEntries es s) S p n = bytesFrom s S p n := by
  rw [loadEntries_frame]
  cases S <;> rfl

/-- The codebook's bytes from address `p` to its end are `rest`. -/
structure Remains (s : State) (p : Nat) (rest : List Byte) : Prop where
  bytes : bytesFrom s .cb p rest.length = rest
  stop : s.cbLen.toNat = p + rest.length
  cap : s.cbLen.toNat ≤ 8714

section Remains

variable {s : State} {p n : Nat} {prev : Option Sym} {l y : Byte} {c r : List Byte}

theorem Remains.byteAt (h : Remains s p (l :: r)) : s.byteAt .cb p = l := by
  obtain ⟨hl, -⟩ := bytesFrom_eq_append (as := [l]) h.bytes
  simpa [bytesFrom_one] using hl

theorem Remains.drop {as bs : List Byte} (h : Remains s p (as ++ bs)) : Remains s (p + as.length) bs :=
  ⟨(bytesFrom_eq_append h.bytes).2, by rw [h.stop, List.length_append, Nat.add_assoc], h.cap⟩

/-- A length byte, code bytes of that length and a symbol byte stand where an entry is read. -/
theorem Remains.entry (h : Remains s p (l :: c ++ y :: r)) :
    bytesFrom s .cb (p + 1) c.length = c ∧ s.byteAt .cb (p + 1 + c.length) = y ∧
      p + 2 + c.length ≤ s.cbLen.toNat := by
  have hcode : Remains s (p + 1) (c ++ y :: r) := h.drop (as := [l])
  have hend := hcode.drop.stop
  rw [List.length_cons] at hend
  exact ⟨(bytesFrom_eq_append hcode.bytes).1, hcode.drop.byteAt, by omega⟩

/-- No byte left (R201). -/
theorem Remains.readEntries_nil (h : Remains s p []) :
    readEntries (n + 1) p prev s = raise .corruptCodebook 3 s := by
  rw [readEntries_succ h.cap]
  exact if_pos (Nat.le_of_eq h.stop)

/-- A length byte of 0 (R202). -/
theorem Remains.readEntries_zero (h : Remains s p (0#8 :: r)) :
    readEntries (n + 1) p prev s = raise .corruptCodebook 4 s := by
  have hend := h.stop
  rw [List.length_cons] at hend
  rw [readEntries_succ h.cap, if_neg (by omega), if_pos h.byteAt]

/-- A length byte that asks for more bytes than are left (R201). -/
theorem Remains.readEntries_short (h : Remains s p (l :: r)) (hl : l ≠ 0#8) (hr : r.length < bytesFor l.toNat + 1) :
    readEntries (n + 1) p prev s = raise .corruptCodebook 3 s := by
  have hend := h.stop
  rw [List.length_cons] at hend
  rw [readEntries_succ h.cap]
  simp only [h.byteAt]
  rw [if_neg (by omega), if_neg hl, if_pos (by omega)]

/-- Where the bytes of a whole entry are left, the pad bits and then the symbol decide (R202, R203). -/
theorem Remains.readEntries_entry (h : Remains s p (l :: c ++ y :: r)) (hl : l ≠ 0#8)
    (hc : c.length = bytesFor l.toNat) :
    readEntries (n + 1) p prev s =
      if padBitSet l.toNat c then raise .corruptCodebook 5 s
      else if prev.any (fun q => decide (y.toNat ≤ q.toNat)) then raise .corruptCodebook 6 s
      else readEntries n (p + 2 + c.length) (some y) (loadEntry s (y, firstBits l.toNat c)) := by
  obtain ⟨hcode, hsym, hend⟩ := h.entry
  have hlen : s.byteAt .cb p = l := h.byteAt
  rw [readEntries_succ h.cap]
  simp only [hlen, ← hc, hcode, hsym]
  rw [if_neg (by omega), if_neg hl, if_neg (by omega)]

/-- A pad bit of the last code byte is 1 (R202). -/
theorem Remains.readEntries_padBit (h : Remains s p (l :: c ++ y :: r)) (hl : l ≠ 0#8)
    (hc : c.length = bytesFor l.toNat) (hpad : ∃ q, l.toNat ≤ q ∧ q < 8 * c.length ∧ bytesBit c q = true) :
    readEntries (n + 1) p prev s = raise .corruptCodebook 5 s := by
  rw [h.readEntries_entry hl hc, if_pos (padBitSet_eq_true.2 hpad)]

/-- The symbol is not above the one accepted before it (R203). -/
theorem Remains.readEntries_notAbove {q : Sym} (h : Remains s p (l :: c ++ y :: r)) (hl : l ≠ 0#8)
    (hc : c.length = bytesFor l.toNat) (hpad : ∀ j, l.toNat ≤ j → j < 8 * c.length → bytesBit c j = false)
    (hprev : prev = some q) (hle : y.toNat ≤ q.toNat) :
    readEntries (n + 1) p prev s = raise .corruptCodebook 6 s := by
  have hany : prev.any (fun q => decide (y.toNat ≤ q.toNat)) = true := by simpa [hprev] using hle
  rw [h.readEntries_entry hl hc, padBitSet_eq_false.2 hpad, if_neg Bool.false_ne_true, if_pos hany]

end Remains

/-- A check that fails ends the reading. -/
theorem readToEnd_of_raise {n p : Nat} {prev : Option Sym} {s t : State} {e : ErrKind} {k : BitVec 8}
    (h : readEntries n p prev s = raise e k t) : readToEnd n p prev s = raise e k t := by
  rw [readToEnd, h]
  rfl

/-- Bytes left after the last entry (R204). -/
theorem Remains.readToEnd_zero {s : State} {p : Nat} {rest : List Byte} (h : Remains s p rest) (hrest : rest ≠ [])
    (prev : Option Sym) : readToEnd 0 p prev s = raise .corruptCodebook 7 s := by
  have hpos := List.length_pos_of_ne_nil hrest
  have hstop := h.stop
  exact if_pos (by omega)

section

variable {s : State} {T E : Nat} {es : List (Sym × List Bool)} {rest : List Byte}

/-- A header that passes its checks is read, and the entries follow. -/
theorem ccDeserialize_header (hT : T < 2 ^ 64) (hE : E ≤ 256) (hmin : 10 ≤ s.cbLen.toNat)
    (hcap : s.cbLen.toNat ≤ 8714) (hmarker : bytesFrom s .cb 0 8 = beBytes 8 T)
    (hcount : bytesFrom s .cb 8 2 = beBytes 2 E) :
    ccDeserialize s = readToEnd E 10 none (headerRead s T) := by
  rw [ccDeserialize_eq, if_neg (by omega), if_neg (by omega), readCodebook_clearTable, hmarker, hcount,
    beValue_beBytes, beValue_beBytes, Nat.mod_eq_of_lt (by omega), Nat.mod_eq_of_lt (by omega), if_neg (by omega)]

/-- After a well-formed header and valid entries, the rest is read from the state that they leave. -/
theorem ccDeserialize_accepted (hT : T < 2 ^ 64) (hE : E ≤ 256) (hval : entriesValid es) (hlen : es.length ≤ E)
    (hcap : s.cbLen.toNat ≤ 8714)
    (hbytes : storeBytes s .cb s.cbLen.toNat = beBytes 8 T ++ beBytes 2 E ++ entriesBytes es ++ rest) :
    Remains (loadEntries es (headerRead s T)) (10 + (entriesBytes es).length) rest ∧
      ccDeserialize s = readToEnd (E - es.length) (10 + (entriesBytes es).length) (es.getLast?.map Prod.fst)
        (loadEntries es (headerRead s T)) := by
  rw [storeBytes_eq] at hbytes
  have hstop : s.cbLen.toNat = 10 + (entriesBytes es).length + rest.length := by
    have := congrArg List.length hbytes
    simp only [length_bytesFrom, List.length_append, length_beBytes] at this
    omega
  obtain ⟨hfront, hrest⟩ := bytesFrom_eq_append hbytes
  obtain ⟨hheader, hentries⟩ := bytesFrom_eq_append hfront
  obtain ⟨hmarker, hcount⟩ := bytesFrom_eq_append hheader
  simp only [List.length_append, length_beBytes, Nat.zero_add] at hmarker hcount hentries hrest
  have hread := readEntries_of_valid (s := headerRead s T) hcap (validAfter_none.2 hval)
    (by rwa [bytesFrom_headerRead]) (by rw [cbLen_headerRead]; omega) (E - es.length)
  rw [Nat.sub_add_cancel hlen, Option.or_none] at hread
  constructor
  · refine ⟨?_, by rwa [cbLen_loadEntries_headerRead], by rwa [cbLen_loadEntries_headerRead]⟩
    rwa [bytesFrom_loadEntries, bytesFrom_headerRead]
  · rw [ccDeserialize_header hT hE (by omega) hcap hmarker hcount, readToEnd, hread]
    rfl

end

/-- Settles O35: the valid entries are accepted by `ccDeserialize_accepted`, and each case of what is left is the lemma
about `Remains` that names its check. -/
theorem ccDeserializeEntryChecks : Obligations.CcDeserializeEntryChecks := by
  intro s T E es rest hT hE hval hlen hcap hbytes k hk
  obtain ⟨hrest, hread⟩ := ccDeserialize_accepted hT hE hval hlen hcap hbytes
  refine ⟨loadEntries es (headerRead s T), ?_,
    toNat_dcbCnt_loadEntries (length_le_of_entriesValid hval) rfl, by rw [loadEntries_frame]; rfl⟩
  suffices hraise : readToEnd (E - es.length) (10 + (entriesBytes es).length) (es.getLast?.map Prod.fst)
      (loadEntries es (headerRead s T)) = raise .corruptCodebook k (loadEntries es (headerRead s T)) by
    rw [exec_ccDeserialize, hread, hraise, raise, finish_raised]
  rcases hk with ⟨hall, hleft, rfl⟩ | hk
  · rw [← hall, Nat.sub_self]
    exact hrest.readToEnd_zero hleft _
  have hmissing : es.length < E := by
    rcases hk with h | h | h | h | h <;> exact h.1
  obtain ⟨m, hm⟩ := Nat.exists_eq_add_of_lt hmissing
  rw [show E - es.length = m + 1 by omega]
  refine readToEnd_of_raise ?_
  rcases hk with ⟨-, rfl, rfl⟩ | ⟨-, ⟨r, rfl⟩, rfl⟩ | ⟨-, ⟨l, r, rfl, hl, hshort⟩, rfl⟩ |
    ⟨-, ⟨l, c, y, r, rfl, hl, hc, hpad⟩, rfl⟩ | ⟨-, ⟨l, c, y, r, rfl, hl, hc, hpad, e, hlast, hle⟩, rfl⟩
  · exact hrest.readEntries_nil
  · exact hrest.readEntries_zero
  · exact hrest.readEntries_short hl hshort
  · exact hrest.readEntries_padBit hl hc hpad
  · exact hrest.readEntries_notAbove hl hc hpad (by rw [hlast]; rfl) hle

/-! ### `CC.CHECK` (R205) -/

theorem entryIsPrefix_iff {a b : CodeEntry} : entryIsPrefix a b = true ↔ codeString a <+: codeString b := by
  simp [entryIsPrefix, codeString, List.prefix_iff_getElem]

theorem entriesClash_eq_false {a b : CodeEntry} :
    entriesClash a b = false ↔ ¬ codeString a <+: codeString b ∧ ¬ codeString b <+: codeString a := by
  rw [entriesClash, Bool.or_eq_false_iff, ← entryIsPrefix_iff, ← entryIsPrefix_iff, Bool.not_eq_true, Bool.not_eq_true]

theorem anyClash_eq_false {l : List CodeEntry} :
    anyClash l = false ↔ l.Pairwise fun a b => entriesClash a b = false := by
  induction l with
  | nil => simp [anyClash]
  | cons e r ih => simp [anyClash, ih]

/-- `CC.CHECK` tries each pair of valid keys once, both ways round. -/
theorem anyClash_validKeys {s : State} : anyClash (validKeys s) = false ↔ keysPrefixFree s := by
  rw [anyClash_eq_false, validKeys, List.pairwise_filter, List.pairwise_map]
  constructor
  · intro h a ha b hb hab hva hvb
    have hpair {i j : Nat} (hij : i < j) (hj : j < 256) (hvi : (s.dcbAt i).valid = true)
        (hvj : (s.dcbAt j).valid = true) : entriesClash (s.dcbAt i) (s.dcbAt j) = false := by
      have hget := List.pairwise_iff_getElem.1 h i j (by simp only [List.length_range, Config.nsym]; omega)
        (by rwa [List.length_range]) hij
      rw [List.getElem_range, List.getElem_range] at hget
      exact hget hvi hvj
    rcases Nat.lt_or_gt_of_ne hab with hlt | hlt
    · exact (entriesClash_eq_false.1 (hpair hlt hb hva hvb)).1
    · exact (entriesClash_eq_false.1 (hpair hlt ha hvb hva)).2
  · intro h
    refine List.nodup_range.pairwise_of_forall_ne fun a ha b hb hab hva hvb => ?_
    rw [List.mem_range] at ha hb
    exact entriesClash_eq_false.2 ⟨h a ha b hb hab hva hvb, h b hb a ha hab.symm hvb hva⟩

theorem exec_ccCheck (s : State) : exec .ccCheck s = finish (ccCheck s) := rfl

/-- Settles O36: `CC.CHECK` branches on `anyClash`, which `anyClash_validKeys` reads off the table. -/
theorem ccCheckResult : Obligations.CcCheckResult := by
  intro s
  rw [exec_ccCheck, ccCheck, ← anyClash_validKeys, Bool.not_eq_false]
  refine ⟨fun h => ?_, fun h => ?_⟩
  · rw [h, if_neg Bool.false_ne_true, finish_ok]
  · rw [h, if_pos rfl, raise, finish_raised]

end Sys2Proof.Proofs
end

section
/-! Proofs of the decoder family: what `BU.GETBIT`, `DL.LOOKUP` and `SQ.EMIT` answer, how the scan of `SQ.RUN` ends,
and that it decodes a stream of keys. -/

namespace Sys2Proof.Proofs

open Sys2Proof.Machine Sys2Proof.Safety

/-! ### `BU.GETBIT` (R221) -/

/-- Where there is a stream bit and its byte, it is delivered, and `BITPOS` alone moves on. -/
theorem buGetbit_eq {s : State} (hpos : s.bitPos.toNat < 8 * s.pkLen.toNat)
    (hbyte : s.bitPos.toNat / 8 < s.caps.pkCap.toNat) :
    buGetbit s = .ok (streamBit s s.bitPos.toNat, { countFree 64 (s.bitPos.toNat + 1) s with
      bitPos := fitOrFree 64 (s.bitPos.toNat + 1) s }) := by
  rw [buGetbit, if_neg (by omega), readByte_eq (S := .pk) hbyte]
  rfl

/-- An increment that fits is the sum of the words. -/
theorem fitOrFree_succ {w : Nat} {v : BitVec w} (h : v.toNat + 1 < 2 ^ w) (s : State) :
    fitOrFree w (v.toNat + 1) s = v + 1#w := by
  rw [(fitOrFree_eq h s).1, BitVec.ofNat_add, BitVec.ofNat_toNat, BitVec.setWidth_eq]

theorem exec_buGetbit (s : State) : exec .buGetbit s = finishWith UopResult.bit (buGetbit s) := rfl

/-- Settles O38: `buGetbit_eq`, with `BITPOS` and the count of free values read off where `BITPOS` fits. -/
theorem buGetbitResult : Obligations.BuGetbitResult := by
  intro s hpos hbyte
  rw [exec_buGetbit, buGetbit_eq hpos hbyte, finishWith_ok]
  refine ⟨_, rfl, fun hfit => ⟨fitOrFree_succ hfit s, ?_⟩, ?_⟩
  · rw [(fitOrFree_eq hfit s).2]
  · rw [countFree_frame]
    rfl

/-! ### `DL.LOOKUP` (R223) -/

/-- The record of symbol `k` is valid and its key is the candidate. -/
def KeyMatches (s : State) (k : Nat) : Prop :=
  (s.dcbAt k).valid = true ∧ codeString (s.dcbAt k) = candString s

theorem entryMatches_iff {s : State} {e : CodeEntry} :
    entryMatches s e = true ↔ e.valid = true ∧ codeString e = candString s := by
  simp only [entryMatches, Bool.and_eq_true, decide_eq_true_eq, List.all_eq_true, List.mem_range, beq_iff_eq, and_assoc]
  refine and_congr_right fun _ => ⟨fun ⟨hlen, hbits⟩ => ?_, fun heq => ?_⟩
  · rw [codeString, candString, hlen]
    exact List.map_congr_left fun k hk => hbits k (List.mem_range.1 hk)
  · have hlen : e.len = s.candLen :=
      BitVec.eq_of_toNat_eq (by simpa [codeString, candString] using congrArg List.length heq)
    rw [codeString, candString, hlen, List.map_inj_left] at heq
    exact ⟨hlen, fun k hk => heq k (List.mem_range.2 hk)⟩

theorem dlLookup_eq_some {s : State} {y : Sym} :
    dlLookup s = some y ↔ KeyMatches s y.toNat ∧ ∀ k, k < y.toNat → ¬ KeyMatches s k := by
  have hy : y.toNat < 256 := y.isLt
  simp only [dlLookup, Option.map_eq_some_iff, List.find?_range_eq_some, List.mem_range, Bool.not_eq_true',
    ← Bool.not_eq_true, entryMatches_iff]
  constructor
  · rintro ⟨k, ⟨hkey, hk, hfirst⟩, rfl⟩
    rw [BitVec.toNat_ofNat, Nat.mod_eq_of_lt (show k < 2 ^ 8 from hk)]
    exact ⟨hkey, hfirst⟩
  · rintro ⟨hkey, hfirst⟩
    exact ⟨y.toNat, ⟨hkey, hy, hfirst⟩, by simp⟩

theorem dlLookup_eq_none {s : State} : dlLookup s = none ↔ ∀ k, k < 256 → ¬ KeyMatches s k := by
  simp only [dlLookup, Option.map_eq_none_iff, List.find?_range_eq_none, Bool.not_eq_true',
    ← Bool.not_eq_true, entryMatches_iff]
  rfl

theorem exec_dlLookup (s : State) : exec .dlLookup s = .next { s with result := .symbol (dlLookup s) } := rfl

/-- Settles O39: what `dlLookup` answers is read off by `dlLookup_eq_some` and `dlLookup_eq_none`. -/
theorem dlLookupResult : Obligations.DlLookupResult := by
  intro s
  refine ⟨dlLookup s, exec_dlLookup s, fun y hy => ?_, dlLookup_eq_none.1⟩
  obtain ⟨⟨hvalid, hkey⟩, hfirst⟩ := dlLookup_eq_some.1 hy
  exact ⟨hvalid, hkey, hfirst⟩

/-! ### `SQ.EMIT` (R224) -/

/-- Read after a write to `OUT`. -/
theorem byteAt_out_of_cellSet {s t : State} {i : Nat} {y : Sym} (hout : t.outStore = cellSet i y s.outStore)
    (hepoch : t.epoch = s.epoch) (a : Nat) : t.byteAt .out a = if a = i then y else s.byteAt .out a := by
  simp only [State.byteAt, State.store, hout, hepoch, cellGet_cellSet]
  split <;> rfl

theorem exec_sqEmit (y : Sym) (s : State) : exec (.sqEmit y) s = finish (sqEmit y s) := rfl

/-- Settles O40: the two cases of `sqEmit_cases`. -/
theorem sqEmitResult : Obligations.SqEmitResult := by
  intro s y
  rw [exec_sqEmit]
  rcases sqEmit_cases y s with ⟨hroom, heq⟩ | ⟨hfull, heq⟩ <;> rw [heq]
  · have hbyte := byteAt_out_of_cellSet (s := s) (i := s.outLen.toNat) (y := y)
      (t := { s with outLen := s.outLen + 1#64, outStore := cellSet s.outLen.toNat y s.outStore }) rfl rfl
    refine ⟨fun _ => ⟨_, finish_ok _, ?_, fun a ha => ?_, rfl⟩, fun h => absurd hroom (by omega)⟩
    · rw [hbyte, if_pos rfl]
    · rw [hbyte, if_neg ha]
  · exact ⟨fun h => absurd h (by omega), fun _ => finish_raised _⟩

/-! ### One turn of the scan (R225) -/

/-- The candidate has grown by the stream bit at `BITPOS`. -/
def extended (s : State) : State :=
  appendBit (streamBit s s.bitPos.toNat) { s with bitPos := s.bitPos + 1#64 }

/-- The symbol is in `OUT` and the candidate is empty again. -/
def emitted (y : Sym) (s : State) : State :=
  { s with cand := 0#255, candLen := 0#8, outLen := s.outLen + 1#64, outStore := cellSet s.outLen.toNat y s.outStore }

/-- From `s` to `t` only what the scan writes has changed. -/
def SameButScan (s t : State) : Prop :=
  t = { s with
    bitPos := t.bitPos, cand := t.cand, candLen := t.candLen, outLen := t.outLen, outStore := t.outStore
    freeCount := t.freeCount }

/-- The scan stands before the marker, and the store holds the stream up to it. -/
structure BeforeMarker (s : State) : Prop where
  before : s.bitPos.toNat < s.totalBits.toNat
  packed : s.totalBits.toNat ≤ 8 * s.pkLen.toNat
  stored : s.pkLen.toNat ≤ s.caps.pkCap.toNat

section

variable {s t u : State} {y : Sym}

theorem SameButScan.dcbAt (h : SameButScan s t) : t.dcbAt = s.dcbAt := by rw [h]; rfl

theorem SameButScan.streamBit (h : SameButScan s t) : streamBit t = streamBit s := by rw [h]; rfl

theorem SameButScan.totalBits (h : SameButScan s t) : t.totalBits = s.totalBits := by rw [h]

theorem SameButScan.pkLen (h : SameButScan s t) : t.pkLen = s.pkLen := by rw [h]

theorem SameButScan.caps (h : SameButScan s t) : t.caps = s.caps := by rw [h]

theorem SameButScan.keysPrefixFree (h : SameButScan s t) (hfree : keysPrefixFree s) : keysPrefixFree t := by
  unfold Safety.keysPrefixFree
  rwa [h.dcbAt]

theorem extended_frame (s : State) :
    extended s = { s with
      bitPos := s.bitPos + 1#64, cand := (extended s).cand, candLen := (extended s).candLen
      freeCount := (extended s).freeCount } :=
  appendBit_frame _ _

theorem sameButScan_extended (s : State) : SameButScan s (extended s) := by
  unfold SameButScan
  rw [extended_frame]

@[simp] theorem bitPos_extended (s : State) : (extended s).bitPos = s.bitPos + 1#64 := by rw [extended_frame]

@[simp] theorem totalBits_extended (s : State) : (extended s).totalBits = s.totalBits := by rw [extended_frame]

/-- Before the marker `BITPOS` moves on by 1. -/
theorem BeforeMarker.toNat_bitPos (h : BeforeMarker s) : (s.bitPos + 1#64).toNat = s.bitPos.toNat + 1 := by
  have := h.before
  have := s.totalBits.isLt
  rw [BitVec.toNat_add, BitVec.toNat_ofNat]
  omega

/-- A turn reads one bit into the candidate and tries to match it. -/
theorem BeforeMarker.scanBit_eq (h : BeforeMarker s) : scanBit s = matchCandidate (extended s) := by
  obtain ⟨hbefore, hpacked, hstored⟩ := h
  have hfit : s.bitPos.toNat + 1 < 2 ^ 64 := by
    have := s.totalBits.isLt
    omega
  rw [scanBit, buGetbit_eq (by omega) (by omega), (fitOrFree_eq hfit s).2, fitOrFree_succ hfit]
  rfl

/-- Everything the match of a candidate can do. -/
theorem matchCandidate_cases (s : State) :
    (∃ y, dlLookup s = some y ∧ s.outLen.toNat < s.caps.outCap.toNat ∧ matchCandidate s = .ok (emitted y s)) ∨
    (∃ y, dlLookup s = some y ∧ s.caps.outCap.toNat ≤ s.outLen.toNat ∧
      matchCandidate s = raise .storeOverflow 2 { s with uop := 0x73#8 }) ∨
    (dlLookup s = none ∧ s.candLen = 255#8 ∧ matchCandidate s = raise .truncatedStream 3 s) ∨
    (dlLookup s = none ∧ s.candLen ≠ 255#8 ∧ matchCandidate s = .ok s) := by
  rw [matchCandidate]
  cases hl : dlLookup s with
  | some y =>
    rcases sqEmit_cases y { s with uop := 0x73#8 } with ⟨hroom, heq⟩ | ⟨hfull, heq⟩
    · refine .inl ⟨y, rfl, hroom, ?_⟩
      simp only [callUop, heq]
      rfl
    · refine .inr (.inl ⟨y, rfl, hfull, ?_⟩)
      simp only [callUop, heq]
      rfl
  | none =>
    by_cases hlen : s.candLen = 255#8
    · exact .inr (.inr (.inl ⟨rfl, hlen, if_pos hlen⟩))
    · exact .inr (.inr (.inr ⟨rfl, hlen, if_neg hlen⟩))

/-! ### How the scan ends (R225) -/

/-- The error of a full candidate or of a full `OUT`, taken in `u`. -/
def ScanRaises (t u : State) : Prop :=
  (t = errorEntry .truncatedStream 3 u ∧ u.candLen = 255#8 ∧ dlLookup u = none) ∨
    (t = errorEntry .storeOverflow 2 u ∧ u.caps.outCap.toNat ≤ u.outLen.toNat ∧ u.uop = 0x73#8)

/-- The scan ended at the marker `T`, or raised, or (never) stopped the machine. -/
def ScanEnds (T : BitVec 64) : Res State → Prop
  | .ok t => t.totalBits = T ∧ t.bitPos = T
  | .error (.raised t) => ∃ u, u.totalBits = T ∧ ScanRaises t u
  | .error _ => False

theorem BeforeMarker.scanBit_error (h : BeforeMarker s) {e : Stop} (hrun : scanBit s = .error e) :
    ∃ t u, e = .raised t ∧ u.totalBits = s.totalBits ∧ ScanRaises t u := by
  rw [h.scanBit_eq] at hrun
  rcases matchCandidate_cases (extended s) with ⟨y, -, -, heq⟩ | ⟨y, -, hfull, heq⟩ | ⟨hnone, hlen, heq⟩ |
    ⟨-, -, heq⟩ <;> rw [heq] at hrun
  · cases hrun
  · exact ⟨_, { extended s with uop := 0x73#8 }, (Except.error.inj hrun).symm, totalBits_extended s,
      .inr ⟨rfl, hfull, rfl⟩⟩
  · exact ⟨_, extended s, (Except.error.inj hrun).symm, totalBits_extended s, .inl ⟨rfl, hlen, hnone⟩⟩
  · cases hrun

theorem BeforeMarker.scanBit_ok (h : BeforeMarker s) (hrun : scanBit s = .ok t) :
    t.bitPos.toNat = s.bitPos.toNat + 1 ∧ SameButScan s t := by
  obtain ⟨hpos, hframe⟩ := Machine.scanBit_ok hrun
  have := h.before
  have := s.totalBits.isLt
  exact ⟨by rw [hpos, toNat_fitOrFree (by omega)], hframe⟩

theorem BeforeMarker.scanLoop_succ (h : BeforeMarker s) (fuel : Nat) :
    scanLoop (fuel + 1) s = (scanBit s).bind (scanLoop fuel) := by
  rw [scanLoop, if_pos h.before]
  rfl

/-- With as much fuel as there are bits up to the marker, the scan comes to one of its ends. -/
theorem scanLoop_ends {fuel : Nat} (hfuel : s.bitPos.toNat + fuel = s.totalBits.toNat)
    (hpacked : s.totalBits.toNat ≤ 8 * s.pkLen.toNat) (hstored : s.pkLen.toNat ≤ s.caps.pkCap.toNat) :
    ScanEnds s.totalBits (scanLoop fuel s) := by
  induction fuel generalizing s with
  | zero => exact ⟨rfl, BitVec.eq_of_toNat_eq hfuel⟩
  | succ n ih =>
    have hb : BeforeMarker s := ⟨by omega, hpacked, hstored⟩
    rw [hb.scanLoop_succ]
    cases hrun : scanBit s with
    | error e =>
      obtain ⟨t, u, rfl, hraises⟩ := hb.scanBit_error hrun
      exact ⟨u, hraises⟩
    | ok t =>
      obtain ⟨hpos, hframe⟩ := hb.scanBit_ok hrun
      have hrest := ih (s := t) (by rw [hpos, hframe.totalBits]; omega)
        (by rwa [hframe.totalBits, hframe.pkLen]) (by rwa [hframe.pkLen, hframe.caps])
      rwa [hframe.totalBits] at hrest

theorem sqRun_beyond (h : 8 * s.pkLen.toNat < s.totalBits.toNat) : sqRun s = raise .truncatedStream 1 s := if_pos h

theorem sqRun_within (h : s.totalBits.toNat ≤ 8 * s.pkLen.toNat) :
    sqRun s = (scanLoop (s.totalBits.toNat - s.bitPos.toNat) s).bind fun t =>
      if t.candLen ≠ 0#8 then raise .truncatedStream 2 t else .ok t :=
  if_neg (by omega)

/-- How `SQ.RUN` ends where its marker is in the packed data and not behind `BITPOS`. -/
theorem sqRun_ends (hpacked : s.totalBits.toNat ≤ 8 * s.pkLen.toNat) (hstored : s.pkLen.toNat ≤ s.caps.pkCap.toNat)
    (hpos : s.bitPos.toNat ≤ s.totalBits.toNat) :
    ∃ t u, finish (sqRun s) = .next t ∧ u.totalBits = s.totalBits ∧
      ((t = u ∧ u.bitPos = s.totalBits ∧ u.candLen = 0#8) ∨
        (t = errorEntry .truncatedStream 2 u ∧ u.bitPos = s.totalBits ∧ u.candLen ≠ 0#8) ∨ ScanRaises t u) := by
  have hends := scanLoop_ends (Nat.add_sub_cancel' hpos) hpacked hstored
  rw [sqRun_within hpacked]
  generalize scanLoop _ s = r at hends ⊢
  rcases r with (t | _ | _) | t
  · obtain ⟨u, hmarker, hraises⟩ := hends
    exact ⟨t, u, rfl, hmarker, .inr (.inr hraises)⟩
  · exact hends.elim
  · exact hends.elim
  · obtain ⟨hmarker, hend⟩ := hends
    by_cases hlen : t.candLen = 0#8
    · exact ⟨t, t, by simp [Except.bind, hlen], hmarker, .inl ⟨rfl, hend, hlen⟩⟩
    · exact ⟨errorEntry .truncatedStream 2 t, t, by simp [Except.bind, hlen, raise], hmarker,
        .inr (.inl ⟨rfl, hend, hlen⟩)⟩

/-- From behind the marker `SQ.RUN` reads no bit. -/
theorem sqRun_behind_neverStops (hpacked : s.totalBits.toNat ≤ 8 * s.pkLen.toNat)
    (hpos : s.totalBits.toNat ≤ s.bitPos.toNat) : NeverStops (sqRun s) := by
  rw [sqRun_within hpacked, Nat.sub_eq_zero_of_le hpos]
  exact .ite (fun _ => neverStops_raise ..) fun _ => neverStops_ok _

end

theorem exec_sqRun (s : State) : exec .sqRun s = finish (sqRun s) := rfl

/-- Settles O42: `sqRun_ends`, and the two cases beside it: a marker beyond the packed data, and a `BITPOS` behind the
marker. -/
theorem sqRunStops : Obligations.SqRunStops := by
  intro s
  rw [exec_sqRun]
  refine ⟨fun hbeyond => by rw [sqRun_beyond hbeyond, raise, finish_raised], fun hstored => ?_, sqRun_ends⟩
  rcases Nat.lt_or_ge (8 * s.pkLen.toNat) s.totalBits.toNat with hbeyond | hpacked
  · rw [sqRun_beyond hbeyond]
    rfl
  rcases Nat.le_total s.bitPos.toNat s.totalBits.toNat with hpos | hpos
  · obtain ⟨t, -, hnext, -⟩ := sqRun_ends hpacked hstored hpos
    rw [hnext]
    rfl
  · exact (sqRun_behind_neverStops hpacked hpos).isNext_finish

/-! ### Decoding a stream of keys (R225, R227) -/

/-- `n` turns of the scan lead from `s` to `t`. -/
def Scans (n : Nat) (s t : State) : Prop := ∀ fuel, scanLoop (fuel + n) s = scanLoop fuel t

/-- The stream goes on with these bits, all of them before the marker, in a store that holds them. -/
structure Ahead (s : State) (bits : List Bool) : Prop where
  bit : ∀ i (hi : i < bits.length), streamBit s (s.bitPos.toNat + i) = bits[i]
  marker : s.bitPos.toNat + bits.length ≤ s.totalBits.toNat
  packed : s.totalBits.toNat ≤ 8 * s.pkLen.toNat
  stored : s.pkLen.toNat ≤ s.caps.pkCap.toNat

/-- The keys of the symbols, one after another. -/
def keysOf (s : State) (out : List Sym) : List Bool := out.flatMap fun y => codeString (s.dcbAt y.toNat)

/-- From `s` to `t` the scan has read exactly the keys of the symbols `out` and written those to `OUT`. -/
structure Decodes (s : State) (out : List Sym) (t : State) : Prop where
  bitPos : t.bitPos = s.bitPos + BitVec.ofNat 64 (keysOf s out).length
  outLen : t.outLen = s.outLen + BitVec.ofNat 64 out.length
  bytes : bytesFrom t .out s.outLen.toNat out.length = out
  others : ∀ a, a < s.outLen.toNat ∨ s.outLen.toNat + out.length ≤ a → t.byteAt .out a = s.byteAt .out a
  frame : t = { s with bitPos := t.bitPos, outLen := t.outLen, outStore := t.outStore, cand := 0#255, candLen := 0#8 }

section

variable {s t u : State} {y : Sym} {m n : Nat} {p q : List Bool}

theorem Scans.refl (s : State) : Scans 0 s s := fun _ => rfl

theorem Scans.trans (hst : Scans m s t) (htu : Scans n t u) : Scans (n + m) s u := by
  intro fuel
  rw [← Nat.add_assoc, hst, htu]

theorem Ahead.beforeMarker {b : Bool} (h : Ahead s (b :: q)) : BeforeMarker s := by
  have := h.marker
  rw [List.length_cons] at this
  exact ⟨by omega, h.packed, h.stored⟩

theorem Ahead.of_append (h : Ahead s (p ++ q)) : Ahead s p where
  bit i hi := by rw [h.bit i (by rw [List.length_append]; omega), List.getElem_append_left hi]
  marker := by
    have := h.marker
    rw [List.length_append] at this
    omega
  packed := h.packed
  stored := h.stored

/-- When the bits `p` have been read, the others are ahead. -/
theorem Ahead.after (h : Ahead s (p ++ q)) (hpos : t.bitPos.toNat = s.bitPos.toNat + p.length)
    (hframe : SameButScan s t) : Ahead t q where
  bit i hi := by
    rw [hframe.streamBit, hpos, Nat.add_assoc, h.bit (p.length + i) (by rw [List.length_append]; omega),
      List.getElem_append_right (by omega)]
    simp
  marker := by
    have := h.marker
    rw [List.length_append] at this
    rw [hpos, hframe.totalBits]
    omega
  packed := by rw [hframe.totalBits, hframe.pkLen]; exact h.packed
  stored := by rw [hframe.pkLen, hframe.caps]; exact h.stored

theorem Ahead.streamBit_eq {b : Bool} (h : Ahead s (b :: q)) : streamBit s s.bitPos.toNat = b :=
  h.bit 0 (Nat.succ_pos _)

/-- A turn whose match goes on. -/
theorem BeforeMarker.scans_one (h : BeforeMarker s) (hrun : matchCandidate (extended s) = .ok t) : Scans 1 s t := by
  intro fuel
  rw [h.scanLoop_succ, h.scanBit_eq, hrun]
  rfl

/-- While the candidate has room, it grows by the next stream bit, and no free value is taken. -/
theorem extended_eq (h : s.candLen.toNat ≤ 254) :
    extended s = { s with
      bitPos := s.bitPos + 1#64, cand := putBit s.cand s.candLen.toNat (streamBit s s.bitPos.toNat)
      candLen := BitVec.ofNat 8 (s.candLen.toNat + 1) } :=
  appendBit_eq (s := { s with bitPos := s.bitPos + 1#64 }) h _

theorem candString_extended (h : s.candLen.toNat ≤ 254) :
    candString (extended s) = candString s ++ [streamBit s s.bitPos.toNat] := by
  have hlen : (BitVec.ofNat 8 (s.candLen.toNat + 1)).toNat = s.candLen.toNat + 1 := by
    rw [BitVec.toNat_ofNat, Nat.mod_eq_of_lt (by omega)]
  simp only [extended_eq h, candString, hlen, List.range_succ, List.map_append, List.map_cons, List.map_nil]
  rw [bitAt_putBit, if_pos ⟨rfl, by omega⟩, List.map_congr_left fun k hk => ?_]
  rw [List.mem_range] at hk
  rw [bitAt_putBit, if_neg (by omega)]

@[simp] theorem length_candString (s : State) : (candString s).length = s.candLen.toNat := by simp [candString]

/-- The emission forgets the candidate and how it was read. -/
theorem emitted_extended (h : s.candLen.toNat ≤ 254) (n : Nat) :
    emitted y { extended s with bitPos := (extended s).bitPos + BitVec.ofNat 64 n } =
      emitted y { s with bitPos := s.bitPos + BitVec.ofNat 64 (n + 1) } := by
  have hpos : s.bitPos + 1#64 + BitVec.ofNat 64 n = s.bitPos + BitVec.ofNat 64 (n + 1) := by
    rw [BitVec.add_assoc, Nat.add_comm n 1, BitVec.ofNat_add]
  rw [extended_eq h, hpos]
  rfl

/-- Where no key begins another, the only key that can be found on the way through that of `y` is its own. -/
theorem KeyMatches.eq_of_append (hfree : keysPrefixFree s) (hvalid : (s.dcbAt y.toNat).valid = true)
    (hkey : codeString (s.dcbAt y.toNat) = candString s ++ q) {k : Nat} (hk : k < 256) (hmatch : KeyMatches s k) :
    k = y.toNat := by
  by_contra hne
  exact hfree k hk y.toNat y.isLt hne hmatch.1 hvalid ⟨q, by rw [hmatch.2, hkey]⟩

theorem dlLookup_whole (hfree : keysPrefixFree s) (hvalid : (s.dcbAt y.toNat).valid = true)
    (hkey : codeString (s.dcbAt y.toNat) = candString s) : dlLookup s = some y := by
  refine dlLookup_eq_some.2 ⟨⟨hvalid, hkey⟩, fun k hk hmatch => ?_⟩
  have hy := y.isLt
  exact hk.ne (hmatch.eq_of_append hfree hvalid (q := []) (by rw [hkey, List.append_nil]) (by omega))

theorem dlLookup_partial (hfree : keysPrefixFree s) (hvalid : (s.dcbAt y.toNat).valid = true)
    (hkey : codeString (s.dcbAt y.toNat) = candString s ++ q) (hq : q ≠ []) : dlLookup s = none := by
  refine dlLookup_eq_none.2 fun k hk hmatch => hq ?_
  rw [← hmatch.eq_of_append hfree hvalid hkey hk, hmatch.2] at hkey
  exact List.self_eq_append_right.1 hkey

theorem matchCandidate_whole (hroom : s.outLen.toNat < s.caps.outCap.toNat) (hl : dlLookup s = some y) :
    matchCandidate s = .ok (emitted y s) := by
  rcases matchCandidate_cases s with ⟨z, hz, -, heq⟩ | ⟨z, -, hfull, -⟩ | ⟨hnone, -⟩ | ⟨hnone, -⟩
  · rw [heq, Option.some.inj (hl.symm.trans hz)]
  · omega
  · simp [hl] at hnone
  · simp [hl] at hnone

theorem matchCandidate_partial (hlen : s.candLen ≠ 255#8) (hl : dlLookup s = none) : matchCandidate s = .ok s := by
  rw [matchCandidate, hl]
  exact if_neg hlen

/-- From a candidate that is the front of the key of `y`, the scan reads the rest of the key and emits `y`. -/
theorem scans_key (hfree : keysPrefixFree s) (hvalid : (s.dcbAt y.toNat).valid = true)
    (hkey : codeString (s.dcbAt y.toNat) = candString s ++ q) (hq : q ≠ []) (hahead : Ahead s q)
    (hroom : s.outLen.toNat < s.caps.outCap.toNat) :
    Scans q.length s (emitted y { s with bitPos := s.bitPos + BitVec.ofNat 64 q.length }) := by
  induction q generalizing s with
  | nil => exact absurd rfl hq
  | cons b r ih =>
    have hlen : s.candLen.toNat + r.length ≤ 254 := by
      have hl := congrArg List.length hkey
      have := (s.dcbAt y.toNat).len.isLt
      simp only [length_codeString, List.length_append, length_candString, List.length_cons] at hl
      omega
    have hb := hahead.beforeMarker
    have hsame := sameButScan_extended s
    have hcand : candString s ++ b :: r = candString (extended s) ++ r := by
      rw [candString_extended (by omega), hahead.streamBit_eq, List.append_assoc, List.singleton_append]
    have hkey' : codeString ((extended s).dcbAt y.toNat) = candString (extended s) ++ r := by
      rw [hsame.dcbAt, hkey, hcand]
    have hvalid' : ((extended s).dcbAt y.toNat).valid = true := by rwa [hsame.dcbAt]
    have hfree' := hsame.keysPrefixFree hfree
    have hroom' : (extended s).outLen.toNat < (extended s).caps.outCap.toNat := by
      rw [extended_frame]; exact hroom
    rw [List.length_cons, ← emitted_extended (by omega)]
    by_cases hr : r = []
    · subst hr
      rw [List.append_nil] at hkey'
      have hlast := hb.scans_one (matchCandidate_whole hroom' (dlLookup_whole hfree' hvalid' hkey'))
      rwa [List.length_nil, BitVec.add_zero]
    · have hgrown : (extended s).candLen ≠ 255#8 := by
        have := List.length_pos_of_ne_nil hr
        rw [extended_eq (by omega)]
        bv_omega
      have hstep := hb.scans_one (matchCandidate_partial hgrown (dlLookup_partial hfree' hvalid' hkey' hr))
      have hrest : Ahead (extended s) r :=
        hahead.after (p := [b]) (by rw [bitPos_extended, hb.toNat_bitPos, List.length_singleton]) hsame
      exact hstep.trans (ih hfree' hvalid' hkey' hr hrest hroom')

theorem candString_of_candLen (h : s.candLen = 0#8) : candString s = [] := by
  rw [candString, h]
  rfl

theorem keysOf_cons (s : State) (y : Sym) (ys : List Sym) :
    keysOf s (y :: ys) = codeString (s.dcbAt y.toNat) ++ keysOf s ys := List.flatMap_cons

theorem SameButScan.keysOf (h : SameButScan s t) (out : List Sym) : keysOf t out = keysOf s out := by
  unfold Proofs.keysOf
  rw [h.dcbAt]

/-- The state in which the key of `y` has been read from an empty candidate. -/
def afterKey (y : Sym) (s : State) : State :=
  emitted y { s with bitPos := s.bitPos + BitVec.ofNat 64 (codeString (s.dcbAt y.toNat)).length }

theorem sameButScan_afterKey (y : Sym) (s : State) : SameButScan s (afterKey y s) := rfl

theorem byteAt_afterKey (y : Sym) (s : State) (a : Nat) :
    (afterKey y s).byteAt .out a = if a = s.outLen.toNat then y else s.byteAt .out a :=
  byteAt_out_of_cellSet (s := s) (t := afterKey y s) rfl rfl a

theorem toNat_outLen_afterKey (hroom : s.outLen.toNat < s.caps.outCap.toNat) :
    (afterKey y s).outLen.toNat = s.outLen.toNat + 1 := by
  have := s.caps.outCap.isLt
  change (s.outLen + 1#64).toNat = _
  rw [BitVec.toNat_add, BitVec.toNat_ofNat]
  omega

theorem Decodes.nil (hlen : s.candLen = 0#8) (hcand : s.cand = 0#255) : Decodes s [] s where
  bitPos := by rw [keysOf, List.flatMap_nil, List.length_nil, BitVec.add_zero]
  outLen := by rw [List.length_nil, BitVec.add_zero]
  bytes := rfl
  others _ _ := rfl
  frame := by rw [← hlen, ← hcand]

theorem Decodes.cons {ys : List Sym} (hroom : s.outLen.toNat < s.caps.outCap.toNat)
    (h : Decodes (afterKey y s) ys t) : Decodes s (y :: ys) t where
  bitPos := by
    rw [h.bitPos, (sameButScan_afterKey y s).keysOf, keysOf_cons, List.length_append, BitVec.ofNat_add,
      ← BitVec.add_assoc]
    rfl
  outLen := by
    rw [h.outLen, List.length_cons, Nat.add_comm, BitVec.ofNat_add, ← BitVec.add_assoc]
    rfl
  bytes := by
    have hpos := toNat_outLen_afterKey (y := y) hroom
    have hfirst : t.byteAt .out s.outLen.toNat = y := by
      rw [h.others _ (by omega), byteAt_afterKey, if_pos rfl]
    rw [List.length_cons, Nat.add_comm, bytesFrom_append, bytesFrom_one, hfirst, ← hpos, h.bytes]
    rfl
  others a ha := by
    rw [List.length_cons] at ha
    rw [h.others a (by rw [toNat_outLen_afterKey hroom]; omega), byteAt_afterKey, if_neg (by omega)]
  frame := h.frame

/-- The scan reads a stream of keys symbol by symbol, by induction on the symbols. -/
theorem scans_keysOf {out : List Sym} (hfree : keysPrefixFree s) (hlen : s.candLen = 0#8) (hcand : s.cand = 0#255)
    (hkeys : ∀ y, y ∈ out → (s.dcbAt y.toNat).valid = true ∧ 1 ≤ (s.dcbAt y.toNat).len.toNat)
    (hahead : Ahead s (keysOf s out)) (hroom : s.outLen.toNat + out.length ≤ s.caps.outCap.toNat) :
    ∃ t, Scans (keysOf s out).length s t ∧ Decodes s out t := by
  induction out generalizing s with
  | nil => exact ⟨s, .refl s, .nil hlen hcand⟩
  | cons y ys ih =>
    obtain ⟨hvalid, hone⟩ := hkeys y List.mem_cons_self
    rw [List.length_cons] at hroom
    have hfirst : s.outLen.toNat < s.caps.outCap.toNat := by omega
    have hsame := sameButScan_afterKey y s
    rw [keysOf_cons] at hahead ⊢
    have hkey : Scans (codeString (s.dcbAt y.toNat)).length s (afterKey y s) :=
      scans_key hfree hvalid (by rw [candString_of_candLen hlen, List.nil_append])
        (List.ne_nil_of_length_pos (by rw [length_codeString]; exact hone)) hahead.of_append hfirst
    have hpos : (afterKey y s).bitPos.toNat = s.bitPos.toNat + (codeString (s.dcbAt y.toNat)).length := by
      have := hahead.of_append.marker
      have := s.totalBits.isLt
      change (s.bitPos + BitVec.ofNat 64 _).toNat = _
      rw [BitVec.toNat_add, BitVec.toNat_ofNat]
      omega
    have hrest := ih (s := afterKey y s) (hsame.keysPrefixFree hfree) rfl rfl
      (by rw [hsame.dcbAt]; exact fun z hz => hkeys z (List.mem_cons_of_mem y hz))
      (by rw [hsame.keysOf]; exact hahead.after hpos hsame)
      (by rw [toNat_outLen_afterKey hfirst, hsame.caps]; omega)
    obtain ⟨t, hscans, hdecodes⟩ := hrest
    rw [hsame.keysOf] at hscans
    refine ⟨t, ?_, hdecodes.cons hfirst⟩
    rw [List.length_append, Nat.add_comm]
    exact hkey.trans hscans

/-- A scan that is over with no candidate pending ends `SQ.RUN`. -/
theorem sqRun_of_scans (hpacked : s.totalBits.toNat ≤ 8 * s.pkLen.toNat)
    (hscans : Scans (s.totalBits.toNat - s.bitPos.toNat) s t) (hlen : t.candLen = 0#8) : sqRun s = .ok t := by
  have hend : scanLoop (s.totalBits.toNat - s.bitPos.toNat) s = .ok t := by
    simpa [scanLoop] using hscans 0
  rw [sqRun_within hpacked, hend]
  exact if_neg (not_not_intro hlen)

end

/-- Settles O41: the scan from the start of the stream is `scans_keysOf`, and its facts are those of `Decodes`. -/
theorem sqRunDecodes : Obligations.SqRunDecodes := by
  intro s out hpos hlen hcand hout hpacked hstored hroom hfree hkeys hstream
  have hcount : s.totalBits.toNat = (keysOf s out).length := by
    rw [keysOf, ← hstream, List.length_map, List.length_range]
  have hahead : Ahead s (keysOf s out) :=
    { bit := fun i hi => by simp [keysOf, ← hstream, hpos]
      marker := by simp [hpos, hcount]
      packed := hpacked
      stored := hstored }
  obtain ⟨t, hscans, h⟩ := scans_keysOf hfree hlen hcand hkeys hahead (by simpa [hout] using hroom)
  have htlen : t.candLen = 0#8 := congrArg State.candLen h.frame
  have htcand : t.cand = 0#255 := congrArg State.cand h.frame
  rw [← hcount] at hscans
  have hrun := sqRun_of_scans hpacked (by simpa [hpos] using hscans) htlen
  refine ⟨t, by rw [exec_sqRun, hrun, finish_ok], ?_, ?_, ?_, htlen, htcand, fun a ha => h.others a ?_, ?_⟩
  · rw [storeBytes_eq]
    simpa [hout] using h.bytes
  · have := s.caps.outCap.isLt
    rw [h.outLen, hout, BitVec.zero_add, BitVec.toNat_ofNat, Nat.mod_eq_of_lt (by omega)]
  · rw [h.bitPos, hpos, ← hcount, BitVec.zero_add, BitVec.ofNat_toNat, BitVec.setWidth_eq]
  · exact .inr (by simpa [hout] using ha)
  · have hframe := h.frame
    rwa [← hlen, ← hcand] at hframe

end Sys2Proof.Proofs
end

section
/-! Proof of the exceptions family: what taking an error writes. It has a namespace of its own, so that `errorEntry`
still names the model's function in `Sys2Proof.Proofs`. -/

namespace Sys2Proof.Proofs.Exceptions

/-- Settles O9: once the error kind is known its code is the entry of R241, and every other field is written as R250
has it, by definition. -/
theorem errorEntry : Obligations.ErrorEntry := by
  intro e sub s
  cases e with
  | invalidInput => rfl
  | corruptCodebook => rfl
  | truncatedStream => rfl
  | badCommand => rfl
  | storeOverflow => rfl

end Sys2Proof.Proofs.Exceptions
end

section
/-! Proofs of whole commands: how a program is run to its end, and the end of every `DECODE`. -/

namespace Sys2Proof.Proofs

open Sys2Proof.Machine Sys2Proof.Safety

/-! ### Running a program (R112, R281) -/

/-- The block stands at position `k` of the program of the command `c`, with no error and no turn pending. -/
structure Running (c : BitVec 2) (k : BitVec 4) (s : State) : Prop where
  turns : s.turns = []
  busy : s.busy = true
  err : s.err = false
  curCmd : s.curCmd = c
  step : s.step = k

/-- The command has ended, with `Q` if it ended without error, and no turn is pending. -/
structure Ended (Q : State → Prop) (s : State) : Prop where
  turns : s.turns = []
  busy : s.busy = false
  done : s.done = true
  result : s.err = false → Q s

/-- Within `n` steps the command ends. -/
def EndsWithin (n : Nat) (Q : State → Prop) (s : State) : Prop := ∃ t, runFor n s = .next t ∧ Ended Q t

/-- What an operation that goes on leaves to the sequencer and the host. -/
def sequencerView (s : State) := (s.turns, s.busy, s.err, s.curCmd, s.step)

/-- How a step operation of a program, run from `s`, may end: it goes on in a state that has `P`, or it raises. -/
inductive Completes (P : State → Prop) (s : State) : Host.Outcome State Fault Refusal → Prop
  | passes {t : State} (h : P t) (hview : sequencerView t = sequencerView s) : Completes P s (.next t)
  | raises (e : ErrKind) (sub : BitVec 8) {u : State} (h : u.turns = s.turns) :
    Completes P s (.next (errorEntry e sub u))

/-- The property does not speak of the sequencer's own `STEP` and `UOP`. -/
def Stable (P : State → Prop) : Prop := ∀ s k id, P s → P { s with step := k, uop := id }

/-- From position `k` of the program of `c`, in a state that has `P`, the command ends within `n` steps. -/
def Leads (c : BitVec 2) (k : BitVec 4) (P : State → Prop) (n : Nat) (Q : State → Prop) : Prop :=
  ∀ s, Running c k s → P s → EndsWithin n Q s

section

variable {c : BitVec 2} {k : BitVec 4} {id : BitVec 8} {i : Instr} {P P' Q : State → Prop} {s t : State} {n : Nat}

theorem run_succ (M : Host.Core) {x y : M.State} (h : M.step x = .next y) (n : Nat) : M.run (n + 1) x = M.run n y := by
  simp only [Host.Core.run, h]

theorem runFor_succ (h : step s = .next t) (n : Nat) : runFor (n + 1) s = runFor n t :=
  run_succ Sys2Proof.core h n

theorem step_of_turns_nil (h : s.turns = []) : step s = blockStep s := by rw [step, takeTurn, h]

theorem EndsWithin.step (h : step s = .next t) (ht : EndsWithin n Q t) : EndsWithin (n + 1) Q s := by
  obtain ⟨u, hrun, hu⟩ := ht
  exact ⟨u, (runFor_succ h n).trans hrun, hu⟩

/-- An idle block does nothing on its own (R272). -/
theorem Ended.endsWithin (h : Ended Q s) (n : Nat) : EndsWithin n Q s := by
  induction n with
  | zero => exact ⟨s, rfl, h⟩
  | succ n ih => exact .step ((step_of_turns_nil h.turns).trans (blockStep_idle h.busy)) ih

theorem Running.step_eq (h : Running c k s) (hid : programUop c k = some id) (hi : decodeUop id 0 = .ok i) :
    Machine.step s = runStepOp id i s := by
  rw [step_of_turns_nil h.turns, blockStep, if_pos h.busy, sequencerStep, h.curCmd, h.step, hid]
  simp only [hi]

theorem runStepOp_of_next (h : exec i { s with uop := id } = .next t) : runStepOp id i s = .next (advance i t) := by
  rw [runStepOp, h]

theorem Running.of_view (h : Running c k s) (hview : sequencerView t = sequencerView s) : Running c k t := by
  simp only [sequencerView, Prod.mk.injEq] at hview
  obtain ⟨hturns, hbusy, herr, hcmd, hstep⟩ := hview
  exact ⟨hturns.trans h.turns, hbusy.trans h.busy, herr.trans h.err, hcmd.trans h.curCmd, hstep.trans h.step⟩

theorem ended_errorEntry (h : s.turns = []) (e : ErrKind) (sub : BitVec 8) : Ended Q (errorEntry e sub s) :=
  ⟨h, rfl, rfl, fun herr => nomatch herr⟩

/-- One step of a program: the operation at `k` takes `P` to `P'`, from which the rest of the program leads to the
end. -/
theorem Leads.step (hid : programUop c k = some id) (hi : decodeUop id 0 = .ok i) (hw : writesStep i = false)
    (hP : Stable P) (hP' : Stable P') (hop : ∀ s, P s → Completes P' s (exec i s))
    (hrest : Leads c (k + 1) P' n Q) : Leads c k P (n + 1) Q := by
  intro s hs hpre
  have hstep := hs.step_eq hid hi
  generalize ho : exec i { s with uop := id } = o at *
  have hcompletes : Completes P' { s with uop := id } o := ho ▸ hop _ (hP s s.step id hpre)
  cases hcompletes with
  | @passes t h hview =>
    have ht : Running c k t := hs.of_view hview
    have hadv : advance i t = { t with step := t.step + 1 } := by simp [advance, ht.busy, hw]
    rw [runStepOp_of_next ho, hadv] at hstep
    exact .step hstep (hrest _ ⟨ht.turns, ht.busy, ht.err, ht.curCmd, by rw [ht.step]⟩ (hP' t _ t.uop h))
  | raises e sub h =>
    rw [runStepOp_of_next ho] at hstep
    exact .step hstep ((ended_errorEntry (h.trans hs.turns) e sub).endsWithin n)

/-- The last step of both programs (R116). -/
theorem leads_seqEnd (hid : programUop c k = some 0x08#8)
    (hQ : ∀ s, P s → Q { s with busy := false, done := true, uop := 0 }) (n : Nat) : Leads c k P (n + 1) Q := by
  intro s hs hpre
  have hend : Ended Q { s with busy := false, done := true, uop := 0 } := ⟨hs.turns, rfl, rfl, fun _ => hQ s hpre⟩
  exact .step (hs.step_eq hid rfl) (hend.endsWithin n)

theorem stable_true : Stable fun _ => True := fun _ _ _ _ => trivial

theorem running_startCommand (h : s.turns = []) (c : BitVec 2) : Running c 0 (startCommand c s) :=
  ⟨h, rfl, rfl, rfl, rfl⟩

/-- A check of the host's values passes and writes nothing, or raises. -/
theorem completes_check {p : Prop} [Decidable p] (e : ErrKind) (sub : BitVec 8) (h : ¬p → P s) :
    Completes P s (finish (if p then raise e sub s else .ok s)) := by
  split
  · exact .raises e sub rfl
  · next hp => exact .passes (h hp) rfl

end

/-! ### The operations of `DECODE` complete -/

section

variable {s t : State}

/-- Reading the entries ends with all of them accepted, or raises with some of them accepted (R197, R208). -/
theorem readEntries_cases {n p : Nat} {prev : Option Sym} (hcap : s.cbLen.toNat ≤ 8714) :
    (∃ x, readEntries n p prev s = .ok x) ∨
      ∃ sub es, readEntries n p prev s = raise .corruptCodebook sub (loadEntries es s) := by
  induction n generalizing p prev s with
  | zero => exact .inl ⟨_, rfl⟩
  | succ n ih =>
    rw [readEntries_succ hcap]
    dsimp only
    split
    · exact .inr ⟨3, [], rfl⟩
    split
    · exact .inr ⟨4, [], rfl⟩
    split
    · exact .inr ⟨3, [], rfl⟩
    split
    · exact .inr ⟨5, [], rfl⟩
    split
    · exact .inr ⟨6, [], rfl⟩
    exact (ih (by rwa [cbLen_loadEntry])).imp_right fun ⟨sub, es, heq⟩ => ⟨sub, _ :: es, heq⟩

/-- From `s` to `t` only what `CC.DESERIALIZE` writes has changed. -/
def SameButTable (s t : State) : Prop := t = { s with dcb := t.dcb, dcbCnt := t.dcbCnt, totalBits := t.totalBits }

theorem sameButTable_loadEntries (es : List (Sym × List Bool)) (s : State) (T : Nat) :
    SameButTable s (loadEntries es (headerRead s T)) := by
  rw [SameButTable, loadEntries_frame]
  rfl

/-- `CC.DESERIALIZE` never stops the machine, and writes nothing but its table and `TOTAL_BITS` where it raises too. -/
theorem ccDeserialize_cases (s : State) :
    (∃ t, ccDeserialize s = .ok t ∧ SameButTable s t) ∨
      ∃ sub u, ccDeserialize s = raise .corruptCodebook sub u ∧ SameButTable s u := by
  rw [ccDeserialize_eq]
  split
  · exact .inr ⟨9, _, rfl, rfl⟩
  split
  · exact .inr ⟨1, _, rfl, rfl⟩
  next hcap hmin =>
  rw [readCodebook_clearTable]
  split
  · exact .inr ⟨2, _, rfl, rfl⟩
  generalize beValue (bytesFrom s .cb 0 8) = T
  have hcap' : (headerRead s T).cbLen.toNat ≤ 8714 := by rw [cbLen_headerRead]; omega
  rcases readEntries_cases hcap' with ⟨⟨q, t⟩, hrun⟩ | ⟨sub, es, hrun⟩
  · obtain ⟨es, -, -, -, -, rfl⟩ := readEntries_ok hcap' hrun
    rw [readToEnd, hrun]
    dsimp only [bind, Except.bind]
    split
    · exact .inr ⟨7, _, rfl, sameButTable_loadEntries es s T⟩
    · exact .inl ⟨_, rfl, sameButTable_loadEntries es s T⟩
  · exact .inr ⟨sub, _, readToEnd_of_raise hrun, sameButTable_loadEntries es s T⟩

/-- One turn of the scan goes on, or raises with no turn added. -/
theorem BeforeMarker.scanBit_cases (h : BeforeMarker s) :
    (∃ t, scanBit s = .ok t ∧ t.bitPos.toNat = s.bitPos.toNat + 1 ∧ SameButScan s t) ∨
      ∃ e sub u, scanBit s = raise e sub u ∧ u.turns = s.turns := by
  have hturns : (extended s).turns = s.turns := by rw [extended_frame]
  have hok {t : State} (hrun : scanBit s = .ok t) := h.scanBit_ok hrun
  rw [h.scanBit_eq] at *
  rcases matchCandidate_cases (extended s) with ⟨y, -, -, heq⟩ | ⟨y, -, -, heq⟩ | ⟨-, -, heq⟩ | ⟨-, -, heq⟩
  · exact .inl ⟨_, heq, hok heq⟩
  · exact .inr ⟨_, _, _, heq, hturns⟩
  · exact .inr ⟨_, _, _, heq, hturns⟩
  · exact .inl ⟨_, heq, hok heq⟩

/-- The scan ends at the marker, or raises with no turn added. -/
theorem scanLoop_cases {fuel : Nat} (hfuel : s.bitPos.toNat + fuel = s.totalBits.toNat)
    (hpacked : s.totalBits.toNat ≤ 8 * s.pkLen.toNat) (hstored : s.pkLen.toNat ≤ s.caps.pkCap.toNat) :
    (∃ t, scanLoop fuel s = .ok t ∧ SameButScan s t) ∨
      ∃ e sub u, scanLoop fuel s = raise e sub u ∧ u.turns = s.turns := by
  induction fuel generalizing s with
  | zero => exact .inl ⟨s, rfl, rfl⟩
  | succ n ih =>
    have hb : BeforeMarker s := ⟨by omega, hpacked, hstored⟩
    rw [hb.scanLoop_succ]
    rcases hb.scanBit_cases with ⟨t, hrun, hpos, hst⟩ | ⟨e, sub, u, hrun, hu⟩
    · have hturns : t.turns = s.turns := by rw [hst]
      rw [hrun]
      rcases ih (s := t) (by rw [hpos, hst.totalBits]; omega) (by rwa [hst.totalBits, hst.pkLen])
        (by rwa [hst.pkLen, hst.caps]) with ⟨v, hrest, htv⟩ | ⟨e, sub, u, hrest, hu⟩
      · refine .inl ⟨v, hrest, ?_⟩
        unfold SameButScan at *
        rw [htv, hst]
      · exact .inr ⟨e, sub, u, hrest, hu.trans hturns⟩
    · exact .inr ⟨e, sub, u, by rw [hrun]; rfl, hu⟩

/-- `PK_LEN` is within the packed store (R119). -/
def PackedInStore (s : State) : Prop := s.pkLen.toNat ≤ s.caps.pkCap.toNat

/-- What `SQ.RUN` starts from in a `DECODE`: `PK_LEN` has been checked (R119) and `BITPOS` is 0 (R220). -/
def ReadyToScan (s : State) : Prop := PackedInStore s ∧ s.bitPos = 0#64

theorem completes_ccDeserialize (h : PackedInStore s) : Completes PackedInStore s (exec .ccDeserialize s) := by
  rw [exec_ccDeserialize]
  rcases ccDeserialize_cases s with ⟨t, hrun, hst⟩ | ⟨sub, u, hrun, hsu⟩
  · rw [hrun, finish_ok, hst]
    exact .passes h rfl
  · rw [hrun, raise, finish_raised, hsu]
    exact .raises _ _ rfl

theorem completes_sqRun (h : ReadyToScan s) : Completes (fun _ => True) s (exec .sqRun s) := by
  obtain ⟨hstored, hpos⟩ := h
  rw [exec_sqRun]
  rcases Nat.lt_or_ge (8 * s.pkLen.toNat) s.totalBits.toNat with hbeyond | hpacked
  · rw [sqRun_beyond hbeyond]
    exact .raises _ _ rfl
  rw [sqRun_within hpacked]
  rcases scanLoop_cases (Nat.add_sub_cancel' (by rw [hpos]; exact Nat.zero_le _)) hpacked hstored with
    ⟨t, hrun, hst⟩ | ⟨e, sub, u, hrun, hu⟩
  · have hturns : t.turns = s.turns := by rw [hst]
    rw [hrun]
    dsimp only [Except.bind]
    split
    · exact .raises _ _ hturns
    · exact .passes trivial (by rw [hst]; rfl)
  · rw [hrun]
    exact .raises e sub hu

end

/-- The program of R114, operation by operation. -/
theorem leads_decode : Leads 2#2 0#4 (fun _ => True) 7 fun _ => True := by
  have hpk : Stable PackedInStore := fun _ _ _ h => h
  refine Leads.step (P' := PackedInStore) rfl rfl rfl stable_true hpk
    (fun s _ => completes_check .invalidInput 3 Nat.le_of_not_lt) ?_
  refine Leads.step rfl rfl rfl hpk hpk (fun s h => completes_ccDeserialize h) ?_
  refine Leads.step rfl rfl rfl hpk hpk (fun s h => completes_check .corruptCodebook 8 fun _ => h) ?_
  refine Leads.step rfl rfl rfl hpk hpk (fun s h => completes_check .invalidInput 1 fun _ => h) ?_
  refine Leads.step (P' := ReadyToScan) rfl rfl rfl hpk (fun _ _ _ h => h) (fun s h => .passes ⟨h, rfl⟩ rfl) ?_
  refine Leads.step rfl rfl rfl (fun _ _ _ h => h) stable_true (fun s h => completes_sqRun h) ?_
  exact leads_seqEnd rfl (fun _ _ => trivial) 0

/-- Settles O56: the issue starts the program, and `leads_decode` runs it to its end. -/
theorem decodeCommandEnds : Obligations.DecodeCommandEnds := by
  intro s hidle hturns
  obtain ⟨t, hrun, ht⟩ := leads_decode _ (running_startCommand hturns 2#2) trivial
  exact ⟨startCommand 2#2 s, t, by simp [exec, execDecode, hidle], hrun, ht.busy, ht.done⟩

end Sys2Proof.Proofs
end

section
/-! Proofs of the reset and hazards family: the host's accesses inside the window of R276, and reset. -/

namespace Sys2Proof.Proofs

open Sys2Proof.Machine Sys2Proof.Safety

/-! ### Accesses inside the window of R276 -/

section

variable {s : State}

theorem toNat_busyRegValue_lt (s : State) (r : RegName) : (busyRegValue s r).toNat < 2 ^ regWidth r := by
  rw [busyRegValue, BitVec.toNat_ofNat]
  exact (Nat.mod_le ..).trans_lt (Nat.mod_lt _ (Nat.two_pow_pos _))

/-- The widths of R21, by number. -/
theorem regWidth_eq {r : RegName} (hr : r ≠ .STATUS) :
    regWidth r = if regNumber r = 0 ∨ regNumber r = 2 ∨ regNumber r = 3 then 32
      else if regNumber r = 7 ∨ regNumber r = 8 ∨ regNumber r = 9 ∨ regNumber r = 10 then 9 else 64 := by
  cases r with
  | STATUS => exact absurd rfl hr
  | _ => rfl

/-- A read of a register other than `STATUS` inside the window takes a free value and answers it. -/
theorem readReg_inWindow {r : RegName} (hr : r ≠ .STATUS) (hwin : inWindow s = true) :
    readReg (regNumber r) s = takeFree (reply 0 (regNumber r) (.reg (busyRegValue s r)) s) := by
  unfold readReg
  rw [regOfNumber_regNumber]
  cases r <;> simp [hwin] at hr ⊢

theorem exists_spaceOfNumber {sp : Nat} (hpos : 1 ≤ sp) (hle : sp ≤ 9) : ∃ x, spaceOfNumber sp = some x := by
  interval_cases sp <;> exact ⟨_, rfl⟩

/-- An access to a store or a debug space inside the window is refused. -/
theorem space_inWindow {sp : Nat} (hpos : 1 ≤ sp) (hle : sp ≤ 9) (hwin : inWindow s = true) (a : Nat)
    (v : BitVec 64) :
    hostRead sp a s = .refused .hostAccessWhileBusy ∧ hostWrite sp a v s = .refused .hostAccessWhileBusy := by
  obtain ⟨x, hx⟩ := exists_spaceOfNumber hpos hle
  have hsp : sp ≠ 0 := by omega
  simp [hostRead, hostWrite, hsp, hx, hwin]

end

/-- Settles O44: `writeReg_inWindow`, `readReg_inWindow` with the width of the register, and `space_inWindow`. -/
theorem busyHostAccess : Obligations.BusyHostAccess := by
  intro s rest sp index v hwin
  have hwin' : inWindow { s with turns := rest } = true := hwin
  refine ⟨fun hturn => ?write, fun hne hlt hturn => ?read, fun hle hturn => ?reserved,
    fun hpos hle hturn => ?spaceWrite, fun hpos hle hturn => ?spaceRead⟩ <;> rw [step_host hturn]
  case write => exact writeReg_inWindow hwin' index v
  case read =>
    obtain ⟨r, rfl⟩ := exists_regNumber hlt
    have hr : r ≠ .STATUS := fun h => hne (regNumber_eq_one.2 h)
    refine ⟨busyRegValue { s with turns := rest } r, congrArg _ (readReg_inWindow hr hwin'), ?_⟩
    refine (toNat_busyRegValue_lt _ r).trans_eq (congrArg (2 ^ ·) ?_)
    exact regWidth_eq hr
  case reserved =>
    rw [hostAct, hostRead, if_pos rfl, readReg, regOfNumber_of_le hle]
    rfl
  case spaceWrite => exact (space_inWindow hpos hle hwin' index v).2
  case spaceRead => exact (space_inWindow hpos hle hwin' index v).1

end Sys2Proof.Proofs
end

section
/-! Proof of what reset leaves (R270, R271). It has a namespace of its own, so that `resetAction` stays the model's
operation in `Sys2Proof.Proofs`. -/

namespace Sys2Proof.Proofs.Reset

open Sys2Proof.Machine Sys2Proof.Safety

/-- R81: every field of the status word is 0 after reset. -/
theorem statusWord_afterReset (caps : Caps) (epoch : Nat) : statusWord (State.afterReset caps epoch) = 0#32 := by
  change packStatus 0 0 0 0 0 false false false = 0#32
  decide

/-- Settles O50: each field is the one that `State.afterReset` gives it, or one that the action keeps. -/
theorem resetAction : Obligations.ResetAction := by
  intro s rest hturn
  have hstores (S : StoreId) : (Machine.resetAction { s with turns := rest }).store S = [] := by cases S <;> rfl
  refine ⟨Machine.resetAction { s with turns := rest }, step_host hturn, ?_⟩
  exact ⟨statusWord_afterReset s.caps (s.epoch + 1), rfl, rfl, rfl, rfl, rfl, rfl, rfl, rfl, rfl, rfl, rfl, rfl, rfl,
    rfl, rfl, rfl, rfl, hstores,
    rfl, rfl, rfl, rfl, rfl, rfl, rfl, rfl, rfl, rfl, rfl⟩

end Sys2Proof.Proofs.Reset
end

section
/-! Proof of the stops: what each refusal and each fault of a micro-operation is raised for. -/

namespace Sys2Proof.Proofs

open Sys2Proof.Machine Sys2Proof.Safety

/-! ### Preconditions of the queue and of a merge (U7) -/

section

variable {s t u : State} {l r n : NodeId} {w : Nat} {p : List Bool}

theorem nodeIndex_top : nodeIndex 511#9 = .error (.fault .noSuchNode) := rfl

theorem pqExtract_empty (h : s.heapSize = 0#9) : pqExtract s = .error (.refused .heapEmpty) := by
  rw [pqExtract, h]
  rfl

theorem pqInsert_full (h : 256 ≤ s.heapSize.toNat) (n : NodeId) : pqInsert n s = .error (.refused .heapFull) := if_pos h

theorem pqInsert_top (h : s.heapSize.toNat < 256) : pqInsert 511#9 s = .error (.fault .noSuchNode) :=
  (if_neg (Nat.not_le.2 h)).trans rfl

theorem pqSift_notLive {i : Nat} (h : s.heapSize.toNat ≤ i) :
    pqSiftup i s = .error (.refused .indexNotLive) ∧ pqSiftdown i s = .error (.refused .indexNotLive) :=
  ⟨if_pos h, if_pos h⟩

theorem tbMerge_tooFew (h : s.heapSize.toNat < 2) : tbMerge s = .error (.refused .tooFewNodes) := if_pos h

/-- With no id left in the arena the merge stops after its two extractions. -/
theorem tbMerge_noId (hsize : 2 ≤ s.heapSize.toNat) (hl : pqExtract s = .ok (l, t)) (hr : pqExtract t = .ok (r, u))
    (hnext : u.nextId = 511#9) : tbMerge s = .error (.fault .noSuchNode) := by
  simp only [tbMerge, if_neg (Nat.not_lt.2 hsize), hl, hr, bind, Except.bind, hnext, nodeIndex_top]

theorem tbMerge_arenaFull (hsize : 2 ≤ s.heapSize.toNat) (hsize' : s.heapSize.toNat ≤ 256) (hids : idsInArena s)
    (hnext : s.nextId = 511#9) : tbMerge s = .error (.fault .noSuchNode) := by
  obtain ⟨t, hl, hst⟩ := pqExtract_extracts (by omega) hsize' hids
  have hsizeT := hst.heapSize
  obtain ⟨u, hr, htu⟩ := pqExtract_extracts (by omega) (by omega) (hst.idsInArena hids)
  exact tbMerge_noId hsize hl hr (by rw [htu.nextId, hst.nextId, hnext])

/-- From 258 ids on the two extractions leave no room for the parent (log 10). -/
theorem tbMerge_queueFull (hsize : 258 ≤ s.heapSize.toNat) (harray : ArrayInArena s) (hnext : s.nextId.toNat < 511) :
    tbMerge s = .error (.refused .heapFull) := by
  obtain ⟨t, hl, ht⟩ := pqExtract_keepsArray (by omega) harray
  obtain ⟨-, -, -, hsizeT, hframeT⟩ := pqExtract_ok hl
  obtain ⟨u, hr, -⟩ := pqExtract_keepsArray (by omega) ht
  obtain ⟨-, -, -, hsizeU, hframeU⟩ := pqExtract_ok hr
  have hnextId : u.nextId = s.nextId := by rw [hframeU, hframeT]
  rw [tbMerge_eq (by omega) hl hr (by rwa [hnextId]) (harray 0 (by omega)) (ht 0 (by omega))]
  exact pqInsert_full (by rw [heapSize_joinUnder]; omega) _

/-! ### A walk that has no end (log 14) -/

theorem walkLoop_of_walkPop_error {e : Stop} (hwsp : s.wsp.toNat ≠ 0) (hrun : walkPop s = .error e) (fuel : Nat) :
    walkLoop (fuel + 1) s = .error e := by
  have h : s.wsp ≠ 0#9 := fun h => hwsp (by rw [h]; rfl)
  rw [walkLoop, if_neg h, hrun]
  rfl

theorem OnTop.wsp_ne_zero (h : OnTop s w n p) : s.wsp.toNat ≠ 0 := by rw [h.wsp]; exact w.succ_ne_zero

/-- The walk starts with the root on an otherwise empty `WSTK`. -/
theorem cwWalk_onTop (hroot : 256 ≤ s.root.toNat) :
    ∃ u, cwWalk s = walkLoop Config.walkFuel u ∧ OnTop u 0 s.root [] ∧ SameButWalk s u := by
  obtain ⟨u, hpush, hwsp, htop, -, hframe⟩ :=
    walkPush_room (s := { s with wsp := 0 }) (d := 0) s.root false (Nat.zero_le _) (Nat.zero_le _)
  exact ⟨u, cwWalk_eq hroot hpush, ⟨hwsp, htop, fun k hk => absurd hk (Nat.not_lt_zero k), le_rfl, Nat.zero_le _⟩,
    by unfold SameButWalk; rw [hframe]⟩

theorem OnTop.walkPop_top (h : OnTop s w 511#9 p) : walkPop s = .error (.fault .noSuchNode) := by
  have hnode : (walkEntry 511#9 p).node = 511#9 := rfl
  rw [walkPop, h.topEntry, hnode]
  rfl

/-- A node at depth 255 has children too deep for any tree of the arena. -/
theorem OnTop.walkPop_tooDeep (h : OnTop s w n p) (hn : 256 ≤ n.toNat) (hn' : n.toNat < 511) (hp : p.length = 255) :
    walkPop s = .error (.refused .notATree) := by
  have hinner : ¬ n.toNat < Config.nsym := Nat.not_lt.2 hn
  have hnode : (walkEntry n p).node = n := rfl
  simp only [walkPop, h.topEntry, hnode, depth_walkEntry n h.depth, if_neg hinner, nodeIndex_eq hn', hp]
  rfl

/-- A node that is its own left child is pushed deeper and deeper, by induction on the depths left. -/
theorem OnTop.walkLoop_ownLeft {d fuel : Nat} (h : OnTop s w n p) (hn : 256 ≤ n.toNat) (hn' : n.toNat < 511)
    (hself : s.nodeLeftAt n.toNat = n) (hd : p.length + d = 255) :
    walkLoop (fuel + d + 1) s = .error (.refused .notATree) := by
  induction d generalizing s w p with
  | zero => exact walkLoop_of_walkPop_error h.wsp_ne_zero (h.walkPop_tooDeep hn hn' hd) _
  | succ d ih =>
    obtain ⟨u, hrun, hu⟩ := h.opened hn hn' (by omega)
    have hleft := hu.left
    rw [hself] at hleft
    rw [Loops.one h.wsp_ne_zero hrun]
    exact ih hleft (by rw [hu.frame.nodeLeftAt, hself]) (by rw [length_child]; omega)

theorem cwWalk_top (hroot : s.root = 511#9) : cwWalk s = .error (.fault .noSuchNode) := by
  obtain ⟨u, hrun, htop, -⟩ := cwWalk_onTop (s := s) (by rw [hroot]; decide)
  rw [hroot] at htop
  rw [hrun, show Config.walkFuel = Config.walkFuel - 1 + 1 from rfl]
  exact walkLoop_of_walkPop_error htop.wsp_ne_zero htop.walkPop_top _

theorem cwWalk_ownLeft (hroot : 256 ≤ s.root.toNat) (hroot' : s.root.toNat < 511)
    (hself : s.nodeLeftAt s.root.toNat = s.root) : cwWalk s = .error (.refused .notATree) := by
  obtain ⟨u, hrun, htop, hsame⟩ := cwWalk_onTop hroot
  rw [hrun, show Config.walkFuel = Config.walkFuel - 256 + 255 + 1 from rfl]
  exact htop.walkLoop_ownLeft hroot hroot' (by rw [hsame.nodeLeftAt, hself]) rfl

/-! ### Preconditions of the packer and the unpacker (U7), and bytes outside a store (log 18) -/

theorem bpPutbit_accumulatorFull (h : 8 ≤ s.accN.toNat) (b : Bool) :
    bpPutbit b s = .error (.refused .accumulatorFull) :=
  if_pos h

theorem bpPutcode_noCode {y : Sym} (h : (s.codeAt y.toNat).valid = false) :
    bpPutcode y s = .error (.refused .noCode) :=
  if_neg (Bool.eq_false_iff.1 h)

theorem buGetbit_pastData (h : 8 * s.pkLen.toNat ≤ s.bitPos.toNat) : buGetbit s = .error (.refused .pastPackedData) :=
  if_pos h

theorem readByte_outside {S : StoreId} {a : Nat} (h : s.capacity S ≤ a) :
    readByte S a s = .error (.fault (.noSuchByte S)) :=
  if_neg (Nat.not_lt.2 h)

theorem buGetbit_outside (hpos : s.bitPos.toNat < 8 * s.pkLen.toNat) (h : s.caps.pkCap.toNat ≤ s.bitPos.toNat / 8) :
    buGetbit s = .error (.fault (.noSuchByte .pk)) := by
  rw [buGetbit, if_neg (Nat.not_le.2 hpos), readByte_outside h]
  rfl

/-- The count stops at the first address outside `IN`, the capacity itself. -/
theorem fcCount_outside (h : s.caps.inCap.toNat < s.inLen.toNat) : fcCount s = .error (.fault (.noSuchByte .inp)) := by
  obtain ⟨n, hn⟩ := Nat.exists_eq_add_of_lt h
  obtain ⟨t, hloop, hst⟩ := foldlM_countByte_counts (s := s) (n := s.caps.inCap.toNat) le_rfl
  have hstop : countByte t s.caps.inCap.toNat = .error (.fault (.noSuchByte .inp)) := by
    rw [countByte, readByte_outside (by rw [hst.capacity_inp]; exact le_rfl)]
    rfl
  rw [fcCount, hn, Nat.add_assoc, Nat.add_comm n 1, ← Nat.add_assoc, List.range_add, List.range_succ,
    List.foldlM_append, List.foldlM_append, hloop]
  simp [bind, Except.bind, hstop]

end

/-- Settles O20: one lemma per stop. -/
theorem stopsByName : Obligations.StopsByName := by
  intro s
  refine ⟨fun h => ?_, fun h n => ?_, fun h => ?_, fun i h => ?_, fun h => ?_, fun h h' hids hnext => ?_,
    fun h harray hnext => ?_, fun h => ?_, fun h h' hself => ?_, fun h b => ?_, fun y h => ?_, fun h => ?_,
    fun h h' => ?_, fun h => ?_⟩
  · rw [exec_pqExtract, pqExtract_empty h, finishWith_error, finish_refused]
  · rw [exec_pqInsert, pqInsert_full h, finish_refused]
  · rw [exec_pqInsert, pqInsert_top h, finish_fault]
  · obtain ⟨hup, hdown⟩ := pqSift_notLive h
    rw [exec_pqSiftup, exec_pqSiftdown, hup, hdown]
    exact ⟨finish_refused _, finish_refused _⟩
  · rw [exec_tbMerge, tbMerge_tooFew h, finish_refused]
  · rw [exec_tbMerge, tbMerge_arenaFull h h' hids hnext, finish_fault]
  · rw [exec_tbMerge, tbMerge_queueFull h harray hnext, finish_refused]
  · rw [exec_cwWalk, cwWalk_top h, finish_fault]
  · rw [exec_cwWalk, cwWalk_ownLeft h h' hself, finish_refused]
  · rw [exec_bpPutbit, bpPutbit_accumulatorFull h, finish_refused]
  · rw [exec_bpPutcode, bpPutcode_noCode h, finish_refused]
  · rw [exec_buGetbit, buGetbit_pastData h, finishWith_error, finish_refused]
  · rw [exec_buGetbit, buGetbit_outside h h', finishWith_error, finish_fault]
  · rw [exec_fcCount, fcCount_outside h, finish_fault]

end Sys2Proof.Proofs
end

section
/-! Proofs of the end of every `ENCODE`: the tree that the build leaves, the codes that the walk binds to it, and the
program of R113, operation by operation. -/

namespace Sys2Proof.Proofs

open Sys2Proof.Machine Sys2Proof.Safety

/-! ### Trees in the arena

`Tree s n ys`: the subtree under `n` has the leaves `ys`, left to right. A parent is newer than its children (R158), so
no path is longer than the arena has internal nodes. -/

/-- The node `n` is a leaf, or it has two older children with subtrees. -/
inductive Tree (s : State) : NodeId → List Sym → Prop
  | leaf {n : NodeId} (h : n.toNat < 256) : Tree s n [n.setWidth 8]
  | node {n : NodeId} {ys zs : List Sym} (hn : 256 ≤ n.toNat) (hn' : n.toNat < 511)
    (hleft : (s.nodeLeftAt n.toNat).toNat < n.toNat) (hright : (s.nodeRightAt n.toNat).toNat < n.toNat)
    (left : Tree s (s.nodeLeftAt n.toNat) ys) (right : Tree s (s.nodeRightAt n.toNat) zs) : Tree s n (ys ++ zs)

section

variable {s t : State} {n : NodeId} {ys : List Sym}

theorem Tree.toNat_lt (h : Tree s n ys) : n.toNat < 511 := by
  cases h with
  | leaf h => omega
  | node _ hn' => exact hn'

/-- A tree stands where no entry below some id above its root is written. -/
theorem Tree.of_nodeAt {b : Nat} (h : Tree s n ys) (hnodes : ∀ k, k < b → t.nodeAt k = s.nodeAt k) (hn : n.toNat < b) :
    Tree t n ys := by
  induction h with
  | leaf h => exact .leaf h
  | @node n ys zs hlo hhi hleft hright _ _ ihl ihr =>
    have hl : t.nodeLeftAt n.toNat = s.nodeLeftAt n.toNat := congrArg NodeRec.left (hnodes _ hn)
    have hr : t.nodeRightAt n.toNat = s.nodeRightAt n.toNat := congrArg NodeRec.right (hnodes _ hn)
    rw [← hl] at hleft ihl
    rw [← hr] at hright ihr
    exact .node hlo hhi hleft hright (ihl (hleft.trans hn)) (ihr (hright.trans hn))

/-- The paths of R171 exist with a height that covers the internal ids up to the root. -/
theorem Tree.treePaths {f : Nat} (h : Tree s n ys) (hf : 0 < f) (hn : n.toNat < 255 + f) (p : List Bool) :
    ∃ ps, treePaths s f n p = some ps ∧ ps.map Prod.fst = ys := by
  induction h generalizing f p with
  | leaf h =>
    obtain ⟨f, rfl⟩ := Nat.exists_eq_add_one.2 hf
    exact ⟨_, if_pos h, rfl⟩
  | node hlo hhi hleft hright _ _ ihl ihr =>
    obtain ⟨f, rfl⟩ := Nat.exists_eq_add_one.2 hf
    obtain ⟨l, hl, hys⟩ := ihl (f := f) (by omega) (by omega) (p ++ [false])
    obtain ⟨r, hr, hzs⟩ := ihr (f := f) (by omega) (by omega) (p ++ [true])
    refine ⟨l ++ r, ?_, by rw [List.map_append, hys, hzs]⟩
    rw [Safety.treePaths, if_neg (Nat.not_lt.2 hlo), if_pos hhi, hl, hr]

end

/-! ### The build makes one tree of the leaves (R157, R158) -/

/-- The nodes in the queue are the roots of trees that have, all together, the leaves `ys`. -/
structure Forest (ys : List Sym) (s : State) : Prop where
  inner : 256 ≤ s.nextId.toNat
  trees : ∃ leaves : NodeId → List Sym, (∀ x ∈ liveIds s, Tree s x (leaves x)) ∧ ((liveIds s).flatMap leaves).Perm ys

section

variable {s t : State} {ys : List Sym}

/-- The leaves under each node once `n` is the parent of `l` and `r`. -/
def joinedLeaves (leaves : NodeId → List Sym) (n l r : NodeId) : NodeId → List Sym :=
  Function.update leaves n (leaves l ++ leaves r)

theorem joinedLeaves_self (leaves : NodeId → List Sym) (n l r : NodeId) :
    joinedLeaves leaves n l r n = leaves l ++ leaves r := Function.update_self ..

theorem joinedLeaves_of_ne (leaves : NodeId → List Sym) {n x : NodeId} (h : x ≠ n) (l r : NodeId) :
    joinedLeaves leaves n l r x = leaves x := Function.update_of_ne h ..

/-- A merge joins two of the trees under a new root. -/
theorem Forest.tbMerge (h : Forest ys s) (hb : Buildable s) (htwo : 2 ≤ s.heapSize.toNat)
    (hrun : tbMerge s = .ok t) : Forest ys t := by
  have hroom := hb.room
  have hids : idsInArena s := idsInArena_iff.2 fun x hx => by have := hb.older x hx; omega
  obtain ⟨t', l, r, rest, hrun', hm⟩ :=
    tbMerge_merges htwo hb.heapSize_le hids (by omega) fun hmem => lt_irrefl _ (hb.older _ hmem)
  obtain rfl := Except.ok.inj (hrun.symm.trans hrun')
  obtain ⟨-, -, -, hnextId, hnodes, -⟩ := tbMerge_ok hrun
  obtain ⟨leaves, htrees, hperm⟩ := h.trees
  have hl : l ∈ l :: r :: rest := List.mem_cons_self
  have hr : r ∈ l :: r :: rest := List.mem_cons_of_mem _ List.mem_cons_self
  have hrest : ∀ x ∈ rest, x ∈ l :: r :: rest := fun x hx => List.mem_cons_of_mem _ (List.mem_cons_of_mem _ hx)
  have holder : ∀ x ∈ l :: r :: rest, x.toNat < s.nextId.toNat := fun x hx => hb.older x (hm.before.mem_iff.2 hx)
  have hold : ∀ x ∈ l :: r :: rest, Tree t x (leaves x) := fun x hx =>
    (htrees x (hm.before.mem_iff.2 hx)).of_nodeAt (fun k hk => hnodes k hk.ne) (holder x hx)
  have hkeep : ∀ x ∈ rest, joinedLeaves leaves s.nextId l r x = leaves x := fun x hx =>
    joinedLeaves_of_ne leaves (fun heq => (holder x (hrest x hx)).ne (by rw [heq])) l r
  refine ⟨by rw [hnextId]; exact h.inner.trans (Nat.le_succ _), joinedLeaves leaves s.nextId l r, ?trees, ?perm⟩
  case trees =>
    intro x hx
    rcases List.mem_cons.1 (hm.after.mem_iff.1 hx) with rfl | hx
    · rw [joinedLeaves_self]
      refine .node h.inner (by omega) ?_ ?_ ?_ ?_
      · rw [hm.left]; exact holder l hl
      · rw [hm.right]; exact holder r hr
      · rw [hm.left]; exact hold l hl
      · rw [hm.right]; exact hold r hr
    · rw [hkeep x hx]
      exact hold x (hrest x hx)
  case perm =>
    have hafter : (s.nextId :: rest).flatMap (joinedLeaves leaves s.nextId l r) = (l :: r :: rest).flatMap leaves := by
      simp only [List.flatMap_cons, joinedLeaves_self, List.append_assoc, List.flatMap_congr hkeep]
    exact (hm.after.flatMap_right _).trans (hafter ▸ (hm.before.flatMap_right leaves).symm.trans hperm)

theorem Forest.mergeAll {fuel : Nat} (h : Forest ys s) (hb : Buildable s) (hfuel : s.heapSize.toNat ≤ fuel)
    (hrun : mergeAll fuel s = .ok t) : Forest ys t := by
  induction fuel generalizing s with
  | zero => exact absurd (hb.nonempty.trans hfuel) (by omega)
  | succ n ih =>
    rcases hb.nonempty.eq_or_lt' with hone | htwo
    · rw [mergeAll_of_heapSize_le_one _ hone.le] at hrun
      exact Except.ok.inj hrun ▸ h
    · obtain ⟨u, hmerge, hu, hsize, -⟩ := hb.merge htwo
      rw [mergeAll_succ n htwo hmerge] at hrun
      exact ih (h.tbMerge hb htwo hmerge) hu (by omega) hrun

/-- A forest of one tree is the tree under `HEAP[0]`. -/
theorem Forest.tree (h : Forest ys s) (hone : s.heapSize.toNat = 1) : ∃ zs, Tree s (s.heapAt 0) zs ∧ zs.Perm ys := by
  obtain ⟨leaves, htrees, hperm⟩ := h.trees
  have hlive : liveIds s = [s.heapAt 0] := by simp [liveIds, hone]
  rw [hlive] at htrees hperm
  exact ⟨leaves (s.heapAt 0), htrees _ List.mem_cons_self, by simpa using hperm⟩

/-- The build of a command: one tree of the leaves, and the sum of their frequencies at its root. -/
theorem tbBuild_tree (h : Forest ys s) (hb : Buildable s) (hfit : liveFreqSum s < 2 ^ 32) :
    ∃ t, tbBuild s = .ok t ∧ (∃ zs, Tree t t.root zs ∧ zs.Perm ys) ∧
      (t.nodeFreqAt t.root.toNat).toNat = liveFreqSum s ∧
      t = { s with
        root := t.root, nodeFreq := t.nodeFreq, nodeLeft := t.nodeLeft, nodeRight := t.nodeRight,
        heap := t.heap, heapSize := t.heapSize, nextId := t.nextId, freeCount := t.freeCount } := by
  obtain ⟨t, hrun, hone, hbuilt⟩ := hb.mergeAll le_rfl
  have hframe := mergeAll_frame hrun
  have hsum := (hbuilt.freqSum hfit).1
  rw [liveFreqSum_of_one hone] at hsum
  obtain ⟨zs, htree, hperm⟩ := (h.mergeAll hb le_rfl hrun).tree hone
  refine ⟨{ t with root := t.heapAt 0 }, tbBuild_eq hrun, ⟨zs, ?_, hperm⟩, hsum, by rw [hframe]⟩
  exact htree.of_nodeAt (b := 512) (fun _ _ => rfl) (t.heapAt 0).isLt

end

/-! ### The leaves (R155) -/

/-- The present symbols, ascending. -/
def presentSyms (s : State) : List Sym := (presentIds s).map (BitVec.setWidth 8)

section

variable {s t : State}

theorem presentSyms_eq (s : State) :
    presentSyms s = ((List.range 256).filter fun k => decide (s.freqAt k ≠ 0#32)).map (BitVec.ofNat 8) := by
  rw [presentSyms, presentIds, List.map_map]
  refine List.map_congr_left fun k _ => ?_
  rw [Function.comp_apply, BitVec.setWidth_ofNat_of_le (by decide)]

theorem mem_presentSyms {y : Sym} : y ∈ presentSyms s ↔ s.freqAt y.toNat ≠ 0#32 := by
  rw [presentSyms_eq, List.mem_map]
  constructor
  · rintro ⟨k, hk, rfl⟩
    obtain ⟨hlt, hne⟩ := List.mem_filter.1 hk
    rw [BitVec.toNat_ofNat, Nat.mod_eq_of_lt (List.mem_range.1 hlt)]
    exact of_decide_eq_true hne
  · intro h
    refine ⟨y.toNat, List.mem_filter.2 ⟨List.mem_range.2 y.isLt, decide_eq_true h⟩, ?_⟩
    rw [BitVec.ofNat_toNat, BitVec.setWidth_eq]

theorem nodup_presentSyms (s : State) : (presentSyms s).Nodup := by
  rw [presentSyms_eq]
  refine List.Nodup.map_on (fun a ha b hb hab => ?_) (List.nodup_range.filter _)
  have ha := List.mem_range.1 (List.mem_filter.1 ha).1
  have hb := List.mem_range.1 (List.mem_filter.1 hb).1
  have := congrArg BitVec.toNat hab
  rw [BitVec.toNat_ofNat, BitVec.toNat_ofNat] at this
  omega

/-- What the build starts from: the present symbols are in the queue as leaves that have their counts. -/
structure Leafed (s : State) : Prop where
  nextId : s.nextId = 256#9
  live : (liveIds s).Perm (presentIds s)
  nodeFreqAt : ∀ k, k < 256 → s.freqAt k ≠ 0#32 → s.nodeFreqAt k = s.freqAt k

theorem Leafed.toNat_lt (h : Leafed s) {x : NodeId} (hx : x ∈ liveIds s) : x.toNat < 256 :=
  toNat_lt_of_mem_presentBelow le_rfl (h.live.mem_iff.1 hx)

theorem Leafed.heapSize_eq (h : Leafed s) : s.heapSize.toNat = (presentIds s).length := by
  rw [← length_liveIds, h.live.length_eq]

theorem Leafed.forest (h : Leafed s) : Forest (presentSyms s) s where
  inner := by rw [h.nextId]; decide
  trees := ⟨fun x => [x.setWidth 8], fun _ hx => .leaf (h.toNat_lt hx), by
    rw [← List.map_eq_flatMap]
    exact h.live.map _⟩

theorem sum_map_filter_ne_zero (g : Nat → BitVec 32) (l : List Nat) :
    ((l.filter fun k => decide (g k ≠ 0#32)).map fun k => (g k).toNat).sum = (l.map fun k => (g k).toNat).sum := by
  induction l with
  | nil => rfl
  | cons a l ih =>
    by_cases ha : g a = 0#32
    · simpa [ha] using ih
    · simpa [ha] using ih

/-- The leaves in the queue have the counts of the present symbols, and the others have none (R132). -/
theorem Leafed.liveFreqSum_eq (h : Leafed s) :
    liveFreqSum s = ((List.range 256).map fun k => (s.freqAt k).toNat).sum := by
  rw [liveFreqSum_eq_of_perm h.live, freqTotal, presentIds, List.map_map, ← sum_map_filter_ne_zero s.freqAt]
  refine congrArg List.sum (List.map_congr_left fun k hk => ?_)
  obtain ⟨hlt, hne⟩ := List.mem_filter.1 hk
  have hlt := List.mem_range.1 hlt
  have hid : (BitVec.ofNat 9 k).toNat = k := by rw [BitVec.toNat_ofNat]; omega
  rw [Function.comp_apply, hid, h.nodeFreqAt k hlt (of_decide_eq_true hne)]

/-- A buffer that is not empty has a present symbol, so the queue is not empty. -/
theorem Leafed.buildable (h : Leafed s) (hpos : 0 < liveFreqSum s) : Buildable s := by
  have hle := length_presentBelow_le s 256
  rw [← presentIds_eq, ← h.heapSize_eq] at hle
  have hnextId : s.nextId.toNat = 256 := by rw [h.nextId]; rfl
  refine ⟨Nat.pos_of_ne_zero fun h0 => ?_, hle, by omega, fun x hx => by rw [hnextId]; exact h.toNat_lt hx⟩
  rw [liveFreqSum, liveIds, h0] at hpos
  exact lt_irrefl _ hpos

/-- `TB.LEAVES` from an empty queue makes the leaves and writes neither the counts nor what the walk writes. -/
theorem exec_tbLeaves_leafed (hempty : s.heapSize = 0#9) :
    ∃ t, exec .tbLeaves s = .next t ∧ Leafed t ∧
      t = { s with nextId := t.nextId, nodeFreq := t.nodeFreq, heap := t.heap, heapSize := t.heapSize } := by
  obtain ⟨t, hrun, hnext, hlive, -, hfreq, hframe⟩ := tbLeavesResult s hempty
  have hfreqAt : t.freqAt = s.freqAt := by rw [hframe]; rfl
  refine ⟨t, hrun, ⟨hnext, ?_, fun k hk hne => ?_⟩, hframe⟩
  · rwa [presentIds, hfreqAt, ← presentIds]
  · rw [hfreqAt] at hne ⊢
    rw [hfreq k, if_pos ⟨hk, hne⟩]

end

/-! ### The paths of a tree do not begin each other (R126, R173) -/

/-- Neither path begins with the other. -/
def Apart (a b : Sym × List Bool) : Prop := ¬ a.2 <+: b.2 ∧ ¬ b.2 <+: a.2

theorem symm_apart : Std.Symm Apart := ⟨fun _ _ h => h.symm⟩

/-- Leaves of which no path begins with another, each path short enough for a record (R95). -/
structure PathsFree (ps : List (Sym × List Bool)) : Prop where
  short : ∀ e ∈ ps, e.2.length ≤ 255
  free : ps.Pairwise Apart

section

variable {s t : State} {n : NodeId} {f : Nat} {p : List Bool} {ps : List (Sym × List Bool)}

/-- The paths under a node go on from its own, by less than the height allowed. -/
theorem treePaths_under (h : treePaths s f n p = some ps) : ∀ e ∈ ps, p <+: e.2 ∧ e.2.length < p.length + f := by
  induction f generalizing n p ps with
  | zero => cases h
  | succ f ih =>
    rcases treePaths_succ h with ⟨-, rfl⟩ | ⟨-, -, l, r, hl, hr, rfl⟩
    · intro e he
      obtain rfl := List.mem_singleton.1 he
      exact ⟨List.prefix_refl _, Nat.lt_add_of_pos_right f.succ_pos⟩
    · intro e he
      have hchild : ∃ b, p ++ [b] <+: e.2 ∧ e.2.length < (p ++ [b]).length + f :=
        (List.mem_append.1 he).elim (fun he => ⟨_, ih hl e he⟩) fun he => ⟨_, ih hr e he⟩
      obtain ⟨b, hpre, hlen⟩ := hchild
      rw [length_child] at hlen
      exact ⟨(List.prefix_append p [b]).trans hpre, by omega⟩

/-- Of two paths that leave a node by different edges neither begins with the other. -/
theorem not_prefix_of_edges {a b : List Bool} {x y : Bool} (ha : p ++ [x] <+: a) (hb : p ++ [y] <+: b) (hne : x ≠ y) :
    ¬ a <+: b := by
  intro hab
  have hsame := List.prefix_of_prefix_length_le (ha.trans hab) hb (by simp)
  have heq := hsame.eq_of_length (by simp)
  exact hne (by simpa using heq)

theorem treePaths_pairwise (h : treePaths s f n p = some ps) : ps.Pairwise Apart := by
  induction f generalizing n p ps with
  | zero => cases h
  | succ f ih =>
    rcases treePaths_succ h with ⟨-, rfl⟩ | ⟨-, -, l, r, hl, hr, rfl⟩
    · exact List.pairwise_singleton _ _
    · refine List.pairwise_append.2 ⟨ih hl, ih hr, fun a ha b hb => ?_⟩
      have ha := (treePaths_under hl a ha).1
      have hb := (treePaths_under hr b hb).1
      exact ⟨not_prefix_of_edges ha hb (by decide), not_prefix_of_edges hb ha (by decide)⟩

theorem pathsFree_of_treePaths (h : treePaths s 256 n [] = some ps) : PathsFree ps where
  short e he := by
    have := (treePaths_under h e he).2
    rw [List.length_nil] at this
    omega
  free := treePaths_pairwise h

/-- The walk of a tree binds its leaves to paths of which none begins with another (R171 to R173). -/
theorem cwWalk_tree {ys : List Sym} (h : Tree s s.root ys) :
    ∃ t ps, cwWalk s = .ok t ∧ ps.map Prod.fst = ys ∧ PathsFree ps ∧
      (∀ k, t.codeAt k = boundTo ps k (s.codeAt k)) ∧ SameButWalk s t := by
  rcases Nat.lt_or_ge s.root.toNat 256 with hleaf | hinner
  · have hsym : (s.root.setWidth 8).toNat = s.root.toNat := by rw [BitVec.toNat_setWidth]; omega
    cases h with
    | node hn => omega
    | leaf =>
      refine ⟨_, [(s.root.setWidth 8, [false])], cwWalk_leaf hleaf, rfl, ⟨by simp, List.pairwise_singleton _ _⟩,
        fun k => ?_, rfl⟩
      rw [State.codeAt_setCode, boundTo_singleton, hsym]
  · obtain ⟨ps, hps, hys⟩ := h.treePaths (f := 256) (by decide) (by have := h.toNat_lt; omega) []
    obtain ⟨t, hrun, ht⟩ := cwWalk_inner hinner hps
    exact ⟨t, ps, hrun, hys, pathsFree_of_treePaths hps, ht.codeAt, ht.frame⟩

/-! ### The records of such paths -/

theorem codeString_entryOf (hp : p.length ≤ 255) : codeString (entryOf p) = p := by
  have hlen : (entryOf p).len.toNat = p.length := by
    rw [entryOf, BitVec.toNat_ofNat]
    omega
  refine List.ext_getElem (by rw [length_codeString, hlen]) fun i hi hi' => ?_
  simp [codeString, entryOf, bitAt_bitsOf, hi', show i < 255 by omega]

/-- The record of a symbol is that of its one leaf. -/
theorem boundTo_of_mem (hnodup : (ps.map Prod.fst).Nodup) {e : Sym × List Bool} (he : e ∈ ps) (old : CodeEntry) :
    boundTo ps e.1.toNat old = entryOf e.2 := by
  rw [boundTo]
  split
  · next x hx =>
    have hsym : x.1 = e.1 := BitVec.eq_of_toNat_eq (by simpa using List.find?_some hx)
    rw [List.inj_on_of_nodup_map hnodup (List.mem_reverse.1 (List.mem_of_find?_eq_some hx)) he hsym]
  · next hnone => exact absurd (List.find?_eq_none.1 hnone e (List.mem_reverse.2 he)) (by simp)

theorem boundTo_of_forall_ne {k : Nat} (h : ∀ e ∈ ps, e.1.toNat ≠ k) (old : CodeEntry) : boundTo ps k old = old := by
  have hnone : ps.reverse.find? (fun e => decide (e.1.toNat = k)) = none :=
    List.find?_eq_none.2 fun e he => by simpa using h e (List.mem_reverse.1 he)
  rw [boundTo, hnone]

/-- Bound to paths of which none begins with another, the leaves have codes with the same property (R126). -/
theorem PathsFree.codes (h : PathsFree ps) (hnodup : (ps.map Prod.fst).Nodup)
    (hcode : ∀ k, k < 256 → t.codeAt k = boundTo ps k CodeEntry.cleared) :
    codesPrefixFree t ∧ ∀ e ∈ ps, (t.codeAt e.1.toNat).valid = true := by
  have hleaf : ∀ e ∈ ps, t.codeAt e.1.toNat = entryOf e.2 := fun e he => by
    rw [hcode _ e.1.isLt, boundTo_of_mem hnodup he]
  have hvalid : ∀ k, k < 256 → (t.codeAt k).valid = true → ∃ e ∈ ps, e.1.toNat = k := fun k hk hv => by
    by_contra hnone
    push Not at hnone
    rw [hcode k hk, boundTo_of_forall_ne hnone] at hv
    exact absurd hv (by decide)
  refine ⟨fun a ha b hb hne hva hvb hpre => ?_, fun e he => by rw [hleaf e he]; rfl⟩
  obtain ⟨x, hx, rfl⟩ := hvalid a ha hva
  obtain ⟨y, hy, rfl⟩ := hvalid b hb hvb
  rw [hleaf x hx, hleaf y hy, codeString_entryOf (h.short x hx), codeString_entryOf (h.short y hy)] at hpre
  have hsymm := symm_apart
  exact (h.free.forall hx hy fun hxy => hne (by rw [hxy])).1 hpre

end

end Sys2Proof.Proofs
end

section
namespace Sys2Proof.Proofs

open Sys2Proof.Machine Sys2Proof.Safety

/-! ### What each operation of `ENCODE` hands on

The buffer has `n` bytes. -/

/-- The length of the buffer has been checked (R117). -/
structure Checked (n : Nat) (s : State) : Prop where
  inLen : s.inLen.toNat = n
  inStore : s.inLen.toNat ≤ s.caps.inCap.toNat

/-- The bytes of the buffer have been counted (R131). -/
structure Counted (n : Nat) (s : State) : Prop extends Checked n s where
  counts : ∀ k, k < 256 → (s.freqAt k).toNat = countOf s k

/-- The codes are cleared and the packer is empty (R170, R181). -/
structure Prepared (n : Nat) (s : State) : Prop extends Counted n s where
  codes : ∀ k, k < 256 → s.codeAt k = CodeEntry.cleared
  accN : s.accN = 0#4
  pkLen : s.pkLen = 0#64

/-- The tree of the present symbols is built, and its root has the frequency `n` (R157, R158). -/
structure TreeBuilt (n : Nat) (s : State) : Prop extends Prepared n s where
  tree : ∃ ys, Tree s s.root ys ∧ ys.Perm (presentSyms s)
  rootFreq : (s.nodeFreqAt s.root.toNat).toNat = n

/-- What the command promises of codes and frequencies where it ends without error (R126, R127). -/
structure Encoded (n : Nat) (s : State) : Prop where
  free : codesPrefixFree s
  rootFreq : 0 < n → (s.nodeFreqAt s.root.toNat).toNat = n
  freqSum : ((List.range 256).map fun k => (s.freqAt k).toNat).sum = n

/-- Every byte of the buffer has a code, and the packer is empty. -/
structure Packable (n : Nat) (s : State) : Prop extends Checked n s, Encoded n s where
  valid : ∀ i, i < s.inLen.toNat → (s.codeAt (s.byteAt .inp i).toNat).valid = true
  accN : s.accN = 0#4
  pkLen : s.pkLen = 0#64

section

variable {n : Nat} {s t : State}

theorem Counted.freqSum (h : Counted n s) : ((List.range 256).map fun k => (s.freqAt k).toNat).sum = n := by
  rw [List.map_congr_left fun k hk => h.counts k (List.mem_range.1 hk), ← h.inLen]
  exact sum_countOf s

/-- A byte of the buffer is a present symbol. -/
theorem Counted.present (h : Counted n s) {i : Nat} (hi : i < s.inLen.toNat) :
    s.byteAt .inp i ∈ presentSyms s := by
  have hpos : 0 < countOf s (s.byteAt .inp i).toNat :=
    List.countP_pos_iff.2 ⟨i, List.mem_range.2 hi, decide_eq_true rfl⟩
  rw [← h.counts _ (s.byteAt .inp i).isLt] at hpos
  refine mem_presentSyms.2 fun h0 => ?_
  rw [h0] at hpos
  exact lt_irrefl _ hpos

/-! ### The operations complete -/

theorem completes_fcCount (h : Checked n s) (h0 : ∀ k, k < 256 → s.freqAt k = 0#32) :
    Completes (Counted n) s (exec .fcCount s) := by
  obtain ⟨t, hrun, hst⟩ := exec_fcCount_counts h.inStore
  have hcounts := (hst.of_cleared h0).2
  have hcount : countOf t = countOf s := by rw [hst.frame]; rfl
  rw [hrun]
  refine .passes ⟨?checked, fun k hk => by rw [hcounts k hk, hcount]⟩ (by rw [hst.frame]; rfl)
  rw [hst.frame]
  exact { h with }

theorem completes_tbLeaves (h : Prepared n s) (hempty : s.heapSize = 0#9) :
    Completes (fun t => Prepared n t ∧ Leafed t) s (exec .tbLeaves s) := by
  obtain ⟨t, hrun, hleafed, hframe⟩ := exec_tbLeaves_leafed hempty
  rw [hrun]
  refine .passes ⟨?_, hleafed⟩ (by rw [hframe]; rfl)
  rw [hframe]
  exact { h with }

theorem completes_tbBuild (hn : 0 < n) (h : Prepared n s) (hl : Leafed s) :
    Completes (TreeBuilt n) s (exec .tbBuild s) := by
  have hsum : liveFreqSum s = n := hl.liveFreqSum_eq.trans h.freqSum
  have hfit : n < 2 ^ 32 := by rw [← h.inLen]; exact s.inLen.isLt
  obtain ⟨t, hrun, htree, hfreq, hframe⟩ :=
    tbBuild_tree hl.forest (hl.buildable (by rwa [hsum])) (by rwa [hsum])
  have hpresent : presentSyms t = presentSyms s := by rw [hframe]; rfl
  have hprepared : Prepared n t := by rw [hframe]; exact { h with }
  rw [exec_tbBuild, hrun]
  exact .passes { hprepared with tree := by rwa [hpresent], rootFreq := hfreq.trans hsum } (by rw [hframe]; rfl)

theorem completes_cwWalk (h : TreeBuilt n s) : Completes (Packable n) s (exec .cwWalk s) := by
  obtain ⟨ys, htree, hperm⟩ := h.tree
  obtain ⟨t, ps, hrun, hys, hfree, hcode, hframe⟩ := cwWalk_tree htree
  have hnodup : (ps.map Prod.fst).Nodup := hys ▸ hperm.nodup_iff.2 (nodup_presentSyms s)
  obtain ⟨hcodes, hvalid⟩ := hfree.codes hnodup fun k hk => by rw [hcode, h.codes k hk]
  unfold SameButWalk at hframe
  have hinput : t.inLen = s.inLen ∧ t.byteAt .inp = s.byteAt .inp := by rw [hframe]; exact ⟨rfl, rfl⟩
  rw [exec_cwWalk, hrun]
  refine .passes ⟨?checked, ⟨hcodes, fun _ => ?root, ?sum⟩, fun i hi => ?valid, ?acc, ?pk⟩ (by rw [hframe]; rfl)
  case checked => rw [hframe]; exact { h with }
  case root => rw [hframe]; exact h.rootFreq
  case sum => rw [hframe]; exact h.freqSum
  case valid =>
    rw [hinput.1] at hi
    obtain ⟨e, he, hsym⟩ := List.mem_map.1 (hys.symm ▸ hperm.mem_iff.2 (h.present hi))
    rw [hinput.2, ← hsym]
    exact hvalid e he
  case acc => rw [hframe]; exact h.accN
  case pk => rw [hframe]; exact h.pkLen

theorem completes_bpPack (h : Packable n s) :
    Completes (fun t => Encoded n t ∧ t.accN.toNat < 8) s (exec .bpPack s) := by
  have haccN : s.accN.toNat < 8 := by rw [h.accN]; decide
  have hpacks := packs_bpPack h.inStore h.valid haccN
  rw [exec_bpPack]
  rcases Nat.lt_or_ge s.caps.pkCap.toNat (fullBytes s (inputCodeBits s)) with hfull | hroom
  · obtain ⟨v, hrun, u, rfl, -, -, hframe⟩ := hpacks.full (by rw [h.pkLen]; exact Nat.zero_le _) hfull
    rw [hrun]
    exact .raises _ _ (by rw [hframe])
  · obtain ⟨t, hrun, hst⟩ := hpacks.room hroom
    have hframe := hst.frame
    rw [hrun]
    refine .passes ⟨?_, hst.accN⟩ (by rw [hframe]; rfl)
    rw [hframe]
    exact { h.toEncoded with }

theorem completes_bpFlush (h : Encoded n s) (haccN : s.accN.toNat < 8) :
    Completes (Encoded n) s (exec .bpFlush s) := by
  rw [exec_bpFlush]
  rcases Nat.eq_zero_or_pos s.accN.toNat with hnone | hpending
  · rw [bpFlush, if_pos (BitVec.eq_of_toNat_eq hnone)]
    exact .passes h rfl
  rcases Nat.lt_or_ge s.pkLen.toNat s.caps.pkCap.toNat with hroom | hfull
  · rw [bpFlush_room hpending hroom, if_pos haccN.le]
    exact .passes { h with } rfl
  · rw [bpFlush_full hpending hfull]
    exact .raises _ _ rfl

theorem completes_ccSerialize (h : Encoded n s) : Completes (Encoded n) s (exec .ccSerialize s) := by
  obtain ⟨t, hrun, -, -, -, hframe⟩ := ccSerializeResult s
  rw [hrun, hframe]
  exact .passes { h with } rfl

/-! ### The program of R113 -/

theorem advance_seqSkipempty (t : State) : advance .seqSkipempty t = t := by simp [advance, writesStep]

/-- Where the program of R113 has it, `SEQ.SKIPEMPTY` goes on at 12 or at 6 (R118). -/
theorem exec_seqSkipempty_atFive (h : s.step = 5#4) :
    exec .seqSkipempty s = .next { s with step := if s.inLen = 0#32 then 12#4 else 6#4 } := by
  by_cases hlen : s.inLen = 0#32 <;> simp [exec, execSeqSkipempty, hlen, h, countFree, fitOrFree]

/-- The branch over the builder (R118). -/
theorem leads_seqSkipempty {P Q : State → Prop} {m : Nat} (hP : Stable P)
    (hempty : Leads 1#2 12#4 (fun s => P s ∧ s.inLen = 0#32) m Q)
    (hrest : Leads 1#2 6#4 (fun s => P s ∧ s.inLen ≠ 0#32) m Q) : Leads 1#2 5#4 P (m + 1) Q := by
  intro s hs hpre
  have hexec := exec_seqSkipempty_atFive (s := { s with uop := 0x05#8 }) hs.step
  have hstep : step s = runStepOp 0x05#8 .seqSkipempty s := hs.step_eq rfl rfl
  rw [runStepOp_of_next hexec, advance_seqSkipempty] at hstep
  have hrunning {k : BitVec 4} : Running 1#2 k { s with uop := 0x05#8, step := k } :=
    ⟨hs.turns, hs.busy, hs.err, hs.curCmd, rfl⟩
  refine .step hstep ?_
  by_cases hlen : s.inLen = 0#32
  · rw [if_pos hlen]
    exact hempty _ hrunning ⟨hP s _ _ hpre, hlen⟩
  · rw [if_neg hlen]
    exact hrest _ hrunning ⟨hP s _ _ hpre, hlen⟩

theorem Stable.and {P R : State → Prop} (hP : Stable P) (hR : Stable R) : Stable fun s => P s ∧ R s :=
  fun s k id h => ⟨hP s k id h.1, hR s k id h.2⟩

theorem stable_checked (n : Nat) : Stable (Checked n) := fun _ _ _ h => { h with }

theorem stable_counted (n : Nat) : Stable (Counted n) := fun _ _ _ h => { h with }

theorem stable_prepared (n : Nat) : Stable (Prepared n) := fun _ _ _ h => { h with }

theorem stable_leafed : Stable Leafed := fun _ _ _ h => { h with }

theorem stable_treeBuilt (n : Nat) : Stable (TreeBuilt n) := fun s k id h =>
  { stable_prepared n s k id h.toPrepared with
    tree := h.tree.imp fun _ ⟨htree, hperm⟩ => ⟨htree.of_nodeAt (b := 512) (fun _ _ => rfl) s.root.isLt, hperm⟩
    rootFreq := h.rootFreq }

theorem stable_packable (n : Nat) : Stable (Packable n) := fun _ _ _ h => { h with }

theorem stable_encoded (n : Nat) : Stable (Encoded n) := fun _ _ _ h => { h with }

/-- Steps 12 and 13, to which `SEQ.SKIPEMPTY` jumps; `m` more steps do nothing. -/
theorem leads_serialize (n m : Nat) : Leads 1#2 12#4 (Encoded n) (m + 2) (Encoded n) :=
  .step rfl rfl rfl (stable_encoded n) (stable_encoded n) (fun _ h => completes_ccSerialize h)
    (leads_seqEnd rfl (fun _ h => { h with }) m)

/-- Steps 6 to 13, for a buffer that is not empty. -/
theorem leads_build (hn : 0 < n) : Leads 1#2 6#4 (Prepared n) 8 (Encoded n) := by
  have hempty : Stable fun s => s.heapSize = 0#9 := fun _ _ _ h => h
  have hpending : Stable fun s => s.accN.toNat < 8 := fun _ _ _ h => h
  refine .step rfl rfl rfl (stable_prepared n) ((stable_prepared n).and hempty)
    (fun s h => .passes ⟨{ h with }, rfl⟩ rfl) ?_
  refine .step rfl rfl rfl ((stable_prepared n).and hempty) ((stable_prepared n).and stable_leafed)
    (fun s h => completes_tbLeaves h.1 h.2) ?_
  refine .step rfl rfl rfl ((stable_prepared n).and stable_leafed) (stable_treeBuilt n)
    (fun s h => completes_tbBuild hn h.1 h.2) ?_
  refine .step rfl rfl rfl (stable_treeBuilt n) (stable_packable n) (fun s h => completes_cwWalk h) ?_
  refine .step rfl rfl rfl (stable_packable n) ((stable_encoded n).and hpending) (fun s h => completes_bpPack h) ?_
  refine .step rfl rfl rfl ((stable_encoded n).and hpending) (stable_encoded n)
    (fun s h => completes_bpFlush h.1 h.2) ?_
  exact leads_serialize n 0

/-- An empty buffer has no codes and no counts (R118). -/
theorem Prepared.encoded_of_empty (h : Prepared n s) (hempty : s.inLen = 0#32) : Encoded n s where
  free a ha _ _ _ hvalid := by rw [h.codes a ha] at hvalid; exact absurd hvalid (by decide)
  rootFreq hn := by rw [← h.inLen, hempty] at hn; exact absurd hn (lt_irrefl 0)
  freqSum := h.freqSum

/-- The program of R113 for a buffer of `n` bytes. -/
theorem leads_encode (n : Nat) : Leads 1#2 0#4 (fun s => s.inLen.toNat = n) 14 (Encoded n) := by
  have hlen : Stable fun s => s.inLen.toNat = n := fun _ _ _ h => h
  have hfreq : Stable fun s => ∀ k, k < 256 → s.freqAt k = 0#32 := fun _ _ _ h => h
  have hcode : Stable fun s => ∀ k, k < 256 → s.codeAt k = CodeEntry.cleared := fun _ _ _ h => h
  refine .step rfl rfl rfl hlen (stable_checked n)
    (fun s h => completes_check .invalidInput 2 fun hle => ⟨h, Nat.le_of_not_lt hle⟩) ?_
  refine .step rfl rfl rfl (stable_checked n) ((stable_checked n).and hfreq)
    (fun s h => .passes ⟨{ h with }, fun k => freqAt_cleared s⟩ rfl) ?_
  refine .step rfl rfl rfl ((stable_checked n).and hfreq) (stable_counted n)
    (fun s h => completes_fcCount h.1 h.2) ?_
  refine .step rfl rfl rfl (stable_counted n) ((stable_counted n).and hcode)
    (fun s h => .passes ⟨{ h with }, fun k => codeAt_cleared s⟩ rfl) ?_
  refine .step rfl rfl rfl ((stable_counted n).and hcode) (stable_prepared n)
    (fun s h => .passes { h.1 with codes := h.2, accN := rfl, pkLen := rfl } rfl) ?_
  refine leads_seqSkipempty (stable_prepared n) ?empty ?build
  case empty => exact fun s hs h => leads_serialize n 6 s hs (h.1.encoded_of_empty h.2)
  case build =>
    intro s hs ⟨h, hne⟩
    have hn : 0 < n := by
      rw [← h.inLen]
      exact Nat.pos_of_ne_zero fun h0 => hne (BitVec.eq_of_toNat_eq h0)
    exact leads_build hn s hs h

end

/-- Settles O57: the issue starts the program, and `leads_encode` runs it to its end. -/
theorem encodeCommandEnds : Obligations.EncodeCommandEnds := by
  intro s hidle hturns
  obtain ⟨t, hrun, ht⟩ := leads_encode s.inLen.toNat _ (running_startCommand hturns 1#2) rfl
  exact ⟨startCommand 1#2 s, t, by simp [exec, execEncode, hidle], hrun, ht.busy, ht.done,
    fun hok => (ht.result hok).free, fun hok hpos => ⟨(ht.result hok).rootFreq hpos, (ht.result hok).freqSum⟩⟩

end Sys2Proof.Proofs
end

section
/-! Proof of the codes of a walk: none begins another, and exactly the leaves have one. -/

namespace Sys2Proof.Proofs

open Sys2Proof.Machine Sys2Proof.Safety

/-- In a table bound to leaves from the cleared one, a symbol with a code is a leaf. -/
theorem exists_leaf_of_valid {ps : List (Sym × List Bool)} {k : Nat}
    (h : (boundTo ps k CodeEntry.cleared).valid = true) : ∃ e ∈ ps, e.1.toNat = k := by
  by_contra hnone
  push Not at hnone
  rw [boundTo_of_forall_ne hnone] at h
  exact absurd h (by decide)

/-- `CODE` has been cleared (R170). -/
def clearCodes (s : State) : State := { s with code := cellFill Config.nsym CodeEntry.cleared }

theorem codeAt_clearCodes (s : State) {k : Nat} (hk : k < 256) : (clearCodes s).codeAt k = CodeEntry.cleared :=
  codeAt_cleared s hk

theorem treePaths_clearCodes (s : State) (f : Nat) (n : NodeId) (p : List Bool) :
    treePaths (clearCodes s) f n p = treePaths s f n p := treePaths_congr (s := s) (t := clearCodes s) rfl rfl f n p

/-- Settles O25: the paths of a tree do not begin each other (`pathsFree_of_treePaths`), and the walk binds the cleared
table to them. -/
theorem walkGivesPrefixFreeCodes : Obligations.WalkGivesPrefixFreeCodes := by
  intro s t u ps hclear hroot hps hnodup hwalk
  obtain rfl : clearCodes s = t := Host.Outcome.next.inj hclear
  obtain ⟨v, hrun, hv⟩ := cwWalk_inner (s := clearCodes s) hroot (by rwa [treePaths_clearCodes])
  rw [exec_cwWalk, hrun] at hwalk
  obtain rfl := Host.Outcome.next.inj hwalk
  have hcode : ∀ k, k < 256 → v.codeAt k = boundTo ps k CodeEntry.cleared := fun k hk => by
    rw [hv.codeAt, codeAt_clearCodes s hk]
  obtain ⟨hfree, hleaf⟩ := (pathsFree_of_treePaths hps).codes hnodup hcode
  refine ⟨hfree, fun k hk => ⟨fun hvalid => ?_, ?_⟩⟩
  · rw [hcode k hk] at hvalid
    exact exists_leaf_of_valid hvalid
  · rintro ⟨e, he, rfl⟩
    exact hleaf e he

end Sys2Proof.Proofs
end

section
/-! Proof of the codebook round trip: a table of codes and the codebook of its entries determine each other. -/

namespace Sys2Proof.Proofs

open Sys2Proof.Machine Sys2Proof.Safety

/-! ### The entries of a table -/

section

variable {s t u : State} {T : Nat} {es : List (Sym × List Bool)}

theorem mem_codeEntries {e : Sym × List Bool} :
    e ∈ codeEntries s ↔ (s.codeAt e.1.toNat).valid = true ∧ codeString (s.codeAt e.1.toNat) = e.2 := by
  obtain ⟨y, p⟩ := e
  rw [codeEntries, List.mem_map]
  constructor
  · rintro ⟨k, hk, heq⟩
    obtain ⟨hlt, hvalid⟩ := List.mem_filter.1 hk
    obtain ⟨rfl, rfl⟩ := Prod.mk.inj heq
    rw [BitVec.toNat_ofNat, Nat.mod_eq_of_lt (List.mem_range.1 hlt)]
    exact ⟨hvalid, rfl⟩
  · rintro ⟨hvalid, hkey⟩
    exact ⟨y.toNat, List.mem_filter.2 ⟨List.mem_range.2 y.isLt, hvalid⟩, by rw [BitVec.ofNat_toNat, hkey]; simp⟩

theorem pairwise_codeEntries (s : State) : (codeEntries s).Pairwise fun a b => a.1.toNat < b.1.toNat := by
  refine List.pairwise_map.2 ((List.pairwise_lt_range.filter _).imp_of_mem fun ha hb hab => ?_)
  have ha := List.mem_range.1 (List.mem_filter.1 ha).1
  have hb := List.mem_range.1 (List.mem_filter.1 hb).1
  simp only [BitVec.toNat_ofNat]
  omega

/-- The valid records have lengths of at least 1, as a codebook needs (R92 (e)). -/
def LengthsPositive (s : State) : Prop := ∀ k, k < 256 → (s.codeAt k).valid = true → 1 ≤ (s.codeAt k).len.toNat

theorem LengthsPositive.entriesValid (h : LengthsPositive s) : entriesValid (codeEntries s) := by
  refine ⟨pairwise_codeEntries s, fun e he => ⟨?_, key_length_of_mem_codeEntries he⟩⟩
  obtain ⟨hvalid, hkey⟩ := mem_codeEntries.1 he
  rw [← hkey, length_codeString]
  exact h _ e.1.isLt hvalid

/-- A valid record of R95 is the one that holds its own bit-string. -/
theorem entryOf_codeString {e : CodeEntry} (hform : codeCanonical e = true) (hvalid : e.valid = true) :
    entryOf (codeString e) = e := by
  obtain ⟨v, len, bits⟩ := e
  obtain rfl : v = true := hvalid
  have hbits : bits = bitsOf len.toNat (bitAt bits) := by simpa [codeCanonical] using hform
  have hsame : bitsOf len.toNat (fun k => (codeString ⟨true, len, bits⟩).getD k false) = bits := by
    refine (bitsOf_congr fun k hk => ?_).trans hbits.symm
    rw [codeString, getD_map_range, decide_eq_true hk, Bool.true_and]
  rw [entryOf, length_codeString, hsame, BitVec.ofNat_toNat, BitVec.setWidth_eq]

/-- An invalid record of R95 is the cleared one. -/
theorem eq_cleared_of_invalid {e : CodeEntry} (hform : codeCanonical e = true) (hvalid : e.valid = false) :
    e = CodeEntry.cleared := by
  obtain ⟨v, len, bits⟩ := e
  obtain rfl : v = false := hvalid
  obtain ⟨hbits, rfl⟩ : bits = bitsOf len.toNat (bitAt bits) ∧ len = 0#8 := by simpa [codeCanonical] using hform
  rw [hbits]
  rfl

theorem entryFor_of_forall_ne {k : Nat} (h : ∀ e ∈ es, e.1.toNat ≠ k) : entryFor es k = CodeEntry.cleared := by
  induction es with
  | nil => rfl
  | cons e es ih =>
    obtain ⟨hne, hes⟩ := List.forall_mem_cons.1 h
    rw [entryFor_cons, if_neg hne, ih hes]

theorem entryFor_of_mem (h : es.Pairwise fun a b => a.1.toNat < b.1.toNat) {e : Sym × List Bool} (he : e ∈ es) :
    entryFor es e.1.toNat = entryOf e.2 := by
  induction es with
  | nil => exact absurd he List.not_mem_nil
  | cons d es ih =>
    obtain ⟨hd, hes⟩ := List.pairwise_cons.1 h
    rw [entryFor_cons]
    rcases List.mem_cons.1 he with rfl | he
    · rw [if_pos rfl]
    · rw [if_neg (hd e he).ne, ih hes he]

/-- The entries of a table of records of R95 describe that table. -/
theorem entryFor_codeEntries {k : Nat} (hk : k < 256) (hform : codeCanonical (s.codeAt k) = true) :
    entryFor (codeEntries s) k = s.codeAt k := by
  have hsym : (BitVec.ofNat 8 k).toNat = k := by rw [BitVec.toNat_ofNat]; omega
  cases hvalid : (s.codeAt k).valid with
  | true =>
    have hmem : (BitVec.ofNat 8 k, codeString (s.codeAt k)) ∈ codeEntries s :=
      mem_codeEntries.2 (by rw [hsym]; exact ⟨hvalid, rfl⟩)
    have hentry := entryFor_of_mem (pairwise_codeEntries s) hmem
    rwa [hsym, entryOf_codeString hform hvalid] at hentry
  | false =>
    rw [eq_cleared_of_invalid hform hvalid]
    refine entryFor_of_forall_ne fun e he heq => ?_
    rw [← heq, (mem_codeEntries.1 he).1] at hvalid
    cases hvalid

/-- A table that the entries describe has just these entries. -/
theorem codeEntries_of_entryFor (hval : entriesValid es) (h : ∀ k, k < 256 → s.codeAt k = entryFor es k) :
    codeEntries s = es := by
  have hnodup {l : List (Sym × List Bool)} (hl : l.Pairwise fun a b => a.1.toNat < b.1.toNat) : l.Nodup :=
    hl.imp fun hab heq => hab.ne (by rw [heq])
  refine ((List.perm_ext_iff_of_nodup (hnodup (pairwise_codeEntries s)) (hnodup hval.1)).2 fun e => ?_).eq_of_pairwise
    (fun a b _ _ hab hba => absurd hab hba.asymm) (pairwise_codeEntries s) hval.1
  rw [mem_codeEntries, h _ e.1.isLt]
  constructor
  · rintro ⟨hvalid, hkey⟩
    by_cases hmem : ∃ d ∈ es, d.1.toNat = e.1.toNat
    · obtain ⟨d, hd, hsym⟩ := hmem
      rw [← hsym, entryFor_of_mem hval.1 hd, codeString_entryOf (hval.2 d hd).2] at hkey
      rwa [← Prod.ext (BitVec.eq_of_toNat_eq hsym) hkey]
    · push Not at hmem
      rw [entryFor_of_forall_ne hmem] at hvalid
      cases hvalid
  · intro he
    rw [entryFor_of_mem hval.1 he, codeString_entryOf (hval.2 e he).2]
    exact ⟨rfl, rfl⟩

/-! ### Both ways round (R129) -/

/-- The codebook of a table of codes loads that table. -/
theorem ccDeserialize_codeEntries (hform : ∀ k, k < 256 → codeCanonical (s.codeAt k) = true) (hpos : LengthsPositive s)
    (hbytes : storeBytes t .cb t.cbLen.toNat = codebookOf s.totalBits.toNat (codeEntries s)) :
    ∃ u, ccDeserialize t = .ok u ∧ (∀ k, k < 256 → u.dcbAt k = s.codeAt k) ∧
      u.dcbCnt.toNat = (codeEntries s).length ∧
      u = { t with dcb := u.dcb, dcbCnt := u.dcbCnt, totalBits := s.totalBits } := by
  have hT := s.totalBits.isLt
  obtain ⟨-, hcnt, hdcb⟩ := loadEntries_headerRead (s := t) hT hpos.entriesValid
  refine ⟨_, ccDeserialize_codebook hT hpos.entriesValid hbytes, fun k hk => ?_, hcnt, ?_⟩
  · rw [hdcb k hk, entryFor_codeEntries hk (hform k hk)]
  · rw [loadEntries_frame, headerRead, setMarker, BitVec.ofNat_toNat, BitVec.setWidth_eq]
    rfl

/-- The keys of a table that holds the codes are prefix-free if the codes are. -/
theorem keysPrefixFree_of_codes (h : ∀ k, k < 256 → u.dcbAt k = s.codeAt k) (hfree : codesPrefixFree s) :
    keysPrefixFree u := by
  intro a ha b hb
  rw [h a ha, h b hb]
  exact hfree a ha b hb

end

/-- Settles O37: (a) by `ccDeserialize_codeEntries`, (b) because a valid codebook's entries are those of the table they
describe (`codeEntries_of_entryFor`). -/
theorem codebookRoundTrip : Obligations.CodebookRoundTrip := by
  constructor
  case left =>
    intro s hform hpos hfree
    obtain ⟨t, hser, hbytes, -, -, -⟩ := ccSerializeResult s
    obtain ⟨u, hdes, hdcb, -, hframe⟩ := ccDeserialize_codeEntries hform hpos hbytes
    exact ⟨t, u, hser, by rw [exec_ccDeserialize, hdes, finish_ok],
      (ccCheckResult u).1 (keysPrefixFree_of_codes hdcb hfree), hframe, hdcb⟩
  case right =>
    intro s t u T es hT hval hbytes hdes hcode htotal
    rw [exec_ccDeserialize, ccDeserialize_codebook hT hval hbytes, finish_ok] at hdes
    obtain rfl := Host.Outcome.next.inj hdes
    obtain ⟨hmarker, -, hdcb⟩ := loadEntries_headerRead (s := s) hT hval
    obtain ⟨v, hser, hv, -, -, -⟩ := ccSerializeResult u
    rw [codeEntries_of_entryFor hval fun k hk => (hcode k hk).trans (hdcb k hk), htotal, hmarker, ← hbytes] at hv
    have hlen := congrArg List.length hv
    simp only [storeBytes_eq, length_bytesFrom] at hlen
    exact ⟨v, hser, BitVec.eq_of_toNat_eq hlen, hv⟩

end Sys2Proof.Proofs
end

section
/-! Proofs of the step and of the sequencer's own operations: what a turn runs, command issue, the checks of the
host's lengths, the branch over the builder, and how a running program moves on. -/

namespace Sys2Proof.Proofs

open Sys2Proof.Machine Sys2Proof.Safety

/-! ### What a turn runs -/

section

variable {s t : State} {i : Instr} {rest : List Turn}

theorem step_block (h : s.turns = [] ∨ ∃ rest, s.turns = .block :: rest) :
    step s = blockStep { s with turns := s.turns.tail } := by
  rcases h with h | ⟨rest, h⟩
  · rw [step_of_turns_nil h, h, List.tail_nil, ← h]
  · rw [step, takeTurn, h, List.tail_cons]

theorem step_call {id : BitVec 8} {arg : BitVec 9} (h : s.turns = .call id arg :: rest) :
    step s = runCalledOp id arg { s with turns := rest } := by rw [step, takeTurn, h]

/-- Outside the window of R276 a host write to `CMD` is the issue of its low 32 bits (R21, R22). -/
theorem step_writeCmd {v : BitVec 64} (h : s.turns = .host (.write 0 0 v) :: rest) (hb : s.busy = false)
    (ho : s.owned = false) : step s = issueCommand (v.setWidth 32) { s with turns := rest } := by
  have hwin : inWindow { s with turns := rest } = false := inWindow_eq_false.2 ⟨hb, ho⟩
  rw [step_host h, hostAct, hostWrite, if_pos rfl, writeReg, hwin]
  rfl

theorem issueCommand_of_busy (w : BitVec 32) (hb : s.busy = true) : issueCommand w s = .next s := if_pos hb

theorem issueCommand_of_decode {w : BitVec 32} (hb : s.busy = false) (h : decodeCmd w = .ok i) :
    issueCommand w s = exec i s := by
  simp only [issueCommand, if_neg (Bool.not_eq_true _ ▸ hb), h]

theorem issueCommand_of_reject {w : BitVec 32} {r : Reject} (hb : s.busy = false) (h : decodeCmd w = .error r) :
    issueCommand w s = .next (badCommand (if r = .reservedBits then 2 else 1) s) := by
  simp only [issueCommand, if_neg (Bool.not_eq_true _ ▸ hb), h]
  cases r <;> rfl

/-- While `BUSY = 1` the block's move runs the operation at the sequencer's position (R112). -/
theorem blockStep_of_position {id : BitVec 8} (hb : s.busy = true) (hpos : programUop s.curCmd s.step = some id)
    (hdec : decodeUop id 0 = .ok i) : blockStep s = runStepOp id i s := by
  simp only [blockStep, if_pos hb, sequencerStep, hpos, hdec]

/-- Everything the block's move can do while `BUSY = 1`, where it does not stop. -/
theorem blockStep_running (hb : s.busy = true) (h : blockStep s = .next t) :
    ∃ id i, programUop s.curCmd s.step = some id ∧ decodeUop id 0 = .ok i ∧ runStepOp id i s = .next t := by
  rw [blockStep, if_pos hb, sequencerStep] at h
  split at h
  · cases h
  · next id hpos =>
    split at h
    · next i hdec => exact ⟨id, i, hpos, hdec, h⟩
    · cases h

theorem writesStep_eq_false_iff : writesStep i = false ↔ i ≠ .seqSkipempty := by cases i <;> simp [writesStep]

theorem advance_eq (i : Instr) (t : State) :
    advance i t = if t.busy = true ∧ i ≠ .seqSkipempty then { t with step := t.step + 1 } else t := by
  simp only [advance, Bool.and_eq_true, Bool.not_eq_true', writesStep_eq_false_iff]

end

/-- Settles O5: each kind of turn is one of the three steps above. -/
theorem stepRunsTheDecodedInstruction : Obligations.StepRunsTheDecodedInstruction := by
  refine ⟨?command, ?stepOp, ?calledOp⟩
  case command =>
    intro s v rest i hturns hb ho hdec
    rw [step_writeCmd hturns hb ho]
    exact issueCommand_of_decode hb hdec
  case stepOp =>
    intro s id i hturns hb hpos hdec
    rw [step_block hturns, blockStep_of_position (s := { s with turns := s.turns.tail }) hb hpos hdec, runStepOp]
    cases exec i { s with uop := id, turns := s.turns.tail } with
    | next t => exact congrArg Host.Outcome.next (advance_eq i t)
    | fault f => rfl
    | refused r => rfl
  case calledOp =>
    intro s id arg rest i hturns hdec hkind
    have hdec : decodeUop id arg = .ok i := hdec
    rw [step_call hturns, runCalledOp, hdec]
    exact if_pos hkind

/-- Settles O6: the tables of R113 and R114, read off the two programs. -/
theorem programsAsTabled : Obligations.ProgramsAsTabled :=
  ⟨rfl, rfl, fun _ => ⟨rfl, rfl⟩, fun _ => ⟨rfl, rfl⟩⟩

/-! ### Command issue (R115) -/

/-- Settles O7: the two tests of `decodeCmd` tell the four arms of an idle block apart. -/
theorem commandIssue : Obligations.CommandIssue := by
  refine ⟨fun s w => ⟨fun hb => ?busy, fun hb hrsv => ?reserved, fun hb hrsv hop => ?encode, fun hb hrsv hop => ?decode,
    fun hb hrsv hne hne' => ?unknown⟩, fun s v rest hturns ho => ?write⟩
  case busy => exact issueCommand_of_busy w hb
  case reserved => exact issueCommand_of_reject hb (if_pos hrsv)
  case encode =>
    rw [issueCommand_of_decode hb ((if_neg (not_not.2 hrsv)).trans (if_pos hop))]
    exact congrArg _ (if_neg (by rw [hb]; decide))
  case decode =>
    rw [issueCommand_of_decode hb ((if_neg (not_not.2 hrsv)).trans ((if_neg (by rw [hop]; decide)).trans (if_pos hop)))]
    exact congrArg _ (if_neg (by rw [hb]; decide))
  case unknown =>
    exact issueCommand_of_reject hb ((if_neg (not_not.2 hrsv)).trans ((if_neg hne).trans (if_neg hne')))
  case write =>
    rcases Bool.eq_false_or_eq_true s.busy with hb | hb
    · have hwin : inWindow { s with turns := rest } = true := by simp [inWindow, hb]
      rw [step_host hturns, hostAct, hostWrite, if_pos rfl, writeReg_inWindow hwin]
      exact (issueCommand_of_busy (s := { s with turns := rest }) _ hb).symm
    · exact step_writeCmd hturns hb ho

/-- Settles O8: both commands start their program on an idle block, and do nothing on a busy one. -/
theorem commandsStart : Obligations.CommandsStart := fun s =>
  ⟨fun hb => have hb : ¬ s.busy = true := by rw [hb]; decide
    ⟨congrArg _ (if_neg hb), congrArg _ (if_neg hb)⟩,
    fun hb => ⟨congrArg _ (if_pos hb), congrArg _ (if_pos hb)⟩⟩

/-! ### The sequencer's operations -/

/-- Settles O10: each of the four is one write of registers. -/
theorem registerOnlyOperations : Obligations.RegisterOnlyOperations := fun s =>
  ⟨exec_seqEnd s, rfl, rfl, rfl⟩

/-- A check of the host's values, by its condition. -/
theorem finish_check (p : Prop) [Decidable p] (e : ErrKind) (sub : BitVec 8) (s : State) :
    (¬p → finish (if p then raise e sub s else .ok s) = .next s) ∧
      (p → finish (if p then raise e sub s else .ok s) = .next (errorEntry e sub s)) :=
  ⟨fun h => by rw [if_neg h, finish_ok], fun h => by rw [if_pos h, raise, finish_raised]⟩

/-- Settles O12: the three operations are checks, and each premise decides one. -/
theorem lengthChecks : Obligations.LengthChecks := by
  intro s
  obtain ⟨hin, hin'⟩ := finish_check (s.inLen.toNat > s.caps.inCap.toNat) .invalidInput 2 s
  obtain ⟨hpk, hpk'⟩ := finish_check (s.pkLen.toNat > s.caps.pkCap.toNat) .invalidInput 3 s
  obtain ⟨hcb, hcb'⟩ := finish_check (s.dcbCnt = 0#9 ∧ s.pkLen ≠ 0#64) .invalidInput 1 s
  refine ⟨fun h => hin (Nat.not_lt.2 h), hin', fun h => hpk (Nat.not_lt.2 h), hpk', fun h h' => hcb' ⟨h, h'⟩, ?_⟩
  exact fun h => hcb fun ⟨hcnt, hlen⟩ => h.elim (absurd hcnt) hlen

/-- Settles O13: `STEP` is written on both paths; its successor fits below 15 (`fitOrFree_succ`) and is a free value
at 15. -/
theorem seqSkipemptyResult : Obligations.SeqSkipemptyResult := by
  intro s
  have hexec : exec .seqSkipempty s = finish (if s.inLen = 0#32 then .ok { s with step := 12#4 } else
      .ok { countFree 4 (s.step.toNat + 1) s with step := fitOrFree 4 (s.step.toNat + 1) s }) := rfl
  refine ⟨fun hempty => ?_, fun hne hlt => ?_, fun hne hlast => ?_⟩
  · rw [hexec, if_pos hempty, finish_ok]
  · have hfit : s.step.toNat + 1 < 2 ^ 4 := by omega
    rw [hexec, if_neg hne, (fitOrFree_eq hfit s).2, fitOrFree_succ hfit, finish_ok]
  · rw [hexec, if_neg hne, (fitOrFree_open (by omega) s).2, finish_ok]
    exact ⟨_, rfl, rfl⟩

/-! ### A running program moves on (R281) -/

section

variable {s t : State}

/-- No program has a position 15, so `STEP` moves on without wrapping. -/
theorem step_succ_of_position {c : BitVec 2} {k : BitVec 4} {id : BitVec 8} (h : programUop c k = some id) :
    k.toNat < (k + 1).toNat := by
  have hall : ∀ c k, programUop c k = none ∨ k.toNat < (k + 1).toNat := by decide
  exact (hall c k).resolve_left (by rw [h]; exact Option.some_ne_none id)

/-- After an operation that leaves the sequencer's registers the command has ended, or `STEP` has moved on. -/
theorem moves_of_keepsControl {id : BitVec 8} {i : Instr} (hb : s.busy = true)
    (hpos : programUop s.curCmd s.step = some id) (hop : isEncodeOp i = true ∨ isDecodeOp i = true)
    (h : runStepOp id i s = .next t) : t.busy = false ∨ (s.step.toNat < t.step.toNat ∧ t.curCmd = s.curCmd) := by
  obtain ⟨u, hu, rfl⟩ := runStepOp_next h
  have hw : writesStep i = false := writesStep_eq_false_iff.2 fun hi => by subst hi; exact hop.elim nofun nofun
  rcases exec_keepsControl hop _ u hu with hkept | ⟨e, sub, v, -, rfl⟩
  · have hsame := hkept.same
    simp only [controlView, Prod.mk.injEq] at hsame
    obtain ⟨-, hcmd, hstep, hbusy, -⟩ := hsame
    rw [advance, hbusy, hb, hw]
    refine .inr ⟨?_, hcmd⟩
    show s.step.toNat < (u.step + 1).toNat
    rw [hstep]
    exact step_succ_of_position hpos
  · exact .inl rfl

end

/-- Settles O55: `SEQ.SKIPEMPTY` goes from 5 to 12 or 6, `SEQ.END` ends the command, and every other operation is
`moves_of_keepsControl`. -/
theorem programMovesForward : Obligations.ProgramMovesForward := by
  intro s t hturns hb hstep
  rw [step_of_turns_nil hturns] at hstep
  obtain ⟨id, i, hpos, hdec, hrun⟩ := blockStep_running hb hstep
  rcases decodeUop_cases hdec with ⟨rfl, rfl⟩ | ⟨rfl, rfl⟩ | ⟨-, hop⟩
  · obtain ⟨-, hfive⟩ := programUop_skipempty s.curCmd s.step hpos
    rw [runStepOp_of_next (exec_seqSkipempty_atFive (s := { s with uop := 0x05#8 }) hfive),
      advance_seqSkipempty] at hrun
    obtain rfl := Host.Outcome.next.inj hrun
    refine .inr ⟨?_, rfl⟩
    rw [hfive]
    dsimp only
    split <;> decide
  · obtain ⟨u, hu, rfl⟩ := runStepOp_next hrun
    obtain rfl := Host.Outcome.next.inj ((exec_seqEnd _).symm.trans hu)
    exact .inl rfl
  · exact moves_of_keepsControl hb hpos hop hrun

end Sys2Proof.Proofs
end

section
/-! Runs of a program that do not raise, and runs of one program on two blocks, side by side. -/

namespace Sys2Proof.Proofs

open Sys2Proof.Machine Sys2Proof.Safety

/-! ### One step of a program -/

section

variable {c : BitVec 2} {k : BitVec 4} {id : BitVec 8} {i : Instr} {s t : State}

/-- An operation that goes on moves `STEP` on (R112). -/
theorem Running.step_next (hs : Running c k s) (hid : programUop c k = some id) (hi : decodeUop id 0 = .ok i)
    (hw : writesStep i = false) (ho : exec i { s with uop := id } = .next t)
    (hview : sequencerView t = sequencerView s) :
    Machine.step s = .next { t with step := k + 1 } ∧ Running c (k + 1) { t with step := k + 1 } := by
  have ht : Running c k t := hs.of_view hview
  have hadvance : advance i t = { t with step := k + 1 } := by simp [advance, ht.busy, hw, ht.step]
  rw [hs.step_eq hid hi, runStepOp_of_next ho, hadvance]
  exact ⟨rfl, ht.turns, ht.busy, ht.err, ht.curCmd, rfl⟩

/-- An operation that raises ends the command, and with an error (R250). -/
theorem Running.raise_ends (hs : Running c k s) (hid : programUop c k = some id) (hi : decodeUop id 0 = .ok i)
    {e : ErrKind} {sub : BitVec 8} {u : State} (ho : exec i { s with uop := id } = .next (errorEntry e sub u))
    (hu : u.turns = s.turns) (n : Nat) : EndsWithin (n + 1) (fun _ => False) s := by
  have hstep := hs.step_eq hid hi
  rw [runStepOp_of_next ho] at hstep
  exact .step hstep ((ended_errorEntry (hu.trans hs.turns) e sub).endsWithin n)

/-- What `SEQ.END` leaves (R116). -/
def ended (s : State) : State := { s with busy := false, done := true, uop := 0 }

theorem runFor_of_idle (hturns : s.turns = []) (hb : s.busy = false) (n : Nat) : runFor n s = .next s := by
  induction n with
  | zero => rfl
  | succ n ih => rw [runFor_succ ((step_of_turns_nil hturns).trans (blockStep_idle hb)), ih]

theorem Running.runFor_ended (hs : Running c k s) (hid : programUop c k = some 0x08#8) (n : Nat) :
    runFor (n + 1) s = .next (ended s) := by
  have hstep : Machine.step s = .next (ended s) := hs.step_eq hid rfl
  rw [runFor_succ hstep]
  exact runFor_of_idle (s := ended s) hs.turns rfl n

/-- Where `SEQ.SKIPEMPTY` goes on: at 12 with an empty buffer, else at 6 (R118). -/
def skipTarget (s : State) : BitVec 4 := if s.inLen = 0#32 then 12#4 else 6#4

theorem Running.step_seqSkipempty (hs : Running 1#2 5#4 s) :
    Machine.step s = .next { s with uop := 0x05#8, step := skipTarget s } ∧
      Running 1#2 (skipTarget s) { s with uop := 0x05#8, step := skipTarget s } := by
  have hstep : Machine.step s = runStepOp 0x05#8 .seqSkipempty s := hs.step_eq rfl rfl
  rw [hstep, runStepOp_of_next (exec_seqSkipempty_atFive (s := { s with uop := 0x05#8 }) hs.step),
    advance_seqSkipempty]
  exact ⟨rfl, hs.turns, hs.busy, hs.err, hs.curCmd, rfl⟩

end

/-! ### Runs that do not raise -/

/-- A step operation of a program, run from `s`, goes on, in a state that has `P`. -/
def Passes (P : State → Prop) (s : State) (o : Host.Outcome State Fault Refusal) : Prop :=
  ∃ t, o = .next t ∧ sequencerView t = sequencerView s ∧ P t

/-- From position `k` of the program of `c`, in a state that has `P`, the command ends with `SEQ.END` within `n` steps,
in a state that has `Q`. -/
def Reaches (c : BitVec 2) (k : BitVec 4) (P : State → Prop) (n : Nat) (Q : State → Prop) : Prop :=
  ∀ s, Running c k s → P s → ∃ t, runFor n s = .next (ended t) ∧ (∃ l, Running c l t) ∧ Q t

section

variable {c : BitVec 2} {k : BitVec 4} {id : BitVec 8} {i : Instr} {P P' Q : State → Prop} {n : Nat}

theorem Reaches.step (hid : programUop c k = some id) (hi : decodeUop id 0 = .ok i) (hw : writesStep i = false)
    (hP : Stable P) (hP' : Stable P') (hop : ∀ s, P s → Passes P' s (exec i s))
    (hrest : Reaches c (k + 1) P' n Q) : Reaches c k P (n + 1) Q := by
  intro s hs hpre
  obtain ⟨t, ho, hview, ht⟩ := hop _ (hP s s.step id hpre)
  obtain ⟨hstep, hrunning⟩ := hs.step_next hid hi hw ho hview
  rw [runFor_succ hstep]
  exact hrest _ hrunning (hP' t _ t.uop ht)

theorem reaches_seqEnd (hid : programUop c k = some 0x08#8) (hQ : ∀ s, Running c k s → P s → Q s) (n : Nat) :
    Reaches c k P (n + 1) Q :=
  fun s hs hpre => ⟨s, hs.runFor_ended hid n, ⟨k, hs⟩, hQ s hs hpre⟩

/-- A check of the host's values that passes. -/
theorem passes_check {s : State} {p : Prop} [Decidable p] (e : ErrKind) (sub : BitVec 8) (hp : ¬p) (h : P s) :
    Passes P s (finish (if p then raise e sub s else .ok s)) := by
  rw [if_neg hp]
  exact ⟨s, rfl, rfl, h⟩

end

/-! ### Two runs, side by side -/

/-- How a step operation, run from `s` and from `s'`, may end: both go on, in states that `R` relates, or both raise. -/
inductive Matches (R : State → State → Prop) (s s' : State) :
    Host.Outcome State Fault Refusal → Host.Outcome State Fault Refusal → Prop
  | passes {t t' : State} (h : R t t') (hview : sequencerView t = sequencerView s)
    (hview' : sequencerView t' = sequencerView s') : Matches R s s' (.next t) (.next t')
  | raises (e : ErrKind) (sub : BitVec 8) {u u' : State} (h : u.turns = s.turns) (h' : u'.turns = s'.turns) :
    Matches R s s' (.next (errorEntry e sub u)) (.next (errorEntry e sub u'))

/-- The relation does not speak of the sequencer's own `STEP` and `UOP`. -/
def TwinStable (R : State → State → Prop) : Prop :=
  ∀ s s' k k' id id', R s s' → R { s with step := k, uop := id } { s' with step := k', uop := id' }

/-- Within `n` steps the command ends on both blocks; if it ends without error on the first, it does on the second, and
`Q` relates the two. -/
def TwinEnds (n : Nat) (Q : State → State → Prop) (s s' : State) : Prop :=
  ∃ t t', runFor n s = .next t ∧ runFor n s' = .next t' ∧ (t.err = false → t'.err = false ∧ Q t t')

/-- From position `k` of the program of `c` on both blocks, in states that `R` relates, the command ends on both. -/
def TwinLeads (c : BitVec 2) (k : BitVec 4) (R : State → State → Prop) (n : Nat) (Q : State → State → Prop) : Prop :=
  ∀ s s', Running c k s → Running c k s' → R s s' → TwinEnds n Q s s'

section

variable {c : BitVec 2} {k : BitVec 4} {id : BitVec 8} {i : Instr} {P P' : State → Prop} {R R' Q : State → State → Prop}
  {s s' t t' : State} {n : Nat}

theorem TwinEnds.step (h : Machine.step s = .next t) (h' : Machine.step s' = .next t') (ht : TwinEnds n Q t t') :
    TwinEnds (n + 1) Q s s' := by
  obtain ⟨u, u', hrun, hrun', hu⟩ := ht
  exact ⟨u, u', (runFor_succ h n).trans hrun, (runFor_succ h' n).trans hrun', hu⟩

theorem twinEnds_of_errors (h : EndsWithin n (fun _ => False) s) (h' : EndsWithin n (fun _ => False) s') :
    TwinEnds n Q s s' := by
  obtain ⟨t, hrun, ht⟩ := h
  obtain ⟨t', hrun', -⟩ := h'
  exact ⟨t, t', hrun, hrun', fun hok => (ht.result hok).elim⟩

/-- One step of a program on both blocks. -/
theorem TwinLeads.step (hid : programUop c k = some id) (hi : decodeUop id 0 = .ok i) (hw : writesStep i = false)
    (hR : TwinStable R) (hR' : TwinStable R') (hop : ∀ s s', R s s' → Matches R' s s' (exec i s) (exec i s'))
    (hrest : TwinLeads c (k + 1) R' n Q) : TwinLeads c k R (n + 1) Q := by
  intro s s' hs hs' hpre
  have hpre : R { s with uop := id } { s' with uop := id } := hR s s' s.step s'.step id id hpre
  generalize ho : exec i { s with uop := id } = o at *
  generalize ho' : exec i { s' with uop := id } = o' at *
  have hmatches : Matches R' { s with uop := id } { s' with uop := id } o o' := ho ▸ ho' ▸ hop _ _ hpre
  cases hmatches with
  | @passes t t' h hview hview' =>
    obtain ⟨hstep, hrunning⟩ := hs.step_next hid hi hw ho hview
    obtain ⟨hstep', hrunning'⟩ := hs'.step_next hid hi hw ho' hview'
    exact .step hstep hstep' (hrest _ _ hrunning hrunning' (hR' t t' _ _ t.uop t'.uop h))
  | raises e sub h h' => exact twinEnds_of_errors (hs.raise_ends hid hi ho h n) (hs'.raise_ends hid hi ho' h' n)

theorem twinLeads_seqEnd (hid : programUop c k = some 0x08#8) (hQ : ∀ s s', R s s' → Q (ended s) (ended s'))
    (n : Nat) : TwinLeads c k R (n + 1) Q :=
  fun s s' hs hs' hpre => ⟨_, _, hs.runFor_ended hid n, hs'.runFor_ended hid n, fun _ => ⟨hs'.err, hQ s s' hpre⟩⟩

/-- The branch over the builder on both blocks (R118), whose buffers are both empty or both not. -/
theorem twinLeads_seqSkipempty (hR : TwinStable R) (hlen : ∀ s s', R s s' → s'.inLen = s.inLen)
    (hempty : TwinLeads 1#2 12#4 (fun s s' => R s s' ∧ s.inLen = 0#32) n Q)
    (hrest : TwinLeads 1#2 6#4 (fun s s' => R s s' ∧ s.inLen ≠ 0#32) n Q) : TwinLeads 1#2 5#4 R (n + 1) Q := by
  intro s s' hs hs' hpre
  obtain ⟨hstep, hrunning⟩ := hs.step_seqSkipempty
  obtain ⟨hstep', hrunning'⟩ := hs'.step_seqSkipempty
  have hsame : skipTarget s' = skipTarget s := by rw [skipTarget, hlen s s' hpre, skipTarget]
  rw [hsame] at hstep' hrunning'
  refine .step hstep hstep' ?_
  by_cases h0 : s.inLen = 0#32
  · rw [skipTarget, if_pos h0] at hrunning hrunning' ⊢
    exact hempty _ _ hrunning hrunning' ⟨hR s s' _ _ _ _ hpre, h0⟩
  · rw [skipTarget, if_neg h0] at hrunning hrunning' ⊢
    exact hrest _ _ hrunning hrunning' ⟨hR s s' _ _ _ _ hpre, h0⟩

/-- Both states have `P`. -/
def Both (P : State → Prop) (s s' : State) : Prop := P s ∧ P s'

theorem Stable.both (hP : Stable P) : TwinStable (Both P) :=
  fun s s' k k' id id' h => ⟨hP s k id h.1, hP s' k' id' h.2⟩

theorem TwinStable.and (hR : TwinStable R) (hR' : TwinStable R') : TwinStable fun s s' => R s s' ∧ R' s s' :=
  fun s s' k k' id id' h => ⟨hR s s' k k' id id' h.1, hR' s s' k k' id id' h.2⟩

/-- An operation that goes on from each of the two states. -/
theorem matches_of_passes {o o' : Host.Outcome State Fault Refusal} (h : Passes P s o) (h' : Passes P' s' o')
    (hR : ∀ t t', P t → P' t' → R t t') : Matches R s s' o o' := by
  obtain ⟨t, rfl, hview, ht⟩ := h
  obtain ⟨t', rfl, hview', ht'⟩ := h'
  exact .passes (hR t t' ht ht') hview hview'

/-- A step operation of a program, run from `s`, raises the error. -/
def Raises (e : ErrKind) (sub : BitVec 8) (s : State) (o : Host.Outcome State Fault Refusal) : Prop :=
  ∃ u, o = .next (errorEntry e sub u) ∧ u.turns = s.turns

theorem matches_of_raises {o o' : Host.Outcome State Fault Refusal} {e : ErrKind} {sub : BitVec 8}
    (h : Raises e sub s o) (h' : Raises e sub s' o') : Matches R s s' o o' := by
  obtain ⟨u, rfl, hu⟩ := h
  obtain ⟨u', rfl, hu'⟩ := h'
  exact .raises e sub hu hu'

end

end Sys2Proof.Proofs
end

section
/-! Proof of the `ENCODE` of an empty buffer: every operation of its run, in full. -/

namespace Sys2Proof.Proofs

open Sys2Proof.Machine Sys2Proof.Safety

/-- The state is `e` but for the sequencer's own `STEP` and `UOP`. -/
def At (e s : State) : Prop := s = { e with step := s.step, uop := s.uop }

/-- `FREQ` has been cleared (R130). -/
def clearCounts (s : State) : State := { s with freq := cellFill Config.nsym 0#32 }

/-- The packer has been emptied (R181). -/
def clearPacker (s : State) : State := { s with acc := 0, accN := 0, pkLen := 0, totalBits := 0 }

/-- `s` after steps 1 to 4 of `ENCODE`, where no byte is counted. -/
def emptied (s : State) : State := clearPacker (clearCodes (clearCounts s))

/-- `s` after step 12 of `ENCODE` of an empty buffer: `CB` holds the empty codebook, ten zero bytes (R90). -/
structure EmptyCodebook (e s : State) : Prop where
  same : At { e with cbStore := s.cbStore, cbLen := s.cbLen } s
  cbLen : s.cbLen = 10#32
  bytes : storeBytes s .cb 10 = List.replicate 10 0#8

section

variable {e s : State} {P Q : State → Prop} {n : Nat}

theorem stable_at (e : State) : Stable (At e) := by
  intro s k id h
  rw [h]
  rfl

/-- A write that neither reads nor writes `STEP` and `UOP`. -/
theorem At.map (h : At e s) (f : State → State)
    (hf : ∀ x k id, f { x with step := k, uop := id } = { f x with step := k, uop := id }) : At (f e) (f s) := by
  have hs : f s = { f e with step := s.step, uop := s.uop } := (congrArg f h).trans (hf e s.step s.uop)
  rw [At, hs]

theorem stable_emptyCodebook (e : State) : Stable (EmptyCodebook e) := fun s k id h =>
  ⟨stable_at _ s k id h.same, h.cbLen, h.bytes⟩

/-- The branch over the builder, taken (R118). -/
theorem Reaches.seqSkipempty (hP : Stable P) (hempty : ∀ s, P s → s.inLen = 0#32) (h : Reaches 1#2 12#4 P n Q) :
    Reaches 1#2 5#4 P (n + 1) Q := by
  intro s hs hpre
  obtain ⟨hstep, hrunning⟩ := hs.step_seqSkipempty
  rw [skipTarget, if_pos (hempty s hpre)] at hstep hrunning
  rw [runFor_succ hstep]
  exact h _ hrunning (hP s _ _ hpre)

theorem exec_fcCount_empty (h : s.inLen = 0#32) : exec .fcCount s = .next s := by
  rw [exec_fcCount, fcCount, h]
  rfl

theorem codeEntries_of_cleared (h : ∀ k, k < 256 → s.codeAt k = CodeEntry.cleared) : codeEntries s = [] := by
  refine List.eq_nil_iff_forall_not_mem.2 fun e he => ?_
  have hvalid := (mem_codeEntries.1 he).1
  rw [h _ e.1.isLt] at hvalid
  cases hvalid

/-- The codebook of an empty table under the marker 0 is ten zero bytes (R90). -/
theorem passes_ccSerialize_empty (h : At (emptied e) s) :
    Passes (EmptyCodebook (emptied e)) s (exec .ccSerialize s) := by
  have hcodes : codeEntries s = [] := codeEntries_of_cleared fun k hk => by
    rw [h]
    exact codeAt_cleared e hk
  have htotal : s.totalBits = 0#64 := by rw [h]; rfl
  obtain ⟨t, hrun, hbytes, -, -, hframe⟩ := ccSerializeResult s
  rw [hcodes, htotal] at hbytes
  have hlen : t.cbLen.toNat = 10 := by
    simpa [storeBytes, codebookOf, entriesBytes] using congrArg List.length hbytes
  rw [hlen] at hbytes
  refine ⟨t, hrun, by rw [hframe]; rfl, ?_, BitVec.eq_of_toNat_eq hlen, hbytes⟩
  rw [hframe]
  exact h.map (fun x => { x with cbStore := t.cbStore, cbLen := t.cbLen }) fun _ _ _ => rfl

/-- Steps 0 to 13 of `ENCODE` on an empty buffer. -/
theorem reaches_encode_empty (hempty : e.inLen = 0#32) :
    Reaches 1#2 0#4 (At e) 14 fun s => EmptyCodebook (emptied e) s ∧ Running 1#2 13#4 s := by
  have hlen {e' : State} (he : e'.inLen = 0#32) (s : State) (h : At e' s) : s.inLen = 0#32 := by rw [h]; exact he
  refine Reaches.step (P' := At e) rfl rfl rfl (stable_at _) (stable_at _)
    (fun s h => passes_check .invalidInput 2 (by rw [hlen hempty s h]; exact Nat.not_lt_zero _) h) ?_
  refine Reaches.step (P' := At (clearCounts e)) rfl rfl rfl (stable_at _) (stable_at _)
    (fun s h => ⟨clearCounts s, rfl, rfl, h.map clearCounts fun _ _ _ => rfl⟩) ?_
  refine Reaches.step (P' := At (clearCounts e)) rfl rfl rfl (stable_at _) (stable_at _)
    (fun s h => ⟨s, exec_fcCount_empty (hlen (e' := clearCounts e) hempty s h), rfl, h⟩) ?_
  refine Reaches.step (P' := At (clearCodes (clearCounts e))) rfl rfl rfl (stable_at _) (stable_at _)
    (fun s h => ⟨clearCodes s, rfl, rfl, h.map clearCodes fun _ _ _ => rfl⟩) ?_
  refine Reaches.step (P' := At (emptied e)) rfl rfl rfl (stable_at _) (stable_at _)
    (fun s h => ⟨clearPacker s, rfl, rfl, h.map clearPacker fun _ _ _ => rfl⟩) ?_
  refine Reaches.seqSkipempty (stable_at _) (hlen (e' := emptied e) hempty) ?_
  refine Reaches.step rfl rfl rfl (stable_at _) (stable_emptyCodebook _)
    (fun s h => passes_ccSerialize_empty h) ?_
  exact reaches_seqEnd rfl (fun s hs h => ⟨h, hs⟩) 6

end

/-- Settles O59: `reaches_encode_empty` gives the state in which `SEQ.END` runs, field by field. -/
theorem encodeOfEmptyBuffer : Obligations.EncodeOfEmptyBuffer := by
  intro s hidle hturns hempty
  obtain ⟨t, hrun, -, ⟨hsame, hlen, hbytes⟩, ht⟩ :=
    reaches_encode_empty (e := startCommand 1#2 s) hempty _ (running_startCommand hturns 1#2) rfl
  refine ⟨startCommand 1#2 s, ended t, by simp [exec, execEncode, hidle], hrun, ?status, hlen, hbytes, ?_⟩
  case status =>
    have herror : t.errSub = 0#8 ∧ t.errCode = 0#4 := by rw [hsame]; exact ⟨rfl, rfl⟩
    show packStatus t.curCmd t.errSub t.errCode 0 t.step t.err true false = _
    rw [ht.curCmd, herror.1, herror.2, ht.step, ht.err]
    decide
  · unfold ended
    rw [hsame]
    exact ⟨rfl, rfl, fun k hk => ⟨freqAt_cleared s hk, congrArg CodeEntry.valid (codeAt_cleared s hk)⟩,
      rfl, rfl, rfl, rfl, rfl, rfl, rfl, rfl, rfl, rfl⟩

end Sys2Proof.Proofs
end

section
/-! Two builds side by side: the queue's total order (R140) leaves a merge no choice, so equal counts give equal trees,
and equal trees equal paths. -/

namespace Sys2Proof.Proofs

open Sys2Proof.Machine Sys2Proof.Safety

/-! ### One merge on each side -/

/-- The queues hold the same nodes with the same frequencies, and the same inner nodes have been made. -/
structure QueuesAlike (s s' : State) : Prop where
  live : (liveIds s').Perm (liveIds s)
  nextId : s'.nextId = s.nextId
  freq : ∀ x ∈ liveIds s, s'.nodeFreqAt x.toNat = s.nodeFreqAt x.toNat
  inner : ∀ k, 256 ≤ k → k < s.nextId.toNat → s'.nodeAt k = s.nodeAt k

/-- What the loop of R157 starts from in a command: an ordered queue whose frequencies have a sum that fits. -/
structure Mergeable (s : State) : Prop extends Buildable s where
  ordered : heapOrdered s
  fits : liveFreqSum s < 2 ^ 32

section

variable {s s' t t' : State} {l l' r r' : NodeId} {rest rest' : List NodeId}

theorem QueuesAlike.heapSize (h : QueuesAlike s s') : s'.heapSize = s.heapSize :=
  BitVec.eq_of_toNat_eq (by rw [← length_liveIds, h.live.length_eq, length_liveIds])

/-- Of nodes with the same keys on both sides the least is the same (R140). -/
theorem least_eq {x x' : NodeId} {ids ids' : List NodeId} (hperm : (x' :: ids').Perm (x :: ids))
    (hfreq : ∀ y ∈ x :: ids, s'.nodeFreqAt y.toNat = s.nodeFreqAt y.toNat)
    (hx : ∀ y ∈ ids, keyBefore s y x = false) (hx' : ∀ y ∈ ids', keyBefore s' y x' = false) :
    x' = x ∧ ids'.Perm ids := by
  have hrank : ∀ y ∈ x :: ids, keyRank s' y = keyRank s y := fun y hy => by rw [keyRank, hfreq y hy, keyRank]
  have hle {u : State} {a : NodeId} {l : List NodeId} (h : ∀ y ∈ l, keyBefore u y a = false) {y : NodeId}
      (hy : y ∈ a :: l) : keyRank u a ≤ keyRank u y := by
    rcases List.mem_cons.1 hy with rfl | hy
    · exact le_rfl
    · exact keyBefore_eq_false_iff.1 (h y hy)
  have hmem : x' ∈ x :: ids := hperm.mem_iff.1 List.mem_cons_self
  have hback := hle hx' (hperm.mem_iff.2 List.mem_cons_self)
  rw [hrank x' hmem, hrank x List.mem_cons_self] at hback
  obtain rfl := keyRank_injective s (hback.antisymm (hle hx hmem))
  exact ⟨rfl, hperm.cons_inv⟩

/-- Both merges take the same two nodes off the queue, in the same order. -/
theorem QueuesAlike.merged_eq (h : QueuesAlike s s') (hs : heapOrdered s) (hs' : heapOrdered s')
    (hm : Merges s l r rest t) (hm' : Merges s' l' r' rest' t') : l' = l ∧ r' = r ∧ rest'.Perm rest := by
  have hfreq : ∀ x ∈ l :: r :: rest, s'.nodeFreqAt x.toNat = s.nodeFreqAt x.toNat := fun x hx =>
    h.freq x (hm.before.mem_iff.2 hx)
  obtain ⟨hl, hr⟩ := hm.least hs
  obtain ⟨hl', hr'⟩ := hm'.least hs'
  obtain ⟨rfl, hperm⟩ := least_eq ((hm'.before.symm.trans h.live).trans hm.before) hfreq hl hl'
  obtain ⟨rfl, hrest⟩ := least_eq hperm (fun x hx => hfreq x (List.mem_cons_of_mem _ hx)) hr hr'
  exact ⟨rfl, rfl, hrest⟩

theorem Merges.freqSum_fits (hm : Merges s l r rest t) (hfits : liveFreqSum s < 2 ^ 32) : freqSum s l r < 2 ^ 32 := by
  rw [liveFreqSum_eq_of_perm hm.before, freqTotal_cons, freqTotal_cons, ← Nat.add_assoc] at hfits
  exact (Nat.le_add_right _ _).trans_lt hfits

theorem Mergeable.merge (h : Mergeable s) (htwo : 2 ≤ s.heapSize.toNat) :
    ∃ t l r rest, tbMerge s = .ok t ∧ Mergeable t ∧ t.heapSize.toNat + 1 = s.heapSize.toNat ∧ Merges s l r rest t := by
  have hroom := h.room
  have hids : idsInArena s := idsInArena_iff.2 fun x hx => by have := h.older x hx; omega
  obtain ⟨t, l, r, rest, hrun, hm⟩ :=
    tbMerge_merges htwo h.heapSize_le hids (by omega) fun hmem => lt_irrefl _ (h.older _ hmem)
  obtain ⟨u, hrun', hu, hsize, hbuilt⟩ := h.toBuildable.merge htwo
  obtain rfl := Except.ok.inj (hrun.symm.trans hrun')
  exact ⟨t, l, r, rest, hrun, ⟨hu, hm.ordered h.ordered, (hbuilt.freqSum h.fits).1 ▸ h.fits⟩, hsize, hm⟩

/-- The parents that the two merges make are the same, so the queues stay alike. -/
theorem QueuesAlike.tbMerge (h : QueuesAlike s s') (hs : Mergeable s) (hs' : Mergeable s')
    (hrun : tbMerge s = .ok t) (hrun' : tbMerge s' = .ok t')
    (hm : Merges s l r rest t) (hm' : Merges s' l' r' rest' t') : QueuesAlike t t' := by
  obtain ⟨rfl, rfl, hrest⟩ := h.merged_eq hs.ordered hs'.ordered hm hm'
  obtain ⟨-, -, -, hnext, hnodes, -⟩ := tbMerge_ok hrun
  obtain ⟨-, -, -, hnext', hnodes', -⟩ := tbMerge_ok hrun'
  rw [h.nextId] at hnext' hnodes'
  have hmem : ∀ x ∈ l' :: r' :: rest, x ∈ liveIds s := fun x hx => hm.before.mem_iff.2 hx
  have hsum : freqSum s' l' r' = freqSum s l' r' := by
    rw [freqSum, h.freq l' (hmem _ List.mem_cons_self), h.freq r' (hmem _ (List.mem_cons_of_mem _ List.mem_cons_self)),
      freqSum]
  have hparentFreq : t'.nodeFreqAt s.nextId.toNat = t.nodeFreqAt s.nextId.toNat := by
    have hfreq' := (hm'.freq (hm'.freqSum_fits hs'.fits)).1
    rw [h.nextId, hsum] at hfreq'
    exact BitVec.eq_of_toNat_eq (hfreq'.trans (hm.freq (hm.freqSum_fits hs.fits)).1.symm)
  have hparent : t'.nodeAt s.nextId.toNat = t.nodeAt s.nextId.toNat := by
    have hleft' := hm'.left
    have hright' := hm'.right
    rw [h.nextId] at hleft' hright'
    rw [State.nodeAt, hparentFreq, hleft', hright', State.nodeAt, hm.left, hm.right]
  refine ⟨?live, BitVec.eq_of_toNat_eq (hnext'.trans hnext.symm), fun x hx => ?freq, fun k hk hk' => ?inner⟩
  case live =>
    have hafter' := hm'.after
    rw [h.nextId] at hafter'
    exact (hafter'.trans (hrest.cons _)).trans hm.after.symm
  case freq =>
    rcases List.mem_cons.1 (hm.after.mem_iff.1 hx) with rfl | hx
    · exact hparentFreq
    · have hold : x ∈ liveIds s := hmem x (List.mem_cons_of_mem _ (List.mem_cons_of_mem _ hx))
      have hne := (hs.older x hold).ne
      exact ((congrArg NodeRec.freq (hnodes' _ hne)).trans (h.freq x hold)).trans
        (congrArg NodeRec.freq (hnodes _ hne)).symm
  case inner =>
    rcases Nat.lt_succ_iff_lt_or_eq.1 (hnext ▸ hk') with hlt | rfl
    · rw [hnodes' k hlt.ne, hnodes k hlt.ne, h.inner k hk hlt]
    · exact hparent

/-! ### The whole build -/

theorem QueuesAlike.mergeAll {fuel : Nat} (h : QueuesAlike s s') (hs : Mergeable s) (hs' : Mergeable s')
    (hfuel : s.heapSize.toNat ≤ fuel) :
    ∃ t t', mergeAll fuel s = .ok t ∧ mergeAll fuel s' = .ok t' ∧ t.heapSize.toNat = 1 ∧ Buildable t ∧
      QueuesAlike t t' := by
  have hsize' := congrArg BitVec.toNat h.heapSize
  induction fuel generalizing s s' with
  | zero => exact absurd (hs.nonempty.trans hfuel) (by omega)
  | succ n ih =>
    rcases hs.nonempty.eq_or_lt' with hone | htwo
    · exact ⟨s, s', mergeAll_of_heapSize_le_one _ hone.le, mergeAll_of_heapSize_le_one _ (hsize'.trans hone).le, hone,
        hs.toBuildable, h⟩
    · obtain ⟨t, l, r, rest, hmerge, ht, hsize, hm⟩ := hs.merge htwo
      obtain ⟨t', l', r', rest', hmerge', ht', -, hm'⟩ := hs'.merge (hsize'.symm ▸ htwo)
      have hst := h.tbMerge hs hs' hmerge hmerge' hm hm'
      rw [mergeAll_succ n htwo hmerge, mergeAll_succ n (hsize'.symm ▸ htwo) hmerge']
      exact ih hst ht ht' (by omega) (congrArg BitVec.toNat hst.heapSize)

/-- The two arenas hold the same tree of inner nodes under the same root, and the queues have the same size. -/
structure TreesAlike (s s' : State) : Prop where
  root : s'.root = s.root
  nextId : s'.nextId = s.nextId
  heapSize : s'.heapSize = s.heapSize
  rootOlder : s.root.toNat < s.nextId.toNat
  inner : ∀ k, 256 ≤ k → k < s.nextId.toNat → s'.nodeAt k = s.nodeAt k

/-- Alike queues are built into the same tree (R157). -/
theorem QueuesAlike.tbBuild (h : QueuesAlike s s') (hs : Mergeable s) (hs' : Mergeable s') :
    ∃ t t', tbBuild s = .ok t ∧ tbBuild s' = .ok t' ∧ TreesAlike t t' := by
  obtain ⟨t, t', hrun, hrun', hone, ht, hst⟩ := h.mergeAll hs hs' le_rfl
  rw [← h.heapSize] at hrun'
  have hroot : t'.heapAt 0 = t.heapAt 0 := by
    have hone' : t'.heapSize.toNat = 1 := by rw [hst.heapSize, hone]
    simpa [liveIds, hone, hone'] using hst.live
  exact ⟨_, _, tbBuild_eq hrun, tbBuild_eq hrun', hroot, hst.nextId, hst.heapSize,
    ht.older _ (heapAt_mem_liveIds (hone ▸ Nat.zero_lt_one)), hst.inner⟩

/-- The leaves of two blocks with the same counts are alike (R155). -/
theorem Leafed.queuesAlike (h : Leafed s) (h' : Leafed s') (hcounts : ∀ k, k < 256 → s'.freqAt k = s.freqAt k) :
    QueuesAlike s s' := by
  have hpresent : presentIds s' = presentIds s := by
    refine congrArg (List.map _) (List.filter_congr fun k hk => ?_)
    rw [hcounts k (List.mem_range.1 hk)]
  refine ⟨(hpresent ▸ h'.live).trans h.live.symm, h'.nextId.trans h.nextId.symm, fun x hx => ?_, fun k hk hk' => ?_⟩
  · obtain ⟨k, hk, rfl⟩ := List.mem_map.1 (h.live.mem_iff.1 hx)
    obtain ⟨hlt, hne⟩ := List.mem_filter.1 hk
    have hlt := List.mem_range.1 hlt
    have hne := of_decide_eq_true hne
    have hid : (BitVec.ofNat 9 k).toNat = k := by rw [BitVec.toNat_ofNat]; omega
    rw [hid, h.nodeFreqAt k hlt hne, h'.nodeFreqAt k hlt (by rwa [hcounts k hlt]), hcounts k hlt]
  · rw [h.nextId] at hk'
    exact absurd hk' (Nat.not_lt.2 hk)

/-! ### Equal trees have equal paths (R171) -/

/-- The paths of R171 are read off the inner nodes at and below the root. -/
theorem Tree.treePaths_eq {n : NodeId} {ys : List Sym} (h : Tree s n ys)
    (hinner : ∀ k, 256 ≤ k → k ≤ n.toNat → s'.nodeAt k = s.nodeAt k) (f : Nat) (p : List Bool) :
    Safety.treePaths s' f n p = Safety.treePaths s f n p := by
  induction h generalizing f p with
  | leaf h =>
    cases f with
    | zero => rfl
    | succ f => rw [Safety.treePaths, if_pos h, Safety.treePaths, if_pos h]
  | @node n ys zs hlo hhi hleft hright _ _ ihl ihr =>
    cases f with
    | zero => rfl
    | succ f =>
      have hl : s'.nodeLeftAt n.toNat = s.nodeLeftAt n.toNat := congrArg NodeRec.left (hinner _ hlo le_rfl)
      have hr : s'.nodeRightAt n.toNat = s.nodeRightAt n.toNat := congrArg NodeRec.right (hinner _ hlo le_rfl)
      have hpathsL := ihl fun k hk hk' => hinner k hk (hk'.trans hleft.le)
      have hpathsR := ihr fun k hk hk' => hinner k hk (hk'.trans hright.le)
      simp only [Safety.treePaths, hl, hr, hpathsL, hpathsR]

end

end Sys2Proof.Proofs
end

section
/-! What the operations of `ENCODE` leave, up to the walk: the counts, the tree and the codes of the buffer. -/

namespace Sys2Proof.Proofs

open Sys2Proof.Machine Sys2Proof.Safety

/-! ### The buffer -/

/-- The input buffer. -/
def buffer (s : State) : List Sym := storeBytes s .inp s.inLen.toNat

/-- The codes of the symbols of a buffer, in order. -/
def codeBits (s : State) (ys : List Sym) : List Bool := ys.flatMap fun y => codeString (s.codeAt y.toNat)

section

variable {s t : State} {ys : List Sym}

@[simp] theorem length_buffer (s : State) : (buffer s).length = s.inLen.toNat := by simp [buffer, storeBytes]

theorem inputCodeBits_eq (s : State) : inputCodeBits s = codeBits s (buffer s) := by
  rw [codeBits, buffer, storeBytes, List.flatMap_map, inputCodeBits]

theorem byteAt_mem_buffer {i : Nat} (hi : i < s.inLen.toNat) : s.byteAt .inp i ∈ buffer s :=
  List.mem_map.2 ⟨i, List.mem_range.2 hi, rfl⟩

theorem exists_of_mem_buffer {y : Sym} (hy : y ∈ buffer s) : ∃ i, i < s.inLen.toNat ∧ s.byteAt .inp i = y := by
  obtain ⟨i, hi, rfl⟩ := List.mem_map.1 hy
  exact ⟨i, List.mem_range.1 hi, rfl⟩

theorem countOf_eq_countP (s : State) (k : Nat) : countOf s k = (buffer s).countP fun y => decide (y.toNat = k) := by
  rw [buffer, storeBytes, List.countP_map]
  rfl

theorem length_codeBits_le (s : State) (ys : List Sym) : (codeBits s ys).length ≤ 255 * ys.length := by
  induction ys with
  | nil => exact le_rfl
  | cons y ys ih =>
    have hlen := (s.codeAt y.toNat).len.isLt
    simp only [codeBits, List.flatMap_cons, List.length_append, length_codeString, List.length_cons] at ih ⊢
    omega

theorem codeBits_congr (h : ∀ k, k < 256 → t.codeAt k = s.codeAt k) (ys : List Sym) : codeBits t ys = codeBits s ys :=
  List.flatMap_congr fun y _ => by rw [h _ y.isLt]

end

/-! ### What the operations hand on

The platform is `c` and the buffer `ys`. -/

/-- The block has the platform `c`, and `ys` in its buffer. -/
structure Loaded (c : Caps) (ys : List Sym) (s : State) : Prop where
  caps : s.caps = c
  buffer : buffer s = ys

/-- The bytes are counted, the codes are cleared and the packer is empty (R131, R170, R181). -/
structure Ready (c : Caps) (ys : List Sym) (s : State) : Prop extends Loaded c ys s, Prepared ys.length s where
  totalBits : s.totalBits = 0#64

/-- The tree of the present symbols is built over leaves that have their counts (R155, R157). -/
structure Planted (c : Caps) (ys : List Sym) (s : State) : Prop extends Ready c ys s where
  tree : ∃ zs, Tree s s.root zs ∧ zs.Perm (presentSyms s)
  leaves : ∀ k, k < 256 → s.freqAt k ≠ 0#32 → s.nodeFreqAt k = s.freqAt k

/-- The buffer's symbols have codes that a codebook can hold, of which none begins another (R95, R126). -/
structure Coded (c : Caps) (ys : List Sym) (s : State) : Prop extends Loaded c ys s where
  inStore : s.inLen.toNat ≤ s.caps.inCap.toNat
  counts : ∀ k, k < 256 → (s.freqAt k).toNat = countOf s k
  leaves : ys ≠ [] → ∀ k, k < 256 → s.freqAt k ≠ 0#32 → s.nodeFreqAt k = s.freqAt k
  form : ∀ k, k < 256 → codeCanonical (s.codeAt k) = true
  positive : LengthsPositive s
  free : codesPrefixFree s
  valid : ∀ y ∈ ys, (s.codeAt y.toNat).valid = true

/-- The codes are there and the packer is still empty. -/
structure Coding (c : Caps) (ys : List Sym) (s : State) : Prop extends Coded c ys s where
  accN : s.accN = 0#4
  pkLen : s.pkLen = 0#64
  totalBits : s.totalBits = 0#64

section

variable {c : Caps} {ys : List Sym} {s t : State}

theorem Loaded.inLen (h : Loaded c ys s) : s.inLen.toNat = ys.length := by rw [← h.buffer, length_buffer]

theorem Loaded.inLen_eq {s' : State} (h : Loaded c ys s) (h' : Loaded c ys s') : s'.inLen = s.inLen :=
  BitVec.eq_of_toNat_eq (h'.inLen.trans h.inLen.symm)

theorem Loaded.countOf_eq {s' : State} (h : Loaded c ys s) (h' : Loaded c ys s') : countOf s' = countOf s := by
  funext k
  rw [countOf_eq_countP, countOf_eq_countP, h.buffer, h'.buffer]

/-! ### Counting and building -/

theorem passes_fcCount (h : Loaded c ys s ∧ Checked ys.length s ∧ ∀ k, k < 256 → s.freqAt k = 0#32) :
    Passes (fun t => Loaded c ys t ∧ Counted ys.length t) s (exec .fcCount s) := by
  obtain ⟨hl, hc, h0⟩ := h
  obtain ⟨t, hrun, hst⟩ := exec_fcCount_counts hc.inStore
  have hcounts := (hst.of_cleared h0).2
  have hcount : countOf t = countOf s := by rw [hst.frame]; rfl
  refine ⟨t, hrun, by rw [hst.frame]; rfl, ?loaded, ?checked, fun k hk => by rw [hcounts k hk, hcount]⟩
  case loaded => rw [hst.frame]; exact { hl with }
  case checked => rw [hst.frame]; exact { hc with }

theorem passes_tbLeaves (h : Ready c ys s ∧ s.heapSize = 0#9) :
    Passes (fun t => Ready c ys t ∧ Leafed t ∧ heapOrdered t) s (exec .tbLeaves s) := by
  obtain ⟨hr, hempty⟩ := h
  obtain ⟨t, hrun, hleafed, hframe⟩ := exec_tbLeaves_leafed hempty
  obtain ⟨u, hrun', -, -, hordered, -⟩ := tbLeavesResult s hempty
  obtain rfl := Host.Outcome.next.inj (hrun.symm.trans hrun')
  refine ⟨t, hrun, by rw [hframe]; rfl, ?_, hleafed, hordered⟩
  rw [hframe]
  exact { hr with }

theorem Ready.liveFreqSum_eq (h : Ready c ys s) (hl : Leafed s) : liveFreqSum s = ys.length :=
  hl.liveFreqSum_eq.trans h.toPrepared.freqSum

theorem Ready.mergeable (h : Ready c ys s) (hne : ys ≠ []) (hl : Leafed s) (ho : heapOrdered s) : Mergeable s where
  toBuildable := hl.buildable (by rw [h.liveFreqSum_eq hl]; exact List.length_pos_iff.2 hne)
  ordered := ho
  fits := by rw [h.liveFreqSum_eq hl, ← h.toLoaded.inLen]; exact s.inLen.isLt

theorem passes_tbBuild (hne : ys ≠ []) (h : Ready c ys s ∧ Leafed s ∧ heapOrdered s) :
    Passes (Planted c ys) s (exec .tbBuild s) := by
  obtain ⟨hr, hl, ho⟩ := h
  have hm := hr.mergeable hne hl ho
  obtain ⟨t, hrun, htree, -, hframe⟩ := tbBuild_tree hl.forest hm.toBuildable hm.fits
  obtain ⟨u, hrun', -, -, -, -, hnodes, -⟩ := tbBuildResult.1 s hm.nonempty hm.heapSize_le hm.room hm.older
  rw [exec_tbBuild, hrun, finish_ok] at hrun'
  obtain rfl := Host.Outcome.next.inj hrun'
  have hpresent : presentSyms t = presentSyms s := by rw [hframe]; rfl
  have hfreq : t.freqAt = s.freqAt := by rw [hframe]; rfl
  have hready : Ready c ys t := by rw [hframe]; exact { hr with }
  refine ⟨t, by rw [exec_tbBuild, hrun, finish_ok], by rw [hframe]; rfl, { hready with
    tree := by rwa [hpresent], leaves := fun k hk hk0 => ?_ }⟩
  rw [hfreq] at hk0 ⊢
  rw [← hl.nodeFreqAt k hk hk0]
  exact congrArg NodeRec.freq (hnodes k (by rw [hl.nextId]; exact hk))

/-! ### The paths under the root -/

/-- The leaves with the paths that their codes come from: R171, and "0" for a bare leaf (R172). -/
def rootPaths (s : State) : Option (List (Sym × List Bool)) :=
  if s.root.toNat < 256 then some [(s.root.setWidth 8, [false])] else treePaths s 256 s.root []

variable {ps : List (Sym × List Bool)}

theorem cwWalk_rootPaths (h : rootPaths s = some ps) :
    ∃ t, cwWalk s = .ok t ∧ (∀ k, t.codeAt k = boundTo ps k (s.codeAt k)) ∧ SameButWalk s t := by
  rw [rootPaths] at h
  split at h
  · next hleaf =>
    obtain rfl := Option.some.inj h
    have hsym : (s.root.setWidth 8).toNat = s.root.toNat := by rw [BitVec.toNat_setWidth]; omega
    exact ⟨_, cwWalk_leaf hleaf, fun k => by rw [State.codeAt_setCode, boundTo_singleton, hsym], rfl⟩
  · next hinner =>
    obtain ⟨t, hrun, ht⟩ := cwWalk_inner (Nat.le_of_not_lt hinner) h
    exact ⟨t, hrun, ht.codeAt, ht.frame⟩

theorem Tree.rootPaths {zs : List Sym} (h : Tree s s.root zs) :
    ∃ ps, rootPaths s = some ps ∧ ps.map Prod.fst = zs := by
  by_cases hleaf : s.root.toNat < 256
  · cases h with
    | node hn => exact absurd hleaf (Nat.not_lt.2 hn)
    | leaf => exact ⟨_, if_pos hleaf, rfl⟩
  · obtain ⟨ps, hps, hzs⟩ := h.treePaths (f := 256) (by decide) (by have := h.toNat_lt; omega) []
    exact ⟨ps, (if_neg hleaf).trans hps, hzs⟩

theorem TreesAlike.rootPaths_eq {s' : State} (h : TreesAlike s s') {zs : List Sym} (ht : Tree s s.root zs) :
    Proofs.rootPaths s' = Proofs.rootPaths s := by
  have hpaths := ht.treePaths_eq (fun k hk hk' => h.inner k hk (hk'.trans_lt h.rootOlder)) 256 []
  rw [Proofs.rootPaths, h.root, hpaths, Proofs.rootPaths]

/-- No path begins another, and none is empty. -/
theorem rootPaths_keys (h : rootPaths s = some ps) : PathsFree ps ∧ ∀ e ∈ ps, 1 ≤ e.2.length := by
  rw [rootPaths] at h
  split at h
  · obtain rfl := Option.some.inj h
    exact ⟨⟨by simp, List.pairwise_singleton _ _⟩, by simp⟩
  · next hinner =>
    refine ⟨pathsFree_of_treePaths h, fun e he => ?_⟩
    rcases treePaths_succ (f := 255) h with ⟨hleaf, -⟩ | ⟨-, -, l, r, hl, hr, rfl⟩
    · exact absurd hleaf hinner
    · have hchild : ∃ b, [b] <+: e.2 := (List.mem_append.1 he).elim
        (fun he => ⟨_, (treePaths_under hl e he).1⟩) fun he => ⟨_, (treePaths_under hr e he).1⟩
      obtain ⟨b, hpre⟩ := hchild
      exact hpre.length_le

/-! ### The codes -/

theorem codeCanonical_entryOf {p : List Bool} (hp : p.length ≤ 255) : codeCanonical (entryOf p) = true := by
  have hlen : (BitVec.ofNat 8 p.length).toNat = p.length := by rw [BitVec.toNat_ofNat]; omega
  have hform := codeCanonical_bitsOf (BitVec.ofNat 8 p.length) fun k => p.getD k false
  rwa [hlen] at hform

/-- What is bound to leaves is a leaf's record, or the old one. -/
theorem boundTo_cases (ps : List (Sym × List Bool)) (k : Nat) (old : CodeEntry) :
    boundTo ps k old = old ∨ ∃ e ∈ ps, boundTo ps k old = entryOf e.2 := by
  unfold boundTo
  split
  · next e he => exact .inr ⟨e, List.mem_reverse.1 (List.mem_of_find?_eq_some he), rfl⟩
  · exact .inl rfl

/-- The walk binds the cleared table to the paths under the root (R171, R172). -/
def WalkBinds (s t : State) : Prop :=
  ∃ ps, rootPaths s = some ps ∧ ∀ k, k < 256 → t.codeAt k = boundTo ps k CodeEntry.cleared

theorem passes_cwWalk (h : Planted c ys s) :
    Passes (fun t => Coding c ys t ∧ SameButWalk s t ∧ WalkBinds s t) s (exec .cwWalk s) := by
  obtain ⟨zs, htree, hperm⟩ := h.tree
  obtain ⟨ps, hps, hzs⟩ := htree.rootPaths
  obtain ⟨t, hrun, hcode, hframe⟩ := cwWalk_rootPaths hps
  obtain ⟨hfree, hpos⟩ := rootPaths_keys hps
  have hcode : ∀ k, k < 256 → t.codeAt k = boundTo ps k CodeEntry.cleared := fun k hk => by rw [hcode, h.codes k hk]
  have hnodup : (ps.map Prod.fst).Nodup := hzs ▸ hperm.nodup_iff.2 (nodup_presentSyms s)
  obtain ⟨hcodes, hvalid⟩ := hfree.codes hnodup hcode
  have hentry : ∀ k, k < 256 → t.codeAt k = CodeEntry.cleared ∨ ∃ e ∈ ps, t.codeAt k = entryOf e.2 := fun k hk => by
    rw [hcode k hk]
    exact boundTo_cases ps k _
  have hframe' : t = { s with code := t.code, wstk := t.wstk, wsp := t.wsp, path := t.path } := hframe
  refine ⟨t, by rw [exec_cwWalk, hrun, finish_ok], by rw [hframe']; rfl, ⟨⟨?loaded, ?inStore, ?counts, ?leaves,
    fun k hk => ?form, fun k hk hv => ?positive, hcodes, fun y hy => ?valid⟩, ?accN, ?pkLen, ?totalBits⟩,
    hframe, ps, hps, hcode⟩
  case loaded => rw [hframe']; exact { h with }
  case inStore => rw [hframe']; exact h.inStore
  case counts => rw [hframe']; exact h.counts
  case leaves => rw [hframe']; exact fun _ => h.leaves
  case form =>
    rcases hentry k hk with heq | ⟨e, he, heq⟩
    · rw [heq]; exact codeCanonical_cleared
    · rw [heq]; exact codeCanonical_entryOf (hfree.short e he)
  case positive =>
    rcases hentry k hk with heq | ⟨e, he, heq⟩
    · rw [heq] at hv; cases hv
    · have hlen := congrArg List.length (codeString_entryOf (hfree.short e he))
      rw [heq, ← length_codeString, hlen]
      exact hpos e he
  case valid =>
    obtain ⟨i, hi, rfl⟩ := exists_of_mem_buffer (h.buffer ▸ hy)
    obtain ⟨e, he, hsym⟩ := List.mem_map.1 (hzs.symm ▸ hperm.mem_iff.2 (h.toPrepared.present hi))
    rw [← hsym]
    exact hvalid e he
  case accN => rw [hframe']; exact h.accN
  case pkLen => rw [hframe']; exact h.pkLen
  case totalBits => rw [hframe']; exact h.totalBits

/-- An empty buffer has no codes (R118). -/
theorem Ready.coding_of_empty (h : Ready c [] s) : Coding c [] s where
  toLoaded := h.toLoaded
  inStore := h.inStore
  counts := h.counts
  leaves hne := absurd rfl hne
  form k hk := by rw [h.codes k hk]; exact codeCanonical_cleared
  positive k hk hv := by rw [h.codes k hk] at hv; cases hv
  free a ha _ _ _ hv := by rw [h.codes a ha] at hv; cases hv
  valid _ hy := absurd hy List.not_mem_nil
  accN := h.accN
  pkLen := h.pkLen
  totalBits := h.totalBits

end

end Sys2Proof.Proofs
end

section
/-! What the last operations of `ENCODE` leave: the packed codes of the buffer, and the codebook. -/

namespace Sys2Proof.Proofs

open Sys2Proof.Machine Sys2Proof.Safety

/-! ### An operation that passes or raises, as a test has it -/

/-- A step operation of a program, run from `s`, goes on with `P` if `p` holds, and raises the error otherwise. -/
structure PassesIf (p : Prop) (P : State → Prop) (e : ErrKind) (sub : BitVec 8) (s : State)
    (o : Host.Outcome State Fault Refusal) : Prop where
  passes : p → Passes P s o
  raises : ¬p → Raises e sub s o

theorem matches_of_passesIf {p p' : Prop} {P P' : State → Prop} {R : State → State → Prop} {e : ErrKind}
    {sub : BitVec 8} {s s' : State} {o o' : Host.Outcome State Fault Refusal} (h : PassesIf p P e sub s o)
    (h' : PassesIf p' P' e sub s' o') (hp : p' ↔ p) (hR : ∀ t t', P t → P' t' → R t t') : Matches R s s' o o' := by
  by_cases hpass : p
  · exact matches_of_passes (h.passes hpass) (h'.passes (hp.2 hpass)) hR
  · exact matches_of_raises (h.raises hpass) (h'.raises (mt hp.1 hpass))

/-! ### What packing, flushing and serializing leave

They write the packed bytes and the codebook, with their registers. -/

/-- The codes of the buffer are packed, their last bits still pending (R184). -/
structure Packed (c : Caps) (ys : List Sym) (s : State) : Prop extends Coded c ys s where
  bits : packedBits s = codeBits s ys
  accN : s.accN.toNat < 8
  pkLen_le : s.pkLen.toNat ≤ s.caps.pkCap.toNat
  totalBits : s.totalBits.toNat = (codeBits s ys).length

/-- `PK` holds the codes of the buffer, padded with zeros to full bytes (R185). -/
structure Flushed (c : Caps) (ys : List Sym) (s : State) : Prop extends Coded c ys s where
  pkLen : s.pkLen.toNat = bytesFor (codeBits s ys).length
  pkLen_le : s.pkLen.toNat ≤ s.caps.pkCap.toNat
  stream : ∀ p, p < 8 * s.pkLen.toNat → streamBit s p = (codeBits s ys).getD p false
  totalBits : s.totalBits.toNat = (codeBits s ys).length

/-- `CB` holds the codebook of the codes (R196). -/
structure Serialized (c : Caps) (ys : List Sym) (s : State) : Prop extends Flushed c ys s where
  codebook : storeBytes s .cb s.cbLen.toNat = codebookOf s.totalBits.toNat (codeEntries s)

/-- From `s` to `t` only the outputs and the packer's own state are written. -/
def SameButOutput (s t : State) : Prop :=
  t = { s with
    acc := t.acc, accN := t.accN, totalBits := t.totalBits, pkLen := t.pkLen, pkStore := t.pkStore,
    cbStore := t.cbStore, cbLen := t.cbLen, freeCount := t.freeCount }

section

variable {c : Caps} {ys : List Sym} {s t : State}

theorem SameButOutput.coded (h : SameButOutput s t) (hs : Coded c ys s) : Coded c ys t := by
  rw [SameButOutput] at h
  rw [h]
  exact { hs with }

theorem SameButOutput.codeAt (h : SameButOutput s t) : t.codeAt = s.codeAt := by
  rw [SameButOutput] at h
  rw [h]
  rfl

theorem SameButOutput.codeBits (h : SameButOutput s t) (ys : List Sym) : codeBits t ys = codeBits s ys :=
  codeBits_congr (fun k _ => by rw [h.codeAt]) ys

theorem SameButOutput.view (h : SameButOutput s t) : sequencerView t = sequencerView s := by
  rw [SameButOutput] at h
  rw [h]
  rfl

theorem Appends.sameButOutput {bs : List Bool} (h : Appends bs s t) : SameButOutput s t := by
  have hframe := h.frame
  rw [SameButOutput, hframe]

theorem codeEntries_congr (h : ∀ k, k < 256 → t.codeAt k = s.codeAt k) : codeEntries t = codeEntries s := by
  have hfilter : ((List.range 256).filter fun k => (t.codeAt k).valid) =
      (List.range 256).filter fun k => (s.codeAt k).valid :=
    List.filter_congr fun k hk => by rw [h k (List.mem_range.1 hk)]
  rw [codeEntries, hfilter, codeEntries]
  exact List.map_congr_left fun k hk => by rw [h k (List.mem_range.1 (List.mem_filter.1 hk).1)]

/-! ### The check of the buffer's length (R117) -/

theorem passesIf_seqChkin (h : Loaded c ys s) :
    PassesIf (ys.length ≤ c.inCap.toNat) (fun t => Loaded c ys t ∧ Checked ys.length t) .invalidInput 2 s
      (exec .seqChkin s) := by
  have hlen := h.inLen
  have hcap : s.caps.inCap.toNat = c.inCap.toNat := by rw [h.caps]
  constructor
  · exact fun hle => passes_check .invalidInput 2 (by omega) ⟨h, hlen, by omega⟩
  · intro hgt
    exact ⟨s, congrArg finish (if_pos (by omega)), rfl⟩

/-! ### Packing (R184) -/

theorem Coding.inputCodeBits_eq (h : Coding c ys s) : inputCodeBits s = codeBits s ys := by
  rw [Proofs.inputCodeBits_eq, h.buffer]

theorem passesIf_bpPack (h : Coding c ys s) :
    PassesIf ((codeBits s ys).length / 8 ≤ c.pkCap.toNat) (fun t => Packed c ys t ∧ SameButOutput s t)
      .storeOverflow 1 s (exec .bpPack s) := by
  have hbits := h.inputCodeBits_eq
  have haccN : s.accN.toNat = 0 := by rw [h.accN]; rfl
  have hpkLen : s.pkLen.toNat = 0 := by rw [h.pkLen]; rfl
  have htotal : s.totalBits.toNat = 0 := by rw [h.totalBits]; rfl
  have hcap : s.caps.pkCap.toNat = c.pkCap.toNat := by rw [h.caps]
  have hpacks := packs_bpPack h.inStore
    (fun i hi => h.valid _ (h.buffer ▸ byteAt_mem_buffer hi)) (by omega)
  rw [hbits] at hpacks
  have hfull : fullBytes s (codeBits s ys) = (codeBits s ys).length / 8 := by
    rw [fullBytes, haccN, hpkLen, Nat.zero_add]
  constructor
  · intro hroom
    obtain ⟨t, hrun, hst⟩ := hpacks.room (by omega)
    have hsame := hst.sameButOutput
    have hlen := length_codeBits_le s ys
    have hfit : (codeBits s ys).length < 2 ^ 64 := by have := h.inLen; have := s.inLen.isLt; omega
    have hcount := hst.count
    refine ⟨t, by rw [exec_bpPack, hrun, finish_ok], hsame.view,
      ⟨hsame.coded h.toCoded, ?bits, hst.accN, ?pkLen, ?total⟩, hsame⟩
    case bits =>
      have hnone : packedBits s = [] := List.eq_nil_of_length_eq_zero (by rw [length_packedBits]; omega)
      rw [hst.bits, hnone, List.nil_append, hsame.codeBits]
    case pkLen => rw [hst.caps]; omega
    case total =>
      rw [hsame.codeBits]
      have := (hst.total (by omega)).1
      omega
  · intro hfew
    obtain ⟨v, hrun, u, rfl, -, -, hframe⟩ := hpacks.full (by omega) (by omega)
    exact ⟨u, by rw [exec_bpPack, hrun, finish_raised], by rw [hframe]⟩

/-! ### Flushing (R185) -/

/-- The bits appended so far: those in `PK`, then those pending. -/
theorem getD_packedBits (s : State) (p : Nat) :
    (packedBits s).getD p false = if p < 8 * s.pkLen.toNat then streamBit s p else
      (decide (p - 8 * s.pkLen.toNat < s.accN.toNat) &&
        s.acc.getLsbD (s.accN.toNat - 1 - (p - 8 * s.pkLen.toNat))) := by
  have hlen : ((List.range (8 * s.pkLen.toNat)).map (streamBit s)).length = 8 * s.pkLen.toNat := by simp
  split
  · next hp => rw [packedBits, List.getD_append _ _ _ _ (by omega), getD_map_range, decide_eq_true hp, Bool.true_and]
  · next hp => rw [packedBits, List.getD_append_right _ _ _ _ (by omega), hlen, getD_map_range]

/-- The padded byte has the pending bits on top of zeros. -/
theorem getLsbD_paddedByte (h : s.accN.toNat ≤ 8) {k : Nat} (hk : k < 8) :
    (paddedByte s).getLsbD (7 - k) = (decide (k < s.accN.toNat) && s.acc.getLsbD (s.accN.toNat - 1 - k)) := by
  rw [paddedByte, if_pos h, BitVec.getLsbD_shiftLeft, decide_eq_true (show 7 - k < 8 by omega), Bool.true_and]
  by_cases hpending : k < s.accN.toNat
  · rw [decide_eq_false (by omega), decide_eq_true hpending]
    simp only [Bool.not_false, Bool.true_and]
    congr 1
    omega
  · rw [decide_eq_true (by omega), decide_eq_false hpending]
    simp

theorem streamBit_flushed (h : s.accN.toNat ≤ 8) {p : Nat} (hp : p < 8 * (s.pkLen.toNat + 1)) :
    streamBit (flushed (paddedByte s) s) p = (packedBits s).getD p false := by
  rw [getD_packedBits, streamBit, byteAt_flushed]
  by_cases hstored : p < 8 * s.pkLen.toNat
  · rw [if_neg (by omega), if_pos hstored, streamBit]
  · have hk : p % 8 = p - 8 * s.pkLen.toNat := by omega
    rw [if_pos (by omega), if_neg hstored, hk, getLsbD_paddedByte h (by omega)]

theorem Packed.count (h : Packed c ys s) : 8 * s.pkLen.toNat + s.accN.toNat = (codeBits s ys).length := by
  rw [← length_packedBits, h.bits]

theorem passesIf_bpFlush (h : Packed c ys s) :
    PassesIf (bytesFor (codeBits s ys).length ≤ c.pkCap.toNat) (fun t => Flushed c ys t ∧ SameButOutput s t)
      .storeOverflow 1 s (exec .bpFlush s) := by
  have hcount := h.count
  have haccN := h.accN
  have hlen := h.pkLen_le
  have hcap : s.caps.pkCap.toNat = c.pkCap.toNat := by rw [h.caps]
  have hbytes : bytesFor (codeBits s ys).length = ((codeBits s ys).length + 7) / 8 := rfl
  rw [exec_bpFlush]
  rcases Nat.eq_zero_or_pos s.accN.toNat with hnone | hpending
  · have hflushed : Flushed c ys s := ⟨h.toCoded, by omega, hlen,
      fun p hp => by rw [← h.bits, getD_packedBits, if_pos hp], h.totalBits⟩
    rw [bpFlush, if_pos (BitVec.eq_of_toNat_eq hnone), finish_ok]
    exact ⟨fun _ => ⟨s, rfl, rfl, hflushed, rfl⟩, fun hfew => absurd (by omega) hfew⟩
  · constructor
    · intro hroom
      have hroom : s.pkLen.toNat < s.caps.pkCap.toNat := by omega
      have hpk := toNat_pkLen_flushed hroom (paddedByte s)
      have hsame : SameButOutput s (flushed (paddedByte s) s) := rfl
      rw [bpFlush_room hpending hroom, if_pos haccN.le, finish_ok]
      refine ⟨_, rfl, rfl, ⟨hsame.coded h.toCoded, ?pkLen, hpk ▸ hroom, fun p hp => ?stream, h.totalBits⟩, hsame⟩
      case pkLen => rw [hpk, hsame.codeBits]; omega
      case stream =>
        rw [hpk] at hp
        rw [hsame.codeBits, ← h.bits, streamBit_flushed haccN.le hp]
    · intro hfew
      rw [bpFlush_full hpending (by omega), finish_raised]
      exact ⟨s, rfl, rfl⟩

/-- An empty buffer has nothing to pack (R118). -/
theorem Coding.flushed_of_empty (h : Coding c [] s) : Flushed c [] s := by
  have hpkLen : s.pkLen.toNat = 0 := by rw [h.pkLen]; rfl
  exact { h.toCoded with
    pkLen := by simp [hpkLen, codeBits, bytesFor]
    pkLen_le := by omega
    stream := fun p hp => by omega
    totalBits := by rw [h.totalBits]; rfl }

/-! ### Serializing (R196) -/

theorem passes_ccSerialize (h : Flushed c ys s) :
    Passes (fun t => Serialized c ys t ∧ SameButOutput s t) s (exec .ccSerialize s) := by
  obtain ⟨t, hrun, hbytes, -, -, hframe⟩ := ccSerializeResult s
  have hsame : SameButOutput s t := by rw [SameButOutput, hframe]
  have htotal : t.totalBits = s.totalBits := by rw [hframe]
  have hentries : codeEntries t = codeEntries s := codeEntries_congr fun k _ => by rw [hsame.codeAt]
  refine ⟨t, hrun, hsame.view, ⟨?_, by rw [htotal, hentries, hbytes]⟩, hsame⟩
  rw [hframe]
  exact { h with }

end

end Sys2Proof.Proofs
end

section
/-! Proof that `ENCODE` is deterministic (R128): its program on two blocks with the same buffer, step by step. -/

namespace Sys2Proof.Proofs

open Sys2Proof.Machine Sys2Proof.Safety

/-- The trees of a buffer that is not empty are alike, and the codes are equal. -/
structure Alike (ys : List Sym) (s s' : State) : Prop where
  trees : ys ≠ [] → TreesAlike s s'
  codes : ∀ k, k < 256 → s'.codeAt k = s.codeAt k

/-- Both states have `P`, and their trees and codes are alike. -/
def Twins (ys : List Sym) (P : State → Prop) (s s' : State) : Prop := Both P s s' ∧ Alike ys s s'

section

variable {c : Caps} {ys : List Sym} {s s' t t' : State} {P P' : State → Prop}

/-! ### The sequencer's own registers -/

theorem stable_loaded : Stable (Loaded c ys) := fun _ _ _ h => { h with }

theorem stable_ready : Stable (Ready c ys) := fun _ _ _ h => { h with }

theorem stable_planted : Stable (Planted c ys) := fun s k id h =>
  { stable_ready s k id h.toReady with
    tree := h.tree.imp fun _ ⟨htree, hperm⟩ => ⟨htree.of_nodeAt (b := 512) (fun _ _ => rfl) s.root.isLt, hperm⟩
    leaves := h.leaves }

theorem stable_coding : Stable (Coding c ys) := fun _ _ _ h => { h with }

theorem stable_packed : Stable (Packed c ys) := fun _ _ _ h => { h with }

theorem stable_flushed : Stable (Flushed c ys) := fun _ _ _ h => { h with }

theorem stable_serialized : Stable (Serialized c ys) := fun _ _ _ h => { h with }

theorem twinStable_treesAlike : TwinStable TreesAlike := fun _ _ _ _ _ _ h => { h with }

theorem Stable.twins (h : Stable P) : TwinStable (Twins ys P) :=
  h.both.and fun _ _ _ _ _ _ halike =>
    ⟨fun hne => twinStable_treesAlike _ _ _ _ _ _ (halike.trees hne), halike.codes⟩

/-! ### The operations on both blocks -/

theorem SameButOutput.treesAlike (h : SameButOutput s t) (h' : SameButOutput s' t') (ht : TreesAlike s s') :
    TreesAlike t t' := by
  rw [SameButOutput] at h h'
  rw [h, h']
  exact { ht with }

theorem SameButWalk.treesAlike (h : SameButWalk s t) (h' : SameButWalk s' t') (ht : TreesAlike s s') :
    TreesAlike t t' := by
  rw [SameButWalk] at h h'
  rw [h, h']
  exact { ht with }

/-- What writes only outputs keeps the blocks alike. -/
theorem Alike.of_output (h : Alike ys s s') (ht : P t ∧ SameButOutput s t) (ht' : P t' ∧ SameButOutput s' t') :
    Twins ys P t t' :=
  ⟨⟨ht.1, ht'.1⟩, fun hne => ht.2.treesAlike ht'.2 (h.trees hne), fun k hk => by
    rw [ht'.2.codeAt, h.codes k hk, ht.2.codeAt]⟩

theorem matches_tbBuild (hne : ys ≠ []) (h : Both (fun s => Ready c ys s ∧ Leafed s ∧ heapOrdered s) s s') :
    Matches (fun t t' => Both (Planted c ys) t t' ∧ TreesAlike t t') s s' (exec .tbBuild s) (exec .tbBuild s') := by
  obtain ⟨⟨hr, hl, ho⟩, hr', hl', ho'⟩ := h
  have hcounts : ∀ k, k < 256 → s'.freqAt k = s.freqAt k := fun k hk =>
    BitVec.eq_of_toNat_eq (by rw [hr'.counts k hk, hr.counts k hk, hr.toLoaded.countOf_eq hr'.toLoaded])
  obtain ⟨t, t', hrun, hrun', halike⟩ :=
    (hl.queuesAlike hl' hcounts).tbBuild (hr.mergeable hne hl ho) (hr'.mergeable hne hl' ho')
  obtain ⟨u, hpass, hview, hu⟩ := passes_tbBuild hne ⟨hr, hl, ho⟩
  obtain ⟨u', hpass', hview', hu'⟩ := passes_tbBuild hne ⟨hr', hl', ho'⟩
  rw [exec_tbBuild, hrun, finish_ok] at hpass
  rw [exec_tbBuild, hrun', finish_ok] at hpass'
  obtain rfl := Host.Outcome.next.inj hpass
  obtain rfl := Host.Outcome.next.inj hpass'
  rw [exec_tbBuild, exec_tbBuild, hrun, hrun']
  exact .passes ⟨⟨hu, hu'⟩, halike⟩ hview hview'

theorem matches_cwWalk (h : Both (Planted c ys) s s' ∧ TreesAlike s s') :
    Matches (Twins ys (Coding c ys)) s s' (exec .cwWalk s) (exec .cwWalk s') := by
  obtain ⟨⟨hs, hs'⟩, halike⟩ := h
  refine matches_of_passes (passes_cwWalk hs) (passes_cwWalk hs') fun t t' ht ht' => ?_
  obtain ⟨hcoding, hframe, ps, hps, hcodes⟩ := ht
  obtain ⟨hcoding', hframe', ps', hps', hcodes'⟩ := ht'
  obtain ⟨zs, htree, -⟩ := hs.tree
  rw [halike.rootPaths_eq htree, hps] at hps'
  obtain rfl := Option.some.inj hps'
  exact ⟨⟨hcoding, hcoding'⟩, fun _ => hframe.treesAlike hframe' halike, fun k hk => by
    rw [hcodes' k hk, hcodes k hk]⟩

theorem matches_bpPack (h : Twins ys (Coding c ys) s s') :
    Matches (Twins ys (Packed c ys)) s s' (exec .bpPack s) (exec .bpPack s') := by
  obtain ⟨⟨hs, hs'⟩, halike⟩ := h
  exact matches_of_passesIf (passesIf_bpPack hs) (passesIf_bpPack hs') (by rw [codeBits_congr halike.codes])
    fun t t' => halike.of_output

theorem matches_bpFlush (h : Twins ys (Packed c ys) s s') :
    Matches (Twins ys (Flushed c ys)) s s' (exec .bpFlush s) (exec .bpFlush s') := by
  obtain ⟨⟨hs, hs'⟩, halike⟩ := h
  exact matches_of_passesIf (passesIf_bpFlush hs) (passesIf_bpFlush hs') (by rw [codeBits_congr halike.codes])
    fun t t' => halike.of_output

theorem matches_ccSerialize (h : Twins ys (Flushed c ys) s s') :
    Matches (Twins ys (Serialized c ys)) s s' (exec .ccSerialize s) (exec .ccSerialize s') := by
  obtain ⟨⟨hs, hs'⟩, halike⟩ := h
  exact matches_of_passes (passes_ccSerialize hs) (passes_ccSerialize hs') fun t t' => halike.of_output

/-- An operation that does the same on each block by itself. -/
theorem TwinLeads.stepBoth {cmd : BitVec 2} {k : BitVec 4} {id : BitVec 8} {i : Instr} {n : Nat}
    {Q : State → State → Prop} (hid : programUop cmd k = some id) (hi : decodeUop id 0 = .ok i)
    (hw : writesStep i = false) (hP : Stable P) (hP' : Stable P') (hop : ∀ s, P s → Passes P' s (exec i s))
    (hrest : TwinLeads cmd (k + 1) (Both P') n Q) : TwinLeads cmd k (Both P) (n + 1) Q :=
  .step hid hi hw hP.both hP'.both
    (fun s s' h => matches_of_passes (hop s h.1) (hop s' h.2) fun _ _ ht ht' => ⟨ht, ht'⟩) hrest

/-! ### The program of R113 on both blocks -/

/-- Steps 12 and 13, to which `SEQ.SKIPEMPTY` jumps; `m` more steps do nothing. -/
theorem twinLeads_serialize (m : Nat) :
    TwinLeads 1#2 12#4 (Twins ys (Flushed c ys)) (m + 2) (Twins ys (Serialized c ys)) :=
  .step rfl rfl rfl stable_flushed.twins stable_serialized.twins (fun _ _ h => matches_ccSerialize h)
    (twinLeads_seqEnd rfl (fun _ _ ⟨⟨h, h'⟩, halike⟩ =>
      ⟨⟨{ h with }, { h' with }⟩, fun hne => { halike.trees hne with }, halike.codes⟩) m)

/-- Steps 6 to 13, for a buffer that is not empty. -/
theorem twinLeads_build (hne : ys ≠ []) :
    TwinLeads 1#2 6#4 (Both (Ready c ys)) 8 (Twins ys (Serialized c ys)) := by
  have hempty : Stable fun s => s.heapSize = 0#9 := fun _ _ _ h => h
  have hordered : Stable heapOrdered := fun _ _ _ h => h
  have hleafed : Stable fun s => Ready c ys s ∧ Leafed s ∧ heapOrdered s :=
    stable_ready.and (stable_leafed.and hordered)
  refine .stepBoth (P' := fun s => Ready c ys s ∧ s.heapSize = 0#9) rfl rfl rfl stable_ready (stable_ready.and hempty)
    (fun s h => ⟨_, rfl, rfl, { h with }, rfl⟩) ?_
  refine .stepBoth rfl rfl rfl (stable_ready.and hempty) hleafed (fun s h => passes_tbLeaves h) ?_
  refine .step rfl rfl rfl hleafed.both (stable_planted.both.and twinStable_treesAlike)
    (fun s s' h => matches_tbBuild hne h) ?_
  refine .step rfl rfl rfl (stable_planted.both.and twinStable_treesAlike) stable_coding.twins
    (fun s s' h => matches_cwWalk h) ?_
  refine .step rfl rfl rfl stable_coding.twins stable_packed.twins (fun s s' h => matches_bpPack h) ?_
  refine .step rfl rfl rfl stable_packed.twins stable_flushed.twins (fun s s' h => matches_bpFlush h) ?_
  exact twinLeads_serialize 0

/-- `ENCODE` of the buffer `ys`, on two blocks of the platform `c`. -/
theorem twinLeads_encode (c : Caps) (ys : List Sym) :
    TwinLeads 1#2 0#4 (Both (Loaded c ys)) 14 (Twins ys (Serialized c ys)) := by
  have hchecked : Stable fun s => Loaded c ys s ∧ Checked ys.length s := stable_loaded.and (stable_checked _)
  have hfreq : Stable fun s => ∀ k, k < 256 → s.freqAt k = 0#32 := fun _ _ _ h => h
  have hcode : Stable fun s => ∀ k, k < 256 → s.codeAt k = CodeEntry.cleared := fun _ _ _ h => h
  have hcounted : Stable fun s => Loaded c ys s ∧ Counted ys.length s := stable_loaded.and (stable_counted _)
  refine .step rfl rfl rfl stable_loaded.both hchecked.both (fun s s' h =>
    matches_of_passesIf (passesIf_seqChkin h.1) (passesIf_seqChkin h.2) Iff.rfl fun _ _ ht ht' => ⟨ht, ht'⟩) ?_
  refine .stepBoth (P' := fun s => Loaded c ys s ∧ Checked ys.length s ∧ ∀ k, k < 256 → s.freqAt k = 0#32) rfl rfl rfl
    hchecked (stable_loaded.and ((stable_checked _).and hfreq))
    (fun s h => ⟨clearCounts s, rfl, rfl, { h.1 with }, { h.2 with }, fun _ => freqAt_cleared s⟩) ?_
  refine .stepBoth rfl rfl rfl (stable_loaded.and ((stable_checked _).and hfreq)) hcounted
    (fun s h => passes_fcCount h) ?_
  refine .stepBoth
    (P' := fun s => (Loaded c ys s ∧ Counted ys.length s) ∧ ∀ k, k < 256 → s.codeAt k = CodeEntry.cleared)
    rfl rfl rfl hcounted (hcounted.and hcode)
    (fun s h => ⟨clearCodes s, rfl, rfl, ⟨{ h.1 with }, { h.2 with }⟩, fun _ => codeAt_cleared s⟩) ?_
  refine .stepBoth rfl rfl rfl (hcounted.and hcode) stable_ready
    (fun s h => ⟨clearPacker s, rfl, rfl, { h.1.1, h.1.2 with
      codes := h.2, accN := rfl, pkLen := rfl, totalBits := rfl }⟩) ?_
  refine twinLeads_seqSkipempty stable_ready.both (fun s s' h => h.1.toLoaded.inLen_eq h.2.toLoaded) ?empty ?build
  case empty =>
    intro s s' hs hs' ⟨⟨h, h'⟩, h0⟩
    obtain rfl : ys = [] := List.eq_nil_of_length_eq_zero (by rw [← h.toLoaded.inLen, h0]; rfl)
    exact twinLeads_serialize 6 s s' hs hs' ⟨⟨h.coding_of_empty.flushed_of_empty, h'.coding_of_empty.flushed_of_empty⟩,
      fun hne => absurd rfl hne, fun k hk => (h'.codes k hk).trans (h.codes k hk).symm⟩
  case build =>
    intro s s' hs hs' ⟨h, h0⟩
    have hne : ys ≠ [] := fun hnil => h0 (BitVec.eq_of_toNat_eq (by rw [h.1.toLoaded.inLen, hnil]; rfl))
    exact twinLeads_build hne s s' hs hs' h

/-! ### The results -/

/-- On an idle block `ENCODE` starts its program (R110). -/
theorem eq_startCommand_of_encode (hidle : s.busy = false) (h : exec .encode s = .next t) : t = startCommand 1#2 s := by
  simpa [exec, execEncode, hidle] using h.symm

/-- The stream bits are the bits of `PK`, each byte's top bit first (R94). -/
theorem byteAt_pk_eq {n : Nat} (h : ∀ p, p < 8 * n → streamBit s' p = streamBit s p) {a : Nat} (ha : a < n) :
    s'.byteAt .pk a = s.byteAt .pk a := by
  refine BitVec.eq_of_getLsbD_eq fun i hi => ?_
  have hbit := h (8 * a + (7 - i)) (by omega)
  have hbyte : (8 * a + (7 - i)) / 8 = a := by omega
  have hpos : 7 - (8 * a + (7 - i)) % 8 = i := by omega
  rwa [streamBit, streamBit, hbyte, hpos] at hbit

/-- What a block holds after `ENCODE` is a function of the buffer and its codes. -/
theorem Twins.outputs (h : Twins ys (Serialized c ys) s s') :
    s'.cbLen = s.cbLen ∧ s'.pkLen = s.pkLen ∧ s'.totalBits = s.totalBits ∧
      (∀ a, a < s.cbLen.toNat → s'.byteAt .cb a = s.byteAt .cb a) ∧
      ∀ a, a < s.pkLen.toNat → s'.byteAt .pk a = s.byteAt .pk a := by
  obtain ⟨⟨hs, hs'⟩, halike⟩ := h
  have hbits : codeBits s' ys = codeBits s ys := codeBits_congr halike.codes ys
  have htotal : s'.totalBits = s.totalBits :=
    BitVec.eq_of_toNat_eq (by rw [hs'.totalBits, hbits, hs.totalBits])
  have hpkLen : s'.pkLen = s.pkLen := BitVec.eq_of_toNat_eq (by rw [hs'.pkLen, hbits, hs.pkLen])
  have hcb : storeBytes s' .cb s'.cbLen.toNat = storeBytes s .cb s.cbLen.toNat := by
    rw [hs'.codebook, htotal, codeEntries_congr halike.codes, hs.codebook]
  have hcbLen : s'.cbLen = s.cbLen := BitVec.eq_of_toNat_eq (by simpa [storeBytes] using congrArg List.length hcb)
  refine ⟨hcbLen, hpkLen, htotal, fun a ha => ?cb, fun a ha => byteAt_pk_eq (n := s.pkLen.toNat) (fun p hp => ?pk) ha⟩
  case cb =>
    rw [hcbLen] at hcb
    exact List.map_inj_left.1 hcb a (List.mem_range.2 ha)
  case pk => rw [hs'.stream p (by rwa [hpkLen]), hbits, hs.stream p hp]

end

/-- Settles O58: `twinLeads_encode` runs the program on both blocks, and what it leaves alike determines the results. -/
theorem encodeDeterministic : Obligations.EncodeDeterministic := by
  intro s s' u u' t t' hidle hturns hidle' hturns' hcaps hlen hbytes hissue hrun hissue' hrun' hok
  have hbuffer : buffer s' = buffer s := by
    rw [buffer, hlen, buffer]
    exact List.map_congr_left fun i hi => hbytes i (List.mem_range.1 hi)
  obtain rfl := eq_startCommand_of_encode hidle hissue
  obtain rfl := eq_startCommand_of_encode hidle' hissue'
  obtain ⟨v, v', hv, hv', hends⟩ := twinLeads_encode s.caps (buffer s) _ _ (running_startCommand hturns 1#2)
    (running_startCommand hturns' 1#2) ⟨⟨rfl, rfl⟩, hcaps, hbuffer⟩
  obtain rfl := Host.Outcome.next.inj (hrun.symm.trans hv)
  obtain rfl := Host.Outcome.next.inj (hrun'.symm.trans hv')
  obtain ⟨hok', htwins⟩ := hends hok
  obtain ⟨hcbLen, hpkLen, htotal, hcb, hpk⟩ := htwins.outputs
  obtain ⟨⟨hs, hs'⟩, halike⟩ := htwins
  have hfreq : ∀ k, k < 256 → t'.freqAt k = t.freqAt k := fun k hk =>
    BitVec.eq_of_toNat_eq (by rw [hs'.counts k hk, hs.counts k hk, hs.toLoaded.countOf_eq hs'.toLoaded])
  refine ⟨hok', hcbLen, hpkLen, htotal, fun k hk => ⟨halike.codes k hk, hfreq k hk⟩, hcb, hpk, fun hpos => ?_⟩
  have hne : buffer s ≠ [] := List.ne_nil_of_length_pos (by rwa [length_buffer])
  have htrees := halike.trees hne
  refine ⟨htrees.root, htrees.nextId, htrees.heapSize, fun k hk h0 => ?_, htrees.inner⟩
  rw [hs'.leaves hne k hk (by rwa [hfreq k hk]), hs.leaves hne k hk h0, hfreq k hk]

end Sys2Proof.Proofs
end

section
/-! Proof that `DECODE` gives back what `ENCODE` was given (R125). -/

namespace Sys2Proof.Proofs

open Sys2Proof.Machine Sys2Proof.Safety

/-- The table of keys holds the codes (R129). -/
structure Restored (c : Caps) (ys : List Sym) (s : State) : Prop extends Serialized c ys s where
  dcb : ∀ k, k < 256 → s.dcbAt k = s.codeAt k
  dcbCnt : s.dcbCnt.toNat = (codeEntries s).length

/-- Nothing has been read from the packed bytes (R220). -/
structure Scanning (c : Caps) (ys : List Sym) (s : State) : Prop extends Restored c ys s where
  bitPos : s.bitPos = 0#64
  candLen : s.candLen = 0#8
  cand : s.cand = 0#255
  outLen : s.outLen = 0#64

/-- The output is the buffer. -/
structure Decoded (ys : List Sym) (s : State) : Prop where
  outLen : s.outLen.toNat = ys.length
  bytes : storeBytes s .out ys.length = ys

section

variable {c : Caps} {ys : List Sym} {s : State}

theorem stable_restored : Stable (Restored c ys) := fun _ _ _ h => { h with }

theorem stable_scanning : Stable (Scanning c ys) := fun _ _ _ h => { h with }

theorem stable_decoded : Stable (Decoded ys) := fun _ _ _ h => { h with }

/-! ### The operations of `DECODE` -/

theorem passes_ccDeserialize (h : Serialized c ys s) : Passes (Restored c ys) s (exec .ccDeserialize s) := by
  obtain ⟨t, hrun, hdcb, hcnt, hframe⟩ := ccDeserialize_codeEntries h.form h.positive h.codebook
  have hcode : t.codeAt = s.codeAt := by rw [hframe]; rfl
  have hserialized : Serialized c ys t := by rw [hframe]; exact { h with }
  exact ⟨t, by rw [exec_ccDeserialize, hrun, finish_ok], by rw [hframe]; rfl, { hserialized with
    dcb := fun k hk => by rw [hdcb k hk, hcode]
    dcbCnt := by rw [hcnt, codeEntries_congr fun k _ => by rw [hcode]] }⟩

theorem passes_ccCheck (h : Restored c ys s) : Passes (Restored c ys) s (exec .ccCheck s) :=
  ⟨s, (ccCheckResult s).1 (keysPrefixFree_of_codes h.dcb h.free), rfl, h⟩

/-- Where bytes are packed there is a symbol, so the codebook has an entry. -/
theorem Restored.dcbCnt_ne_zero (h : Restored c ys s) (hpk : s.pkLen ≠ 0#64) : s.dcbCnt ≠ 0#9 := by
  intro h0
  cases ys with
  | nil => exact hpk (BitVec.eq_of_toNat_eq (by simp [h.pkLen, codeBits, bytesFor]))
  | cons y zs =>
    have hmem : (y, codeString (s.codeAt y.toNat)) ∈ codeEntries s :=
      mem_codeEntries.2 ⟨h.valid y List.mem_cons_self, rfl⟩
    have hpos := List.length_pos_of_mem hmem
    rw [← h.dcbCnt, h0] at hpos
    exact absurd hpos (by decide)

/-- The packed bits are the keys of the buffer's symbols. -/
theorem Restored.streamBits (h : Restored c ys s) :
    (List.range s.totalBits.toNat).map (streamBit s) = ys.flatMap fun y => codeString (s.dcbAt y.toNat) := by
  have hkeys : (ys.flatMap fun y => codeString (s.dcbAt y.toNat)) = codeBits s ys :=
    List.flatMap_congr fun y _ => by rw [h.dcb _ y.isLt]
  have hlen : s.totalBits.toNat = (codeBits s ys).length := h.totalBits
  have hfull : (codeBits s ys).length ≤ 8 * s.pkLen.toNat := by rw [h.pkLen, bytesFor]; omega
  rw [hkeys]
  refine List.ext_getElem (by simp [hlen]) fun p hp hp' => ?_
  rw [List.getElem_map, List.getElem_range, h.stream p (by omega), List.getD_eq_getElem _ _ hp']

theorem passes_sqRun (hout : ys.length ≤ c.outCap.toNat) (h : Scanning c ys s) :
    Passes (Decoded ys) s (exec .sqRun s) := by
  have hfits : s.totalBits.toNat ≤ 8 * s.pkLen.toNat := by rw [h.totalBits, h.pkLen, bytesFor]; omega
  have hkeys : ∀ y ∈ ys, (s.dcbAt y.toNat).valid = true ∧ 1 ≤ (s.dcbAt y.toNat).len.toNat := fun y hy => by
    rw [h.dcb _ y.isLt]
    exact ⟨h.valid y hy, h.positive _ y.isLt (h.valid y hy)⟩
  obtain ⟨t, hrun, hbytes, hlen, -, -, -, -, hframe⟩ := sqRunDecodes s ys h.bitPos h.candLen h.cand h.outLen hfits
    h.pkLen_le (by rwa [h.caps]) (keysPrefixFree_of_codes h.dcb h.free) hkeys h.streamBits
  exact ⟨t, hrun, by rw [hframe]; rfl, hlen, hbytes⟩

/-- The program of R114 on what `ENCODE` left. -/
theorem reaches_decode (hout : ys.length ≤ c.outCap.toNat) :
    Reaches 2#2 0#4 (Serialized c ys) 7 (Decoded ys) := by
  refine .step rfl rfl rfl stable_serialized stable_serialized
    (fun s h => passes_check .invalidInput 3 (Nat.not_lt.2 h.pkLen_le) h) ?_
  refine .step rfl rfl rfl stable_serialized stable_restored (fun s h => passes_ccDeserialize h) ?_
  refine .step rfl rfl rfl stable_restored stable_restored (fun s h => passes_ccCheck h) ?_
  refine .step rfl rfl rfl stable_restored stable_restored
    (fun s h => passes_check .invalidInput 1 (fun ⟨h0, hpk⟩ => h.dcbCnt_ne_zero hpk h0) h) ?_
  refine .step (P' := Scanning c ys) rfl rfl rfl stable_restored stable_scanning
    (fun s h => ⟨_, rfl, rfl, { h with bitPos := rfl, candLen := rfl, cand := rfl, outLen := rfl }⟩) ?_
  refine .step rfl rfl rfl stable_scanning stable_decoded (fun s h => passes_sqRun hout h) ?_
  exact reaches_seqEnd rfl (fun _ _ h => h) 0

end

/-- What `ENCODE` leaves where it ends without error; the block is its own twin. -/
theorem serialized_of_encode {s t : State} (hturns : s.turns = []) (hrun : runFor 14 (startCommand 1#2 s) = .next t)
    (hok : t.err = false) : Serialized s.caps (buffer s) t := by
  have hstart := running_startCommand hturns 1#2
  obtain ⟨u, u', hu, -, hends⟩ := twinLeads_encode s.caps (buffer s) _ _ hstart hstart ⟨⟨rfl, rfl⟩, rfl, rfl⟩
  obtain rfl := Host.Outcome.next.inj (hrun.symm.trans hu)
  exact (hends hok).2.1.1

/-- Settles O60: `ENCODE` leaves a `Serialized` block, and `reaches_decode` runs `DECODE` on it. -/
theorem encodeThenDecode : Obligations.EncodeThenDecode := by
  intro s u v hidle hturns hissue hrun hok hout
  obtain rfl := eq_startCommand_of_encode hidle hissue
  obtain ⟨v', hv, hended⟩ := leads_encode s.inLen.toNat _ (running_startCommand hturns 1#2) rfl
  obtain rfl := Host.Outcome.next.inj (hrun.symm.trans hv)
  have hserialized := serialized_of_encode hturns hrun hok
  obtain ⟨t, hdecode, ⟨k, ht⟩, hdecoded⟩ := reaches_decode (by rwa [length_buffer]) _
    (running_startCommand hended.turns 2#2) { hserialized with }
  have hlen := hdecoded.outLen
  have hbytes := hdecoded.bytes
  rw [length_buffer] at hlen hbytes
  exact ⟨startCommand 2#2 v, ended t, by simp [exec, execDecode, hended.busy], hdecode, rfl, rfl, ht.err, hlen,
    fun i hi => List.map_inj_left.1 hbytes i (List.mem_range.2 hi)⟩

end Sys2Proof.Proofs
end
